-- ==== Sys2Proof/Word.lean ====
section
/-!
DEFINITION. The word types of the module (spec/00_scope.md R4, R5) and nothing else.
-/

namespace Sys2Proof

/-- One byte (R5). -/
abbrev Byte := BitVec 8

/-- A 64-bit register, channel word or memory word (R14). -/
abbrev Word := BitVec 64

/-- A 32-bit instruction word (R213). -/
abbrev IWord := BitVec 32

/-- The 256 data bits of a token (R43). -/
abbrev TokData := BitVec 256

end Sys2Proof
end

