-- ==== Sys2Proof/Machine/Bits.lean ====
section
/-!
DEFINITION. Bit fields, sign extension and byte order (spec/00_scope.md R4, R5): the helpers that
the decoder, the operand words and the memory operations share.
-/

namespace Sys2Proof.Machine

/-- Bits hi down to lo of a number (R4). -/
def field (w hi lo : Nat) : Nat := w / 2 ^ lo % 2 ^ (hi + 1 - lo)

/-- Bit n of a number. -/
def bitAt (w n : Nat) : Bool := w / 2 ^ n % 2 == 1

/-- The number of a Bool. -/
def bnat (b : Bool) : Nat := if b then 1 else 0

/-- The low w bits of n read as a two's-complement integer (R146). -/
def signedOf (w n : Nat) : Int :=
  let m := n % 2 ^ w
  if m < 2 ^ (w - 1) then (m : Int) else (m : Int) - 2 ^ w

/-- The pattern of an integer at w bits, modulo 2^w. -/
def patternOf (w : Nat) (x : Int) : Nat := (x % (2 ^ w : Int)).toNat

/-- The 64-bit word of an integer, modulo 2^64. -/
def wordOfInt (x : Int) : Word := BitVec.ofNat 64 (patternOf 64 x)

/-- The word of a number, modulo 2^64. -/
def wordOf (n : Nat) : Word := BitVec.ofNat 64 n

/-- Sign extension of the low w bits to 64 bits. -/
def sext (w n : Nat) : Word := wordOfInt (signedOf w n)

/-- The number held by bytes, lowest address first (R5, little-endian). -/
def natOfBytes : List Byte → Nat
  | [] => 0
  | b :: bs => b.toNat + 256 * natOfBytes bs

/-- The n low bytes of a number, lowest address first (R5). -/
def bytesOfNat : Nat → Nat → List Byte
  | 0, _ => []
  | n + 1, v => BitVec.ofNat 8 v :: bytesOfNat n (v / 256)

/-- canon(v): bits [63:56] replaced by copies of bit 55 (R246). -/
def canon (v : Word) : Word := sext 56 v.toNat

/-- An address is canonical when bits [63:56] equal bit 55 (R86). -/
def isCanonical (v : Word) : Bool := canon v == v

/-- `List.range` by structural recursion from lo, n numbers. -/
def natRange : Nat → Nat → List Nat
  | _, 0 => []
  | lo, n + 1 => lo :: natRange (lo + 1) n

end Sys2Proof.Machine
end

