-- ==== Sys2Proof/Syntax.lean ====
section
/-!
DEFINITION. The steps of the module as syntax: one constructor of `Instr` for each row of
spec/opcode_table.json. Field types are those of spec/12_encodings.md (R213-R232), R183, R291.
-/

namespace Sys2Proof

/-- Predicate mode of a slot (R216); code 0b11 is reserved. -/
inductive Pred where
  | always | onTrue | onFalse
  deriving DecidableEq, Repr

/-- A target field: kind and index (R203, R217). -/
inductive Target where
  | none
  | left (n : Fin 64)
  | right (n : Fin 64)
  | pred (n : Fin 64)
  | reg (n : Fin 64)
  | chan (n : Fin 64)
  | third (n : Fin 64)
  deriving DecidableEq, Repr

/-- Integer type code TY (R218). -/
inductive Ty where
  | s8 | s16 | s32 | s64 | n8 | n16 | n32 | n64
  deriving DecidableEq, Repr

/-- Size code SIZE of format M (R218). -/
inductive Size where
  | s8 | s16 | s32 | s64 | n8 | n16 | n32 | b128
  deriving DecidableEq, Repr

/-- Condition CC of CMP and TST (R221). -/
inductive Cond where
  | eq | ne | lt | le | gt | ge
  deriving DecidableEq, Repr

/-- Condition of FCMP and VCMP (R222, R303). -/
inductive FCond where
  | eq | ne | lt | le | gt | ge | unordered | ordered
  deriving DecidableEq, Repr

/-- Scalar float type FT (R221). -/
inductive FTy where
  | f32 | f16 | bf16
  deriving DecidableEq, Repr

/-- Rounding codes 0-4 of a block instruction (R150, R254). -/
inductive Rnd where
  | rne | rtz | rdn | rup | rna
  deriving DecidableEq, Repr

/-- Saturation codes of a block instruction (R221): none or finite. -/
inductive FSat where
  | none | finite
  deriving DecidableEq, Repr

/-- The other side of FCVT: an integer type or a float type (R222). -/
inductive CvtSide where
  | int (t : Ty)
  | flt (f : FTy)
  deriving DecidableEq, Repr

/-- Cache hint (R219). -/
inductive Hint where
  | none | keep | ef | nt | wc
  deriving DecidableEq, Repr

/-- The twelve scopes of R166, in code order 1 to 12. -/
inductive Scope where
  | elem | tile | sect | clus | die | ptn | dev | host | node | pod | annex | sys
  deriving DecidableEq, Repr

/-- Order of a load (R219): plain with a hint, acq or acqrel. -/
inductive LdOrd where
  | plain (h : Hint)
  | acq (s : Scope)
  | acqrel (s : Scope)
  deriving DecidableEq, Repr

/-- Order of a store (R219): plain with a hint, rel or acqrel. -/
inductive StOrd where
  | plain (h : Hint)
  | rel (s : Scope)
  | acqrel (s : Scope)
  deriving DecidableEq, Repr

/-- Order of FNC (R272). -/
inductive FenceOrd where
  | acq | rel | acqrel
  deriving DecidableEq, Repr

/-- AMO operation (R223). -/
inductive AOp where
  | add | and | or | xor | smin | smax | umin | umax | swap
  deriving DecidableEq, Repr

/-- Merge mode (R106, R224). -/
inductive MMode where
  | ins | rpl | add | min | max | orb
  deriving DecidableEq, Repr

/-- The system registers R225 assigns. -/
inductive Csr where
  | time | fsr | fcost | tid | ptn | prio | plvl | dlgt | mbxn | pepc | ssc0 | ssc1 | s1rt | alrm
  deriving DecidableEq, Repr

/-- The element configuration word of R229 without its EOP, which the constructor stands for. -/
structure ElemCfg where
  ofmt : BitVec 4
  ifmt : BitVec 4
  afmt : BitVec 4
  rnd  : BitVec 3
  satm : BitVec 2
  side : BitVec 1
  na   : BitVec 1
  nb   : BitVec 1
  nc   : BitVec 1
  pinv : BitVec 1
  rsv  : BitVec 2
  imm  : BitVec 32
  sela : BitVec 4
  selb : BitVec 4
  selc : BitVec 4
  selp : BitVec 4
  dst0 : BitVec 8
  dst1 : BitVec 8
  dst2 : BitVec 8
  stpl : BitVec 3
  ops  : BitVec 21
  deriving DecidableEq, Repr

/-- A Folio node entry of R126 without its NOP: declared width, first source and the rest. -/
structure FolioNode where
  wid  : BitVec 2
  rsv  : BitVec 2
  sa   : BitVec 12
  rest : BitVec 44
  deriving DecidableEq, Repr

/-- A near-bank node word of R291 without its NOPC. -/
structure NbNode where
  nft : BitVec 1
  dan : BitVec 4
  dap : BitVec 1
  dav : BitVec 1
  dbn : BitVec 4
  dbp : BitVec 1
  dbv : BitVec 1
  ri  : BitVec 1
  rsv : BitVec 14
  imm : BitVec 32
  deriving DecidableEq, Repr

/-- A command queue: a ring of a partition (numbered as RING of R185) or the module queue (R186). -/
inductive QueueRef where
  | part (p ring : Nat)
  | module
  deriving DecidableEq, Repr

/-- A command entry of R182 without its OPC. -/
structure CmdEntry where
  seq  : BitVec 32
  rsv1 : BitVec 6
  ser  : BitVec 1
  irqc : BitVec 1
  pri  : BitVec 8
  rsv0 : BitVec 8
  w1   : Word
  w2   : Word
  w3   : Word
  w4   : Word
  w5   : Word
  w6   : Word
  tag  : Word
  deriving DecidableEq, Repr

/-- The steps of LN-GN5-1536, one constructor for each row of spec/opcode_table.json, in its order. -/
inductive Instr where
  -- integer family, R241 (format T; `sat` is OV)
  | add (p : Pred) (ty : Ty) (sat : Bool) (ta tb : Target)
  | sub (p : Pred) (ty : Ty) (sat : Bool) (ta tb : Target)
  | mul (p : Pred) (ty : Ty) (sat : Bool) (ta tb : Target)
  | mulh (p : Pred) (ty : Ty) (ta tb : Target)
  | div (p : Pred) (ty : Ty) (sat : Bool) (ta tb : Target)
  | rem (p : Pred) (ty : Ty) (ta tb : Target)
  | and (p : Pred) (ty : Ty) (ta tb : Target)
  | or (p : Pred) (ty : Ty) (ta tb : Target)
  | xor (p : Pred) (ty : Ty) (ta tb : Target)
  | andn (p : Pred) (ty : Ty) (ta tb : Target)
  | shl (p : Pred) (ty : Ty) (sat : Bool) (ta tb : Target)
  | shr (p : Pred) (ty : Ty) (ta tb : Target)
  | sar (p : Pred) (ty : Ty) (ta tb : Target)
  | rol (p : Pred) (ty : Ty) (ta tb : Target)
  | min (p : Pred) (ty : Ty) (ta tb : Target)
  | max (p : Pred) (ty : Ty) (ta tb : Target)
  | clz (p : Pred) (ty : Ty) (ta tb : Target)
  | ctz (p : Pred) (ty : Ty) (ta tb : Target)
  | popc (p : Pred) (ty : Ty) (ta tb : Target)
  | ext (p : Pred) (ty : Ty) (ta tb : Target)
  | bswap (p : Pred) (ty : Ty) (ta tb : Target)
  -- immediate family, R243
  | addi (p : Pred) (k : BitVec 14) (ta : Target)
  | andi (p : Pred) (k : BitVec 14) (ta : Target)
  | ori (p : Pred) (k : BitVec 14) (ta : Target)
  | xori (p : Pred) (k : BitVec 14) (ta : Target)
  | shli (p : Pred) (u : Fin 64) (ta : Target)
  | shri (p : Pred) (u : Fin 64) (ta : Target)
  | sari (p : Pred) (u : Fin 64) (ta : Target)
  | muli (p : Pred) (k : BitVec 14) (ta : Target)
  | cst (p : Pred) (k : BitVec 14) (ta : Target)
  | csth (p : Pred) (k : BitVec 14) (ta : Target)
  -- compare, select, address, data, R244-R248
  | cmp (p : Pred) (ty : Ty) (cc : Cond) (ta : Target)
  | tst (p : Pred) (ty : Ty) (cc : Cond) (ta : Target)
  | sel (p : Pred) (ty : Ty) (ta tb : Target)
  | lea (p : Pred) (k : BitVec 14) (ta : Target)
  | addp (p : Pred) (ta tb : Target)
  | algn (p : Pred) (dn : Bool) (m : Fin 64) (ta : Target)
  | rd (p : Pred) (g : Fin 64) (ta : Target)
  | mov (p : Pred) (ta tb : Target)
  | recv (p : Pred) (ch : Fin 64) (ta : Target)
  | peek (p : Pred) (mk : Bool) (ch : Fin 64) (ta : Target)
  | nul (p : Pred) (ta tb : Target)
  -- exits, R249-R253
  | br (p : Pred) (e : Fin 8) (off : BitVec 20)
  | brx (p : Pred) (e : Fin 8)
  | call (p : Pred) (e : Fin 8) (off : BitVec 20)
  | ret (p : Pred) (e : Fin 8)
  | wait (p : Pred) (e : Fin 8)
  | yld (p : Pred) (e : Fin 8)
  | halt (p : Pred) (e : Fin 8)
  -- scalar float, R254-R259
  | fadd (p : Pred) (ft : FTy) (r : Rnd) (sm : FSat) (ta : Target)
  | fsub (p : Pred) (ft : FTy) (r : Rnd) (sm : FSat) (ta : Target)
  | fmul (p : Pred) (ft : FTy) (r : Rnd) (sm : FSat) (ta : Target)
  | fma (p : Pred) (ft : FTy) (r : Rnd) (sm : FSat) (ta : Target)
  | fdiv (p : Pred) (ft : FTy) (r : Rnd) (sm : FSat) (ta : Target)
  | fsqrt (p : Pred) (ft : FTy) (r : Rnd) (sm : FSat) (ta : Target)
  | fmin (p : Pred) (ft : FTy) (ta : Target)
  | fmax (p : Pred) (ft : FTy) (ta : Target)
  | fcmp (p : Pred) (ft : FTy) (cc : FCond) (ta : Target)
  | fcvt (p : Pred) (ft : FTy) (r : Rnd) (sm : FSat) (other : CvtSide) (dir : Bool) (ta : Target)
  | fcls (p : Pred) (ft : FTy) (ta : Target)
  -- loads, stores, prefetch, line forms, atomics, R267-R271
  | ld (p : Pred) (m : Fin 32) (sz : Size) (o : LdOrd) (ta : Target)
  | st (p : Pred) (m : Fin 32) (sz : Size) (o : StOrd) (off : BitVec 9)
  | ldx (p : Pred) (m : Fin 32) (sz : Size) (o : LdOrd) (ta : Target)
  | stx (p : Pred) (m : Fin 32) (sz : Size) (o : StOrd) (off : BitVec 9)
  | prf (p : Pred) (m : Fin 32) (sz : Fin 8) (h : Hint)
  | cln (p : Pred) (sc : Scope) (ta : Target)
  | inv (p : Pred) (sc : Scope) (ta : Target)
  | amo (p : Pred) (m : Fin 32) (wd : Bool) (op : AOp) (sc : Option Scope) (ta : Target)
  | cas (p : Pred) (m : Fin 32) (wd : Bool) (sc : Option Scope) (ta : Target)
  | cas2 (p : Pred) (m : Fin 32) (sc : Option Scope) (ta : Target)
  -- fences and barriers, R272, R273
  | fnc (p : Pred) (o : FenceOrd) (sc : Scope) (ta : Target)
  | fncx (p : Pred) (ta : Target)
  | bari (p : Pred) (bid : Fin 64) (sc : Scope) (ta : Target)
  | bara (p : Pred) (bid : Fin 64) (sc : Scope) (ta : Target)
  | barw (p : Pred) (bid : Fin 64) (sc : Scope) (ta : Target)
  -- fabric control, R274-R278
  | cfgl (p : Pred) (ctx : Fin 4) (reg : Fin 8) (ta : Target)
  | cfgs (p : Pred) (ta : Target)
  | arm (p : Pred) (ctx : Fin 4) (reg : Fin 8) (ta : Target)
  | darm (p : Pred) (ctx : Fin 4) (reg : Fin 8) (fre : Bool) (ta : Target)
  | ctxm (p : Pred) (ctx : Fin 4) (reg : Fin 8) (mw mode : Bool) (ta : Target)
  | chbRouteDefault (p : Pred) (ta : Target)
  | chbRoute (p : Pred) (ta : Target)
  | chbBind (p : Pred) (ta : Target)
  | inj (p : Pred) (m : Fin 32) (ta : Target)
  -- engines, R280-R284
  | cpy (p : Pred) (m : Fin 32) (h : Hint) (ta : Target)
  | mcst (p : Pred) (m : Fin 32) (h : Hint) (ta : Target)
  | gth (p : Pred) (m : Fin 32) (h : Hint) (ta : Target)
  | sct (p : Pred) (m : Fin 32) (h : Hint) (ta : Target)
  | ksel (p : Pred) (m : Fin 32) (h : Hint) (ta : Target)
  | kvpk (p : Pred) (m : Fin 32) (h : Hint) (ta : Target)
  | axrd (p : Pred) (m : Fin 32) (h : Hint) (ta : Target)
  | axwr (p : Pred) (m : Fin 32) (h : Hint) (ta : Target)
  | rsp (p : Pred) (ta : Target)
  -- fibres, R285, R286
  | fnew (p : Pred) (m : Fin 32) (ta : Target)
  | fnewGrant (p : Pred) (m : Fin 32) (ta : Target)
  | fdel (p : Pred) (m : Fin 32) (ta : Target)
  | fmrg (p : Pred) (m : Fin 32) (mode : MMode) (dz : Bool) (ta : Target)
  | fscn (p : Pred) (m : Fin 32) (stpl : Fin 8) (ta : Target)
  | fprb (p : Pred) (m : Fin 32) (ta : Target)
  | flen (p : Pred) (m : Fin 32) (ta : Target)
  -- Concordance, R287
  | snph (p : Pred) (ta : Target)
  | snpf (p : Pred) (m : Fin 32) (ta : Target)
  | snpp (p : Pred) (m : Fin 32) (ta : Target)
  | snpg (p : Pred) (m : Fin 32) (ta : Target)
  | snpr (p : Pred) (m : Fin 32) (ta : Target)
  -- weight graphs, L2 control, near-memory, R288-R292
  | wgl (p : Pred) (ctx : Fin 4) (reg : Fin 8) (ta : Target)
  | wgq (p : Pred) (ctx : Fin 4) (reg : Fin 8) (ta : Target)
  | wgu (p : Pred) (ctx : Fin 4) (reg : Fin 8) (ta : Target)
  | rets (p : Pred) (ta : Target)
  | retc (p : Pred) (ta : Target)
  | wmsk (p : Pred) (ta : Target)
  | l2fl (p : Pred) (ta : Target)
  | nmld (p : Pred) (m : Fin 32) (ta : Target)
  | nmgo (p : Pred) (ta : Target)
  | nmbx (p : Pred) (ta : Target)
  | nmwk (p : Pred) (ta : Target)
  -- system, R293-R297
  | trp (p : Pred) (tnum : BitVec 9) (ta : Target)
  | eret (p : Pred) (ta : Target)
  | csrr (p : Pred) (csr : Csr) (ta : Target)
  | csrw (p : Pred) (csr : Csr) (ta : Target)
  | idle (p : Pred) (ta : Target)
  | mbxr (p : Pred) (ta : Target)
  | mbxwResume (p : Pred) (ta : Target)
  | mbxwAbort (p : Pred) (ta : Target)
  | mbxwPop (p : Pred) (ta : Target)
  | mbxwDelegate (p : Pred) (ta : Target)
  | irq (p : Pred) (vec : Fin 64) (ta : Target)
  | tlbi (p : Pred) (sc : Scope) (ta : Target)
  | atst (p : Pred) (ta : Target)
  -- lane operations, R303-R305
  | vadd (c : ElemCfg) | vsub (c : ElemCfg) | vmul (c : ElemCfg) | vfma (c : ElemCfg)
  | vmin (c : ElemCfg) | vmax (c : ElemCfg) | vabs (c : ElemCfg) | vneg (c : ElemCfg)
  | vand (c : ElemCfg) | vor (c : ElemCfg) | vxor (c : ElemCfg) | vshl (c : ElemCfg)
  | vshr (c : ElemCfg) | vsar (c : ElemCfg) | vcmp (c : ElemCfg) | vclp (c : ElemCfg)
  | vscl (c : ElemCfg) | vred (c : ElemCfg) | vacc (c : ElemCfg) | vex2 (c : ElemCfg)
  | vrcp (c : ElemCfg) | vsel (c : ElemCfg) | vprm (c : ElemCfg)
  -- converters and online operations, R306-R311
  | cvt (c : ElemCfg) | cvts (c : ElemCfg) | rng (c : ElemCfg)
  | oadd (c : ElemCfg) | omlc (c : ElemCfg) | ocmp (c : ElemCfg) | sde (c : ElemCfg) | sdd (c : ElemCfg)
  -- router operators, R312-R316
  | str (c : ElemCfg) | mrg (c : ElemCfg) | cmrg (c : ElemCfg) | cry (c : ElemCfg)
  | ivr (c : ElemCfg) | rsel (c : ElemCfg) | flt (c : ElemCfg) | stpg (c : ElemCfg)
  | stpc (c : ElemCfg) | rpt (c : ElemCfg) | jn (c : ElemCfg) | pad (c : ElemCfg) | ngen (c : ElemCfg)
  -- matrix region, R317-R321
  | mma (c : ElemCfg) | mmaw (c : ElemCfg) | wpl (c : ElemCfg) | dly (c : ElemCfg)
  | lrec (c : ElemCfg) | adrn (c : ElemCfg)
  -- Folio nodes, R121-R126
  | sha (n : FolioNode) | sum4 (n : FolioNode) | tap (n : FolioNode) | nrw (n : FolioNode)
  -- M-tile and fibre stream, R323-R330
  | agr (c : ElemCfg) | agw (c : ElemCfg) | tfifo (c : ElemCfg)
  | fin (c : ElemCfg) | fout (c : ElemCfg) | fisx (c : ElemCfg) | funi (c : ElemCfg)
  -- near-bank nodes, R291, R292, R400
  | nbRdw (n : NbNode) | nbWrw (n : NbNode) | nbAdd (n : NbNode) | nbMul (n : NbNode)
  | nbMac (n : NbNode) | nbMin (n : NbNode) | nbMax (n : NbNode) | nbCmp (n : NbNode)
  | nbSel (n : NbNode) | nbCnt (n : NbNode) | nbMbx (n : NbNode) | nbDone (n : NbNode)
  | nearBankRunStart (unit : Nat)
  | nearBankGraphReplace (unit : Nat)
  -- commands, R182, R183
  | nop (q : QueueRef) (e : CmdEntry) | launch (q : QueueRef) (e : CmdEntry)
  | waitq (q : QueueRef) (e : CmdEntry) | signal (q : QueueRef) (e : CmdEntry)
  | copy (q : QueueRef) (e : CmdEntry) | nmrun (q : QueueRef) (e : CmdEntry)
  | ringreset (q : QueueRef) (e : CmdEntry) | tcreate (q : QueueRef) (e : CmdEntry)
  | tdestroy (q : QueueRef) (e : CmdEntry) | winset (q : QueueRef) (e : CmdEntry)
  | pcreate (q : QueueRef) (e : CmdEntry) | pdestroy (q : QueueRef) (e : CmdEntry)
  | preset (q : QueueRef) (e : CmdEntry) | pswap (q : QueueRef) (e : CmdEntry)
  | psetStage1Root (q : QueueRef) (e : CmdEntry) | psetStage2Range (q : QueueRef) (e : CmdEntry)
  | psetInboundWindow (q : QueueRef) (e : CmdEntry) | psetRing (q : QueueRef) (e : CmdEntry)
  | psetInterruptVector (q : QueueRef) (e : CmdEntry)
  -- rings and windows, R177-R186, R405
  | commandEntryFetch (q : QueueRef)
  | completionEntryPost (q : QueueRef)
  | ringWritePointerStore (q : QueueRef) (v : BitVec 32)
  | completionReadPointerStore (q : QueueRef) (v : BitVec 32)
  | ownerWindowWrite (off : Nat) (v : Word)
  | hostPostedWrite (addr : Nat) (bytes : List Byte)
  | hostRead (addr n : Nat)
  | launchDrainComplete (launch : Nat)
  -- sequencer elements and regions
  | blockIssue (se : Nat)
  | blockCommit (tid : Nat)
  | commitResultLanding (id : Nat)
  | channelWordArrival (id : Nat)
  | engineResponse (id : Nat)
  | transferComplete (id : Nat)
  | armApply (id : Nat)
  | phaseEnd (r : Nat)
  | selectorWake (r : Nat)
  | pendingSectionFetch (r ctx : Nat)
  | stagedFetchComplete (r ctx : Nat)
  | switchTimeWord (id : Nat)
  | contextSwitch (r : Nat)
  | routerForward (r ctx link : Nat)
  | elementClockGate (r ctx pos : Nat)
  | elementWake (r ctx pos : Nat)
  | lanePowerGate (tile lane : Nat)
  | lanePowerUp (tile lane : Nat)
  | laneWakeFailure (tile lane : Nat)
  | stallWatchdog (r : Nat)
  | preempt (launch : Nat)
  | preemptDrainTimeout (launch : Nat)
  | preemptResume (launch : Nat)
  -- faults, translation, slices, packets
  | mailboxRecordWrite (ptn die : Nat)
  | faultNotice (id : Nat)
  | pageWalk (id : Nat)
  | l2MissFill (slice : Nat)
  | l2WriteBack (slice : Nat)
  | arbitrationFrame (point : Nat)
  | packetEviction (point urgent : Nat)
  | evictionNotice (id : Nat)
  | endToEndAck (id : Nat)
  -- shelvers and Concordance engines
  | shelverGrant (id : Nat)
  | shelverNew (id : Nat)
  | shelverMerge (id : Nat)
  | scanStart (id : Nat)
  | scanStep (id : Nat)
  | shelverProbe (id : Nat)
  | shelverLength (id : Nat)
  | shelverDelete (id : Nat)
  | concordanceFind (id : Nat)
  | concordanceGet (id : Nat)
  | concordanceRelease (id : Nat)
  | concordanceInsert (id : Nat)
  -- heartbeats and fencing
  | heartbeatSend (tile : Nat)
  | heartbeatReceive (id : Nat)
  | neighbourJudgement (tile dir : Nat)
  | voteWord (id : Nat)
  | withdrawalWord (id : Nat)
  | fenceWord (id : Nat)
  | fenceWithdrawal (id : Nat)
  | selfTestRun (tile : Nat) (pass : Bool)
  | probationComplete (tile : Nat)
  | reinstate (tile : Nat)
  | reinstateWord (id : Nat)
  -- swaps, resets, module events
  | swapExchange (ptn : Nat)
  | swapComplete (ptn : Nat)
  | responseLogAppend (id : Nat)
  | resetEpochDrained (ptn : Nat)
  | powerOn (fwEd fwMl cfgEd cfgMl : Bool)
  | moduleReset
  | functionSelfTestDone (kind inst : Nat) (pass : Bool)
  | unitReadinessLost (kind inst state : Nat)
  | alarmGuardBand (die : Fin 4) (clock : Bool)
  | alarmLinkTamper (die : Fin 4) (ptile : Fin 256)
  | debugPortAccess (die : Fin 4) (port : BitVec 32) (grant : Bool)
  | recoveryDoorbell (length : Word) (edOk mlOk : Bool)
  | hbmPatrolScrub (stack : Nat)
  | memoryResponse (id : Nat)
  | preemptDrainComplete (launch : Nat)
  | invalidationComplete (tid : Nat)
  | lossOfPower
  deriving DecidableEq, Repr

end Sys2Proof
end

