-- ==== Sys2Proof/Machine/Forms.lean ====
section
/-!
DEFINITION. The static facts of each block form: its predicate mode and targets (R216, R217), the
operand buffers it requires (R233, R241-R293), whether it is a commit form and with how many
results (R261, R262), its LSID (R265) and its privilege level (R227).
-/

namespace Sys2Proof

namespace Pred

/-- The 2-bit code of a predicate mode (R216). -/
def code : Pred → Nat
  | .always => 0 | .onTrue => 1 | .onFalse => 2

/-- The predicate mode of a code; 0b11 is reserved (R216). -/
def ofCode : Nat → Option Pred
  | 0 => some .always | 1 => some .onTrue | 2 => some .onFalse | _ => none

end Pred

namespace Target

/-- The 9-bit target field: kind in [8:6], index in [5:0] (R203, R217). -/
def code : Target → Nat
  | .none => 0
  | .left n => 1 * 64 + n.val
  | .right n => 2 * 64 + n.val
  | .pred n => 3 * 64 + n.val
  | .reg n => 4 * 64 + n.val
  | .chan n => 5 * 64 + n.val
  | .third n => 6 * 64 + n.val

/-- The target of a field; kind 0b111, and kind 000 with a non-zero index, are refused (R217). -/
def ofCode (f : Nat) : Option Target :=
  let n : Fin 64 := Fin.ofNat 64 (f % 64)
  match f / 64 % 8 with
  | 0 => if f % 64 = 0 then some .none else Option.none
  | 1 => some (.left n)
  | 2 => some (.right n)
  | 3 => some (.pred n)
  | 4 => some (.reg n)
  | 5 => some (.chan n)
  | 6 => some (.third n)
  | _ => Option.none

/-- The slot a target names, when it names one (R217). -/
def slot? : Target → Option Nat
  | .left n => some n.val | .right n => some n.val | .pred n => some n.val | .third n => some n.val
  | _ => Option.none

end Target

namespace Scope

/-- The code 1 to 12 of a scope (R166). -/
def code : Scope → Nat
  | .elem => 1 | .tile => 2 | .sect => 3 | .clus => 4 | .die => 5 | .ptn => 6 | .dev => 7
  | .host => 8 | .node => 9 | .pod => 10 | .annex => 11 | .sys => 12

/-- The scope of a code; 0 and 13 to 15 are reserved (R166). -/
def ofCode : Nat → Option Scope
  | 1 => some .elem | 2 => some .tile | 3 => some .sect | 4 => some .clus | 5 => some .die
  | 6 => some .ptn | 7 => some .dev | 8 => some .host | 9 => some .node | 10 => some .pod
  | 11 => some .annex | 12 => some .sys | _ => none

/-- Whether a scope lies between elem and dev, so that it binds only some of the module's agents (R166). -/
def narrow (s : Scope) : Bool := decide (2 ≤ s.code) && decide (s.code ≤ 6)

/-- Whether scope s includes the scope of a code, by the nesting of R166; a cluster belongs to one partition. -/
def includes (s : Scope) (c : Nat) : Bool :=
  match s with
  | .sys => true
  | .ptn => decide (c ≤ 4) || c == 6
  | .annex => decide (c ≤ 7) || c == 11
  | .elem | .tile | .sect | .clus | .die => decide (c ≤ s.code)
  | _ => decide (c ≤ s.code)

end Scope

namespace Ty

/-- TY code (R218). -/
def code : Ty → Nat
  | .s8 => 0 | .s16 => 1 | .s32 => 2 | .s64 => 3 | .n8 => 4 | .n16 => 5 | .n32 => 6 | .n64 => 7

/-- The type of a 3-bit code (R218). -/
def ofCode (n : Nat) : Ty :=
  match n % 8 with
  | 0 => .s8 | 1 => .s16 | 2 => .s32 | 3 => .s64 | 4 => .n8 | 5 => .n16 | 6 => .n32 | _ => .n64

/-- Width w of a type in bits (R241). -/
def width : Ty → Nat
  | .s8 => 8 | .s16 => 16 | .s32 => 32 | .s64 => 64 | .n8 => 8 | .n16 => 16 | .n32 => 32 | .n64 => 64

/-- Whether a type is signed (R241). -/
def signed : Ty → Bool
  | .s8 => true | .s16 => true | .s32 => true | .s64 => true | _ => false

end Ty

namespace Size

/-- SIZE code (R218). -/
def code : Size → Nat
  | .s8 => 0 | .s16 => 1 | .s32 => 2 | .s64 => 3 | .n8 => 4 | .n16 => 5 | .n32 => 6 | .b128 => 7

/-- The size of a 3-bit code (R218). -/
def ofCode (n : Nat) : Size :=
  match n % 8 with
  | 0 => .s8 | 1 => .s16 | 2 => .s32 | 3 => .s64 | 4 => .n8 | 5 => .n16 | 6 => .n32 | _ => .b128

/-- Bytes of an access (R218). -/
def bytes : Size → Nat
  | .s8 => 1 | .s16 => 2 | .s32 => 4 | .s64 => 8 | .n8 => 1 | .n16 => 2 | .n32 => 4 | .b128 => 16

/-- The 64-bit value of the bytes read, extended as R218 gives. -/
def extend (s : Size) (v : Nat) : Word :=
  match s with
  | .s8 => Machine.sext 8 v | .s16 => Machine.sext 16 v | .s32 => Machine.sext 32 v
  | .s64 => Machine.wordOf v | .n8 => Machine.wordOf (v % 2 ^ 8) | .n16 => Machine.wordOf (v % 2 ^ 16)
  | .n32 => Machine.wordOf (v % 2 ^ 32) | .b128 => Machine.wordOf v

end Size

namespace Cond

/-- CC code (R221). -/
def code : Cond → Nat
  | .eq => 0 | .ne => 1 | .lt => 2 | .le => 3 | .gt => 4 | .ge => 5

/-- The condition of a code; 6 and 7 are reserved (R221). -/
def ofCode : Nat → Option Cond
  | 0 => some .eq | 1 => some .ne | 2 => some .lt | 3 => some .le | 4 => some .gt | 5 => some .ge
  | _ => none

/-- Whether the condition holds of two integers (R244). -/
def holds (c : Cond) (x y : Int) : Bool :=
  match c with
  | .eq => decide (x = y) | .ne => decide (x ≠ y) | .lt => decide (x < y)
  | .le => decide (x ≤ y) | .gt => decide (x > y) | .ge => decide (x ≥ y)

end Cond

namespace FCond

/-- SUB code of FCMP and CC code of VCMP (R222, R303). -/
def code : FCond → Nat
  | .eq => 0 | .ne => 1 | .lt => 2 | .le => 3 | .gt => 4 | .ge => 5 | .unordered => 6 | .ordered => 7

/-- The condition of a code; 8 to 15 are reserved (R222). -/
def ofCode : Nat → Option FCond
  | 0 => some .eq | 1 => some .ne | 2 => some .lt | 3 => some .le | 4 => some .gt | 5 => some .ge
  | 6 => some .unordered | 7 => some .ordered | _ => none

end FCond

namespace FTy

/-- FT code (R221). -/
def code : FTy → Nat
  | .f32 => 0 | .f16 => 1 | .bf16 => 2

/-- The type of an FT code; 3 is reserved (R221). -/
def ofCode : Nat → Option FTy
  | 0 => some .f32 | 1 => some .f16 | 2 => some .bf16 | _ => none

end FTy

namespace Rnd

/-- Rounding code (R150). -/
def code : Rnd → Nat
  | .rne => 0 | .rtz => 1 | .rdn => 2 | .rup => 3 | .rna => 4

/-- The mode of a code a block instruction takes (R254). -/
def ofCode : Nat → Option Rnd
  | 0 => some .rne | 1 => some .rtz | 2 => some .rdn | 3 => some .rup | 4 => some .rna | _ => none

end Rnd

namespace FSat

/-- SATM code (R221). -/
def code : FSat → Nat
  | .none => 0 | .finite => 1

/-- The rule of a code a block instruction takes (R221). -/
def ofCode : Nat → Option FSat
  | 0 => some .none | 1 => some .finite | _ => Option.none

end FSat

namespace CvtSide

/-- SUB code of FCVT (R222). -/
def code : CvtSide → Nat
  | .int t => t.code
  | .flt f => 8 + f.code

/-- The side of a SUB code; 11 to 15 are reserved (R222). -/
def ofCode (n : Nat) : Option CvtSide :=
  if n < 8 then some (.int (Ty.ofCode n)) else (FTy.ofCode (n - 8)).map .flt

end CvtSide

namespace Hint

/-- Hint code (R219). -/
def code : Hint → Nat
  | .none => 0 | .keep => 1 | .ef => 2 | .nt => 3 | .wc => 4

/-- The hint of a code; 5 to 15 are reserved (R219). -/
def ofCode : Nat → Option Hint
  | 0 => some .none | 1 => some .keep | 2 => some .ef | 3 => some .nt | 4 => some .wc | _ => Option.none

end Hint

namespace LdOrd

/-- The six bits ORD and SCOPE or hint of a load (R166, R219), ORD in the two high bits. -/
def code : LdOrd → Nat
  | .plain h => h.code | .acq s => 16 + s.code | .acqrel s => 48 + s.code

/-- The order of the six bits; rel on a load is reserved (R219). -/
def ofCode (n : Nat) : Option LdOrd :=
  match n / 16 % 4 with
  | 0 => (Hint.ofCode (n % 16)).map .plain
  | 1 => (Scope.ofCode (n % 16)).map .acq
  | 3 => (Scope.ofCode (n % 16)).map .acqrel
  | _ => none

end LdOrd

namespace StOrd

/-- The six bits ORD and SCOPE or hint of a store (R166, R219). -/
def code : StOrd → Nat
  | .plain h => h.code | .rel s => 32 + s.code | .acqrel s => 48 + s.code

/-- The order of the six bits; acq on a store is reserved (R219). -/
def ofCode (n : Nat) : Option StOrd :=
  match n / 16 % 4 with
  | 0 => (Hint.ofCode (n % 16)).map .plain
  | 2 => (Scope.ofCode (n % 16)).map .rel
  | 3 => (Scope.ofCode (n % 16)).map .acqrel
  | _ => none

/-- The scope of the rel part of a store, when it has one. -/
def rel? : StOrd → Option Scope
  | .plain _ => none | .rel s => some s | .acqrel s => some s

/-- The scope of the acq part of a store, when it has one. -/
def acq? : StOrd → Option Scope
  | .acqrel s => some s | _ => none

/-- The hint of a plain store. -/
def hint : StOrd → Hint
  | .plain h => h | _ => .none

end StOrd

namespace FenceOrd

/-- ORD code of FNC, 1 to 3 (R166). -/
def code : FenceOrd → Nat
  | .acq => 1 | .rel => 2 | .acqrel => 3

/-- The order of a code of FNC. -/
def ofCode : Nat → Option FenceOrd
  | 1 => some .acq | 2 => some .rel | 3 => some .acqrel | _ => none

end FenceOrd

namespace AOp

/-- AOP code (R223). -/
def code : AOp → Nat
  | .add => 0 | .and => 1 | .or => 2 | .xor => 3 | .smin => 4 | .smax => 5 | .umin => 6
  | .umax => 7 | .swap => 8

/-- The operation of a code; 9 to 15 are reserved (R223). -/
def ofCode : Nat → Option AOp
  | 0 => some .add | 1 => some .and | 2 => some .or | 3 => some .xor | 4 => some .smin
  | 5 => some .smax | 6 => some .umin | 7 => some .umax | 8 => some .swap | _ => none

end AOp

namespace MMode

/-- MODE code of FMRG and FOUT (R224, R330). -/
def code : MMode → Nat
  | .ins => 0 | .rpl => 1 | .add => 2 | .min => 3 | .max => 4 | .orb => 5

/-- The mode of a code; 6 and 7 are reserved (R224). -/
def ofCode : Nat → Option MMode
  | 0 => some .ins | 1 => some .rpl | 2 => some .add | 3 => some .min | 4 => some .max
  | 5 => some .orb | _ => none

end MMode

namespace Csr

/-- CSR number (R225). -/
def code : Csr → Nat
  | .time => 0x000 | .fsr => 0x001 | .fcost => 0x002 | .tid => 0x003 | .ptn => 0x004 | .prio => 0x005
  | .plvl => 0x010 | .dlgt => 0x011 | .mbxn => 0x012 | .pepc => 0x013 | .ssc0 => 0x014
  | .ssc1 => 0x015 | .s1rt => 0x016 | .alrm => 0x017

/-- The register of a CSR number; the others are reserved (R225). -/
def ofCode : Nat → Option Csr
  | 0x000 => some .time | 0x001 => some .fsr | 0x002 => some .fcost | 0x003 => some .tid
  | 0x004 => some .ptn | 0x005 => some .prio | 0x010 => some .plvl | 0x011 => some .dlgt
  | 0x012 => some .mbxn | 0x013 => some .pepc | 0x014 => some .ssc0 | 0x015 => some .ssc1
  | 0x016 => some .s1rt | 0x017 => some .alrm | _ => none

/-- The lowest level that may read the register (R225). -/
def readLevel : Csr → Nat
  | .dlgt => 1 | .mbxn => 1 | .pepc => 1 | .ssc0 => 1 | .ssc1 => 1 | .s1rt => 1 | .alrm => 2 | _ => 0

/-- The lowest level that may write the register; none where CSRW is refused (R225). -/
def writeLevel : Csr → Option Nat
  | .fsr => some 0 | .fcost => some 0 | .prio => some 1 | .ssc0 => some 1 | .ssc1 => some 1
  | .s1rt => some 2 | _ => none

end Csr

/-- The scope code of an atomic: 0 is plain (R223). -/
def optScopeCode : Option Scope → Nat
  | none => 0
  | some s => s.code

/-- The operand buffers a form requires besides its predicate (R233). -/
structure Needs where
  a : Bool
  b : Bool
  c : Bool
  deriving DecidableEq, Repr

namespace Needs
/-- no operand -/
def n0 : Needs := ⟨false, false, false⟩
/-- operand a -/
def n1 : Needs := ⟨true, false, false⟩
/-- operands a and b -/
def n2 : Needs := ⟨true, true, false⟩
/-- operands a, b and c -/
def n3 : Needs := ⟨true, true, true⟩
end Needs

/-- What the SE knows of a block form from its word alone. -/
structure Form where
  pred    : Pred
  needs   : Needs
  targets : List Target
  /-- none for an in-block form or an exit; some k for a commit form with k results (R262) -/
  commit  : Option Nat
  lsid    : Option (Fin 32)
  level   : Nat
  isExit  : Bool
  deriving DecidableEq, Repr

namespace Form
/-- An in-block form. -/
def inb (p : Pred) (n : Needs) (ts : List Target) : Form := ⟨p, n, ts, none, none, 0, false⟩
/-- An in-block form with an LSID. -/
def inm (p : Pred) (n : Needs) (m : Fin 32) (ts : List Target) : Form := ⟨p, n, ts, none, some m, 0, false⟩
/-- An exit. -/
def exit (p : Pred) (n : Needs) : Form := ⟨p, n, [], none, none, 0, true⟩
/-- A commit form without LSID. -/
def com (p : Pred) (n : Needs) (t : Target) (k : Nat) (lv : Nat) : Form := ⟨p, n, [t], some k, none, lv, false⟩
/-- A commit form with an LSID. -/
def mem (p : Pred) (n : Needs) (m : Fin 32) (t : Target) (k : Nat) (lv : Nat) : Form :=
  ⟨p, n, [t], some k, some m, lv, false⟩
end Form

/-- The form of a block instruction; none for a step that is no block instruction. -/
def Instr.form : Instr → Option Form
  | .add p _ _ ta tb => some (.inb p .n2 [ta, tb])
  | .sub p _ _ ta tb => some (.inb p .n2 [ta, tb])
  | .mul p _ _ ta tb => some (.inb p .n2 [ta, tb])
  | .mulh p _ ta tb => some (.inb p .n2 [ta, tb])
  | .div p _ _ ta tb => some (.inb p .n2 [ta, tb])
  | .rem p _ ta tb => some (.inb p .n2 [ta, tb])
  | .and p _ ta tb => some (.inb p .n2 [ta, tb])
  | .or p _ ta tb => some (.inb p .n2 [ta, tb])
  | .xor p _ ta tb => some (.inb p .n2 [ta, tb])
  | .andn p _ ta tb => some (.inb p .n2 [ta, tb])
  | .shl p _ _ ta tb => some (.inb p .n2 [ta, tb])
  | .shr p _ ta tb => some (.inb p .n2 [ta, tb])
  | .sar p _ ta tb => some (.inb p .n2 [ta, tb])
  | .rol p _ ta tb => some (.inb p .n2 [ta, tb])
  | .min p _ ta tb => some (.inb p .n2 [ta, tb])
  | .max p _ ta tb => some (.inb p .n2 [ta, tb])
  | .clz p _ ta tb => some (.inb p .n1 [ta, tb])
  | .ctz p _ ta tb => some (.inb p .n1 [ta, tb])
  | .popc p _ ta tb => some (.inb p .n1 [ta, tb])
  | .ext p _ ta tb => some (.inb p .n1 [ta, tb])
  | .bswap p _ ta tb => some (.inb p .n1 [ta, tb])
  | .addi p _ ta => some (.inb p .n1 [ta])
  | .andi p _ ta => some (.inb p .n1 [ta])
  | .ori p _ ta => some (.inb p .n1 [ta])
  | .xori p _ ta => some (.inb p .n1 [ta])
  | .shli p _ ta => some (.inb p .n1 [ta])
  | .shri p _ ta => some (.inb p .n1 [ta])
  | .sari p _ ta => some (.inb p .n1 [ta])
  | .muli p _ ta => some (.inb p .n1 [ta])
  | .cst p _ ta => some (.inb p .n0 [ta])
  | .csth p _ ta => some (.inb p .n1 [ta])
  | .cmp p _ _ ta => some (.inb p .n2 [ta])
  | .tst p _ _ ta => some (.inb p .n2 [ta])
  | .sel p _ ta tb => some (.inb p .n3 [ta, tb])
  | .lea p _ ta => some (.inb p .n1 [ta])
  | .addp p ta tb => some (.inb p .n2 [ta, tb])
  | .algn p _ _ ta => some (.inb p .n1 [ta])
  | .rd p _ ta => some (.inb p .n0 [ta])
  | .mov p ta tb => some (.inb p .n1 [ta, tb])
  | .recv p _ ta => some (.inb p .n0 [ta])
  | .peek p _ _ ta => some (.inb p .n0 [ta])
  | .nul p ta tb => some (.inb p .n0 [ta, tb])
  | .br p _ _ => some (.exit p .n0)
  | .brx p _ => some (.exit p .n1)
  | .call p _ _ => some (.exit p .n0)
  | .ret p _ => some (.exit p .n0)
  | .wait p _ => some (.exit p .n1)
  | .yld p _ => some (.exit p .n0)
  | .halt p _ => some (.exit p .n1)
  | .fadd p _ _ _ ta => some (.inb p .n2 [ta])
  | .fsub p _ _ _ ta => some (.inb p .n2 [ta])
  | .fmul p _ _ _ ta => some (.inb p .n2 [ta])
  | .fma p _ _ _ ta => some (.inb p .n3 [ta])
  | .fdiv p _ _ _ ta => some (.inb p .n2 [ta])
  | .fsqrt p _ _ _ ta => some (.inb p .n1 [ta])
  | .fmin p _ ta => some (.inb p .n2 [ta])
  | .fmax p _ ta => some (.inb p .n2 [ta])
  | .fcmp p _ _ ta => some (.inb p .n2 [ta])
  | .fcvt p _ _ _ _ _ ta => some (.inb p .n1 [ta])
  | .fcls p _ ta => some (.inb p .n1 [ta])
  | .ld p m _ _ ta => some (.inm p .n1 m [ta])
  | .ldx p m _ _ ta => some (.inm p .n2 m [ta])
  | .prf p m _ _ => some (.inm p .n1 m [])
  | .st p m sz _ _ => some (.mem p (if sz = .b128 then .n3 else .n2) m .none 0 0)
  | .stx p m _ _ _ => some (.mem p .n3 m .none 0 0)
  | .cln p _ ta => some (.com p .n1 ta 0 0)
  | .inv p _ ta => some (.com p .n1 ta 0 0)
  | .amo p m _ _ _ ta => some (.mem p .n2 m ta 1 0)
  | .cas p m _ _ ta => some (.mem p .n3 m ta 1 0)
  | .cas2 p m _ ta => some (.mem p .n3 m ta 1 0)
  | .fnc p _ _ ta => some (.com p .n0 ta 0 0)
  | .fncx p ta => some (.com p .n0 ta 0 0)
  | .bari p _ _ ta => some (.com p .n1 ta 0 0)
  | .bara p _ _ ta => some (.com p .n0 ta 1 0)
  | .barw p _ _ ta => some (.com p .n1 ta 0 0)
  | .cfgl p _ _ ta => some (.com p .n2 ta 1 0)
  | .cfgs p ta => some (.com p .n2 ta 0 0)
  | .arm p _ _ ta => some (.com p .n2 ta 0 0)
  | .darm p _ _ _ ta => some (.com p .n1 ta 0 0)
  | .ctxm p _ _ _ _ ta => some (.com p .n1 ta 2 0)
  | .chbRouteDefault p ta => some (.com p .n2 ta 0 0)
  | .chbRoute p ta => some (.com p .n2 ta 0 0)
  | .chbBind p ta => some (.com p .n2 ta 0 0)
  | .inj p m ta => some (.mem p .n2 m ta 1 0)
  | .cpy p m _ ta => some (.mem p .n3 m ta 1 0)
  | .mcst p m _ ta => some (.mem p .n3 m ta 1 0)
  | .gth p m _ ta => some (.mem p .n2 m ta 1 0)
  | .sct p m _ ta => some (.mem p .n2 m ta 1 0)
  | .ksel p m _ ta => some (.mem p .n1 m ta 1 0)
  | .kvpk p m _ ta => some (.mem p .n1 m ta 1 0)
  | .axrd p m _ ta => some (.mem p .n2 m ta 1 1)
  | .axwr p m _ ta => some (.mem p .n2 m ta 1 1)
  | .rsp p ta => some (.inb p .n0 [ta])
  | .fnew p m ta => some (.mem p .n2 m ta 1 0)
  | .fnewGrant p m ta => some (.mem p .n1 m ta 1 0)
  | .fdel p m ta => some (.mem p .n1 m ta 0 0)
  | .fmrg p m _ _ ta => some (.mem p .n3 m ta 1 0)
  | .fscn p m _ ta => some (.mem p .n2 m ta 1 0)
  | .fprb p m ta => some (.mem p .n2 m ta 2 0)
  | .flen p m ta => some (.mem p .n1 m ta 1 0)
  | .snph p ta => some (.inb p .n2 [ta])
  | .snpf p m ta => some (.mem p .n3 m ta 2 0)
  | .snpp p m ta => some (.mem p .n2 m ta 2 0)
  | .snpg p m ta => some (.mem p .n2 m ta 3 0)
  | .snpr p m ta => some (.mem p .n2 m ta 0 0)
  | .wgl p _ _ ta => some (.com p .n2 ta 1 0)
  | .wgq p _ _ ta => some (.com p .n1 ta 1 0)
  | .wgu p _ _ ta => some (.com p .n1 ta 0 0)
  | .rets p ta => some (.com p .n3 ta 1 0)
  | .retc p ta => some (.com p ⟨false, false, true⟩ ta 1 0)
  | .wmsk p ta => some (.com p .n2 ta 1 1)
  | .l2fl p ta => some (.com p .n2 ta 1 0)
  | .nmld p m ta => some (.mem p .n2 m ta 0 0)
  | .nmgo p ta => some (.com p .n2 ta 1 0)
  | .nmbx p ta => some (.com p .n2 ta 0 0)
  | .nmwk p ta => some (.com p .n2 ta 0 0)
  | .trp p _ ta => some (.com p .n0 ta 0 0)
  | .eret p ta => some (.com p .n2 ta 0 1)
  | .csrr p c ta => some { Form.inb p .n0 [ta] with level := c.readLevel }
  | .csrw p c ta => some (.com p .n1 ta 0 (c.writeLevel.getD 0))
  | .idle p ta => some (.com p .n0 ta 0 2)
  | .mbxr p ta => some (.com p .n2 ta 1 1)
  | .mbxwResume p ta => some (.com p .n2 ta 1 1)
  | .mbxwAbort p ta => some (.com p .n2 ta 1 1)
  | .mbxwPop p ta => some (.com p .n2 ta 1 1)
  | .mbxwDelegate p ta => some (.com p .n2 ta 1 1)
  | .irq p _ ta => some (.com p .n0 ta 0 1)
  | .tlbi p _ ta => some (.com p .n2 ta 0 1)
  | .atst p ta => some (.com p .n2 ta 1 2)
  | _ => none

/-- Engine requests (R280): their response may go to the response stream. -/
def Instr.isEngine : Instr → Bool
  | .cpy .. => true | .mcst .. => true | .gth .. => true | .sct .. => true | .ksel .. => true
  | .kvpk .. => true | .axrd .. => true | .axwr .. => true | .inj .. => true | _ => false

/-- FSCN counts as k = 1 but never in W (R286). -/
def Instr.isFscn : Instr → Bool
  | .fscn .. => true | _ => false

/-- A b128 load writes two registers (R269). -/
def Instr.isLd128 : Instr → Bool
  | .ld _ _ .b128 _ _ => true | _ => false

/-- ARM's target names the completion route (R262, R274). -/
def Instr.isArm : Instr → Bool
  | .arm .. => true | _ => false

end Sys2Proof
end

