-- ==== Sys2Proof/WellFormed.lean ====
section
/-!
DEFINITION. Which terms of `Instr` an SE accepts in a block of n slots as far as their targets go
(R217, R262, R269, R274, R286: exception 0x0105), and which words of the other kinds hold only
reserved bits that are zero (R229, R126, R291, R182).
-/

namespace Sys2Proof

/-- A target names a slot only below n (R217). -/
def Target.inBlock (n : Nat) (t : Target) : Bool :=
  match t.slot? with
  | some k => decide (k < n)
  | Option.none => true

/-- A commit form takes kinds 000, 100 and 101 only (R262). -/
def Target.commitKind : Target → Bool
  | .none => true | .reg _ => true | .chan _ => true | _ => false

/-- The k result registers g_n to g_(n+k-1) must not pass g63 (R262). -/
def Target.regRangeOk (k : Nat) : Target → Bool
  | .reg n => decide (n.val + k ≤ 64)
  | _ => true

/-- The target check of one block form in a block of n slots. -/
def Instr.targetsOk (n : Nat) (i : Instr) : Bool :=
  match i.form with
  | none => true
  | some f =>
    f.targets.all (Target.inBlock n) &&
    (match f.commit with
     | none => true
     | some k =>
       f.targets.all Target.commitKind &&
       (if i.isArm then f.targets.all (fun t => match t with | .chan _ => true | _ => false)
        else if k = 0 then f.targets.all (fun t => match t with | .none => true | _ => false)
        else if i.isFscn then f.targets.all (fun t => match t with | .reg _ => false | _ => true)
        else f.targets.all (Target.regRangeOk k))) &&
    (if i.isLd128 then f.targets.all (fun t => match t with | .reg g => decide (g.val ≤ 62) | _ => false)
     else true)

/-- Interrupt vectors a program raises are 5 to 63 (R224); LDX and STX take no b128 (R269). -/
def Instr.fieldsOk : Instr → Bool
  | .irq _ v _ => decide (5 ≤ v.val)
  | .ldx _ _ sz _ _ => decide (sz ≠ .b128)
  | .stx _ _ sz _ _ => decide (sz ≠ .b128)
  | _ => true

/-- The reserved bits of an element word are zero (R229). -/
def ElemCfg.reservedOk (c : ElemCfg) : Bool := c.rsv == 0

/-- The reserved bits [57:56] of a Folio node entry are zero (R126). -/
def FolioNode.reservedOk (n : FolioNode) : Bool := n.rsv == 0

/-- The reserved bits [45:32] of a near-bank node word are zero (R291). -/
def NbNode.reservedOk (n : NbNode) : Bool := n.rsv == 0

/-- The reserved bits of a command entry are zero (R182). -/
def CmdEntry.reservedOk (e : CmdEntry) : Bool := e.rsv1 == 0 && e.rsv0 == 0

/-- The element configuration word of an element operation. -/
def Instr.elemCfg? : Instr → Option ElemCfg
  | .vadd c => some c | .vsub c => some c | .vmul c => some c | .vfma c => some c | .vmin c => some c
  | .vmax c => some c | .vabs c => some c | .vneg c => some c | .vand c => some c | .vor c => some c
  | .vxor c => some c | .vshl c => some c | .vshr c => some c | .vsar c => some c | .vcmp c => some c
  | .vclp c => some c | .vscl c => some c | .vred c => some c | .vacc c => some c | .vex2 c => some c
  | .vrcp c => some c | .vsel c => some c | .vprm c => some c | .cvt c => some c | .cvts c => some c
  | .rng c => some c | .oadd c => some c | .omlc c => some c | .ocmp c => some c | .sde c => some c
  | .sdd c => some c | .str c => some c | .mrg c => some c | .cmrg c => some c | .cry c => some c
  | .ivr c => some c | .rsel c => some c | .flt c => some c | .stpg c => some c | .stpc c => some c
  | .rpt c => some c | .jn c => some c | .pad c => some c | .ngen c => some c | .mma c => some c
  | .mmaw c => some c | .wpl c => some c | .dly c => some c | .lrec c => some c | .adrn c => some c
  | .agr c => some c | .agw c => some c | .tfifo c => some c | .fin c => some c | .fout c => some c
  | .fisx c => some c | .funi c => some c
  | _ => none

/-- The Folio node entry of a weight-graph node. -/
def Instr.folioNode? : Instr → Option FolioNode
  | .sha n => some n | .sum4 n => some n | .tap n => some n | .nrw n => some n | _ => none

/-- The node word of a near-bank node. -/
def Instr.nbNode? : Instr → Option NbNode
  | .nbRdw n => some n | .nbWrw n => some n | .nbAdd n => some n | .nbMul n => some n
  | .nbMac n => some n | .nbMin n => some n | .nbMax n => some n | .nbCmp n => some n
  | .nbSel n => some n | .nbCnt n => some n | .nbMbx n => some n | .nbDone n => some n | _ => none

/-- The queue and the entry of a command. -/
def Instr.cmd? : Instr → Option (QueueRef × CmdEntry)
  | .nop q e => some (q, e) | .launch q e => some (q, e) | .waitq q e => some (q, e)
  | .signal q e => some (q, e) | .copy q e => some (q, e) | .nmrun q e => some (q, e)
  | .ringreset q e => some (q, e) | .tcreate q e => some (q, e) | .tdestroy q e => some (q, e)
  | .winset q e => some (q, e) | .pcreate q e => some (q, e) | .pdestroy q e => some (q, e)
  | .preset q e => some (q, e) | .pswap q e => some (q, e) | .psetStage1Root q e => some (q, e)
  | .psetStage2Range q e => some (q, e) | .psetInboundWindow q e => some (q, e)
  | .psetRing q e => some (q, e) | .psetInterruptVector q e => some (q, e)
  | _ => none

/-- A step is well formed in a block of n slots. -/
def Instr.wellFormed (n : Nat) (i : Instr) : Bool :=
  i.targetsOk n && i.fieldsOk &&
  (match i.elemCfg? with | some c => c.reservedOk | none => true) &&
  (match i.folioNode? with | some c => c.reservedOk | none => true) &&
  (match i.nbNode? with | some c => c.reservedOk | none => true) &&
  (match i.cmd? with | some (_, e) => e.reservedOk | none => true)

end Sys2Proof
end

