-- ==== Sys2Proof/Decode.lean ====
section
/-!
DEFINITION. The decoders of the module's words (spec/12_encodings.md R213-R232, R126, R182, R291)
and, after them, the encoders written from the same tables. A block word is decoded to an
instruction or refused by the name of the instruction exception that R420 gives for it.
-/

namespace Sys2Proof

open Sys2Proof.Machine

/-- Why a block word is refused, and the exception of R420 that says so. -/
inductive Reject where
  /-- 0x0103: reserved opcode 0x00, 0x3D, 0x3E, 0x3F or 0x7F (R226) -/
  | reservedOpcode
  /-- 0x0104: PRED 0b11 (R216) -/
  | reservedPred
  /-- 0x0105: kind 0b111, kind 000 with an index, an exit with TGTA other than 0 (R217) -/
  | badTarget
  /-- 0x0106: a reserved field value (R421) -/
  | reservedField
  deriving DecidableEq, Repr

/-- The exception code of a refusal (R420). -/
def Reject.fcode : Reject → Nat
  | .reservedOpcode => 0x0103
  | .reservedPred => 0x0104
  | .badTarget => 0x0105
  | .reservedField => 0x0106

/-- A word read as far as its fields go: the instruction, and whether every reserved field of
R421 holds a value that is not reserved. The exceptions are found in the order of their codes
(R419), so the reserved fields come last. -/
abbrev Loose := Except Reject (Instr × Bool)

/-- A word with a predicate and no target field. -/
def zero (w : Nat) (k : Pred → Instr × Bool) : Loose :=
  match Pred.ofCode (field w 24 23) with
  | none => .error .reservedPred
  | some p => .ok (k p)

/-- A word with one target field TGTA. -/
def one (w : Nat) (k : Pred → Target → Instr × Bool) : Loose :=
  match Pred.ofCode (field w 24 23) with
  | none => .error .reservedPred
  | some p =>
    match Target.ofCode (field w 8 0) with
    | none => .error .badTarget
    | some ta => .ok (k p ta)

/-- A format T word: TGTA and TGTB (R217). -/
def two (w : Nat) (k : Pred → Target → Target → Instr × Bool) : Loose :=
  match Pred.ofCode (field w 24 23) with
  | none => .error .reservedPred
  | some p =>
    match Target.ofCode (field w 8 0), Target.ofCode (field w 17 9) with
    | some ta, some tb => .ok (k p ta tb)
    | _, _ => .error .badTarget

/-- An exit of layout XE: its TGTA is reserved (R249, R420). -/
def noTarget (w : Nat) (k : Pred → Instr × Bool) : Loose :=
  match Pred.ofCode (field w 24 23) with
  | none => .error .reservedPred
  | some p => if field w 8 0 = 0 then .ok (k p) else .error .badTarget

/-- The block opcode map of R226, read from the word. The words of opcode 0x54 serve the three
CHB rows and those of 0x7B the four MBXW rows: an operand tells the rows apart (R278, R296), see
`Machine.refine`. -/
def decodeLoose (w : Nat) : Loose :=
  match field w 31 25 with
  | 0x01 => two w fun p ta tb => (.add p (Ty.ofCode (field w 22 20)) (bitAt w 19) ta tb, !bitAt w 18)
  | 0x02 => two w fun p ta tb => (.sub p (Ty.ofCode (field w 22 20)) (bitAt w 19) ta tb, !bitAt w 18)
  | 0x03 => two w fun p ta tb => (.mul p (Ty.ofCode (field w 22 20)) (bitAt w 19) ta tb, !bitAt w 18)
  | 0x04 => two w fun p ta tb => (.mulh p (Ty.ofCode (field w 22 20)) ta tb, field w 19 18 == 0)
  | 0x05 => two w fun p ta tb => (.div p (Ty.ofCode (field w 22 20)) (bitAt w 19) ta tb, !bitAt w 18)
  | 0x06 => two w fun p ta tb => (.rem p (Ty.ofCode (field w 22 20)) ta tb, field w 19 18 == 0)
  | 0x07 => two w fun p ta tb => (.and p (Ty.ofCode (field w 22 20)) ta tb, field w 19 18 == 0)
  | 0x08 => two w fun p ta tb => (.or p (Ty.ofCode (field w 22 20)) ta tb, field w 19 18 == 0)
  | 0x09 => two w fun p ta tb => (.xor p (Ty.ofCode (field w 22 20)) ta tb, field w 19 18 == 0)
  | 0x0a => two w fun p ta tb => (.andn p (Ty.ofCode (field w 22 20)) ta tb, field w 19 18 == 0)
  | 0x0b => two w fun p ta tb => (.shl p (Ty.ofCode (field w 22 20)) (bitAt w 19) ta tb, !bitAt w 18)
  | 0x0c => two w fun p ta tb => (.shr p (Ty.ofCode (field w 22 20)) ta tb, field w 19 18 == 0)
  | 0x0d => two w fun p ta tb => (.sar p (Ty.ofCode (field w 22 20)) ta tb, field w 19 18 == 0)
  | 0x0e => two w fun p ta tb => (.rol p (Ty.ofCode (field w 22 20)) ta tb, field w 19 18 == 0)
  | 0x0f => two w fun p ta tb => (.min p (Ty.ofCode (field w 22 20)) ta tb, field w 19 18 == 0)
  | 0x10 => two w fun p ta tb => (.max p (Ty.ofCode (field w 22 20)) ta tb, field w 19 18 == 0)
  | 0x11 => two w fun p ta tb => (.clz p (Ty.ofCode (field w 22 20)) ta tb, field w 19 18 == 0)
  | 0x12 => two w fun p ta tb => (.ctz p (Ty.ofCode (field w 22 20)) ta tb, field w 19 18 == 0)
  | 0x13 => two w fun p ta tb => (.popc p (Ty.ofCode (field w 22 20)) ta tb, field w 19 18 == 0)
  | 0x14 => two w fun p ta tb => (.ext p (Ty.ofCode (field w 22 20)) ta tb, field w 19 18 == 0)
  | 0x15 => two w fun p ta tb => (.bswap p (Ty.ofCode (field w 22 20)) ta tb, field w 19 18 == 0)
  | 0x16 => one w fun p ta => (.addi p (BitVec.ofNat 14 (field w 22 9)) ta, true)
  | 0x17 => one w fun p ta => (.andi p (BitVec.ofNat 14 (field w 22 9)) ta, true)
  | 0x18 => one w fun p ta => (.ori p (BitVec.ofNat 14 (field w 22 9)) ta, true)
  | 0x19 => one w fun p ta => (.xori p (BitVec.ofNat 14 (field w 22 9)) ta, true)
  | 0x1a => one w fun p ta => (.shli p (Fin.ofNat 64 (field w 14 9)) ta, field w 22 15 == 0)
  | 0x1b => one w fun p ta => (.shri p (Fin.ofNat 64 (field w 14 9)) ta, field w 22 15 == 0)
  | 0x1c => one w fun p ta => (.sari p (Fin.ofNat 64 (field w 14 9)) ta, field w 22 15 == 0)
  | 0x1d => one w fun p ta => (.muli p (BitVec.ofNat 14 (field w 22 9)) ta, true)
  | 0x1e => one w fun p ta => (.cst p (BitVec.ofNat 14 (field w 22 9)) ta, true)
  | 0x1f => one w fun p ta => (.csth p (BitVec.ofNat 14 (field w 22 9)) ta, true)
  | 0x20 => one w fun p ta => (.cmp p (Ty.ofCode (field w 22 20)) ((Cond.ofCode (field w 19 17)).getD .eq) ta, (Cond.ofCode (field w 19 17)).isSome && field w 16 9 == 0)
  | 0x21 => one w fun p ta => (.tst p (Ty.ofCode (field w 22 20)) ((Cond.ofCode (field w 19 17)).getD .eq) ta, (Cond.ofCode (field w 19 17)).isSome && field w 16 9 == 0)
  | 0x22 => two w fun p ta tb => (.sel p (Ty.ofCode (field w 22 20)) ta tb, field w 19 18 == 0)
  | 0x23 => one w fun p ta => (.lea p (BitVec.ofNat 14 (field w 22 9)) ta, true)
  | 0x24 => two w fun p ta tb => (.addp p ta tb, field w 22 18 == 0)
  | 0x25 => one w fun p ta => (.algn p (bitAt w 15) (Fin.ofNat 64 (field w 14 9)) ta, field w 22 16 == 0)
  | 0x26 => one w fun p ta => (.rd p (Fin.ofNat 64 (field w 14 9)) ta, field w 22 15 == 0)
  | 0x27 => two w fun p ta tb => (.mov p ta tb, field w 22 18 == 0)
  | 0x28 => one w fun p ta => (.recv p (Fin.ofNat 64 (field w 14 9)) ta, field w 22 15 == 0)
  | 0x29 => one w fun p ta => (.peek p (bitAt w 15) (Fin.ofNat 64 (field w 14 9)) ta, field w 22 16 == 0)
  | 0x2a => two w fun p ta tb => (.nul p ta tb, field w 22 18 == 0)
  | 0x2b => zero w fun p => (.br p (Fin.ofNat 8 (field w 22 20)) (BitVec.ofNat 20 (field w 19 0)), true)
  | 0x2d => zero w fun p => (.call p (Fin.ofNat 8 (field w 22 20)) (BitVec.ofNat 20 (field w 19 0)), true)
  | 0x2c => noTarget w fun p => (.brx p (Fin.ofNat 8 (field w 22 20)), field w 19 9 == 0)
  | 0x2e => noTarget w fun p => (.ret p (Fin.ofNat 8 (field w 22 20)), field w 19 9 == 0)
  | 0x2f => noTarget w fun p => (.wait p (Fin.ofNat 8 (field w 22 20)), field w 19 9 == 0)
  | 0x30 => noTarget w fun p => (.yld p (Fin.ofNat 8 (field w 22 20)), field w 19 9 == 0)
  | 0x31 => noTarget w fun p => (.halt p (Fin.ofNat 8 (field w 22 20)), field w 19 9 == 0)
  | 0x32 => one w fun p ta => (.fadd p ((FTy.ofCode (field w 22 21)).getD .f32) ((Rnd.ofCode (field w 20 18)).getD .rne) ((FSat.ofCode (field w 17 16)).getD .none) ta, (FTy.ofCode (field w 22 21)).isSome && (Rnd.ofCode (field w 20 18)).isSome && (FSat.ofCode (field w 17 16)).isSome && field w 15 9 == 0)
  | 0x33 => one w fun p ta => (.fsub p ((FTy.ofCode (field w 22 21)).getD .f32) ((Rnd.ofCode (field w 20 18)).getD .rne) ((FSat.ofCode (field w 17 16)).getD .none) ta, (FTy.ofCode (field w 22 21)).isSome && (Rnd.ofCode (field w 20 18)).isSome && (FSat.ofCode (field w 17 16)).isSome && field w 15 9 == 0)
  | 0x34 => one w fun p ta => (.fmul p ((FTy.ofCode (field w 22 21)).getD .f32) ((Rnd.ofCode (field w 20 18)).getD .rne) ((FSat.ofCode (field w 17 16)).getD .none) ta, (FTy.ofCode (field w 22 21)).isSome && (Rnd.ofCode (field w 20 18)).isSome && (FSat.ofCode (field w 17 16)).isSome && field w 15 9 == 0)
  | 0x35 => one w fun p ta => (.fma p ((FTy.ofCode (field w 22 21)).getD .f32) ((Rnd.ofCode (field w 20 18)).getD .rne) ((FSat.ofCode (field w 17 16)).getD .none) ta, (FTy.ofCode (field w 22 21)).isSome && (Rnd.ofCode (field w 20 18)).isSome && (FSat.ofCode (field w 17 16)).isSome && field w 15 9 == 0)
  | 0x36 => one w fun p ta => (.fdiv p ((FTy.ofCode (field w 22 21)).getD .f32) ((Rnd.ofCode (field w 20 18)).getD .rne) ((FSat.ofCode (field w 17 16)).getD .none) ta, (FTy.ofCode (field w 22 21)).isSome && (Rnd.ofCode (field w 20 18)).isSome && (FSat.ofCode (field w 17 16)).isSome && field w 15 9 == 0)
  | 0x37 => one w fun p ta => (.fsqrt p ((FTy.ofCode (field w 22 21)).getD .f32) ((Rnd.ofCode (field w 20 18)).getD .rne) ((FSat.ofCode (field w 17 16)).getD .none) ta, (FTy.ofCode (field w 22 21)).isSome && (Rnd.ofCode (field w 20 18)).isSome && (FSat.ofCode (field w 17 16)).isSome && field w 15 9 == 0)
  | 0x38 => one w fun p ta => (.fmin p ((FTy.ofCode (field w 22 21)).getD .f32) ta, (FTy.ofCode (field w 22 21)).isSome && field w 20 9 == 0)
  | 0x39 => one w fun p ta => (.fmax p ((FTy.ofCode (field w 22 21)).getD .f32) ta, (FTy.ofCode (field w 22 21)).isSome && field w 20 9 == 0)
  | 0x3a => one w fun p ta => (.fcmp p ((FTy.ofCode (field w 22 21)).getD .f32) ((FCond.ofCode (field w 15 12)).getD .eq) ta, (FTy.ofCode (field w 22 21)).isSome && field w 20 16 == 0 && (FCond.ofCode (field w 15 12)).isSome && field w 11 9 == 0)
  | 0x3b => one w fun p ta => (.fcvt p ((FTy.ofCode (field w 22 21)).getD .f32) ((Rnd.ofCode (field w 20 18)).getD .rne) ((FSat.ofCode (field w 17 16)).getD .none) ((CvtSide.ofCode (field w 15 12)).getD (.int .s8)) (bitAt w 11) ta, (FTy.ofCode (field w 22 21)).isSome && (Rnd.ofCode (field w 20 18)).isSome && (FSat.ofCode (field w 17 16)).isSome && (CvtSide.ofCode (field w 15 12)).isSome && field w 10 9 == 0)
  | 0x3c => one w fun p ta => (.fcls p ((FTy.ofCode (field w 22 21)).getD .f32) ta, (FTy.ofCode (field w 22 21)).isSome && field w 20 9 == 0)
  | 0x40 => one w fun p ta => (.ld p (Fin.ofNat 32 (field w 22 18)) (Size.ofCode (field w 17 15)) ((LdOrd.ofCode (field w 14 9)).getD (.plain .none)) ta, (LdOrd.ofCode (field w 14 9)).isSome)
  | 0x42 => one w fun p ta => (.ldx p (Fin.ofNat 32 (field w 22 18)) (Size.ofCode (field w 17 15)) ((LdOrd.ofCode (field w 14 9)).getD (.plain .none)) ta, (LdOrd.ofCode (field w 14 9)).isSome && field w 17 15 != 7)
  | 0x41 => zero w fun p => (.st p (Fin.ofNat 32 (field w 22 18)) (Size.ofCode (field w 17 15)) ((StOrd.ofCode (field w 14 9)).getD (.plain .none)) (BitVec.ofNat 9 (field w 8 0)), (StOrd.ofCode (field w 14 9)).isSome)
  | 0x43 => zero w fun p => (.stx p (Fin.ofNat 32 (field w 22 18)) (Size.ofCode (field w 17 15)) ((StOrd.ofCode (field w 14 9)).getD (.plain .none)) (BitVec.ofNat 9 (field w 8 0)), (StOrd.ofCode (field w 14 9)).isSome && field w 17 15 != 7)
  | 0x44 => zero w fun p => (.prf p (Fin.ofNat 32 (field w 22 18)) (Fin.ofNat 8 (field w 17 15)) ((Hint.ofCode (field w 12 9)).getD .none), field w 14 13 == 0 && (Hint.ofCode (field w 12 9)).isSome && field w 8 0 == 0)
  | 0x45 => one w fun p ta => (.cln p ((Scope.ofCode (field w 12 9)).getD .dev) ta, field w 22 13 == 0 && (Scope.ofCode (field w 12 9)).isSome)
  | 0x46 => one w fun p ta => (.inv p ((Scope.ofCode (field w 12 9)).getD .dev) ta, field w 22 13 == 0 && (Scope.ofCode (field w 12 9)).isSome)
  | 0x47 => one w fun p ta => (.amo p (Fin.ofNat 32 (field w 22 18)) (bitAt w 17) ((AOp.ofCode (field w 16 13)).getD .add) (Scope.ofCode (field w 12 9)) ta, (AOp.ofCode (field w 16 13)).isSome && (field w 12 9 == 0 || (Scope.ofCode (field w 12 9)).isSome))
  | 0x48 => one w fun p ta => (.cas p (Fin.ofNat 32 (field w 22 18)) (bitAt w 17) (Scope.ofCode (field w 12 9)) ta, field w 16 13 == 0 && (field w 12 9 == 0 || (Scope.ofCode (field w 12 9)).isSome))
  | 0x49 => one w fun p ta => (.cas2 p (Fin.ofNat 32 (field w 22 18)) (Scope.ofCode (field w 12 9)) ta, bitAt w 17 && field w 16 13 == 0 && (field w 12 9 == 0 || (Scope.ofCode (field w 12 9)).isSome))
  | 0x4a => one w fun p ta => (.fnc p ((FenceOrd.ofCode (field w 14 13)).getD .acq) ((Scope.ofCode (field w 12 9)).getD .dev) ta, field w 22 15 == 0 && (FenceOrd.ofCode (field w 14 13)).isSome && (Scope.ofCode (field w 12 9)).isSome)
  | 0x4b => one w fun p ta => (.fncx p ta, field w 22 9 == 0)
  | 0x4c => one w fun p ta => (.bari p (Fin.ofNat 64 (field w 22 17)) ((Scope.ofCode (field w 12 9)).getD .dev) ta, field w 16 13 == 0 && (Scope.ofCode (field w 12 9)).isSome)
  | 0x4d => one w fun p ta => (.bara p (Fin.ofNat 64 (field w 22 17)) ((Scope.ofCode (field w 12 9)).getD .dev) ta, field w 16 13 == 0 && (Scope.ofCode (field w 12 9)).isSome)
  | 0x4e => one w fun p ta => (.barw p (Fin.ofNat 64 (field w 22 17)) ((Scope.ofCode (field w 12 9)).getD .dev) ta, field w 16 13 == 0 && (Scope.ofCode (field w 12 9)).isSome)
  | 0x4f => one w fun p ta => (.cfgl p (Fin.ofNat 4 (field w 22 21)) (Fin.ofNat 8 (field w 20 18)) ta, field w 17 9 == 0)
  | 0x50 => one w fun p ta => (.cfgs p ta, field w 22 9 == 0)
  | 0x51 => one w fun p ta => (.arm p (Fin.ofNat 4 (field w 22 21)) (Fin.ofNat 8 (field w 20 18)) ta, field w 17 9 == 0)
  | 0x52 => one w fun p ta => (.darm p (Fin.ofNat 4 (field w 22 21)) (Fin.ofNat 8 (field w 20 18)) (bitAt w 17) ta, field w 16 9 == 0)
  | 0x53 => one w fun p ta => (.ctxm p (Fin.ofNat 4 (field w 22 21)) (Fin.ofNat 8 (field w 20 18)) (bitAt w 17) (bitAt w 16) ta, field w 15 9 == 0)
  | 0x54 => one w fun p ta => (.chbRouteDefault p ta, field w 22 9 == 0)
  | 0x55 => one w fun p ta => (.inj p (Fin.ofNat 32 (field w 22 18)) ta, field w 17 9 == 0)
  | 0x56 => one w fun p ta => (.cpy p (Fin.ofNat 32 (field w 22 18)) ((Hint.ofCode (field w 12 9)).getD .none) ta, field w 17 13 == 0 && (Hint.ofCode (field w 12 9)).isSome)
  | 0x57 => one w fun p ta => (.mcst p (Fin.ofNat 32 (field w 22 18)) ((Hint.ofCode (field w 12 9)).getD .none) ta, field w 17 13 == 0 && (Hint.ofCode (field w 12 9)).isSome)
  | 0x58 => one w fun p ta => (.gth p (Fin.ofNat 32 (field w 22 18)) ((Hint.ofCode (field w 12 9)).getD .none) ta, field w 17 13 == 0 && (Hint.ofCode (field w 12 9)).isSome)
  | 0x59 => one w fun p ta => (.sct p (Fin.ofNat 32 (field w 22 18)) ((Hint.ofCode (field w 12 9)).getD .none) ta, field w 17 13 == 0 && (Hint.ofCode (field w 12 9)).isSome)
  | 0x5a => one w fun p ta => (.ksel p (Fin.ofNat 32 (field w 22 18)) ((Hint.ofCode (field w 12 9)).getD .none) ta, field w 17 13 == 0 && (Hint.ofCode (field w 12 9)).isSome)
  | 0x5b => one w fun p ta => (.kvpk p (Fin.ofNat 32 (field w 22 18)) ((Hint.ofCode (field w 12 9)).getD .none) ta, field w 17 13 == 0 && (Hint.ofCode (field w 12 9)).isSome)
  | 0x5c => one w fun p ta => (.axrd p (Fin.ofNat 32 (field w 22 18)) ((Hint.ofCode (field w 12 9)).getD .none) ta, field w 17 13 == 0 && (Hint.ofCode (field w 12 9)).isSome)
  | 0x5d => one w fun p ta => (.axwr p (Fin.ofNat 32 (field w 22 18)) ((Hint.ofCode (field w 12 9)).getD .none) ta, field w 17 13 == 0 && (Hint.ofCode (field w 12 9)).isSome)
  | 0x5e => one w fun p ta => (.rsp p ta, field w 22 9 == 0)
  | 0x5f => one w fun p ta => (if bitAt w 17 then .fnewGrant p (Fin.ofNat 32 (field w 22 18)) ta else .fnew p (Fin.ofNat 32 (field w 22 18)) ta, field w 16 9 == 0)
  | 0x60 => one w fun p ta => (.fdel p (Fin.ofNat 32 (field w 22 18)) ta, field w 17 9 == 0)
  | 0x61 => one w fun p ta => (.fmrg p (Fin.ofNat 32 (field w 22 18)) ((MMode.ofCode (field w 17 15)).getD .ins) (bitAt w 14) ta, (MMode.ofCode (field w 17 15)).isSome && field w 13 9 == 0)
  | 0x62 => one w fun p ta => (.fscn p (Fin.ofNat 32 (field w 22 18)) (Fin.ofNat 8 (field w 17 15)) ta, field w 14 9 == 0)
  | 0x63 => one w fun p ta => (.fprb p (Fin.ofNat 32 (field w 22 18)) ta, field w 17 9 == 0)
  | 0x64 => one w fun p ta => (.flen p (Fin.ofNat 32 (field w 22 18)) ta, field w 17 9 == 0)
  | 0x65 => one w fun p ta => (.snph p ta, field w 22 9 == 0)
  | 0x66 => one w fun p ta => (.snpf p (Fin.ofNat 32 (field w 22 18)) ta, field w 17 9 == 0)
  | 0x67 => one w fun p ta => (.snpp p (Fin.ofNat 32 (field w 22 18)) ta, field w 17 9 == 0)
  | 0x68 => one w fun p ta => (.snpg p (Fin.ofNat 32 (field w 22 18)) ta, field w 17 9 == 0)
  | 0x69 => one w fun p ta => (.snpr p (Fin.ofNat 32 (field w 22 18)) ta, field w 17 9 == 0)
  | 0x6a => one w fun p ta => (.wgl p (Fin.ofNat 4 (field w 22 21)) (Fin.ofNat 8 (field w 20 18)) ta, field w 17 9 == 0)
  | 0x6b => one w fun p ta => (.wgq p (Fin.ofNat 4 (field w 22 21)) (Fin.ofNat 8 (field w 20 18)) ta, field w 17 9 == 0)
  | 0x6c => one w fun p ta => (.wgu p (Fin.ofNat 4 (field w 22 21)) (Fin.ofNat 8 (field w 20 18)) ta, field w 17 9 == 0)
  | 0x6d => one w fun p ta => (.rets p ta, field w 22 9 == 0)
  | 0x6e => one w fun p ta => (.retc p ta, field w 22 9 == 0)
  | 0x6f => one w fun p ta => (.wmsk p ta, field w 22 9 == 0)
  | 0x70 => one w fun p ta => (.l2fl p ta, field w 22 9 == 0)
  | 0x71 => one w fun p ta => (.nmld p (Fin.ofNat 32 (field w 22 18)) ta, field w 17 9 == 0)
  | 0x72 => one w fun p ta => (.nmgo p ta, field w 22 9 == 0)
  | 0x73 => one w fun p ta => (.nmbx p ta, field w 22 9 == 0)
  | 0x74 => one w fun p ta => (.nmwk p ta, field w 22 9 == 0)
  | 0x75 => one w fun p ta => (.trp p (BitVec.ofNat 9 (field w 17 9)) ta, field w 22 18 == 0)
  | 0x76 => one w fun p ta => (.eret p ta, field w 22 9 == 0)
  | 0x77 => one w fun p ta => (.csrr p ((Csr.ofCode (field w 20 9)).getD .time) ta, field w 22 21 == 0 && (Csr.ofCode (field w 20 9)).isSome)
  | 0x78 => one w fun p ta => (.csrw p ((Csr.ofCode (field w 20 9)).getD .time) ta, field w 22 21 == 0 && (Csr.ofCode (field w 20 9)).isSome)
  | 0x79 => one w fun p ta => (.idle p ta, field w 22 9 == 0)
  | 0x7a => one w fun p ta => (.mbxr p ta, field w 22 9 == 0)
  | 0x7b => one w fun p ta => (.mbxwResume p ta, field w 22 9 == 0)
  | 0x7c => one w fun p ta => (.irq p (Fin.ofNat 64 (field w 14 9)) ta, field w 22 15 == 0 && decide (5 ≤ field w 14 9))
  | 0x7d => one w fun p ta => (.tlbi p ((Scope.ofCode (field w 12 9)).getD .dev) ta, field w 22 13 == 0 && (Scope.ofCode (field w 12 9)).isSome)
  | 0x7e => one w fun p ta => (.atst p ta, field w 22 9 == 0)
  | _ => .error .reservedOpcode

/-- The decoder of a block word: total, and a refusal names its exception. -/
def decode (w : Nat) : Except Reject Instr :=
  match decodeLoose w with
  | .error r => .error r
  | .ok (i, good) => if good then .ok i else .error .reservedField

/-- The fields of the element configuration word (R229). -/
def cfgOf (w : Nat) : ElemCfg where
  ofmt := BitVec.ofNat 4 (field w 119 116)
  ifmt := BitVec.ofNat 4 (field w 115 112)
  afmt := BitVec.ofNat 4 (field w 111 108)
  rnd := BitVec.ofNat 3 (field w 107 105)
  satm := BitVec.ofNat 2 (field w 104 103)
  side := BitVec.ofNat 1 (field w 102 102)
  na := BitVec.ofNat 1 (field w 101 101)
  nb := BitVec.ofNat 1 (field w 100 100)
  nc := BitVec.ofNat 1 (field w 99 99)
  pinv := BitVec.ofNat 1 (field w 98 98)
  rsv := BitVec.ofNat 2 (field w 97 96)
  imm := BitVec.ofNat 32 (field w 95 64)
  sela := BitVec.ofNat 4 (field w 63 60)
  selb := BitVec.ofNat 4 (field w 59 56)
  selc := BitVec.ofNat 4 (field w 55 52)
  selp := BitVec.ofNat 4 (field w 51 48)
  dst0 := BitVec.ofNat 8 (field w 47 40)
  dst1 := BitVec.ofNat 8 (field w 39 32)
  dst2 := BitVec.ofNat 8 (field w 31 24)
  stpl := BitVec.ofNat 3 (field w 23 21)
  ops := BitVec.ofNat 21 (field w 20 0)

/-- The element opcode map of R232, for the words that configure an operation. The empty element
0x00, the role words MBUF, LBUF and CBNK, which only shape an M-tile (R324), the Folio node codes
0x58-0x5B and the reserved codes name no operation of an element word. -/
def decodeElem (w : Nat) : Option Instr :=
  match field w 127 120 with
  | 0x10 => some (.vadd (cfgOf w))
  | 0x11 => some (.vsub (cfgOf w))
  | 0x12 => some (.vmul (cfgOf w))
  | 0x13 => some (.vfma (cfgOf w))
  | 0x14 => some (.vmin (cfgOf w))
  | 0x15 => some (.vmax (cfgOf w))
  | 0x16 => some (.vabs (cfgOf w))
  | 0x17 => some (.vneg (cfgOf w))
  | 0x18 => some (.vand (cfgOf w))
  | 0x19 => some (.vor (cfgOf w))
  | 0x1a => some (.vxor (cfgOf w))
  | 0x1b => some (.vshl (cfgOf w))
  | 0x1c => some (.vshr (cfgOf w))
  | 0x1d => some (.vsar (cfgOf w))
  | 0x1e => some (.vcmp (cfgOf w))
  | 0x1f => some (.vclp (cfgOf w))
  | 0x20 => some (.vscl (cfgOf w))
  | 0x21 => some (.vred (cfgOf w))
  | 0x22 => some (.vacc (cfgOf w))
  | 0x23 => some (.vex2 (cfgOf w))
  | 0x24 => some (.vrcp (cfgOf w))
  | 0x25 => some (.vsel (cfgOf w))
  | 0x26 => some (.vprm (cfgOf w))
  | 0x30 => some (.cvt (cfgOf w))
  | 0x31 => some (.cvts (cfgOf w))
  | 0x32 => some (.rng (cfgOf w))
  | 0x38 => some (.oadd (cfgOf w))
  | 0x39 => some (.omlc (cfgOf w))
  | 0x3a => some (.ocmp (cfgOf w))
  | 0x3b => some (.sde (cfgOf w))
  | 0x3c => some (.sdd (cfgOf w))
  | 0x40 => some (.str (cfgOf w))
  | 0x41 => some (.mrg (cfgOf w))
  | 0x42 => some (.cmrg (cfgOf w))
  | 0x43 => some (.cry (cfgOf w))
  | 0x44 => some (.ivr (cfgOf w))
  | 0x45 => some (.rsel (cfgOf w))
  | 0x46 => some (.flt (cfgOf w))
  | 0x47 => some (.stpg (cfgOf w))
  | 0x48 => some (.stpc (cfgOf w))
  | 0x49 => some (.rpt (cfgOf w))
  | 0x4a => some (.jn (cfgOf w))
  | 0x4b => some (.pad (cfgOf w))
  | 0x4c => some (.ngen (cfgOf w))
  | 0x50 => some (.mma (cfgOf w))
  | 0x51 => some (.mmaw (cfgOf w))
  | 0x52 => some (.wpl (cfgOf w))
  | 0x53 => some (.dly (cfgOf w))
  | 0x54 => some (.lrec (cfgOf w))
  | 0x55 => some (.adrn (cfgOf w))
  | 0x60 => some (.agr (cfgOf w))
  | 0x61 => some (.agw (cfgOf w))
  | 0x63 => some (.tfifo (cfgOf w))
  | 0x68 => some (.fin (cfgOf w))
  | 0x69 => some (.fout (cfgOf w))
  | 0x6a => some (.fisx (cfgOf w))
  | 0x6b => some (.funi (cfgOf w))
  | _ => none

/-- The fields of a Folio node entry (R126). -/
def folioOf (w : Nat) : FolioNode where
  wid := BitVec.ofNat 2 (field w 59 58)
  rsv := BitVec.ofNat 2 (field w 57 56)
  sa := BitVec.ofNat 12 (field w 55 44)
  rest := BitVec.ofNat 44 (field w 43 0)

/-- A Folio node entry (R126); NOP 4 to 15 are reserved. -/
def decodeFolio (w : Nat) : Option Instr :=
  match field w 63 60 with
  | 0 => some (.sha (folioOf w))
  | 1 => some (.sum4 (folioOf w))
  | 2 => some (.tap (folioOf w))
  | 3 => some (.nrw (folioOf w))
  | _ => none

/-- The fields of a near-bank node word (R291). -/
def nbOf (w : Nat) : NbNode where
  nft := BitVec.ofNat 1 (field w 59 59)
  dan := BitVec.ofNat 4 (field w 58 55)
  dap := BitVec.ofNat 1 (field w 54 54)
  dav := BitVec.ofNat 1 (field w 53 53)
  dbn := BitVec.ofNat 4 (field w 52 49)
  dbp := BitVec.ofNat 1 (field w 48 48)
  dbv := BitVec.ofNat 1 (field w 47 47)
  ri := BitVec.ofNat 1 (field w 46 46)
  rsv := BitVec.ofNat 14 (field w 45 32)
  imm := BitVec.ofNat 32 (field w 31 0)

/-- A near-bank node word (R291); NOPC 0 is no node and 13 to 15 are reserved. -/
def decodeNode (w : Nat) : Option Instr :=
  match field w 63 60 with
  | 1 => some (.nbRdw (nbOf w))
  | 2 => some (.nbWrw (nbOf w))
  | 3 => some (.nbAdd (nbOf w))
  | 4 => some (.nbMul (nbOf w))
  | 5 => some (.nbMac (nbOf w))
  | 6 => some (.nbMin (nbOf w))
  | 7 => some (.nbMax (nbOf w))
  | 8 => some (.nbCmp (nbOf w))
  | 9 => some (.nbSel (nbOf w))
  | 10 => some (.nbCnt (nbOf w))
  | 11 => some (.nbMbx (nbOf w))
  | 12 => some (.nbDone (nbOf w))
  | _ => none

/-- The fields of a command entry, its eight words joined with word 0 lowest (R182). -/
def entryOf (w : Nat) : CmdEntry where
  seq := BitVec.ofNat 32 (field w 63 32)
  rsv1 := BitVec.ofNat 6 (field w 23 18)
  ser := BitVec.ofNat 1 (field w 17 17)
  irqc := BitVec.ofNat 1 (field w 16 16)
  pri := BitVec.ofNat 8 (field w 15 8)
  rsv0 := BitVec.ofNat 8 (field w 7 0)
  w1 := BitVec.ofNat 64 (field w 127 64)
  w2 := BitVec.ofNat 64 (field w 191 128)
  w3 := BitVec.ofNat 64 (field w 255 192)
  w4 := BitVec.ofNat 64 (field w 319 256)
  w5 := BitVec.ofNat 64 (field w 383 320)
  w6 := BitVec.ofNat 64 (field w 447 384)
  tag := BitVec.ofNat 64 (field w 511 448)

/-- A command entry read from a queue (R182); for OPC 0x44 the item of word 1 [15:8] names the
row (R183). Every other OPC names no command. -/
def decodeCmd (q : QueueRef) (w : Nat) : Option Instr :=
  match field w 31 24 with
  | 0x00 => some (.nop q (entryOf w))
  | 0x01 => some (.launch q (entryOf w))
  | 0x02 => some (.waitq q (entryOf w))
  | 0x03 => some (.signal q (entryOf w))
  | 0x10 => some (.copy q (entryOf w))
  | 0x20 => some (.nmrun q (entryOf w))
  | 0x30 => some (.ringreset q (entryOf w))
  | 0x31 => some (.tcreate q (entryOf w))
  | 0x32 => some (.tdestroy q (entryOf w))
  | 0x33 => some (.winset q (entryOf w))
  | 0x40 => some (.pcreate q (entryOf w))
  | 0x41 => some (.pdestroy q (entryOf w))
  | 0x42 => some (.preset q (entryOf w))
  | 0x43 => some (.pswap q (entryOf w))
  | 0x44 =>
    match field w 79 72 with
    | 0 => some (.psetStage1Root q (entryOf w))
    | 1 => some (.psetStage2Range q (entryOf w))
    | 2 => some (.psetInboundWindow q (entryOf w))
    | 3 => some (.psetRing q (entryOf w))
    | 4 => some (.psetInterruptVector q (entryOf w))
    | _ => none
  | _ => none

/-- The instruction of a word whose bits are numbered as spec/opcode_table.json numbers them. Every
row that the table gives bits is one 32-bit word (R213), stored little-endian (R5). -/
def decodeTableWord (nbits w : Nat) : Option Instr :=
  if 32 < nbits then none
  else
    match decode (natOfBytes (bytesOfNat 4 (w % 2 ^ nbits))) with
    | .ok i => some i
    | .error _ => none

/-- A field value placed at a bit position. -/
def sh (x k : Nat) : Nat := x * 2 ^ k

/-- A block word from its opcode, its predicate mode and its other fields in place (R214). -/
def word (op : Nat) (p : Pred) (fs : List Nat) : Nat := sh op 25 + sh p.code 23 + fs.foldr (· + ·) 0

/-- The words of the integer, immediate, compare and data forms (R214-R226). -/
def encodeData : Instr → Option Nat
  | .add p ty v ta tb => some (word 0x01 p [sh ty.code 20, sh (bnat v) 19, sh tb.code 9, ta.code])
  | .sub p ty v ta tb => some (word 0x02 p [sh ty.code 20, sh (bnat v) 19, sh tb.code 9, ta.code])
  | .mul p ty v ta tb => some (word 0x03 p [sh ty.code 20, sh (bnat v) 19, sh tb.code 9, ta.code])
  | .mulh p ty ta tb => some (word 0x04 p [sh ty.code 20, sh tb.code 9, ta.code])
  | .div p ty v ta tb => some (word 0x05 p [sh ty.code 20, sh (bnat v) 19, sh tb.code 9, ta.code])
  | .rem p ty ta tb => some (word 0x06 p [sh ty.code 20, sh tb.code 9, ta.code])
  | .and p ty ta tb => some (word 0x07 p [sh ty.code 20, sh tb.code 9, ta.code])
  | .or p ty ta tb => some (word 0x08 p [sh ty.code 20, sh tb.code 9, ta.code])
  | .xor p ty ta tb => some (word 0x09 p [sh ty.code 20, sh tb.code 9, ta.code])
  | .andn p ty ta tb => some (word 0x0a p [sh ty.code 20, sh tb.code 9, ta.code])
  | .shl p ty v ta tb => some (word 0x0b p [sh ty.code 20, sh (bnat v) 19, sh tb.code 9, ta.code])
  | .shr p ty ta tb => some (word 0x0c p [sh ty.code 20, sh tb.code 9, ta.code])
  | .sar p ty ta tb => some (word 0x0d p [sh ty.code 20, sh tb.code 9, ta.code])
  | .rol p ty ta tb => some (word 0x0e p [sh ty.code 20, sh tb.code 9, ta.code])
  | .min p ty ta tb => some (word 0x0f p [sh ty.code 20, sh tb.code 9, ta.code])
  | .max p ty ta tb => some (word 0x10 p [sh ty.code 20, sh tb.code 9, ta.code])
  | .clz p ty ta tb => some (word 0x11 p [sh ty.code 20, sh tb.code 9, ta.code])
  | .ctz p ty ta tb => some (word 0x12 p [sh ty.code 20, sh tb.code 9, ta.code])
  | .popc p ty ta tb => some (word 0x13 p [sh ty.code 20, sh tb.code 9, ta.code])
  | .ext p ty ta tb => some (word 0x14 p [sh ty.code 20, sh tb.code 9, ta.code])
  | .bswap p ty ta tb => some (word 0x15 p [sh ty.code 20, sh tb.code 9, ta.code])
  | .addi p k ta => some (word 0x16 p [sh k.toNat 9, ta.code])
  | .andi p k ta => some (word 0x17 p [sh k.toNat 9, ta.code])
  | .ori p k ta => some (word 0x18 p [sh k.toNat 9, ta.code])
  | .xori p k ta => some (word 0x19 p [sh k.toNat 9, ta.code])
  | .shli p u ta => some (word 0x1a p [sh u.val 9, ta.code])
  | .shri p u ta => some (word 0x1b p [sh u.val 9, ta.code])
  | .sari p u ta => some (word 0x1c p [sh u.val 9, ta.code])
  | .muli p k ta => some (word 0x1d p [sh k.toNat 9, ta.code])
  | .cst p k ta => some (word 0x1e p [sh k.toNat 9, ta.code])
  | .csth p k ta => some (word 0x1f p [sh k.toNat 9, ta.code])
  | .cmp p ty cc ta => some (word 0x20 p [sh ty.code 20, sh cc.code 17, ta.code])
  | .tst p ty cc ta => some (word 0x21 p [sh ty.code 20, sh cc.code 17, ta.code])
  | .sel p ty ta tb => some (word 0x22 p [sh ty.code 20, sh tb.code 9, ta.code])
  | .lea p k ta => some (word 0x23 p [sh k.toNat 9, ta.code])
  | .addp p ta tb => some (word 0x24 p [sh tb.code 9, ta.code])
  | .algn p dn m ta => some (word 0x25 p [sh (bnat dn) 15, sh m.val 9, ta.code])
  | .rd p g ta => some (word 0x26 p [sh g.val 9, ta.code])
  | .mov p ta tb => some (word 0x27 p [sh tb.code 9, ta.code])
  | .recv p ch ta => some (word 0x28 p [sh ch.val 9, ta.code])
  | .peek p mk ch ta => some (word 0x29 p [sh (bnat mk) 15, sh ch.val 9, ta.code])
  | .nul p ta tb => some (word 0x2a p [sh tb.code 9, ta.code])
  | _ => none

/-- The words of the exits and the scalar float forms (R214-R226). -/
def encodeFlow : Instr → Option Nat
  | .br p ex off => some (word 0x2b p [sh ex.val 20, off.toNat])
  | .call p ex off => some (word 0x2d p [sh ex.val 20, off.toNat])
  | .brx p ex => some (word 0x2c p [sh ex.val 20])
  | .ret p ex => some (word 0x2e p [sh ex.val 20])
  | .wait p ex => some (word 0x2f p [sh ex.val 20])
  | .yld p ex => some (word 0x30 p [sh ex.val 20])
  | .halt p ex => some (word 0x31 p [sh ex.val 20])
  | .fadd p ft r sm ta => some (word 0x32 p [sh ft.code 21, sh r.code 18, sh sm.code 16, ta.code])
  | .fsub p ft r sm ta => some (word 0x33 p [sh ft.code 21, sh r.code 18, sh sm.code 16, ta.code])
  | .fmul p ft r sm ta => some (word 0x34 p [sh ft.code 21, sh r.code 18, sh sm.code 16, ta.code])
  | .fma p ft r sm ta => some (word 0x35 p [sh ft.code 21, sh r.code 18, sh sm.code 16, ta.code])
  | .fdiv p ft r sm ta => some (word 0x36 p [sh ft.code 21, sh r.code 18, sh sm.code 16, ta.code])
  | .fsqrt p ft r sm ta => some (word 0x37 p [sh ft.code 21, sh r.code 18, sh sm.code 16, ta.code])
  | .fmin p ft ta => some (word 0x38 p [sh ft.code 21, ta.code])
  | .fmax p ft ta => some (word 0x39 p [sh ft.code 21, ta.code])
  | .fcmp p ft cc ta => some (word 0x3a p [sh ft.code 21, sh cc.code 12, ta.code])
  | .fcvt p ft r sm o d ta => some (word 0x3b p [sh ft.code 21, sh r.code 18, sh sm.code 16, sh o.code 12, sh (bnat d) 11, ta.code])
  | .fcls p ft ta => some (word 0x3c p [sh ft.code 21, ta.code])
  | _ => none

/-- The words of the memory, fence, barrier and fabric control forms (R214-R226). -/
def encodeMem : Instr → Option Nat
  | .ld p m sz o ta => some (word 0x40 p [sh m.val 18, sh sz.code 15, sh o.code 9, ta.code])
  | .ldx p m sz o ta => some (word 0x42 p [sh m.val 18, sh sz.code 15, sh o.code 9, ta.code])
  | .st p m sz o off => some (word 0x41 p [sh m.val 18, sh sz.code 15, sh o.code 9, off.toNat])
  | .stx p m sz o off => some (word 0x43 p [sh m.val 18, sh sz.code 15, sh o.code 9, off.toNat])
  | .prf p m sz h => some (word 0x44 p [sh m.val 18, sh sz.val 15, sh h.code 9])
  | .cln p sc ta => some (word 0x45 p [sh sc.code 9, ta.code])
  | .inv p sc ta => some (word 0x46 p [sh sc.code 9, ta.code])
  | .amo p m wd op sc ta => some (word 0x47 p [sh m.val 18, sh (bnat wd) 17, sh op.code 13, sh (optScopeCode sc) 9, ta.code])
  | .cas p m wd sc ta => some (word 0x48 p [sh m.val 18, sh (bnat wd) 17, sh (optScopeCode sc) 9, ta.code])
  | .cas2 p m sc ta => some (word 0x49 p [sh m.val 18, sh 1 17, sh (optScopeCode sc) 9, ta.code])
  | .fnc p o sc ta => some (word 0x4a p [sh o.code 13, sh sc.code 9, ta.code])
  | .fncx p ta => some (word 0x4b p [ta.code])
  | .bari p bid sc ta => some (word 0x4c p [sh bid.val 17, sh sc.code 9, ta.code])
  | .bara p bid sc ta => some (word 0x4d p [sh bid.val 17, sh sc.code 9, ta.code])
  | .barw p bid sc ta => some (word 0x4e p [sh bid.val 17, sh sc.code 9, ta.code])
  | .cfgl p cx rg ta => some (word 0x4f p [sh cx.val 21, sh rg.val 18, ta.code])
  | .cfgs p ta => some (word 0x50 p [ta.code])
  | .arm p cx rg ta => some (word 0x51 p [sh cx.val 21, sh rg.val 18, ta.code])
  | .darm p cx rg fre ta => some (word 0x52 p [sh cx.val 21, sh rg.val 18, sh (bnat fre) 17, ta.code])
  | .ctxm p cx rg mw md ta => some (word 0x53 p [sh cx.val 21, sh rg.val 18, sh (bnat mw) 17, sh (bnat md) 16, ta.code])
  | .chbRouteDefault p ta => some (word 0x54 p [ta.code])
  | .chbRoute p ta => some (word 0x54 p [ta.code])
  | .chbBind p ta => some (word 0x54 p [ta.code])
  | .inj p m ta => some (word 0x55 p [sh m.val 18, ta.code])
  | _ => none

/-- The words of the engine, fibre, Concordance, graph, L2, near-memory and system forms (R214-R226). -/
def encodeSys : Instr → Option Nat
  | .cpy p m h ta => some (word 0x56 p [sh m.val 18, sh h.code 9, ta.code])
  | .mcst p m h ta => some (word 0x57 p [sh m.val 18, sh h.code 9, ta.code])
  | .gth p m h ta => some (word 0x58 p [sh m.val 18, sh h.code 9, ta.code])
  | .sct p m h ta => some (word 0x59 p [sh m.val 18, sh h.code 9, ta.code])
  | .ksel p m h ta => some (word 0x5a p [sh m.val 18, sh h.code 9, ta.code])
  | .kvpk p m h ta => some (word 0x5b p [sh m.val 18, sh h.code 9, ta.code])
  | .axrd p m h ta => some (word 0x5c p [sh m.val 18, sh h.code 9, ta.code])
  | .axwr p m h ta => some (word 0x5d p [sh m.val 18, sh h.code 9, ta.code])
  | .rsp p ta => some (word 0x5e p [ta.code])
  | .fnew p m ta => some (word 0x5f p [sh m.val 18, ta.code])
  | .fnewGrant p m ta => some (word 0x5f p [sh m.val 18, sh 1 17, ta.code])
  | .fdel p m ta => some (word 0x60 p [sh m.val 18, ta.code])
  | .fmrg p m mo dz ta => some (word 0x61 p [sh m.val 18, sh mo.code 15, sh (bnat dz) 14, ta.code])
  | .fscn p m l ta => some (word 0x62 p [sh m.val 18, sh l.val 15, ta.code])
  | .fprb p m ta => some (word 0x63 p [sh m.val 18, ta.code])
  | .flen p m ta => some (word 0x64 p [sh m.val 18, ta.code])
  | .snph p ta => some (word 0x65 p [ta.code])
  | .snpf p m ta => some (word 0x66 p [sh m.val 18, ta.code])
  | .snpp p m ta => some (word 0x67 p [sh m.val 18, ta.code])
  | .snpg p m ta => some (word 0x68 p [sh m.val 18, ta.code])
  | .snpr p m ta => some (word 0x69 p [sh m.val 18, ta.code])
  | .wgl p cx rg ta => some (word 0x6a p [sh cx.val 21, sh rg.val 18, ta.code])
  | .wgq p cx rg ta => some (word 0x6b p [sh cx.val 21, sh rg.val 18, ta.code])
  | .wgu p cx rg ta => some (word 0x6c p [sh cx.val 21, sh rg.val 18, ta.code])
  | .rets p ta => some (word 0x6d p [ta.code])
  | .retc p ta => some (word 0x6e p [ta.code])
  | .wmsk p ta => some (word 0x6f p [ta.code])
  | .l2fl p ta => some (word 0x70 p [ta.code])
  | .nmld p m ta => some (word 0x71 p [sh m.val 18, ta.code])
  | .nmgo p ta => some (word 0x72 p [ta.code])
  | .nmbx p ta => some (word 0x73 p [ta.code])
  | .nmwk p ta => some (word 0x74 p [ta.code])
  | .trp p t ta => some (word 0x75 p [sh t.toNat 9, ta.code])
  | .eret p ta => some (word 0x76 p [ta.code])
  | .csrr p c ta => some (word 0x77 p [sh c.code 9, ta.code])
  | .csrw p c ta => some (word 0x78 p [sh c.code 9, ta.code])
  | .idle p ta => some (word 0x79 p [ta.code])
  | .mbxr p ta => some (word 0x7a p [ta.code])
  | .mbxwResume p ta => some (word 0x7b p [ta.code])
  | .mbxwAbort p ta => some (word 0x7b p [ta.code])
  | .mbxwPop p ta => some (word 0x7b p [ta.code])
  | .mbxwDelegate p ta => some (word 0x7b p [ta.code])
  | .irq p v ta => some (word 0x7c p [sh v.val 9, ta.code])
  | .tlbi p sc ta => some (word 0x7d p [sh sc.code 9, ta.code])
  | .atst p ta => some (word 0x7e p [ta.code])
  | _ => none

/-- The word of a block instruction (R214-R226); none for the other steps. -/
def encode (i : Instr) : Option Nat :=
  match encodeData i with
  | some w => some w
  | none =>
    match encodeFlow i with
    | some w => some w
    | none =>
      match encodeMem i with
      | some w => some w
      | none => encodeSys i

/-- Bits [119:0] of the element word (R229). -/
def ElemCfg.bits (c : ElemCfg) : Nat :=
  c.ofmt.toNat * 2 ^ 116 + c.ifmt.toNat * 2 ^ 112 + c.afmt.toNat * 2 ^ 108 + c.rnd.toNat * 2 ^ 105 +
  c.satm.toNat * 2 ^ 103 + c.side.toNat * 2 ^ 102 + c.na.toNat * 2 ^ 101 + c.nb.toNat * 2 ^ 100 +
  c.nc.toNat * 2 ^ 99 + c.pinv.toNat * 2 ^ 98 + c.rsv.toNat * 2 ^ 96 + c.imm.toNat * 2 ^ 64 +
  c.sela.toNat * 2 ^ 60 + c.selb.toNat * 2 ^ 56 + c.selc.toNat * 2 ^ 52 + c.selp.toNat * 2 ^ 48 +
  c.dst0.toNat * 2 ^ 40 + c.dst1.toNat * 2 ^ 32 + c.dst2.toNat * 2 ^ 24 + c.stpl.toNat * 2 ^ 21 +
  c.ops.toNat

/-- Bits [59:0] of a Folio node entry (R126). -/
def FolioNode.bits (n : FolioNode) : Nat :=
  n.wid.toNat * 2 ^ 58 + n.rsv.toNat * 2 ^ 56 + n.sa.toNat * 2 ^ 44 + n.rest.toNat

/-- Bits [59:0] of a near-bank node word (R291). -/
def NbNode.bits (n : NbNode) : Nat :=
  n.nft.toNat * 2 ^ 59 + n.dan.toNat * 2 ^ 55 + n.dap.toNat * 2 ^ 54 + n.dav.toNat * 2 ^ 53 +
  n.dbn.toNat * 2 ^ 49 + n.dbp.toNat * 2 ^ 48 + n.dbv.toNat * 2 ^ 47 + n.ri.toNat * 2 ^ 46 +
  n.rsv.toNat * 2 ^ 32 + n.imm.toNat

/-- The eight words of a command entry, joined with word 0 lowest (R182). -/
def CmdEntry.words (e : CmdEntry) (opc : Nat) : Nat :=
  e.seq.toNat * 2 ^ 32 + opc * 2 ^ 24 + e.rsv1.toNat * 2 ^ 18 + e.ser.toNat * 2 ^ 17 +
  e.irqc.toNat * 2 ^ 16 + e.pri.toNat * 2 ^ 8 + e.rsv0.toNat + e.w1.toNat * 2 ^ 64 +
  e.w2.toNat * 2 ^ 128 + e.w3.toNat * 2 ^ 192 + e.w4.toNat * 2 ^ 256 + e.w5.toNat * 2 ^ 320 +
  e.w6.toNat * 2 ^ 384 + e.tag.toNat * 2 ^ 448

/-- The configuration word of an element operation (R229, R232). -/
def encodeElem : Instr → Option Nat
  | .vadd c => some (0x10 * 2 ^ 120 + c.bits)
  | .vsub c => some (0x11 * 2 ^ 120 + c.bits)
  | .vmul c => some (0x12 * 2 ^ 120 + c.bits)
  | .vfma c => some (0x13 * 2 ^ 120 + c.bits)
  | .vmin c => some (0x14 * 2 ^ 120 + c.bits)
  | .vmax c => some (0x15 * 2 ^ 120 + c.bits)
  | .vabs c => some (0x16 * 2 ^ 120 + c.bits)
  | .vneg c => some (0x17 * 2 ^ 120 + c.bits)
  | .vand c => some (0x18 * 2 ^ 120 + c.bits)
  | .vor c => some (0x19 * 2 ^ 120 + c.bits)
  | .vxor c => some (0x1a * 2 ^ 120 + c.bits)
  | .vshl c => some (0x1b * 2 ^ 120 + c.bits)
  | .vshr c => some (0x1c * 2 ^ 120 + c.bits)
  | .vsar c => some (0x1d * 2 ^ 120 + c.bits)
  | .vcmp c => some (0x1e * 2 ^ 120 + c.bits)
  | .vclp c => some (0x1f * 2 ^ 120 + c.bits)
  | .vscl c => some (0x20 * 2 ^ 120 + c.bits)
  | .vred c => some (0x21 * 2 ^ 120 + c.bits)
  | .vacc c => some (0x22 * 2 ^ 120 + c.bits)
  | .vex2 c => some (0x23 * 2 ^ 120 + c.bits)
  | .vrcp c => some (0x24 * 2 ^ 120 + c.bits)
  | .vsel c => some (0x25 * 2 ^ 120 + c.bits)
  | .vprm c => some (0x26 * 2 ^ 120 + c.bits)
  | .cvt c => some (0x30 * 2 ^ 120 + c.bits)
  | .cvts c => some (0x31 * 2 ^ 120 + c.bits)
  | .rng c => some (0x32 * 2 ^ 120 + c.bits)
  | .oadd c => some (0x38 * 2 ^ 120 + c.bits)
  | .omlc c => some (0x39 * 2 ^ 120 + c.bits)
  | .ocmp c => some (0x3a * 2 ^ 120 + c.bits)
  | .sde c => some (0x3b * 2 ^ 120 + c.bits)
  | .sdd c => some (0x3c * 2 ^ 120 + c.bits)
  | .str c => some (0x40 * 2 ^ 120 + c.bits)
  | .mrg c => some (0x41 * 2 ^ 120 + c.bits)
  | .cmrg c => some (0x42 * 2 ^ 120 + c.bits)
  | .cry c => some (0x43 * 2 ^ 120 + c.bits)
  | .ivr c => some (0x44 * 2 ^ 120 + c.bits)
  | .rsel c => some (0x45 * 2 ^ 120 + c.bits)
  | .flt c => some (0x46 * 2 ^ 120 + c.bits)
  | .stpg c => some (0x47 * 2 ^ 120 + c.bits)
  | .stpc c => some (0x48 * 2 ^ 120 + c.bits)
  | .rpt c => some (0x49 * 2 ^ 120 + c.bits)
  | .jn c => some (0x4a * 2 ^ 120 + c.bits)
  | .pad c => some (0x4b * 2 ^ 120 + c.bits)
  | .ngen c => some (0x4c * 2 ^ 120 + c.bits)
  | .mma c => some (0x50 * 2 ^ 120 + c.bits)
  | .mmaw c => some (0x51 * 2 ^ 120 + c.bits)
  | .wpl c => some (0x52 * 2 ^ 120 + c.bits)
  | .dly c => some (0x53 * 2 ^ 120 + c.bits)
  | .lrec c => some (0x54 * 2 ^ 120 + c.bits)
  | .adrn c => some (0x55 * 2 ^ 120 + c.bits)
  | .agr c => some (0x60 * 2 ^ 120 + c.bits)
  | .agw c => some (0x61 * 2 ^ 120 + c.bits)
  | .tfifo c => some (0x63 * 2 ^ 120 + c.bits)
  | .fin c => some (0x68 * 2 ^ 120 + c.bits)
  | .fout c => some (0x69 * 2 ^ 120 + c.bits)
  | .fisx c => some (0x6a * 2 ^ 120 + c.bits)
  | .funi c => some (0x6b * 2 ^ 120 + c.bits)
  | _ => none

/-- The node entry of a Folio node (R126). -/
def encodeFolio : Instr → Option Nat
  | .sha c => some (0 * 2 ^ 60 + c.bits)
  | .sum4 c => some (1 * 2 ^ 60 + c.bits)
  | .tap c => some (2 * 2 ^ 60 + c.bits)
  | .nrw c => some (3 * 2 ^ 60 + c.bits)
  | _ => none

/-- The word of a near-bank node (R291). -/
def encodeNode : Instr → Option Nat
  | .nbRdw c => some (1 * 2 ^ 60 + c.bits)
  | .nbWrw c => some (2 * 2 ^ 60 + c.bits)
  | .nbAdd c => some (3 * 2 ^ 60 + c.bits)
  | .nbMul c => some (4 * 2 ^ 60 + c.bits)
  | .nbMac c => some (5 * 2 ^ 60 + c.bits)
  | .nbMin c => some (6 * 2 ^ 60 + c.bits)
  | .nbMax c => some (7 * 2 ^ 60 + c.bits)
  | .nbCmp c => some (8 * 2 ^ 60 + c.bits)
  | .nbSel c => some (9 * 2 ^ 60 + c.bits)
  | .nbCnt c => some (10 * 2 ^ 60 + c.bits)
  | .nbMbx c => some (11 * 2 ^ 60 + c.bits)
  | .nbDone c => some (12 * 2 ^ 60 + c.bits)
  | _ => none

/-- The entry of a command (R182, R183). -/
def encodeCmd : Instr → Option Nat
  | .nop _ e => some (e.words 0x00)
  | .launch _ e => some (e.words 0x01)
  | .waitq _ e => some (e.words 0x02)
  | .signal _ e => some (e.words 0x03)
  | .copy _ e => some (e.words 0x10)
  | .nmrun _ e => some (e.words 0x20)
  | .ringreset _ e => some (e.words 0x30)
  | .tcreate _ e => some (e.words 0x31)
  | .tdestroy _ e => some (e.words 0x32)
  | .winset _ e => some (e.words 0x33)
  | .pcreate _ e => some (e.words 0x40)
  | .pdestroy _ e => some (e.words 0x41)
  | .preset _ e => some (e.words 0x42)
  | .pswap _ e => some (e.words 0x43)
  | .psetStage1Root _ e => some (e.words 0x44)
  | .psetStage2Range _ e => some (e.words 0x44)
  | .psetInboundWindow _ e => some (e.words 0x44)
  | .psetRing _ e => some (e.words 0x44)
  | .psetInterruptVector _ e => some (e.words 0x44)
  | _ => none

end Sys2Proof
end

