-- ==== Sys2Proof/Machine/Numbers.lean ====
section
/-!
DEFINITION. Numbers and their rounding (spec/08_numbers.md R142-R151, R155): exact values, the
formats, one rounding, one saturation rule, and the flags they set.
-/

namespace Sys2Proof.Machine

/-- An exact value: NaN, an infinity, or sign, numerator and denominator (denominator not 0). -/
inductive Val where
  | nan
  | inf (neg : Bool)
  | fin (neg : Bool) (num den : Nat)
  deriving DecidableEq, Repr

/-- The floating-point formats of R143. -/
inductive Flt where
  | f32 | f16 | bf16 | e5m2 | e4m3 | e2m1
  deriving DecidableEq, Repr

namespace Flt

/-- Fraction bits M (R143). -/
def m : Flt → Nat
  | .f32 => 23 | .f16 => 10 | .bf16 => 7 | .e5m2 => 2 | .e4m3 => 3 | .e2m1 => 1

/-- Exponent bits E (R143). -/
def e : Flt → Nat
  | .f32 => 8 | .f16 => 5 | .bf16 => 8 | .e5m2 => 5 | .e4m3 => 4 | .e2m1 => 2

/-- Bias (R143). -/
def bias : Flt → Nat
  | .f32 => 127 | .f16 => 15 | .bf16 => 127 | .e5m2 => 15 | .e4m3 => 7 | .e2m1 => 1

/-- Width in bits. -/
def width (f : Flt) : Nat := 1 + f.e + f.m

/-- Pattern of the largest finite magnitude (R143). -/
def maxFin : Flt → Nat
  | .f32 => 0x7F7FFFFF | .f16 => 0x7BFF | .bf16 => 0x7F7F | .e5m2 => 0x7B | .e4m3 => 0x7E | .e2m1 => 0x7

/-- Pattern of +infinity, where the format has one (R143). -/
def infPat : Flt → Option Nat
  | .f32 => some 0x7F800000 | .f16 => some 0x7C00 | .bf16 => some 0x7F80 | .e5m2 => some 0x7C
  | .e4m3 => none | .e2m1 => none

/-- Canonical NaN (R143); e2m1 has none, and its NaN rule gives +0 (R150). -/
def nanPat : Flt → Nat
  | .f32 => 0x7FC00000 | .f16 => 0x7E00 | .bf16 => 0x7FC0 | .e5m2 => 0x7E | .e4m3 => 0x7F | .e2m1 => 0

end Flt

/-- A scaled numerator: n × 2^k as numerator and denominator. -/
def pow2Val (neg : Bool) (n : Nat) (k : Int) : Val :=
  if 0 ≤ k then .fin neg (n * 2 ^ k.toNat) 1 else .fin neg n (2 ^ (-k).toNat)

/-- The value of a pattern of a floating-point format (R142, R143). -/
def Flt.decode (f : Flt) (pat : Nat) : Val :=
  let p := pat % 2 ^ f.width
  let neg := bitAt p (f.width - 1)
  let mag := p % 2 ^ (f.width - 1)
  match f with
  | .e4m3 => if mag = 0x7F then .nan else mant neg mag
  | .e2m1 => mant neg mag
  | _ =>
    match f.infPat with
    | some i => if mag = i then .inf neg else if i < mag then .nan else mant neg mag
    | none => mant neg mag
where
  /-- A finite pattern: subnormal or normal. -/
  mant (neg : Bool) (mag : Nat) : Val :=
    let ex := mag / 2 ^ f.m
    let fr := mag % 2 ^ f.m
    if ex = 0 then pow2Val neg fr (1 - (f.bias : Int) - f.m)
    else pow2Val neg (2 ^ f.m + fr) ((ex : Int) - f.bias - f.m)

/-- The e8m0 scale code as an exponent; 0xFF is the NaN scale (R144). -/
def scaleExp (code : Nat) : Option Int :=
  if code % 256 = 255 then none else some (((code % 256 : Nat) : Int) - 127)

namespace Val

/-- A value times 2^k. -/
def scale (k : Int) : Val → Val
  | .fin n a b => if 0 ≤ k then .fin n (a * 2 ^ k.toNat) b else .fin n a (b * 2 ^ (-k).toNat)
  | v => v

/-- A value under an e8m0 scale code (R144, R61): NaN under the NaN scale. -/
def scaled (code : Nat) (v : Val) : Val :=
  match scaleExp code with
  | none => .nan
  | some k => v.scale k

/-- The exact value divided by 2^(code - 127) (R61). -/
def unscaled (code : Nat) (v : Val) : Val :=
  match scaleExp code with
  | none => .nan
  | some k => v.scale (-k)

/-- An integer as a value; zero is +0. -/
def ofInt (x : Int) : Val := .fin (decide (x < 0)) x.natAbs 1

/-- Sign change (NaN stays). -/
def neg : Val → Val
  | .nan => .nan | .inf n => .inf (!n) | .fin n a b => .fin (!n) a b

/-- Whether a value is zero. -/
def isZero : Val → Bool
  | .fin _ a _ => a == 0 | _ => false

/-- Whether a value is NaN. -/
def isNan : Val → Bool
  | .nan => true | _ => false

/-- Exact sum of finite values; an exact zero sum of opposite signs takes the sign rdn (R255). -/
def addFin (rdn : Bool) (n₁ : Bool) (a b : Nat) (n₂ : Bool) (c d : Nat) : Val :=
  if n₁ = n₂ then .fin n₁ (a * d + c * b) (b * d)
  else if a * d = c * b then .fin rdn 0 1
  else if a * d > c * b then .fin n₁ (a * d - c * b) (b * d)
  else .fin n₂ (c * b - a * d) (b * d)

/-- Exact sum, and whether it is invalid (R255). -/
def add (rdn : Bool) : Val → Val → Val × Bool
  | .nan, _ => (.nan, false)
  | _, .nan => (.nan, false)
  | .inf n, .inf m => if n = m then (.inf n, false) else (.nan, true)
  | .inf n, _ => (.inf n, false)
  | _, .inf n => (.inf n, false)
  | .fin n a b, .fin m c d => (addFin rdn n a b m c d, false)

/-- Exact product, and whether it is invalid (R255). -/
def mul : Val → Val → Val × Bool
  | .nan, _ => (.nan, false)
  | _, .nan => (.nan, false)
  | .inf n, .inf m => (.inf (n != m), false)
  | .inf n, .fin m c _ => if c = 0 then (.nan, true) else (.inf (n != m), false)
  | .fin n a _, .inf m => if a = 0 then (.nan, true) else (.inf (n != m), false)
  | .fin n a b, .fin m c d => (.fin (n != m) (a * c) (b * d), false)

/-- Signed numerator of a comparison. -/
def cross (n : Bool) (x : Nat) : Int := if n then -(x : Int) else (x : Int)

/-- Strictly less, for values that are not NaN; the zeros are equal. -/
def lt : Val → Val → Bool
  | .inf n, .inf m => n && !m
  | .inf n, .fin .. => n
  | .fin .., .inf m => !m
  | .fin n a b, .fin m c d => decide (cross n (a * d) < cross m (c * b))
  | _, _ => false

/-- Equal, for values that are not NaN; the zeros are equal. -/
def eqv : Val → Val → Bool
  | .inf n, .inf m => n == m
  | .fin n a b, .fin m c d => decide (cross n (a * d) = cross m (c * b))
  | _, _ => false

/-- Whether the sign is negative. -/
def isNeg : Val → Bool
  | .nan => false | .inf n => n | .fin n _ _ => n

/-- The smaller of two values, -0 below +0; NaN with any NaN (R256). -/
def min (x y : Val) : Val :=
  if x.isNan || y.isNan then .nan
  else if x.lt y then x else if y.lt x then y
  else if x.isZero && y.isZero then (if x.isNeg then x else y) else x

/-- The larger of two values, -0 below +0; NaN with any NaN (R256). -/
def max (x y : Val) : Val :=
  if x.isNan || y.isNan then .nan
  else if x.lt y then y else if y.lt x then x
  else if x.isZero && y.isZero then (if x.isNeg then y else x) else x

end Val

/-- A rounding: a mode of codes 0 to 4, or SR with b random bits (R150, R155). -/
inductive Round where
  | mode (r : Rnd)
  | sr (b rb : Nat)
  deriving DecidableEq, Repr

/-- floor(log2(num/den)) of a positive fraction. -/
def floorLog2 (num den : Nat) : Int :=
  let k : Int := (num.log2 : Int) - (den.log2 : Int)
  if 0 ≤ k then
    (if den * 2 ^ k.toNat ≤ num then k else k - 1)
  else
    (if den ≤ num * 2 ^ (-k).toNat then k else k - 1)

/-- Rounds the magnitude num/den to an integer: the integer, and whether that was inexact
(R149, R150, R155). -/
def roundNat (r : Round) (neg : Bool) (num den : Nat) : Nat × Bool :=
  let q := num / den
  let rem := num % den
  let up : Bool :=
    match r with
    | .mode .rne => decide (den < 2 * rem) || (decide (2 * rem = den) && decide (q % 2 = 1))
    | .mode .rtz => false
    | .mode .rdn => neg && decide (0 < rem)
    | .mode .rup => !neg && decide (0 < rem)
    | .mode .rna => decide (den ≤ 2 * rem)
    | .sr b rb => decide (rb < rem * 2 ^ b / den)
  (if up then q + 1 else q, decide (rem ≠ 0))

/-- Flag bits of fsr and of a context's flag word (R151). -/
def fNX : Nat := 1
def fUF : Nat := 2
def fOF : Nat := 4
def fINV : Nat := 8
def fDVZ : Nat := 16
def fSAT : Nat := 32
def fFMT : Nat := 64

/-- Joins two flag words. -/
def orF (a b : Nat) : Nat := Nat.lor a b

/-- The pattern with the sign bit of the format. -/
def Flt.signed (f : Flt) (neg : Bool) (mag : Nat) : Nat := mag + bnat neg * 2 ^ (f.width - 1)

/-- Whether a mode takes an overflow to the largest finite value (R150). -/
def towardZero (r : Round) (neg : Bool) : Bool :=
  match r with
  | .mode .rtz => true
  | .mode .rdn => !neg
  | .mode .rup => neg
  | _ => false

/-- Scales num/den by 2^(-k). -/
def scaleDown (num den : Nat) (k : Int) : Nat × Nat :=
  if 0 ≤ k then (num, den * 2 ^ k.toNat) else (num * 2 ^ (-k).toNat, den)

/-- Rounds an exact value to a floating-point format: the pattern and the flags (R149, R150);
`sat` is the saturation code 0 or 1. -/
def Flt.round (f : Flt) (r : Round) (sat : Nat) (v : Val) : Nat × Nat :=
  let finite := decide (sat = 1) || decide (f = .e2m1)
  match v with
  | .nan => (f.nanPat, if f = .e2m1 then fINV else 0)
  | .inf neg =>
    if finite then (f.signed neg f.maxFin, fSAT)
    else match f.infPat with
      | some p => (f.signed neg p, 0)
      | none => (f.nanPat, 0)
  | .fin neg num den =>
    if num = 0 then (f.signed neg 0, 0)
    else
      let qmin : Int := 1 - (f.bias : Int) - f.m
      let ex := floorLog2 num den - f.m
      let qe := if ex < qmin then qmin else ex
      let (sn, sd) := scaleDown num den qe
      let (n, inexact) := roundNat r neg sn sd
      let mag := n + (qe - qmin).toNat * 2 ^ f.m
      if f.maxFin < mag then
        if finite then (f.signed neg f.maxFin, orF fOF (orF fSAT fNX))
        else match f.infPat with
          | some p => (f.signed neg (if towardZero r neg then f.maxFin else p), orF fOF fNX)
          | none => (f.nanPat, orF fOF fNX)
      else
        let (un, ud) := scaleDown num den ex
        let (n', _) := roundNat r neg un ud
        let tiny := decide (ex < qmin) && !(decide (ex + 1 = qmin) && decide (2 ^ (f.m + 1) ≤ n'))
        (f.signed neg mag, orF (if inexact then fNX else 0) (if inexact && tiny then fUF else 0))

/-- Rounds an exact value to an integer type of w bits: the pattern and the flags (R149, R150);
`sat` 2 is wrap, every other code clamps. -/
def roundInt (w : Nat) (sgn : Bool) (r : Round) (sat : Nat) (v : Val) : Nat × Nat :=
  let hi : Int := if sgn then 2 ^ (w - 1) - 1 else 2 ^ w - 1
  let lo : Int := if sgn then -(2 ^ (w - 1) : Int) else 0
  match v with
  | .nan => (0, fINV)
  | .inf neg => if sat = 2 then (0, fINV) else (patternOf w (if neg then lo else hi), fINV)
  | .fin neg num den =>
    let (n, inexact) := roundNat r neg num den
    let x : Int := if neg then -(n : Int) else n
    let nx := if inexact then fNX else 0
    if lo ≤ x ∧ x ≤ hi then (patternOf w x, nx)
    else if sat = 2 then (patternOf w x, nx)
    else (patternOf w (if x < lo then lo else hi), orF fSAT fNX)

/-- Rounds an exact value to a trit: -1, 0 or 1 as 0, 1, 2, and the flags (R147, R150). -/
def roundTrit (r : Round) (v : Val) : Nat × Nat :=
  match v with
  | .nan => (1, fINV)
  | .inf neg => (if neg then 0 else 2, fINV)
  | .fin neg num den =>
    let (n, inexact) := roundNat r neg num den
    let x : Int := if neg then -(n : Int) else n
    if x < -1 then (0, orF fSAT fNX)
    else if 1 < x then (2, orF fSAT fNX)
    else ((x + 1).toNat, if inexact then fNX else 0)

/-- The integer square root by bisection from the top bit; fuel bits. -/
def isqrtGo : Nat → Nat → Nat → Nat
  | 0, _, acc => acc
  | k + 1, n, acc =>
    let t := acc + 2 ^ k
    if t * t ≤ n then isqrtGo k n t else isqrtGo k n acc

/-- floor(√n). -/
def isqrt (n : Nat) : Nat := isqrtGo (n.log2 / 2 + 1) n 0

/-- A value strictly between the two 160-bit neighbours of √(num/den), or that root itself when it
is exact: it rounds to every format of R143 as the root does. -/
def sqrtVal (num den : Nat) : Val :=
  let x := num * 2 ^ 320 / den
  let r := isqrt x
  if r * r = x ∧ num * 2 ^ 320 % den = 0 then .fin false r (2 ^ 160)
  else .fin false (2 * r + 1) (2 ^ 161)

end Sys2Proof.Machine
end

