-- ==== Sys2Proof/Machine/Flags.lean ====
section
/-!
DEFINITION. The flag and cost registers: fsr and context flag words (R151, R152), cost words (R111).
-/

namespace Sys2Proof.Machine

/-- ORs flags into fsr; bits [63:7] are reserved and read zero (R151, R152). -/
def fsrOr (fsr : Word) (flags : Nat) : Word := wordOf (Nat.lor fsr.toNat flags % 128)

/-- What a CSRW leaves in fsr (R151). -/
def fsrWrite (v : Word) : Word := wordOf (v.toNat % 128)

/-- The fields of a cost word: reads, writes, splits, frees (R111). -/
def costWord (reads writes splits frees : Nat) : Word :=
  wordOf (Nat.min reads 0xFFFF + Nat.min writes 0xFFFF * 2 ^ 16 + Nat.min splits 0xFF * 2 ^ 32 +
    Nat.min frees 0xFF * 2 ^ 40)

/-- Adds a cost word field by field, each saturating at its maximum (R111). -/
def addCost (x y : Word) : Word :=
  costWord (field x.toNat 15 0 + field y.toNat 15 0) (field x.toNat 31 16 + field y.toNat 31 16)
    (field x.toNat 39 32 + field y.toNat 39 32) (field x.toNat 47 40 + field y.toNat 47 40)

/-- What a CSRW leaves in fcost; bits [63:48] are reserved (R111). -/
def fcostWrite (v : Word) : Word := wordOf (v.toNat % 2 ^ 48)

end Sys2Proof.Machine
end

