-- ==== Sys2Proof/Machine/Maps.lean ====
section
/-!
DEFINITION. Finite maps from numbers as lists of pairs in one canonical form: keys strictly rising.
-/

namespace Sys2Proof.Machine

/-- A finite map from numbers, keys strictly rising. -/
abbrev Map (α : Type) := List (Nat × α)

/-- The value at a key. -/
def mget {α : Type} : Map α → Nat → Option α
  | [], _ => none
  | (j, v) :: m, k => if j = k then some v else mget m k

/-- The value at a key, or a default. -/
def mgetD {α : Type} (m : Map α) (k : Nat) (d : α) : α := (mget m k).getD d

/-- Writes a key, in its place among the rising keys. -/
def mset {α : Type} : Map α → Nat → α → Map α
  | [], k, v => [(k, v)]
  | (j, u) :: m, k, v =>
    if k < j then (k, v) :: (j, u) :: m
    else if k = j then (k, v) :: m
    else (j, u) :: mset m k v

/-- Removes a key. -/
def merase {α : Type} : Map α → Nat → Map α
  | [], _ => []
  | (j, u) :: m, k => if j = k then merase m k else (j, u) :: merase m k

/-- Applies a function at a key, starting from a default. -/
def mmod {α : Type} (m : Map α) (k : Nat) (d : α) (f : α → α) : Map α := mset m k (f (mgetD m k d))

/-- Applies a function at a key that is present. -/
def madj {α : Type} (m : Map α) (k : Nat) (f : α → α) : Map α :=
  match mget m k with
  | some v => mset m k (f v)
  | none => m

/-- The keys in rising order. -/
def mkeys {α : Type} (m : Map α) : List Nat := m.map (·.1)

/-- The values in the order of their keys. -/
def mvals {α : Type} (m : Map α) : List α := m.map (·.2)

/-- The map with a function applied to every value. -/
def mmapv {α β : Type} (f : α → β) (m : Map α) : Map β := m.map fun p => (p.1, f p.2)

/-- Whether a key is present. -/
def mhas {α : Type} (m : Map α) (k : Nat) : Bool := (mget m k).isSome

/-- Keys strictly rising above a bound. -/
def msorted {α : Type} : Option Nat → Map α → Bool
  | _, [] => true
  | none, (k, _) :: m => msorted (some k) m
  | some b, (k, _) :: m => decide (b < k) && msorted (some k) m

/-- Replaces the element at an index of a list. -/
def lset {α : Type} : List α → Nat → α → List α
  | [], _, _ => []
  | _ :: xs, 0, v => v :: xs
  | x :: xs, n + 1, v => x :: lset xs n v

/-- The element at an index, or a default. -/
def lget {α : Type} : List α → Nat → α → α
  | [], _, d => d
  | x :: _, 0, _ => x
  | _ :: xs, n + 1, d => lget xs n d

/-- A list of n copies. -/
def lrep {α : Type} : Nat → α → List α
  | 0, _ => []
  | n + 1, v => v :: lrep n v

/-- Groups a list in pieces of n (a last short piece is kept); fuel is the list's length. -/
def chunksOf {α : Type} (n : Nat) : Nat → List α → List (List α)
  | 0, _ => []
  | fuel + 1, xs => if xs.isEmpty then [] else xs.take n :: chunksOf n fuel (xs.drop n)

end Sys2Proof.Machine
end

