-- ==== Sys2Proof/Machine/State.lean ====
section
/-!
DEFINITION. The state of the module as plain data: every piece of state the spec names (see
INVENTORY.md), the model's own scheduling fields, the reasons a step can stop, and the state after
reset. Unit numbers: a task is its `tid` word (R293), a channel its channel address (R266), an SE
the low ten bits of both, a region `REG` * 256 + `CL`, a grid tile die * 4096 + row * 64 + col, a
slice or P-tile die * 256 + number, a shelver stack * 64 + pseudo-channel, a near-bank unit
shelver * 4 + number, a tree die * 16 + number, a control core die * 4 + quadrant.
-/

namespace Sys2Proof.Machine

/-- Why the machine stops with a fault. No step of this model stops so: every failure the spec
describes is taken as the spec says (a record, a response, a refusal word), and the machine goes on. -/
inductive Fault where
  /-- Raised by no meaning; it only names the outcome. Safe. -/
  | neverRaised
  deriving DecidableEq, Repr

/-- Why a step is refused. -/
inductive Refusal where
  /-- Raised by `exec` for a row that has no meaning yet. Safe. -/
  | notModelled (mnemonic : String)
  /-- Raised by an event whose condition does not hold in the state; `step` never chooses one. Safe. -/
  | notEnabled
  /-- Raised by a block form, an element operation or a near-bank node when the state names no slot,
  element or node of that kind as the one whose turn it is, or when that one cannot fire; `step`
  never chooses one. Safe. -/
  | notReady
  deriving DecidableEq, Repr

/-! ### Who acts -/

/-- What can happen next apart from a firing slot, element or node: one constructor for each event row of the
opcode table, and one for a command that starts. The constructors have the names and arguments of `Instr`. -/
inductive Event where
  | nearBankRunStart (unit : Nat)
  | nearBankGraphReplace (unit : Nat)
  -- rings and windows, R177-R186, R405
  | commandEntryFetch (q : QueueRef)
  | completionEntryPost (q : QueueRef)
  | ringWritePointerStore (q : QueueRef) (v : BitVec 32)
  | completionReadPointerStore (q : QueueRef) (v : BitVec 32)
  | ownerWindowWrite (off : Nat) (v : Word)
  | hostPostedWrite (addr : Nat) (bytes : List Byte)
  | hostRead (addr n : Nat)
  | launchDrainComplete (launch : Nat)
  -- sequencer elements and regions
  | blockIssue (se : Nat)
  | blockCommit (tid : Nat)
  | commitResultLanding (id : Nat)
  | channelWordArrival (id : Nat)
  | engineResponse (id : Nat)
  | transferComplete (id : Nat)
  | armApply (id : Nat)
  | phaseEnd (r : Nat)
  | selectorWake (r : Nat)
  | pendingSectionFetch (r ctx : Nat)
  | stagedFetchComplete (r ctx : Nat)
  | switchTimeWord (id : Nat)
  | contextSwitch (r : Nat)
  | routerForward (r ctx link : Nat)
  | elementClockGate (r ctx pos : Nat)
  | elementWake (r ctx pos : Nat)
  | lanePowerGate (tile lane : Nat)
  | lanePowerUp (tile lane : Nat)
  | laneWakeFailure (tile lane : Nat)
  | stallWatchdog (r : Nat)
  | preempt (launch : Nat)
  | preemptDrainTimeout (launch : Nat)
  | preemptResume (launch : Nat)
  -- faults, translation, slices, packets
  | mailboxRecordWrite (ptn die : Nat)
  | faultNotice (id : Nat)
  | pageWalk (id : Nat)
  | l2MissFill (slice : Nat)
  | l2WriteBack (slice : Nat)
  | arbitrationFrame (point : Nat)
  | packetEviction (point urgent : Nat)
  | evictionNotice (id : Nat)
  | endToEndAck (id : Nat)
  -- shelvers and Concordance engines
  | shelverGrant (id : Nat)
  | shelverNew (id : Nat)
  | shelverMerge (id : Nat)
  | scanStart (id : Nat)
  | scanStep (id : Nat)
  | shelverProbe (id : Nat)
  | shelverLength (id : Nat)
  | shelverDelete (id : Nat)
  | concordanceFind (id : Nat)
  | concordanceGet (id : Nat)
  | concordanceRelease (id : Nat)
  | concordanceInsert (id : Nat)
  -- heartbeats and fencing
  | heartbeatSend (tile : Nat)
  | heartbeatReceive (id : Nat)
  | neighbourJudgement (tile dir : Nat)
  | voteWord (id : Nat)
  | withdrawalWord (id : Nat)
  | fenceWord (id : Nat)
  | fenceWithdrawal (id : Nat)
  | selfTestRun (tile : Nat) (pass : Bool)
  | probationComplete (tile : Nat)
  | reinstate (tile : Nat)
  | reinstateWord (id : Nat)
  -- swaps, resets, module events
  | swapExchange (ptn : Nat)
  | swapComplete (ptn : Nat)
  | responseLogAppend (id : Nat)
  | resetEpochDrained (ptn : Nat)
  | powerOn (fwEd fwMl cfgEd cfgMl : Bool)
  | moduleReset
  | functionSelfTestDone (kind inst : Nat) (pass : Bool)
  | unitReadinessLost (kind inst state : Nat)
  | alarmGuardBand (die : Fin 4) (clock : Bool)
  | alarmLinkTamper (die : Fin 4) (ptile : Fin 256)
  | debugPortAccess (die : Fin 4) (port : BitVec 32) (grant : Bool)
  | recoveryDoorbell (length : Word) (edOk mlOk : Bool)
  | hbmPatrolScrub (stack : Nat)
  | memoryResponse (id : Nat)
  | preemptDrainComplete (launch : Nat)
  | invalidationComplete (tid : Nat)
  | lossOfPower
  | command (q : QueueRef) (words : List Word)
  deriving DecidableEq, Repr

/-- An actor that can take the next step. -/
inductive Actor where
  /-- a slot of the block in flight of a task (R233) -/
  | slot (tid k : Nat)
  /-- an element of a region's context, by position (R47) -/
  | elem (r ctx pos : Nat)
  /-- a node of a near-bank unit's graph (R291) -/
  | node (unit k : Nat)
  | event (e : Event)
  /-- the next thing that reaches the module from outside -/
  | input
  deriving DecidableEq, Repr

/-- Whose step runs: the model's own note, set by `step` before a meaning is called. -/
inductive Cur where
  | idle
  /-- a slot that fires -/
  | firing (tid k : Nat)
  /-- a commit form that takes effect, with its operands, at its block's commit (R261) -/
  | commit (tid k : Nat) (a b c : Word)
  | elem (r ctx pos : Nat)
  | node (unit k : Nat)
  deriving DecidableEq, Repr

/-- The source of requests, words and tokens. -/
inductive Agent where
  | task (tid : Nat)
  | elem (r ctx pos : Nat)
  | region (r : Nat)
  | engine (id : Nat)
  | shelver (n : Nat)
  | tree (n : Nat)
  | unit (u : Nat)
  | core (c : Nat)
  | tile (t : Nat)
  | host
  deriving DecidableEq, Repr

/-! ### Tokens and links -/

/-- A token (R43). -/
structure Token where
  kind : BitVec 4
  scl  : BitVec 8
  data : TokData
  deriving DecidableEq, Repr

/-- A token in a slot or latch, with its epoch mark (R70) and its fold position (R336); in an element's output
`fold` is 0, or 1 more than the number of the input whose token it is (R61). -/
structure Stok where
  tok  : Token
  old  : Bool
  fold : Nat
  deriving DecidableEq, Repr

/-! ### Tasks and channels -/

/-- The states of a task (R39); a slot that holds no task is FREE and has no entry. -/
inductive TaskState where
  | blocked | runnable | stopped | halted
  deriving DecidableEq, Repr

/-- The channel mask a BLOCKED task waits on, if any (R39, R251). -/
inductive WaitOn where
  | nothing
  | mask (w : Word)
  deriving DecidableEq, Repr

/-- An operand buffer: empty, NULL or a value (R233, R235). -/
inductive Buf where
  | empty | null | val (w : Word)
  deriving DecidableEq, Repr

/-- What has become of a slot (R233-R235). -/
inductive SlotPhase where
  | waiting | fired | firedNull | squashed
  deriving DecidableEq, Repr

/-- A slot of the block in flight. -/
structure Slot where
  a     : Buf
  b     : Buf
  c     : Buf
  p     : Buf
  phase : SlotPhase
  deriving DecidableEq, Repr

/-- A commit form or exit that has fired, with the operands it captured (R261). -/
structure Capture where
  slot : Nat
  a    : Word
  b    : Word
  c    : Word
  deriving DecidableEq, Repr

/-- A channel word a slot has resolved with a value (R237): slot, target 0 or 1, channel, word. -/
structure ChanOut where
  slot : Nat
  tgt  : Nat
  ch   : Nat
  word : Word
  deriving DecidableEq, Repr

/-- An access that fails: fault code, faulting VA, last page-table entry read (R356, R357). -/
structure Flt0 where
  code : Nat
  fva  : Word
  lpte : Word
  deriving DecidableEq, Repr

/-- What a slot's word fixes of its firing: predicate mode and required buffers (R216, R233). -/
structure Gate where
  pred  : Pred
  needs : Needs
  deriving DecidableEq, Repr

/-- The block in flight (R233-R237). -/
structure Block where
  head  : Nat
  n     : Nat
  w     : Nat
  s     : Nat
  priv  : Bool
  yieldpt : Bool
  slots : List Slot
  /-- register writes resolved with a value, g and value, oldest first -/
  regw  : List (Nat × Word)
  /-- register writes resolved, null ones included -/
  regn  : Nat
  /-- registers that commit forms which have fired will write (R236, R262) -/
  claims : List Nat
  chans : List ChanOut
  /-- output operations resolved, null ones included -/
  outn  : Nat
  caps  : List Capture
  exits : List Capture
  /-- flags gathered for fsr -/
  flags : Nat
  /-- the gates of its slots, in slot order (R341) -/
  gates : List Gate
  /-- loads whose check has failed: slot and fault (R264, R419) -/
  bad   : List (Nat × Flt0)
  deriving DecidableEq, Repr

/-- A commit form that waits behind a TLBI of its own block (R297): its row and its operands. -/
structure Later where
  ins : Instr
  a   : Word
  b   : Word
  c   : Word
  deriving DecidableEq, Repr

/-- Registers that wait for the results of one commit form (R262, R263). -/
structure Pending where
  id   : Nat
  regs : List Nat
  deriving DecidableEq, Repr

/-- A place of the response stream (R280): the request, and its response once it is there. -/
structure RespSlot where
  id   : Nat
  word : Option Word
  deriving DecidableEq, Repr

/-- A task (R39, R25, R344). -/
structure Task where
  ptn      : Nat
  launch   : Nat
  root     : Bool
  state    : TaskState
  pc       : Nat
  regs     : List Word
  fsr      : Word
  fcost    : Word
  prio     : Nat
  level    : Nat
  ret      : List Nat
  lastExit : Nat
  /-- channel routes that differ from the default: n to a channel address (R278, R279) -/
  routes   : Map Nat
  pend     : List Pending
  waitOn   : WaitOn
  /-- barrier phases a BLOCKED task waits to pass: barrier, phase and the code of the BARW's scope (R273) -/
  barW     : List (Nat × Word × Nat)
  /-- task slots that must issue before this one does (R252) -/
  yielded  : List Nat
  resp     : List RespSlot
  /-- TLBI requests not complete (R297) -/
  invs     : List Nat
  /-- commit forms of a committed block that stand behind its TLBI (R297) -/
  later    : List Later := []
  /-- flags that completion words have ORed into fsr, and the cycle of it (R152) -/
  fsrIn    : Nat × Nat := (0, 0)
  /-- requests that an acquire of this task waits for (R170, R273) -/
  after    : List Nat
  /-- requests that a FNCX makes every later access wait for, those of the near-bank path as well (R175) -/
  afterX   : List Nat := []
  /-- requests that a FNC.rel makes later stores, atomics and engine requests wait for (R168) -/
  afterW   : List Nat
  /-- the same for a FNC.rel of a scope below dev, whose code stands with each request (R167) -/
  afterS   : List (Nat × Nat) := []
  /-- the address a trap or fault record gives (R294, R295) -/
  resumeAt : Option Nat
  /-- stopped at a block boundary by pre-emption or by the end of the launch (R26, R50) -/
  held     : Bool
  /-- IDLE has put the issuing control core to sleep (R293) -/
  asleep   : Bool
  /-- software trap numbers that the block's TRP forms have raised at its commit (R294) -/
  trap     : List Nat
  blk      : Option Block
  deriving DecidableEq, Repr

/-- An SE's issue state (R41): the slot that issued last and the slots served this round. -/
structure SeState where
  last   : Option Nat
  served : List Nat
  deriving DecidableEq, Repr

/-- A channel (R40): its task slot and its words with their marks, head first. -/
structure Channel where
  slot : Option Nat
  q    : List (Word × Bool)
  deriving DecidableEq, Repr

/-! ### Requests and words in flight -/

/-- Where the results of an operation go (R262, R280, R286). -/
inductive Dest where
  | nowhere
  /-- the registers g to g + k - 1 of a task -/
  | regs (tid g : Nat)
  /-- a channel address, on behalf of a source -/
  | chan (addr : Nat)
  /-- the response stream of a task -/
  | stream (tid : Nat)
  /-- the entry queue of a context -/
  | entry (r ctx : Nat)
  /-- an input of an element -/
  | elem (r ctx pos : Nat)
  /-- the completion of a command entry: queue, SEQ, TAG, IRQC -/
  | command (q : QueueRef) (seq : Nat) (tag : Word) (irqc : Bool)
  deriving DecidableEq, Repr

/-- What an operation in flight will do when it is performed. -/
inductive Act where
  /-- results on their way: values, cost word, whether a channel word is marked -/
  | land (vals : List Word) (cost : Word) (marked : Bool)
  /-- a store of bytes to a physical place (R267) -/
  | store (place : Nat) (addr : Nat) (bytes : List Byte) (hint : Nat)
  /-- write-back, and with inv invalidation, of a line; the code of its scope (R270) -/
  | clean (addr : Nat) (inv : Bool) (scope : Nat)
  /-- an atomic at a physical place (R271): code 0 AMO, 1 CAS, 2 CAS2; op, width in bytes -/
  | atomic (code : Nat) (op : AOp) (place addr width : Nat) (b c : Word)
  /-- a fence that orders earlier and later operations of its source (R272) -/
  | fence (ord : Nat)
  /-- an engine request (R280): opcode and operands -/
  | engine (opcode : Nat) (a b c : Word) (hint : Nat)
  /-- an operation of a shelver (R103): code, head VA with its translation, operands, the batch of an element,
  the places of the batch of a task, which the merge reads (R342), and whether translating one failed; a place is a
  space, plus 4 on a page of type NC or DEVR, and an address -/
  | fibre (code : Nat) (va : Word) (pa typ : Nat) (b c : Word) (mode stpl : Nat) (batch : List Word)
      (places : List (Nat × Nat)) (bad : Bool)
  /-- a Concordance operation (R141): code and operands -/
  | tree (code : Nat) (a b c : Word)
  /-- an ARM on its way to its region (R426): region, context, count, route -/
  | arm (r ctx count route : Nat) (tid launch : Nat)
  /-- an access of an AG to the memory system (R327): place, bytes to write or length to read, hint and
  page type as for a store, whether it acquires (R168); for a fill of a bank (R78), `bytes` holds the bank's
  generation -/
  | agAccess (place addr : Nat) (write : Bool) (bytes : List Byte) (len : Nat) (hint : Nat) (acq : Bool)
  /-- what such an access has read, for an AG whose partition was swapped out when it came (R413) -/
  | agReply (note bytes : List Byte) (acq : Bool)
  /-- a NMLD, NMGO, NMBX or NMWK on its way to its unit (R291, R292) -/
  | nearBank (code unit : Nat) (b : Word) (words : List Word)
  /-- the 16 node words of a NMLD, on their way to be read at their places (as those of a batch) for a unit; whether
  translating one failed (R291) -/
  | nearLoad (unit : Nat) (places : List (Nat × Nat)) (bad : Bool)
  /-- an ATST on its way: the places of its nonce's 32 bytes and of the 8 KiB of its report area, as runs of space,
  address and length (R199) -/
  | attest (nonce report : List (Nat × Nat × Nat))
  /-- a translation invalidation (R297) -/
  | invalidate (va : Word) (all : Bool) (scope : Nat)
  deriving DecidableEq, Repr

/-- What the packet network knows of a packet (R187-R192). -/
structure Packet where
  prio      : Nat
  epoch     : Nat
  evictions : Nat
  prot      : Bool
  /-- evicted, and the notice has not reached the source -/
  evicted   : Bool
  /-- arbitration point whose buffer holds it -/
  point     : Nat
  /-- its place in the order of arrival there -/
  arrived   : Nat
  deriving DecidableEq, Repr

/-- A source's kept copy of a packet, until its end-to-end acknowledgement arrives (R189). -/
structure Copy where
  id    : Nat
  ptn   : Nat
  epoch : Nat
  /-- the operation has been performed and the acknowledgement is on its way -/
  acked : Bool
  deriving DecidableEq, Repr

/-- An operation in flight, in issue order. -/
structure Op where
  id     : Nat
  src    : Agent
  ptn    : Nat
  launch : Nat
  level  : Nat
  /-- number of the request from its source to its target (R103) -/
  seqn   : Nat
  /-- the unit that performs it (R103) -/
  target : Agent
  dest   : Dest
  k      : Nat
  /-- requests that must be performed before this one -/
  after  : List Nat
  /-- requests that a release of a scope below dev must follow, with the code of its scope: only agents that share
  the scope see it after them (R167, R172) -/
  soft   : List (Nat × Nat)
  act    : Act
  pkt    : Packet
  /-- requests that the channel words of its results follow (R170) -/
  words  : List Nat
  deriving DecidableEq, Repr

/-- Where a control-network word goes (R55). -/
inductive CtrlDst where
  | chan (addr : Nat)
  | region (r : Nat)
  | tile (t : Nat)
  /-- a fence-vote word on its way: the grid tiles still to be reached, in order (R377) -/
  | hops (ts : List Nat)
  | core (c : Nat)
  deriving DecidableEq, Repr

/-- A place that a release of a scope below dev has written before what it follows was performed (R167, R172):
space, address, length, the requests that stand before it with their scope codes, and the source. Agents that
share such a scope with the source wait at the place for the requests. -/
structure Veil where
  space : Nat
  addr  : Nat
  len   : Nat
  soft  : List (Nat × Nat)
  src   : Agent
  /-- whether the request that has written there is one that a later access may have to follow: an atomic (FNC.acq), or
  an acquire of an AG -/
  binds : Bool
  deriving DecidableEq, Repr

/-- A control-network word in flight (R55); `after` as for an `Op`; `charge` the launch and the cost word that
its placement adds to the `fcost` of its source (R346), or, of a completion word whose context has given up its slot or
its work, the flag word that the context has handed over to it (R152). -/
structure CtrlWord where
  id      : Nat
  src     : Agent
  dst     : CtrlDst
  ckind   : Nat
  payload : Word
  ptn     : Nat
  after   : List Nat
  charge  : Option (Nat × Word) := none
  deriving DecidableEq, Repr

/-- A transfer whose last beat has landed and whose completion word is due, as the token of an entry queue
(R79, R388). -/
structure Transfer where
  id   : Nat
  tok  : Token
  r    : Nat
  ctx  : Nat
  ptn  : Nat
  deriving DecidableEq, Repr

/-! ### Regions -/

/-- The outgoing slots of one virtual lane of a port, and its conversion state (R56, R61, R63), kept for
each join of each fold position: key 2 * position, plus 1 for the join at the receiving router; on a
folded link, 1 more than the position whose token has gone on last, 0 before the first (R67, R68). -/
structure Link where
  slots  : List Stok
  /-- the places in `slots` whose token holds an uncorrectable error (R404) -/
  bad    : List Nat
  gather : Map (List Token)
  /-- output tokens of a conversion that wait to go on -/
  split  : Map (List Stok)
  lastArm : Nat
  deriving DecidableEq, Repr

/-- What an AGR has still to emit, in walk order (R327): the data of a read, with the copy of the
predicate token that gated it, or a token. -/
inductive AgItem where
  | read (id : Nat) (bytes : Option (List Byte)) (chain : Option Token)
  | tok (t : Token) (chain : Option Token)
  deriving DecidableEq, Repr

/-- The state of an address generator's walk (R325-R329). -/
structure AgState where
  active  : Bool
  desc    : TokData
  cnt     : List Nat
  /-- AGR: what is still to be emitted; AGW: the writes whose copy of the predicate token is due -/
  queue   : List AgItem
  /-- AGW: levels of the STOP tokens that must come next on its data input -/
  due     : List Nat
  /-- the walk has made its last access -/
  last    : Bool
  faulted : Bool
  /-- work tiles completed since load, and bytes written in this one (R79) -/
  tiles   : Nat
  wbytes  : Nat
  deriving DecidableEq, Repr

/-- The register bank of an element in a context (R14, R305-R321). -/
structure ElemSt where
  /-- words of the operation: accumulators, counters, flags, digits -/
  regs   : List Nat
  /-- tokens the operation holds: TAP and PAD lines, latches, TFIFO entries -/
  toks   : List Stok
  /-- tokens to emit: destination 0 to 2 and token, oldest first -/
  outq   : List (Nat × Stok)
  /-- the poison mark of an accumulator (R366) -/
  poison : Option Token
  /-- side-port modes RND and SATM of the work tile (R160) -/
  side   : Option Nat
  /-- whether the side token of the work tile has been taken -/
  sideIn : Bool
  ag     : AgState
  lastFire : Nat
  gated  : Bool
  /-- whether the bank holds an uncorrectable error (R404) -/
  upset  : Bool
  deriving DecidableEq, Repr

/-- A virtual lane at which a circuit ends: region, context, C-tile, side of its port, lane. -/
structure LaneEnd where
  r    : Nat
  ctx  : Nat
  ct   : Nat
  side : Nat
  vl   : Nat
  deriving DecidableEq, Repr

/-- A circuit as a configuration declares it (R57, R64, R65): the region and context it belongs to; the link that
feeds it, none for one that comes in by a Novey port; the grid tiles it passes from its sender on, each with the side
* 4 + virtual lane by which it leaves; the slots of its hops behind the first; the routing entry of its routers; the
Novey port it passes, 6 * die + port; where it ends, none for one that leaves by a Novey port. -/
structure CircuitPath where
  r     : Nat
  ctx   : Nat
  link  : Option Nat
  via   : List (Nat × Nat)
  hops  : List Nat
  entry : Nat
  novey : Option Nat
  dest  : Option LaneEnd
  deriving DecidableEq, Repr

/-- A loaded circuit (R64-R66): its tokens in flight, oldest first, each with the time at which it reaches the end; the
tokens held by the join at its end, and those that wait behind it (R61, R63); whether it has been cut, and the POISON that
the first token to reach the cut will be replaced by (R379, R418). -/
structure Circuit where
  path   : CircuitPath
  toks   : List (Stok × Nat)
  /-- the places in `toks` whose token holds an uncorrectable error (R404) -/
  bad    : List Nat
  gather : List Token
  wait   : List Stok
  dead   : Bool
  cut    : Option Token
  deriving DecidableEq, Repr

/-- A loaded Folio (R125-R130), and the VA it was loaded from. -/
structure Folio where
  nodes  : List Word
  places : List Word
  nin    : Nat
  nout   : Nat
  hdr    : List Word
  va     : Nat
  deriving DecidableEq, Repr

/-- Whether a context slot holds a configuration (R37). -/
inductive CtxStatus where
  | free | staged | resident
  deriving DecidableEq, Repr

/-- A context of a region (R30-R37). -/
structure Ctx where
  status  : CtxStatus
  /-- the fetch of a staged slot is still running (R37, R69); the record whose fetch failed -/
  fetching : Bool
  fetchBad : Option Nat
  elems   : Map Nat
  routing : Map Nat
  relays  : Map Nat
  folio   : Option Folio
  arm     : Nat
  nph     : Nat
  route   : Option Nat
  armTask : Option (Nat × Nat)
  entry   : List Stok
  lat     : Map Stok
  /-- the latches that hold an uncorrectable error, by position * 4 + input (R404) -/
  spoilt  : List Nat
  links   : Map Link
  es      : Map ElemSt
  flags   : Nat
  /-- an NRW has saturated since the last phase end; and as of that phase end, for WGQ (R129) -/
  sat     : Bool
  satEnd  : Bool
  /-- the VA of the image the slot was loaded from -/
  image   : Nat
  release : Bool
  unload  : Bool
  disarm  : Bool
  /-- its circuits, by the link that feeds each; from 512 on those that come in by a Novey port (R64, R65) -/
  circs   : Map Circuit
  /-- the lanes at which circuits end in it: C-tile, side and lane as a number, and the routing entry (R65, R66) -/
  inlets  : List (Nat × Nat)
  deriving DecidableEq, Repr

/-- A switch that waits for its time T (R69, R276). One that has been found to take place at T, while the old context of
an earlier switch still drains, waits for that slot (R70; log entry 122). -/
structure Switch where
  t   : Nat
  old : Nat
  new : Nat
  passed : Bool
  deriving DecidableEq, Repr

/-- A pending section (R37): its image's record, when it was armed and with what. -/
structure PendSect where
  ctx    : Nat
  image  : Nat
  count  : Nat
  route  : Option Nat
  armTask : Option (Nat × Nat)
  deriving DecidableEq, Repr

/-- A region of a cluster (R29, R33-R38). -/
structure Region where
  ptn     : Nat
  launch  : Nat
  col0    : Nat
  row0    : Nat
  wid     : Nat
  hei     : Nat
  count   : Bool
  nextCount : Bool
  /-- the running context -/
  cur     : Option Nat
  named   : Nat
  named0  : Bool
  waiting : Bool
  /-- an entry token has been consumed in this phase (R33) -/
  phase   : Bool
  pass    : List Nat
  ph      : List Nat
  snap0   : Word
  snap1   : Word
  /-- switches that wait, in the order in which their words have come -/
  switches : List Switch
  /-- a switch is in progress: its old context, and the new one (R70, R71) -/
  oldCtx  : Option Nat
  heir    : Nat
  pends   : List PendSect
  /-- the stall counter (R369) -/
  stall   : Nat
  frozen  : Bool
  rr      : Map Nat
  /-- sides of the region's tiles whose link is isolated (R379): (y * 8 + x) * 4 + side -/
  cuts    : List Nat
  /-- inbound lanes from a fenced tile that have had their POISON (R379): (y * 8 + x) * 16 + side * 4 + lane -/
  cutLanes : List Nat
  ctxs    : List Ctx
  deriving DecidableEq, Repr

/-! ### Partitions -/

/-- A stage-2 range (R183). -/
structure Range where
  ia  : Nat
  pa  : Nat
  len : Nat
  deriving DecidableEq, Repr

/-- A window: outside base, size and inside VA (R177), or host base and size (R91). -/
structure Window where
  base : Nat
  size : Nat
  va   : Nat
  deriving DecidableEq, Repr

/-- A command that has been started and has not completed (R182, R184). -/
structure Started where
  seq   : Nat
  words : List Word
  deriving DecidableEq, Repr

/-- A ring (R180-R185, R405-R407). Of a command ring `rp` is also the sequence number expected next; of a
completion ring it is the count of entries the host has consumed. -/
structure Ring where
  va      : Nat
  log     : Nat
  ptrs    : Nat
  wp      : Nat
  rp      : Nat
  stopped : Bool
  /-- the restart of a stopped module queue has been asked for -/
  restart : Bool
  started : List Started
  /-- entries that will never start: the first and the one after the last -/
  skips   : List (Nat × Nat)
  deriving DecidableEq, Repr

/-- An interrupt vector (R190). -/
structure Vector64 where
  addr    : Nat
  data    : Nat
  mask    : Bool
  pending : Bool
  deriving DecidableEq, Repr

/-- A barrier (R273). -/
structure Barrier where
  n     : Nat
  arr   : Nat
  phase : Word
  /-- requests that the releases of the parties cover, with the code of the BARA's scope and the party (R170, R273) -/
  cover : List (Nat × Nat × Nat)
  deriving DecidableEq, Repr

/-- A FIBRE page that the partition has granted to the shelvers (R96, R97): its virtual and physical base,
and its size as a power of two. -/
structure Grant where
  va  : Nat
  pa  : Nat
  log : Nat
  deriving DecidableEq, Repr

/-- A fault record: its 16 words (R356), its origin and its launch (R358). -/
structure Record where
  id     : Nat
  words  : List Word
  origin : Agent
  launch : Nat
  deriving DecidableEq, Repr

/-- A retention register (R83). -/
structure Retention where
  base  : Nat
  len   : Nat
  count : Nat
  deriving DecidableEq, Repr

/-- The state of a launch (R25, R26). -/
inductive LaunchState where
  | running | draining | ended | preempting | saved
  deriving DecidableEq, Repr

/-- A launch (R25, R26, R50). -/
structure Launch where
  ptn    : Nat
  ring   : Nat
  seq    : Nat
  tag    : Word
  irqc   : Bool
  root   : Nat
  /-- the VA of its image -/
  image  : Nat
  code   : Nat
  stat   : Nat
  state  : LaunchState
  /-- device time at which a pre-emption began (R371) -/
  since  : Nat
  /-- the root has halted while the launch was being pre-empted (R26) -/
  rootDone : Bool
  deriving DecidableEq, Repr

/-- A command entry that has started: its queue, SEQ, TAG and IRQC. -/
structure CmdRef where
  q    : QueueRef
  seq  : Nat
  tag  : Word
  irqc : Bool
  deriving DecidableEq, Repr

/-- A partition reset that waits for the packets of its old epoch (R191, R408), with the PRESET that asked for
it, if one did. -/
structure ResetState where
  cmd : Option CmdRef
  /-- whether only the posting of its completions, and step 7, are left -/
  posting : Bool
  deriving DecidableEq, Repr

/-- How far a swap has come (R193): the other partition, whether this one leaves, when it began, whether the
exchange is over, and its PSWAP. -/
structure SwapState where
  other : Nat
  out   : Bool
  since : Nat
  exchanged : Bool
  cmd   : CmdRef
  deriving DecidableEq, Repr

/-- A partition (R187). -/
structure Partition where
  clusters : List Nat
  /-- L2 ways by die (R80) -/
  ways     : Map (List Nat)
  prio     : Nat
  weight   : Nat
  partner  : Option Nat
  resident : Bool
  core     : Nat
  s1root   : Option Nat
  ranges   : Map Range
  inwin    : Map Window
  outwin   : Map Window
  rings    : Map Ring
  vectors  : Map Vector64
  epoch    : Nat
  ssc0     : Word
  ssc1     : Word
  bars     : Map Barrier
  /-- delegated classes: die * 4 + class to a channel address (R296) -/
  dlgt     : Map Nat
  mbox     : Map (List Record)
  /-- records that wait for room in the mailbox of their die (R355) -/
  waitrec  : Map (List Record)
  rets     : Map Retention
  pages    : List Grant
  units    : List Nat
  reset    : Option ResetState
  swap     : Option SwapState
  /-- completions that wait to be posted (R185) -/
  compl    : List (List Word × Bool)
  deriving DecidableEq, Repr

/-! ### The fabric state of clusters, which a swap exchanges (R193) -/

/-- Everything a shadow store and the save area hold of a partition's clusters. -/
structure Fabric where
  tasks   : Map Task
  ses     : Map SeState
  chans   : Map Channel
  istore  : Map Byte
  regions : Map Region
  sram    : Map Byte
  /-- words of instruction stores that hold an uncorrectable error, by their place over 4 (R404) -/
  imarks  : List Nat
  /-- 8-byte words of M-tile banks that hold an uncorrectable error, by their place over 8 (R404) -/
  smarks  : List Nat
  deriving DecidableEq, Repr

/-! ### Memory system units -/

/-- A translation held by a TLB, at the granule of 64 KiB (R89). -/
structure TlbEntry where
  ptn  : Nat
  page : Nat
  typ  : Nat
  win  : Nat
  out  : Nat
  r    : Bool
  w    : Bool
  sup  : Bool
  size : Nat
  pte  : Word
  deriving DecidableEq, Repr

/-- A walk in flight (R89) and the address generators that wait for it, by the numbers `agCode`
gives. -/
structure Walk where
  id      : Nat
  die     : Nat
  ptn     : Nat
  page    : Nat
  waiters : List Nat
  tlb     : Nat
  deriving DecidableEq, Repr

/-- A line of a slice (R80, R84): tag, owner, dirty mark, poison mark. -/
structure Line where
  tag   : Nat
  ptn   : Nat
  dirty : Bool
  bad   : Bool
  deriving DecidableEq, Repr

/-- A miss of a slice (R390): line address, partition, hint. -/
structure Miss where
  pa   : Nat
  ptn  : Nat
  hint : Nat
  deriving DecidableEq, Repr

/-- A write-back (R390): line address, poison mark, the partition, and whether it stands in the victim buffer of its miss
entry. -/
structure WriteBack where
  pa   : Nat
  bad  : Bool
  ptn  : Nat
  held : Bool
  deriving DecidableEq, Repr

/-- An L2 slice (R80-R84, R390). -/
structure Slice where
  mask   : Nat
  lines  : Map Line
  lru    : Map Nat
  misses : List Miss
  waitq  : List Miss
  /-- the write-back entries, at most 8 -/
  wbs    : List WriteBack
  /-- victims in the buffers of their miss entries, and lines written around the cache, which wait for a write-back
  entry -/
  wbq    : List WriteBack
  deriving DecidableEq, Repr

/-- An entry of a scan, or one that waits for an entry (R112-R115). -/
structure Scan where
  opid   : Nat
  ptn    : Nat
  /-- VA of the head -/
  head   : Nat
  /-- the segment last emitted from, and its NEXT -/
  seg    : Option Nat
  next   : Nat
  /-- the last coordinate emitted -/
  cursor : Option Nat
  /-- pairs emitted, and segments read -/
  count  : Nat
  reads  : Nat
  dst    : Bool
  /-- level of the STOP, the value format asked for plus 1 (0: none), and where an entry scan's cost word goes -/
  stpl   : Nat
  want   : Nat
  route  : Option Nat
  /-- tokens of the last step that wait for room in their entry queue -/
  emit   : List Token
  /-- channel words of the last step -/
  sent   : List Nat
  ended  : Bool
  deriving DecidableEq, Repr

/-- A shelver's own state (R96-R98, R113, R393, R404): free segments of each partition by their VA, live heads
and damaged fibres as partition and head, scans, and scans that wait for an entry in order of arrival. -/
structure Shelver where
  free    : Map (List Nat)
  heads   : List (Nat × Nat)
  damaged : List (Nat × Nat)
  scans   : List Scan
  waiting : List Scan
  deriving DecidableEq, Repr

/-- A node of a Concordance tree (R134): its parent, key, depth, snapshot, the VA of its chunk, its reference
count, its time stamp, the number of its children and its `LINK` word. -/
structure TreeNode where
  gen    : Nat
  parent : Nat
  key    : Word
  depth  : Nat
  blob   : Word
  chunk  : Word
  size   : Nat
  ref    : Nat
  stamp  : Nat
  kids   : Nat
  /-- the engine's key index -/
  link   : Word
  deriving DecidableEq, Repr

/-- A Concordance tree (R131, R398): seed, chunk size, capacity, reclaim channel, mismatch count, its nodes by
index, of which 0 is the root, and the HBM address of its node store, which is mapped for the engine alone. -/
structure Tree where
  ptn      : Nat
  seed     : Word
  g        : Nat
  n        : Nat
  reclaim  : Option Nat
  mismatch : Nat
  nodes    : Map TreeNode
  store    : Nat
  deriving DecidableEq, Repr

/-- The run of a near-bank unit (R292, R400): the request that started it, and its partition. -/
structure NbStart where
  id  : Nat
  ptn : Nat
  deriving DecidableEq, Repr

/-- A near-bank unit (R291, R292, R400). -/
structure NbUnit where
  graph   : Option (List Word)
  /-- arcs: node * 2 + side to the token it holds -/
  arcs    : Map Word
  accs    : Map Word
  /-- values still to emit by a CNT node: next and how many; an MBX node that waits for its mailbox word -/
  cnts    : Map (Word × Nat)
  running : Option NbStart
  mbox    : List Word
  wake    : Nat
  deriving DecidableEq, Repr

/-! ### Module -/

/-- A Catalogue entry (R197). -/
structure CatEntry where
  state  : Nat
  detail : Nat
  tchg   : Nat
  deriving DecidableEq, Repr

/-- A record of the alarm log (R435): its words. -/
structure AlarmRec where
  words : List Word
  deriving DecidableEq, Repr

/-- The alarm state (R433-R438). -/
structure Alarm where
  level    : Nat
  /-- the device time of the last trigger, and the level before the triggers of that cycle (R434) -/
  came     : Nat
  prior    : Nat
  sigFails : Nat
  log      : List AlarmRec
  dropped  : Nat
  latchA3  : Bool
  erased   : Bool
  deriving DecidableEq, Repr

/-- What a tile holds of one grid neighbour (R373-R383): its state, 0 ok, 1 suspect, 2 voted; the last `HSEQ`;
`HSEQ` and `HST` of this period's heartbeats; the period to be judged next; periods missed and clean periods in
a row; whether the link is isolated; the clean periods of an appeal, 17 once they have been told; and the packets
of the neighbour up to the last judgement (R375). -/
structure Neigh where
  state  : Nat
  hseq   : Option Nat
  beats  : List (Nat × Nat)
  period : Nat
  misses : Nat
  clean  : Nat
  fenced : Bool
  appeal : Nat
  packets : Nat
  deriving DecidableEq, Repr

/-- The signed configuration record in module flash (R21): the host that it names as owner (R178), and its bytes. -/
structure ConfigRecord where
  owner : Nat
  bytes : List Byte
  deriving DecidableEq, Repr

/-- The public keys of the module's identity (R195, R199). -/
structure IdentityKeys where
  ed : List Byte
  ml : List Byte
  deriving DecidableEq, Repr

/-- A grid tile (R72, R372-R383). -/
structure Tile where
  /-- HST: 0 normal, 1 fenced and testing itself, 2 appealing -/
  hst     : Nat
  /-- the period of the next heartbeat, and its HSEQ -/
  beat    : Nat
  hseq    : Nat
  /-- by side: 0 N, 1 E, 2 S, 3 W -/
  neigh   : Map Neigh
  /-- votes standing against a subject: subject tile to voters and causes -/
  votes   : Map (List (Nat × Nat))
  /-- self-test runs passed in a row, and when appeals have failed -/
  passes  : Nat
  failed  : List Nat
  /-- its heartbeats have stopped after a failed self-test (R372); it is power-gated for good (R383) -/
  silent  : Bool
  off     : Bool
  /-- power-gated lanes: lane to the time of the first token addressed to it, when one waits -/
  gated   : Map (Option Nat)
  askGate : List Nat
  /-- lanes that have not powered up in time, while the tile's self-test is due (R372) -/
  wakeTest : List Nat
  /-- withdrawals of this cycle, subject and voter, which act once its votes are counted (R378) -/
  withdrawn : List (Nat × Nat)
  /-- the placement map as the tile last received it, when that is not the present one (R373) -/
  oldMap   : Option (List Nat)
  deriving DecidableEq, Repr

/-- A task of an image (R208): `blocks` holds the bytes of its blocks in source order, and `pc` the place of the first
in its SE's instruction store, which is the loader's choice (R239). -/
structure ImgTask where
  se     : Nat
  slot   : Nat
  prio   : Nat
  level  : Nat
  pc     : Nat
  wait   : List Nat
  chans  : List Nat
  blocks : List (List Byte)
  deriving DecidableEq, Repr

/-- A context of an image: region and context, and the VA of its context image or Folio. -/
structure ImgCtx where
  r     : Nat
  ctx   : Nat
  va    : Nat
  folio : Bool
  pass  : Nat
  deriving DecidableEq, Repr

/-- A region declaration of an image (R208). -/
structure ImgRegion where
  r     : Nat
  col0  : Nat
  row0  : Nat
  wid   : Nat
  hei   : Nat
  count : Bool
  deriving DecidableEq, Repr

/-- A word of a data construct that stands for a symbol: its offset in bytes, the construct or fibre it names
(constructs first, in their order), and what is added (R212, R339). -/
structure Reloc where
  off : Nat
  sym : Nat
  add : Word
  deriving DecidableEq, Repr

/-- A data construct of an image with its page type, 0 NORMAL, 1 FIBRE, 2 KVPG (R208, R209, R442). -/
structure ImgData where
  typ    : Nat
  align  : Nat
  bytes  : List Byte
  relocs : List Reloc
  deriving DecidableEq, Repr

/-- A fibre construct of an image (R211): the construct it lies in, the offset of its placement address there,
its value format and its pair words. -/
structure ImgFibre where
  data  : Nat
  off   : Nat
  vfmt  : Nat
  pairs : List Word
  deriving DecidableEq, Repr

/-- An image as the loader reads it; its binary form is not in the spec (log entry 4). `args` names the construct that holds its arguments (R340), and `base`
the loader's choice of its data base (R442). -/
structure Image where
  tasks   : List ImgTask
  regions : List ImgRegion
  ctxs    : List ImgCtx
  datas   : List ImgData
  fibres  : List ImgFibre
  args    : Option Nat
  base    : Nat
  circuits : List CircuitPath
  deriving DecidableEq, Repr

/-- The saved state of a swapped-out or pre-empted partition (R50, R193, R413). -/
structure Saved where
  fab  : Fabric
  scratch : List Host.Cell
  /-- responses that arrived meanwhile, by cluster -/
  log  : List Op
  /-- clusters whose copy in a shadow store or save area holds an uncorrectable error (R404, R415) -/
  bad  : List Nat
  deriving DecidableEq, Repr

/-- Nothing saved. -/
def Saved.empty : Saved := ⟨⟨[], [], [], [], [], [], [], []⟩, [], [], []⟩

/-- An arbitration point (R188): the frame it is in, what each partition has had of it, and the deficit round robin
of the slots left over: the partition whose turn it is and how many packets it may still send. -/
structure Frame where
  start  : Nat
  served : Map Nat
  turn   : Nat
  credit : Nat
  deriving DecidableEq, Repr

/-- The state of the module. -/
structure State where
  /-- cycles since the count began: device time is its low 64 bits (R8, R446) -/
  time    : Nat
  /-- the model's own: how many free values have been taken (log entries 5, 6) -/
  oracle  : Nat
  /-- the model's own: the actors whose turns are fixed (log entry 1) -/
  agenda  : List Actor
  /-- the model's own: whose step runs -/
  cur     : Cur
  /-- the model's own: what reaches the module from outside, in order (log entry 37) -/
  inputs  : List Event
  /-- the model's own: which host makes each of the host accesses to come, in order; the owner once the list ends (R178) -/
  speakers : List Nat
  /-- the model's own: the number of the next operation, word, walk or record -/
  nextId  : Nat
  /-- HBM and the scratch ways of the slices (R74, R81) -/
  mem     : List Host.Cell
  /-- host memory, as the outbound windows reach it (R74, R91) -/
  hostMem : List Host.Cell
  /-- the Annex (R74, R90) -/
  annex   : List Host.Cell
  /-- the owner window's stored bytes (R177, R178, R181, R185) -/
  owner   : List Host.Cell
  /-- granules of HBM that are marked (R404) -/
  poison  : List Nat
  /-- the fabric state of the clusters on the module (R193) -/
  fab     : Fabric
  /-- partitions (R187) -/
  parts   : Map Partition
  /-- launches by number (R25) -/
  launches : Map Launch
  /-- the state of swapped-out partitions (R193, R413) -/
  saved   : Map Saved
  /-- operations in flight, in the order of their issue -/
  ops     : List Op
  /-- the model's own: places seen early by agents that a release does not bind (log entry 17) -/
  veils   : List Veil
  /-- packets that their sources keep (R189) -/
  copies  : List Copy
  /-- request numbers by source and target (R103) -/
  seqs    : Map Nat
  /-- words of the control network in flight (R55) -/
  ctrl    : List CtrlWord
  /-- transfers whose completion is due (R79, R388) -/
  transfers : List Transfer
  /-- TLBs of SEs, engines, shelvers and cores (R89) -/
  tlbs    : Map (List TlbEntry)
  /-- TLBs of the M-tiles' address generators (R89) -/
  agtlbs  : Map (List TlbEntry)
  /-- page walks under way (R89) -/
  walks   : List Walk
  /-- misses that wait for a place in their die's walk table, in order of arrival (R89) -/
  walkq   : List Walk
  /-- the 256 KiB stores of the control cores, core * 2^18 + offset (R16) -/
  coreMem : List Host.Cell
  /-- L2 slices (R80-R84) -/
  slices  : Map Slice
  /-- shelvers (R96-R118) -/
  shelvers : Map Shelver
  /-- Concordance trees (R131-R141) -/
  trees   : Map Tree
  /-- near-bank units (R291, R292) -/
  nb      : Map NbUnit
  /-- arbitration points (R188) -/
  frames  : Map Frame
  /-- the Catalogue's generation (R197) -/
  cgen    : Nat
  /-- the Catalogue's records (R195-R197) -/
  cat     : Map CatEntry
  /-- tiles withdrawn from placement (R380) -/
  placement : List Nat
  /-- the module queue (R181, R407) -/
  modq    : Ring
  /-- completions of the module queue that wait to be posted (R185) -/
  modCompl : List (List Word × Bool)
  /-- the module's completion write pointer (R185) -/
  modCwp  : Nat
  /-- the owner's completion read pointer (R185) -/
  modCrp  : Nat
  /-- the owner's interrupt vector (R190) -/
  ownerVec : Vector64
  /-- the security alarm (R433-R438) -/
  alarm   : Alarm
  /-- the firmware image in module flash (R195, R437) -/
  firmware : List Byte
  /-- the signed configuration record in module flash (R21) -/
  record  : ConfigRecord
  /-- the identity keys, once they have been derived from the unclonable function (R195, R436) -/
  keys    : Option IdentityKeys
  /-- grid tiles (R72, R372-R383) -/
  tiles   : Map Tile
  /-- the packets that each grid tile has sent as their source (R375) -/
  packets : Map Nat
  /-- the first heartbeat period that began after power-on (R374) -/
  bootPeriod : Nat
  /-- wake failures reported to the control cores: tile and lane (R372) -/
  wakeFails : List (Nat × Nat)
  /-- error counts by die and kind (R403, R432) -/
  errs    : Map Nat
  /-- interrupt messages sent: address and data (R190) -/
  msgs    : List (Nat × Nat)
  /-- tokens that have left by a Novey port, one to a flit (R65) -/
  flits   : List (Nat × Token)
  /-- what the host's reads were answered: bytes, and whether the read succeeded (R177) -/
  answers : List (List Byte × Bool)
  /-- when the patrol scrub of a stack last ended (R403) -/
  scrubs  : Map Nat
  /-- images by the address a LAUNCH names (log entry 4) -/
  images  : Map Image
  deriving DecidableEq, Repr

/-- No fabric state at all. -/
def Fabric.empty : Fabric := ⟨[], [], [], [], [], [], [], []⟩

/-- The module right after reset: no partition, no task and no configuration exists, every memory
lists nothing, and every Catalogue entry reads absent (R197). -/
def State.reset : State where
  time := 0
  oracle := 0
  agenda := []
  cur := .idle
  inputs := []
  speakers := []
  nextId := 0
  mem := []
  hostMem := []
  annex := []
  owner := []
  poison := []
  fab := .empty
  parts := []
  launches := []
  saved := []
  ops := []
  veils := []
  copies := []
  seqs := []
  ctrl := []
  transfers := []
  tlbs := []
  agtlbs := []
  walks := []
  walkq := []
  coreMem := []
  slices := []
  shelvers := []
  trees := []
  nb := []
  frames := []
  cgen := 0
  cat := []
  placement := []
  modq := ⟨0, 10, 0, 0, 0, false, false, [], []⟩
  modCompl := []
  modCwp := 0
  modCrp := 0
  ownerVec := ⟨0, 0, false, false⟩
  alarm := ⟨0, 0, 0, 0, [], 0, false, false⟩
  firmware := []
  record := ⟨0, []⟩
  keys := none
  tiles := []
  packets := []
  bootPeriod := 0
  wakeFails := []
  errs := []
  msgs := []
  flits := []
  answers := []
  scrubs := []
  images := []

end Sys2Proof.Machine
end

