-- ==== Sys2Proof/Machine/Places.lean ====
section
/-!
DEFINITION. Where the elements of a context and the sequencer elements stand (spec/01_device.md R14, R15;
spec/11_assembly.md R207; R275, R323). Positions: lane ct * 16 + lane, operator slot 512 + ct * 4 + k, M-tile role
1024 + mt, address generator 1056 + mt * 2 (AGR) and + 1 (AGW), Folio node 2048 + n.
-/

namespace Sys2Proof.Machine

/-! ### Tiles of a region -/

/-- A grid position inside a cluster: column and row, 0 to 7. -/
abbrev Spot := Nat × Nat

/-- Whether a spot is a C-tile: those of even column plus row (R14, R57). -/
def isCTile (x : Spot) : Bool := (x.1 + x.2) % 2 == 0

/-- The spots of a region in row-major order (R207). -/
def Region.spots (g : Region) : List Spot :=
  (natRange g.row0 g.hei).flatMap fun y => (natRange g.col0 g.wid).map fun x => (x, y)

/-- The C-tiles of a region in their order. -/
def Region.cTiles (g : Region) : List Spot := g.spots.filter isCTile
/-- The M-tiles of a region in their order. -/
def Region.mTiles (g : Region) : List Spot := g.spots.filter fun x => !isCTile x

/-- The C-tile or M-tile index of a spot; none outside the region. -/
def Region.tileIdx (g : Region) (x : Spot) : Option Nat :=
  let xs := if isCTile x then g.cTiles else g.mTiles
  let i := xs.findIdx fun y => y == x
  if i < xs.length then some i else none

/-- The neighbour of a spot on side 0 N, 1 E, 2 S, 3 W, as far as the numbers go. -/
def sideOf (x : Spot) (d : Nat) : Option Spot :=
  match d with
  | 0 => if x.2 = 0 then none else some (x.1, x.2 - 1)
  | 1 => some (x.1 + 1, x.2)
  | 2 => some (x.1, x.2 + 1)
  | _ => if x.1 = 0 then none else some (x.1 - 1, x.2)

/-- The side opposite to side d. -/
def oppSide (d : Nat) : Nat := (d + 2) % 4

/-- The partner of a tile: the tile in the same row whose column is the column XOR 1 (R323). -/
def partnerSpot (x : Spot) : Spot := (if x.1 % 2 = 0 then x.1 + 1 else x.1 - 1, x.2)

/-- The index of the tile on side d of a spot; none outside the region. -/
def Region.sideIdx (g : Region) (x : Spot) (d : Nat) : Option Nat := (sideOf x d).bind g.tileIdx

/-- The grid tile of a spot of a region: die * 4096 + row * 64 + col. -/
def gridTile (r : Nat) (x : Spot) : Nat :=
  let cl := r % 256
  cl / 64 * 4096 + (8 * (cl / 8 % 8) + x.2) * 64 + 8 * (cl % 8) + x.1

/-- The grid tile of an SE, by its number in its cluster (R15): se is the low ten bits of a task word. -/
def seTile (se : Nat) : Nat :=
  let cl := se % 256
  let k := se / 256 % 4
  gridTile cl (if k % 2 = 0 then 1 else 5, if k < 2 then 1 else 5)

/-! ### Positions -/

/-- The four places of `PK` (R275), and Folio nodes. -/
inductive PosKind where
  | lane (ct l : Nat)
  | slot (ct k : Nat)
  | role (mt : Nat)
  | ag (mt w : Nat)
  | node (n : Nat)
  deriving DecidableEq, Repr

/-- What a position number stands for. -/
def posKind (pos : Nat) : PosKind :=
  if pos < 512 then .lane (pos / 16) (pos % 16)
  else if pos < 640 then .slot ((pos - 512) / 4) ((pos - 512) % 4)
  else if pos < 1056 then .role (pos - 1024)
  else if pos < 2048 then .ag ((pos - 1056) / 2) ((pos - 1056) % 2)
  else .node (pos - 2048)

/-- The position of a C-tile's lane. -/
def lanePos (ct l : Nat) : Nat := ct * 16 + l
/-- The position of a C-tile's operator slot. -/
def slotPos (ct k : Nat) : Nat := 512 + ct * 4 + k
/-- The position of an M-tile's role word. -/
def rolePos (mt : Nat) : Nat := 1024 + mt
/-- The position of an M-tile's AG word: 0 AGR, 1 AGW. -/
def agPos (mt w : Nat) : Nat := 1056 + mt * 2 + w
/-- The position of a Folio node. -/
def nodePos (n : Nat) : Nat := 2048 + n

/-- The spot of a position's tile; a Folio node has its placement (R127). -/
def spotOf (g : Region) (f : Option Folio) (pos : Nat) : Option Spot :=
  match posKind pos with
  | .lane ct _ => g.cTiles[ct]?
  | .slot ct _ => g.cTiles[ct]?
  | .role mt => g.mTiles[mt]?
  | .ag mt _ => g.mTiles[mt]?
  | .node n => f.bind fun f => g.cTiles[field (lget f.places n 0).toNat 15 11]?

/-- The grid tile of an agent that issues accesses: that of a task's SE, or of a position. -/
def State.agentTile (s : State) : Agent → Option Nat
  | .task tid => some (seTile (tid % 1024))
  | .elem r k pos => (mget s.fab.regions r).bind fun g =>
    (spotOf g ((g.ctxs[k]?).bind (·.folio)) pos).map (gridTile r)
  | _ => none

/-- The C-tile whose `tile` scope an agent is in (R166): its own C-tile, or for an AG the partner that its M-tile's port
joins (R323; log entry 132). -/
def State.agentCTile (s : State) (x : Agent) : Option Nat :=
  (s.agentTile x).map fun t => if isCTile (t % 64, t / 64 % 64) then t else if t % 2 = 0 then t + 1 else t - 1

end Sys2Proof.Machine
end

