-- ==== Sys2Proof/Config.lean ====
section
/-!
DEFINITION. What one implementation fixes, and the free values: every constant below that has no
body stands for a value or an order the spec leaves open, so that no proof can see it.
-/

namespace Sys2Proof.Config

/-- Free value (notes/assumptions/5): the n-th 64-bit value the spec leaves open. -/
opaque freeWord : Nat → Word

/-- Free order (notes/assumptions/6): where the spec gives no order among the enabled agents,
the n-th choice, taken modulo their number. -/
opaque pick : Nat → Nat

/-- Free time (notes/assumptions/7): the cycles that pass before the n-th choice (R446). -/
opaque cycles : Nat → Nat

/-- Free values (notes/assumptions/8): the public keys that a module's unclonable function gives (R195). -/
opaque edKey : List Byte
opaque mlKey : List Byte

/-- Free value (notes/assumptions/8): the layout of an attestation report (R199) from its two public keys, the
measurements of the firmware image and the configuration record, the Catalogue generation and the nonce. -/
opaque reportLayout : List Byte → List Byte → List Byte → List Byte → Nat → List Byte → List Byte

/-- Free values (notes/assumptions/8): the signatures of a message under the identity keys (R199). -/
opaque signEd : List Byte → List Byte → List Byte
opaque signMl : List Byte → List Byte → List Byte

/-- Free value (notes/assumptions/9): the P-tile (0 to 255) of the die through which a sequencer
element or an engine looks its translations up (R89 names no P-tile for them). -/
opaque ptileOf : Nat → Nat

/-- Free value (notes/assumptions/30): the bank group (0 to 3, taken modulo 4) of its pseudo-channel that
an aligned 64-bit word of HBM, given as its address over 8, lies in. -/
opaque bankGroup : Nat → Nat

/-- Free value (notes/assumptions/33): whether the n-th Annex access meets a NAND page that cannot be
corrected (R386). -/
opaque nandBad : Nat → Bool

/-- Free value (notes/assumptions/113): the address that a control core offers for the node store of a tree, at the n-th
choice (R131). -/
opaque treeStore : Nat → Nat

/-- Free value (notes/assumptions/62): the `PCODE` of a POISON that stands for an uncorrectable error at a device time
(R362, R404). -/
opaque upsetCode : Nat → BitVec 16

/-- Free value (notes/assumptions/113): the `LINK` word of the node that enters slot i at a device time (R134). -/
opaque nodeLink : Nat → Nat → Word

/-- What a byte of memory that nothing has written reads as (notes/assumptions/3, DESIGN CHOICE). -/
def blankByte : Byte := 0

end Sys2Proof.Config
end

