-- ==== Sys2Proof/Machine/Memory.lean ====
section
/-!
DEFINITION. Memories as lists of cells in canonical form (addresses rising, no entry equal to what
an unlisted address reads as) and their byte operations; the HBM poison marks (R404).
-/

namespace Sys2Proof.Machine

/-- A memory: listed cells; an unlisted address reads as `Config.blankByte` (log entry 3). -/
abbrev Memory := List Host.Cell

/-- Reads one byte. -/
def Memory.read (m : Memory) (a : Nat) : Byte := mgetD m a Config.blankByte

/-- Writes one byte; writing what an unlisted address reads as removes the entry. -/
def Memory.write (m : Memory) (a : Nat) (b : Byte) : Memory :=
  if b = Config.blankByte then merase m a else mset m a b

/-- The canonical form. -/
def Memory.wf (m : Memory) : Bool := msorted none m && m.all fun c => c.2 != Config.blankByte

/-- The n bytes from an address, lowest first. -/
def Memory.readN (m : Memory) (a : Nat) : Nat → List Byte
  | 0 => []
  | n + 1 => m.read a :: Memory.readN m (a + 1) n

/-- Writes bytes from an address up. -/
def Memory.writeN (m : Memory) (a : Nat) : List Byte → Memory
  | [] => m
  | b :: bs => Memory.writeN (m.write a b) (a + 1) bs

/-- The little-endian number of n bytes (R5). -/
def Memory.num (m : Memory) (a n : Nat) : Nat := natOfBytes (m.readN a n)

/-- Removes the n cells from an address, so that they read blank. -/
def Memory.clear (m : Memory) (a n : Nat) : Memory := m.filter fun c => decide (c.1 < a) || decide (a + n ≤ c.1)

/-- The granules of 64 B that n bytes from an address touch (R404). -/
def granules (a n : Nat) : List Nat :=
  if n = 0 then [] else natRange (a / 64) ((a + n - 1) / 64 + 1 - a / 64)

/-- Whether a read of n bytes of HBM meets a poison mark: an uncorrectable error (R404). -/
def State.hbmMarked (s : State) (a n : Nat) : Bool := (granules a n).any fun g => s.poison.contains g

/-- A write of n bytes clears the marks of the granules it covers whole (R404). -/
def State.unmark (s : State) (a n : Nat) : State :=
  { s with poison := s.poison.filter fun g => !(decide (a ≤ g * 64) && decide (g * 64 + 64 ≤ a + n)) }

/-- Bytes of HBM or scratch, by physical address. -/
def State.memBytes (s : State) (a n : Nat) : List Byte := Memory.readN s.mem a n

/-- Writes bytes to HBM or scratch. -/
def State.putMem (s : State) (a : Nat) (bs : List Byte) : State :=
  { s.unmark a bs.length with mem := Memory.writeN s.mem a bs }

/-- The number of 8 bytes of HBM. -/
def State.memWord (s : State) (a : Nat) : Nat := Memory.num s.mem a 8

end Sys2Proof.Machine
end

