-- ==== Sys2Proof/Machine/Translate.lean ====
section
/-!
DEFINITION. The physical map, the two-stage translation and the checks of an access
(spec/04_memory.md R74, R75, R82, R86-R91, R447; spec/20_failure_model.md R357; R384, R418, R432).
-/

namespace Sys2Proof.Machine

/-! ### The physical map -/

/-- HBM addresses (R74). -/
def inHbm (pa : Nat) : Bool := decide (pa < 0x18000000000)
/-- The L2 scratch aperture (R74). -/
def inScratch (pa : Nat) : Bool := decide (0x200000000000 ≤ pa) && decide (pa < 0x200020000000)
/-- The device register range (R74). -/
def inDevr (pa : Nat) : Bool := decide (0x300000000000 ≤ pa) && decide (pa < 0x300100000000)

/-- Stack of an HBM address (R75). -/
def stackOf (pa : Nat) : Nat := field pa 40 37
/-- Home die (R75). -/
def homeDie (pa : Nat) : Nat := stackOf pa / 3
/-- Pseudo-channel (R75). -/
def pchanOf (pa : Nat) : Nat := Nat.xor (field pa 13 8) (field pa 19 14)
/-- Home shelver: stack * 64 + pseudo-channel (R75). -/
def shelverOf (pa : Nat) : Nat := stackOf pa * 64 + pchanOf pa
/-- Home slice: die * 256 + slice (R75). -/
def sliceOf (pa : Nat) : Nat := homeDie pa * 256 + Nat.xor (field pa 14 7) (field pa 22 15)
/-- Set within the slice (R75). -/
def setOf (pa : Nat) : Nat := field pa 30 23
/-- Tag (R75). -/
def tagOf (pa : Nat) : Nat := field pa 47 15

/-- The way mask of a slice: bit i set makes way i a cache way (R80; log entry 2). -/
def State.slice (s : State) (n : Nat) : Slice := mgetD s.slices n ⟨0xFFFF, [], [], [], [], [], []⟩

/-- Whether the home slice of an address holds its line with an uncorrectable error (R404). -/
def State.badLine (s : State) (pa : Nat) : Bool :=
  inHbm pa && (s.slice (sliceOf pa)).lines.any fun l => l.1 / 16 == setOf pa && l.2.tag == tagOf pa && l.2.bad

/-- Whether a read of n bytes through the L2 meets an uncorrectable error: a poison mark of HBM, or a bad line (R404). -/
def State.marked (s : State) (a n : Nat) : Bool := s.hbmMarked a n || (granules a n).any fun g => s.badLine (g * 64)

/-- The ways a partition owns in the slices of a die: its ways where it holds clusters (R80). -/
def waysOn (p : Partition) (die : Nat) : List Nat := mgetD p.ways die []

/-- The partition's scratch ways of a slice of a die, in increasing way number (R82). -/
def scratchWays (p : Partition) (die : Nat) (sl : Slice) : List Nat := (waysOn p die).filter fun w => !bitAt sl.mask w

/-- The memory key of a scratch address: the way that holds offset o of the partition's space, and
the byte of that way; none beyond the partition's capacity in the slice (R82). -/
def scratchKey (s : State) (p : Partition) (pa : Nat) : Option Nat :=
  let x := pa - 0x200000000000
  let die := x / 2 ^ 27
  let sl := x / 2 ^ 19 % 256
  let o := x % 2 ^ 19
  match (scratchWays p die (s.slice (die * 256 + sl)))[o / 32768]? with
  | some w => some (0x200000000000 + die * 2 ^ 27 + sl * 2 ^ 19 + w * 32768 + o % 32768)
  | none => none

/-! ### Readiness (R197, R418, R448) -/

/-- Index of a Catalogue entry (R448). -/
def catIndex (kind inst : Nat) : Nat :=
  match kind with
  | 1 => inst | 2 => 12 + inst | 3 => 1036 + inst | 4 => 1292 + inst | 5 => 1316 | 6 => 1317
  | _ => 1318 + inst

/-- The STATE of a unit in the Catalogue (R197). -/
def State.catState (s : State) (kind inst : Nat) : Nat := ((mget s.cat (catIndex kind inst)).map (·.state)).getD 0

/-- The slice at which an address of memory is homed: for a scratch key, the slice of its ways (R75, R82). -/
def homeSlice (a : Nat) : Nat :=
  if inScratch a then (a - 0x200000000000) / 2 ^ 27 % 4 * 256 + (a - 0x200000000000) / 2 ^ 19 % 256 else sliceOf a

/-- Whether a unit is ready. -/
def State.ready (s : State) (kind inst : Nat) : Bool := s.catState kind inst == 2

/-- Whether the units that an HBM address is homed on are ready (R418). -/
def State.hbmReady (s : State) (pa : Nat) : Bool := s.ready 1 (stackOf pa) && s.ready 2 (sliceOf pa)

/-! ### Translation -/

/-- Stage 2: ranges, with the scratch aperture and the device range unchanged (R86, R183); a range permits reads
and writes (log entry 103). -/
def stage2 (p : Partition) (ia : Nat) : Option Nat :=
  if inScratch ia || inDevr ia then some ia
  else (p.ranges.find? fun r => decide (r.2.ia ≤ ia) && decide (ia < r.2.ia + r.2.len)).map
    fun r => r.2.pa + (ia - r.2.ia)

/-- Whether an entry counts as V = 1 at a level (R87, R88, R432). -/
def pteValid (level e : Nat) : Bool :=
  let leaf := bitAt e 7
  let typ := field e 3 1
  let shift := if level = 3 then 30 else if level = 2 then 21 else 16
  bitAt e 0 && field e 55 48 == 0 &&
  (if leaf then
     decide (level ≠ 4) && field e 15 8 == 0 &&
     (if typ = 3 then level == 1 else field e 47 16 % 2 ^ (shift - 16) == 0) &&
     !(typ == 1 && level == 3) && (typ == 6 || field e 63 56 == 0)
   else decide (level ≠ 1))

/-- What a walk found. -/
inductive WalkEnd where
  | ok (t : TlbEntry)
  | bad (lpte : Word)
  deriving DecidableEq, Repr

/-- The index of a level (R86). -/
def levelIndex (level va : Nat) : Nat :=
  match level with
  | 4 => field va 55 43 | 3 => field va 42 30 | 2 => field va 29 21 | _ => field va 20 16

/-- Size in bits of a leaf of a level (R86). -/
def leafShift (level : Nat) : Nat := match level with | 3 => 30 | 2 => 21 | _ => 16

/-- The memory key of a table entry at a physical address: HBM, or scratch within the partition's capacity. -/
def tableAt (s : State) (p : Partition) (a : Nat) : Option Nat :=
  if inScratch a then scratchKey s p a else some a

/-- The walk from a table at an intermediate address, level down to 1 (R86, R87). -/
def walkFrom (s : State) (pid : Nat) (p : Partition) (va : Nat) : Nat → Nat → Nat → WalkEnd
  | 0, _, last => .bad (wordOf last)
  | level + 1, table, last =>
    let lv := level + 1
    match stage2 p (table + levelIndex lv va * 8) with
    | none => .bad (wordOf last)
    | some a =>
      match tableAt s p a with
      | none => .bad (wordOf last)
      | some a' =>
      let e := s.memWord a'
      if !pteValid lv e then .bad (wordOf e)
      else if !bitAt e 7 then walkFrom s pid p va level (field e 47 8 * 256) e
      else
        let typ := field e 3 1
        let off := va % 2 ^ leafShift lv / 65536 * 65536
        let out := field e 47 16 * 65536 + off
        let t (o : Nat) : TlbEntry :=
          { ptn := pid, page := va % 2 ^ 56 / 65536, typ := typ, win := field e 63 56, out := o
            r := bitAt e 4, w := bitAt e 5, sup := bitAt e 6, size := leafShift lv, pte := wordOf e }
        if typ = 3 || typ = 6 then .ok (t out)
        else match stage2 p out with
          | none => .bad (wordOf e)
          | some o => .ok (t o)

/-- The walk of a VA of a partition (R86); without a stage-1 root nothing is valid. -/
def walk (s : State) (pid : Nat) (p : Partition) (va : Word) : WalkEnd :=
  match p.s1root with
  | none => .bad 0
  | some r => walkFrom s pid p va.toNat 4 r 0

/-- The entry a TLB holds for a VA (R89). -/
def tlbFind (es : List TlbEntry) (pid : Nat) (va : Word) : Option TlbEntry :=
  es.find? fun t => t.ptn == pid && t.page == va.toNat % 2 ^ 56 / 65536

/-- The TLB through which a unit of a die that is no P-tile client by its place looks up (log entry 9). -/
def seTlb (n : Nat) : Nat := Config.ptileOf n % 256

/-- A translation by TLB tlb: the TLB's entry, else a walk. -/
def lookup (s : State) (tlb pid : Nat) (p : Partition) (va : Word) : WalkEnd :=
  match tlbFind (mgetD s.tlbs tlb []) pid va with
  | some t => .ok t
  | none => walk s pid p va

/-- What an access asks of a page. -/
structure Ask where
  r : Bool
  w : Bool
  /-- page types the access accepts -/
  types : List Nat
  deriving DecidableEq, Repr

/-- Types a plain task access accepts (R268): NORMAL, KVPG, WC, NC, HOST, DEVR. -/
def askLoad : Ask := ⟨true, false, [0, 2, 4, 5, 6, 7]⟩
/-- As `askLoad`, for a store. -/
def askStore : Ask := ⟨false, true, [0, 2, 4, 5, 6, 7]⟩
/-- An atomic (R271): NORMAL or KVPG. -/
def askAtomic : Ask := ⟨true, true, [0, 2]⟩
/-- An engine read (R281): NORMAL, KVPG, WC, NC, HOST. -/
def askERead : Ask := ⟨true, false, [0, 2, 4, 5, 6]⟩
/-- An engine write (R281). -/
def askEWrite : Ask := ⟨false, true, [0, 2, 4, 5, 6]⟩

/-- Where an access lands. -/
inductive Place where
  /-- HBM, or scratch by its memory key -/
  | mem (a : Nat)
  | host (a : Nat)
  | devr
  deriving DecidableEq, Repr

/-- An access that has passed: where it lands, the page type and the physical address. -/
structure Pass where
  place : Place
  typ   : Nat
  pa    : Nat
  /-- the last page-table entry read (R356) -/
  pte   : Word
  deriving DecidableEq, Repr

/-- The bytes of HBM that the node store of a tree takes (R131). -/
def Tree.storeBytes (t : Tree) : Nat := 64 * t.n

/-- Whether bytes of HBM lie in the node store of a tree, which is mapped for its engine alone (R131). -/
def State.nodeStored (s : State) (pa n : Nat) : Bool :=
  s.trees.any fun x => decide (pa < x.2.store + x.2.storeBytes) && decide (x.2.store < pa + n)

/-- The checks after a translation, in the order of R357: a node store, which no entry maps (R131), permission, ANNEX,
unmapped, page type, window, scratch, readiness. -/
def checkPage (s : State) (p : Partition) (level : Nat) (ask : Ask) (va : Word) (sz : Nat)
    (t : TlbEntry) : Except Flt0 Pass :=
  let off := va.toNat % 65536
  let pa := t.out + off
  let err (c : Nat) : Except Flt0 Pass := .error ⟨c, va, t.pte⟩
  if t.typ ≠ 3 && t.typ ≠ 6 && s.nodeStored pa sz then err 0x0001
  else if (t.sup && level == 0) || (ask.r && !t.r) || (ask.w && !t.w) then err 0x0002
  else if t.typ = 3 then err 0x0006
  else if t.typ = 6 then
    if !ask.types.contains 6 then err 0x0005
    else match mget p.outwin t.win with
      | none => err 0x0009
      | some w => if w.size < pa + sz then err 0x0009 else .ok ⟨.host (w.base + pa), 6, pa, t.pte⟩
  else if !(inHbm pa || inScratch pa || inDevr pa) then err 0x0007
  else if !ask.types.contains t.typ then err 0x0005
  else if inDevr pa then
    if t.typ = 7 ∧ sz = 8 then .ok ⟨.devr, 7, pa, t.pte⟩ else err 0x0005
  else if t.typ = 7 then err 0x0005
  else if inScratch pa then
    if t.typ ≠ 0 then err 0x0005
    else match scratchKey s p pa with
      | none => err 0x0008
      | some k => if s.ready 2 (homeSlice k) then .ok ⟨.mem k, t.typ, pa, t.pte⟩ else err 0x000B
  else if s.hbmReady pa then .ok ⟨.mem pa, t.typ, pa, t.pte⟩
  else err 0x000B

/-- One access of sz bytes at a VA by level and TLB: canonical form, alignment, translation, then
the page (R86, R268, R357). -/
def access (s : State) (tlb pid level : Nat) (ask : Ask) (va : Word) (sz : Nat) : Except Flt0 Pass :=
  if !isCanonical va then .error ⟨0x0003, va, 0⟩
  else if va.toNat % sz ≠ 0 then .error ⟨0x0004, va, 0⟩
  else match mget s.parts pid with
    | none => .error ⟨0x0001, va, 0⟩
    | some p =>
      match lookup s tlb pid p va with
      | .bad e => .error ⟨0x0001, va, e⟩
      | .ok t => checkPage s p level ask va sz t

/-- The addresses of the table entries that a walk reads, from a table on down (R86, R89). -/
def walkTrail (s : State) (p : Partition) (va : Nat) : Nat → Nat → List Nat
  | 0, _ => []
  | level + 1, table =>
    match (stage2 p (table + levelIndex (level + 1) va * 8)).bind (tableAt s p) with
    | none => []
    | some a =>
      let e := s.memWord a
      a :: (if pteValid (level + 1) e && !bitAt e 7 then walkTrail s p va level (field e 47 8 * 256) else [])

/-- The walk of a page in a list (R89): same die, partition and VA[55:16] (log entry 104). -/
def walkOf? (ws : List Walk) (die pid page : Nat) : Option Walk := ws.find? fun w => w.die == die && w.ptn == pid && w.page == page

/-- A walk with more AGs that wait for it. -/
def Walk.join (w : Walk) (who : List Nat) : Walk := { w with waiters := (w.waiters ++ who).eraseDups }

/-- The walks of a die that are under way. -/
def walksOn (ws : List Walk) (die : Nat) : Nat := (ws.filter fun w => w.die == die).length

/-- A miss asks for a walk (R89): it joins one in flight, or one that waits for its place; else it takes one of the
64 places of the table, or waits behind the others. -/
def askFor (s : State) (die pid page tlb : Nat) (who : List Nat) : State :=
  let same (w : Walk) : Walk := if w.die = die ∧ w.ptn = pid ∧ w.page = page then w.join who else w
  let new : Walk := ⟨s.nextId, die, pid, page, who, tlb⟩
  if (walkOf? (s.walks ++ s.walkq) die pid page).isSome then { s with walks := s.walks.map same, walkq := s.walkq.map same }
  else if walksOn s.walks die < 64 then { s with nextId := s.nextId + 1, walks := s.walks ++ [new] }
  else { s with nextId := s.nextId + 1, walkq := s.walkq ++ [new] }

/-- Misses that wait take the places that are free, in order of arrival. -/
def fillWalks : List Walk → List Walk → List Walk × List Walk
  | ws, [] => (ws, [])
  | ws, q :: qs =>
    if walksOn ws q.die < 64 then fillWalks (ws ++ [q]) qs
    else let r := fillWalks ws qs; (r.1, q :: r.2)

/-- The walk table after walks have ended. -/
def State.nextWalks (s : State) (keep : Walk → Bool) : State :=
  let r := fillWalks (s.walks.filter keep) (s.walkq.filter keep)
  { s with walks := r.1, walkq := r.2 }

/-- Whether an access that misses TLB tlb has to wait for a walk: one of its page is in flight, or every place of
the table is taken (R89). -/
def walkBusy (s : State) (tlb pid : Nat) (va : Word) : Bool :=
  (tlbFind (mgetD s.tlbs tlb []) pid va).isNone &&
  ((walkOf? (s.walks ++ s.walkq) (tlb / 256) pid (va.toNat % 2 ^ 56 / 65536)).isSome || decide (64 ≤ walksOn s.walks (tlb / 256)))

/-- Whether no access through TLB tlb to one of some VAs has to wait for a walk (R89): what is not a load of a task or an
access of an AG walks in its own step, which a walk of the same page and a full table hold back (log entry 104). -/
def walksFree (s : State) (tlb pid : Nat) (vas : List Word) : Bool := vas.all fun va => !(isCanonical va && walkBusy s tlb pid va)

/-- The bytes at a place; device registers read 0 (R268). -/
def State.readPlace (s : State) (pl : Place) (n : Nat) : List Byte :=
  match pl with
  | .mem a => s.memBytes a n
  | .host a => Memory.readN s.hostMem a n
  | .devr => lrep n 0

/-- Writes bytes at a place; a device register write has no effect (R268). -/
def State.writePlace (s : State) (pl : Place) (bs : List Byte) : State :=
  match pl with
  | .mem a => s.putMem a bs
  | .host a => { s with hostMem := Memory.writeN s.hostMem a bs }
  | .devr => s

/-- Whether reading n bytes at a place meets an uncorrectable error (R404). -/
def State.placeMarked (s : State) (pl : Place) (n : Nat) : Bool :=
  match pl with
  | .mem a => s.marked a n
  | _ => false

end Sys2Proof.Machine
end

