-- ==== Sys2Proof/Machine/Ops.lean ====
section
/-!
DEFINITION. The operations that several meanings share: tasks, channels, control words, requests in
flight and their order, completions and interrupts, and taking a fault and returning from one
(spec/20_failure_model.md R351-R361, R237, R262, R263, R279, R294, R295).
-/

namespace Sys2Proof.Machine

/-- The outcome of a meaning. -/
abbrev Out := Host.Outcome State Fault Refusal

/-- An event whose condition does not hold. -/
def notEnabled : Out := .refused .notEnabled
/-- A slot, element or node that cannot fire. -/
def notReady : Out := .refused .notReady

/-! ### Unit numbers -/

/-- SE address of a task or of a channel address: SE in [9:8], cluster in [7:0] (R266, R293). -/
def seOf (tid : Nat) : Nat := tid % 1024
/-- Task slot of a tid (R293). -/
def slotOf (tid : Nat) : Nat := tid / 1024 % 8
/-- Cluster of a tid, channel address or SE address. -/
def clOf (tid : Nat) : Nat := tid % 256
/-- Die of a tid, channel address, region or SE address (R266). -/
def dieOf (tid : Nat) : Nat := tid % 256 / 64
/-- The channel address of channel n of the SE of a task (R266). -/
def chanAddr (tid n : Nat) : Nat := n * 1024 + seOf tid
/-- Region number of a region name. -/
def regOf (r : Nat) : Nat := r / 256 % 8

/-! ### Access to parts of the state -/

/-- A task; none when the slot is FREE. -/
def State.task? (s : State) (tid : Nat) : Option Task := mget s.fab.tasks tid
/-- Replaces the fabric state. -/
def State.setFab (s : State) (f : Fabric) : State := { s with fab := f }
/-- Writes a task. -/
def State.setTask (s : State) (tid : Nat) (t : Task) : State :=
  { s with fab := { s.fab with tasks := mset s.fab.tasks tid t } }
/-- Changes a task that is there. -/
def State.modTask (s : State) (tid : Nat) (f : Task → Task) : State :=
  match s.task? tid with
  | some t => s.setTask tid (f t)
  | none => s
/-- A partition. -/
def State.part? (s : State) (p : Nat) : Option Partition := mget s.parts p
/-- Changes a partition that is there. -/
def State.modPart (s : State) (p : Nat) (f : Partition → Partition) : State :=
  { s with parts := madj s.parts p f }
/-- Changes a launch that is there. -/
def State.modLaunch (s : State) (l : Nat) (f : Launch → Launch) : State :=
  { s with launches := madj s.launches l f }
/-- A channel; one that nothing has bound is empty. -/
def State.chan (s : State) (a : Nat) : Channel := mgetD s.fab.chans a ⟨none, []⟩
/-- Writes a channel. -/
def State.setChan (s : State) (a : Nat) (c : Channel) : State :=
  { s with fab := { s.fab with chans := mset s.fab.chans a c } }
/-- A region. -/
def State.region? (s : State) (r : Nat) : Option Region := mget s.fab.regions r
/-- Writes a region. -/
def State.setRegion (s : State) (r : Nat) (g : Region) : State :=
  { s with fab := { s.fab with regions := mset s.fab.regions r g } }
/-- Changes a region that is there. -/
def State.modRegion (s : State) (r : Nat) (f : Region → Region) : State :=
  match s.region? r with
  | some g => s.setRegion r (f g)
  | none => s
/-- Takes the next serial number. -/
def State.fresh (s : State) : Nat × State := (s.nextId, { s with nextId := s.nextId + 1 })
/-- The n-th register of a task. -/
def Task.reg (t : Task) (n : Nat) : Word := lget t.regs n 0
/-- Writes a register. -/
def Task.setReg (t : Task) (n : Nat) (v : Word) : Task := { t with regs := lset t.regs n v }
/-- Writes consecutive registers from g. -/
def Task.setRegs (t : Task) (g : Nat) : List Word → Task
  | [] => t
  | v :: vs => (t.setReg g v).setRegs (g + 1) vs

/-- A free value (log entry 5), and the state that has used it. -/
def State.free (s : State) : Word × State := (Config.freeWord s.oracle, { s with oracle := s.oracle + 1 })

/-- An address in the instruction store of an SE. -/
def istoreKey (se a : Nat) : Nat := se * 16384 + a
/-- The 32-bit word at a byte address of an SE's instruction store (R239). -/
def State.iword (s : State) (se a : Nat) : Nat := Memory.num s.fab.istore (istoreKey se a) 4
/-- The device time: the 64-bit count of cycles (R8). -/
def State.deviceTime (s : State) : Nat := s.time % 2 ^ 64
/-- The cycles from now until a device time, which is a 64-bit count (R8). -/
def State.cyclesTo (s : State) (t : Nat) : Nat := (t % 2 ^ 64 + 2 ^ 64 - s.time % 2 ^ 64) % 2 ^ 64
/-- Whether one of n words of an instruction store from an address on holds an uncorrectable error (R404). -/
def State.imarked (s : State) (se a n : Nat) : Bool := (natRange (istoreKey se a / 4) n).any s.fab.imarks.contains

/-- The control core that serves a partition (R180); a core that has left is handled in R418. -/
def State.coreOf (s : State) (p : Nat) : Nat := ((s.part? p).map (·.core)).getD 0

/-- Whether any of the n bytes from a place of an M-tile's banks lies in a word with an uncorrectable error (R404). -/
def Fabric.bankMarked (f : Fabric) (a n : Nat) : Bool := f.smarks.any fun w => decide (w * 8 < a + n) && decide (a < w * 8 + 8)

/-- Writes bytes into an M-tile's banks; a word that is written whole holds no error any more (log entry 62). -/
def Fabric.writeBank (f : Fabric) (a : Nat) (bs : List Byte) : Fabric :=
  { f with
    sram := Memory.writeN f.sram a bs
    smarks := f.smarks.filter fun w => !(decide (a ≤ w * 8) && decide (w * 8 + 8 ≤ a + bs.length)) }

/-! ### What may act -/

/-- Whether a partition's tasks and elements may act: it is resident and neither swapping nor being
reset (R191, R193). -/
def partRuns (s : State) (ptn : Nat) : Bool :=
  match s.part? ptn with
  | some p => p.resident && p.swap.isNone && p.reset.isNone
  | none => false

/-- Whether a launch still lets its tasks issue (R26, R50). -/
def launchIssues (s : State) (l : Nat) : Bool :=
  match mget s.launches l with
  | some x => x.state = .running || x.state = .preempting
  | none => false

/-- Whether a task's block in flight may act: its partition runs and its launch is not saved. -/
def taskActs (s : State) (t : Task) : Bool :=
  partRuns s t.ptn && (match mget s.launches t.launch with | some x => decide (x.state ≠ .saved) | none => false)

/-! ### Interrupts (R190) -/

/-- Raises vector v of a partition: one message write, or its pending bit while it is masked. -/
def raiseVector (s : State) (p v : Nat) : State :=
  match s.part? p with
  | none => s
  | some q =>
    match mget q.vectors v with
    | none => s
    | some x =>
      if x.mask then { s with parts := mset s.parts p { q with vectors := mset q.vectors v { x with pending := true } } }
      else { s with msgs := s.msgs ++ [(x.addr, x.data)] }

/-! ### Control words and channels (R40, R55, R279) -/

/-- Sends a control-network word. -/
def sendCtrl (s : State) (src : Agent) (dst : CtrlDst) (ckind : Nat) (payload : Word) (ptn : Nat)
    (after : List Nat) : State :=
  { s with nextId := s.nextId + 1, ctrl := s.ctrl ++ [⟨s.nextId, src, dst, ckind, payload, ptn, after, none⟩] }

/-- Sends words to a channel, marked (CKIND 7) or not (CKIND 1). -/
def sendWords (s : State) (src : Agent) (addr : Nat) (ptn : Nat) (after : List Nat) (marked : Bool) :
    List Word → State
  | [] => s
  | w :: ws => sendWords (sendCtrl s src (.chan addr) (if marked then 7 else 1) w ptn after) src addr ptn after marked ws

/-- The channel address that route n of a task names (R279). -/
def Task.route (t : Task) (tid n : Nat) : Nat := (mget t.routes n).getD (chanAddr tid n)

/-! ### Completions (R185) -/

/-- A completion entry before its CSEQ is known: words 0 to 7. -/
def complWords (ring stat sseq code time : Nat) (tag : Word) : List Word :=
  [wordOf (ring * 2 ^ 24 + stat * 2 ^ 16), wordOf (sseq * 2 ^ 32 + code % 2 ^ 32), wordOf time, 0, 0, 0, 0, tag]

/-- The RING code of a queue (R185). -/
def ringCode : QueueRef → Nat
  | .part _ r => r
  | .module => 32

/-- Completes a command entry: its completion waits to be posted (R185, R186), and the entry no
longer counts as started. -/
def complete (s : State) (q : QueueRef) (seq : Nat) (tag : Word) (irqc : Bool) (stat code : Nat) : State :=
  let ws := complWords (ringCode q) stat seq code s.time tag
  let fin (r : Ring) : Ring := { r with started := r.started.filter (fun x => x.seq != seq) }
  match q with
  | .part p ring => s.modPart p fun x => { x with compl := x.compl ++ [(ws, irqc)], rings := madj x.rings ring fin }
  | .module => { s with modCompl := s.modCompl ++ [(ws, irqc)], modq := fin s.modq }

/-- The ring of a queue. -/
def ringOf (s : State) : QueueRef → Option Ring
  | .part p r => (s.part? p).bind fun x => mget x.rings r
  | .module => some s.modq

/-- Whether a command entry has started and not completed. -/
def isStarted (s : State) (q : QueueRef) (seq : Nat) : Bool :=
  match ringOf s q with
  | some r => r.started.any fun x => x.seq == seq
  | none => false

/-- Completes a command entry that has started, unless it has ended already. -/
def finishCmd (s : State) (c : CmdRef) (stat code : Nat) : State :=
  if isStarted s c.q c.seq then complete s c.q c.seq c.tag c.irqc stat code else s

/-- Step 7 of a partition's reset: vector 3, and the completion of its PRESET (R191). -/
def finishReset (s : State) (p : Nat) (cmd : Option CmdRef) : State :=
  let t := raiseVector (s.modPart p fun y => { y with reset := none }) p 3
  match cmd with
  | some c => finishCmd t c 0 0
  | none => t

/-! ### Requests in flight and their order (R103, R165, R168) -/

/-- Whether an operation has been performed, so that only its results are on their way. -/
def Op.performed (o : Op) : Bool := match o.act with | .land .. => true | _ => false

/-- The operations of a source that have not been performed, oldest first. -/
def opsOf (s : State) (src : Agent) : List Op := s.ops.filter fun o => o.src == src && !o.performed

/-- Their ids. -/
def pendingIds (s : State) (src : Agent) : List Nat := (opsOf s src).map (·.id)

/-- Whether a scan still works for an operation (R113). -/
def scanning (s : State) (id : Nat) : Bool :=
  s.shelvers.any fun x => (x.2.scans ++ x.2.waiting).any fun c => c.opid == id

/-- The scans of a source that a shelver has begun and not ended: a release stands after them (R174). -/
def scanIds (s : State) (src : Agent) : List Nat :=
  (s.ops.filter fun o => o.src == src && o.performed && scanning s o.id).map (·.id)

/-- Whether every id of a list has been performed, a scan to its last step (R174). A request of a source that was issued
while its own earlier scan had no entry of the shelver waits to that scan's last step; one issued later may stand between
two steps of it (DEDUCED, log entry 75). -/
def allDone (s : State) (ids : List Nat) : Bool :=
  ids.all fun i => !(s.ops.any fun o => o.id == i && !o.performed) && !scanning s i

/-- Whether a packet carries an epoch that is no longer its partition's (R192). -/
def stale (s : State) (o : Op) : Bool := ((s.part? o.ptn).map (·.epoch)) != some o.pkt.epoch

/-- The location an operation writes: memory space (0 memory, 1 host), address and length. -/
def Act.loc : Act → Option (Nat × Nat × Nat)
  | .store pl a bs _ => some (pl, a, bs.length)
  | .atomic _ _ pl a w _ _ => some (pl, a, w)
  | .clean a _ _ => some (0, a, 128)
  | .agAccess pl a _ _ n _ _ => some (pl, a, n)
  | _ => none

/-- Every location an operation reads or writes in the order of its source: that of `Act.loc`, the batch that a merge reads
for its task (R342), the node words of a NMLD, and the nonce and the report area of an ATST. -/
def Act.locs (a : Act) : List (Nat × Nat × Nat) :=
  match a with
  | .fibre _ _ _ _ _ _ _ _ _ ps _ => ps.map fun p => (p.1 % 4, p.2, 8)
  | .nearLoad _ ps _ => ps.map fun p => (p.1 % 4, p.2, 8)
  | .attest ns rs => ns ++ rs
  | _ => a.loc.toList

/-- Whether two locations meet. -/
def overlaps (x y : Nat × Nat × Nat) : Bool :=
  x.1 == y.1 && decide (x.2.1 < y.2.1 + y.2.2) && decide (y.2.1 < x.2.1 + x.2.2)

/-- Whether two operations share a location. -/
def Act.meets (x y : Act) : Bool := x.locs.any fun l => y.locs.any (overlaps l)

/-- Whether an operation is an ARM on its way. -/
def Act.isArm : Act → Bool
  | .arm .. => true | _ => false

/-- Whether an operation is a NMLD or NMGO, as against a NMBX or NMWK. -/
def Act.isRun : Act → Bool
  | .nearBank c .. => decide (c ≤ 1)
  | .nearLoad .. => true
  | _ => false

/-- The context whose entry queue an INJ names (R266, R277); the same for every other operation. -/
def Act.injCtx : Act → Nat
  | .engine _ a _ _ _ => field a.toNat 13 12
  | _ => 0

/-- Whether the requests of one source to a target keep their order there: at a shelver and a tree (R103, R141), at
a near-bank unit the graphs and runs among one another and the posts among one another (R291, R292), and at a
region ARM after ARM, and INJ after INJ into one context (R274, R277). -/
def ordersAt (target : Agent) (x y : Act) : Bool :=
  match target with
  | .shelver _ => true | .tree _ => true
  | .unit _ => x.isRun == y.isRun
  | .region _ => x.isArm == y.isArm && x.injCtx == y.injCtx
  | _ => false

/-- Same-location and same-target order of one source (R103, R165, R168): the earlier operations
that a new one must follow. -/
def sameLoc (s : State) (src target : Agent) (act : Act) : List Nat :=
  ((opsOf s src).filter fun o => act.meets o.act || (o.target == target && ordersAt target act o.act)).map (·.id)

/-! ### Scopes and who shares them (R166, R167, R172) -/

/-- The partition of an agent that carries a launch's work. -/
def agentPtn (s : State) : Agent → Option Nat
  | .task t => (s.task? t).map (·.ptn)
  | .elem r _ _ => (s.region? r).map (·.ptn)
  | _ => none

/-- The cluster of a task or an element. -/
def agentCl : Agent → Option Nat
  | .task t => some (clOf t)
  | .elem r _ _ => some (clOf r)
  | _ => none

/-- Whether two agents share the scope of a code (R166, R167); an engine, a shelver or a tree is an agent of dev. -/
def shares (s : State) (sc : Nat) (x y : Agent) : Bool :=
  x == y ||
  (match sc, x, y with
   | 2, _, _ => (s.agentCTile x).isSome && s.agentCTile x == s.agentCTile y
   | 3, .elem r k _, .elem q j _ => r == q && k == j
   | 4, _, _ => (agentCl x).isSome && agentCl x == agentCl y
   | 5, _, _ => (agentCl x).isSome && (agentCl x).map (· / 64) == (agentCl y).map (· / 64)
   | 6, _, _ => (agentPtn s x).isSome && agentPtn s x == agentPtn s y
   | _, _, _ => decide (7 ≤ sc))

/-- Whether an agent must wait at some locations for what a release of a scope it shares follows (R167, R172). -/
def veiled (s : State) (y : Agent) (ls : List (Nat × Nat × Nat)) : Bool :=
  s.veils.any fun v =>
    v.src != y && ls.any (overlaps (v.space, v.addr, v.len)) && v.soft.any fun p => shares s p.2 v.src y && !allDone s [p.1]

/-! ### Arbitration (R188; log entry 117) -/

/-- Partitions that have requests waiting at an arbitration point. -/
abbrev Waiting := List Nat

/-- Priority of a partition's class (R187). -/
def State.prioOf (s : State) (p : Nat) : Nat := ((s.part? p).map (·.prio)).getD 0
/-- Weight of a partition's class. -/
def State.weightOf (s : State) (p : Nat) : Nat := ((s.part? p).map (·.weight)).getD 0

/-- The frame of an arbitration point as it now stands: one whose 1,024 cycles are over has served nobody. -/
def State.frame (s : State) (point : Nat) : Frame :=
  match mget s.frames point with
  | some f => if f.start + 1024 ≤ s.time then { f with start := s.time / 1024 * 1024, served := [] } else f
  | none => ⟨s.time / 1024 * 1024, [], 0, 0⟩

/-- Whether a partition has received its share of the present frame: its weight over the weights of the partitions that
wait there, of 1,024 slots (R188). -/
def atShare (s : State) (point : Nat) (ps : Waiting) (p : Nat) : Bool :=
  decide (s.weightOf p * 1024 ≤ mgetD (s.frame point).served p 0 * (ps.eraseDups.map s.weightOf).foldr (· + ·) 0)

/-- The partition that the deficit round robin serves next, of those waiting: the one whose turn it is while it has
credit, else the next in number. -/
def Frame.next (f : Frame) (ps : Waiting) : Option Nat :=
  if f.credit ≠ 0 ∧ ps.contains f.turn then some f.turn
  else ((natRange (f.turn + 1) 17).map (· % 17)).find? ps.contains

/-- Whether a point may serve a partition now: one below its share, or, when none that waits is below its share, the one
that the deficit round robin of the highest priority names. -/
def inTurn (s : State) (point : Nat) (ps : Waiting) (p : Nat) : Bool :=
  !atShare s point ps p ||
  (ps.all (atShare s point ps) &&
   (let top := (ps.map s.prioOf).foldl Nat.max 0
    (s.frame point).next (ps.filter fun q => s.prioOf q == top) == some p))

/-- A point has served a partition: a slot of its share, or one left over. -/
def serveAt (s : State) (point : Nat) (ps : Waiting) (p : Nat) : State :=
  let f := s.frame point
  let g : Frame := { f with served := mmod f.served p 0 (· + 1) }
  let g := if !atShare s point ps p then g
    else if f.turn = p ∧ f.credit ≠ 0 then { g with credit := f.credit - 1 }
    else { g with turn := p, credit := s.weightOf p - 1 }
  { s with frames := mset s.frames point g }

/-- Whether a release of a scope below dev may be performed before what it follows for the agents of its scope: none of
those requests waits for a release of another agent, and its place is none at which a request has still to be performed
that stands before such a release. No two releases then wait for one another. -/
def mayLead (s : State) (o : Op) : Bool :=
  let before (src : Agent) (soft : List (Nat × Nat)) (x : Op) : Bool :=
    !x.performed && soft.any fun p => x.id == p.1 || (x.src == src && decide (x.id ≤ p.1))
  s.ops.all (fun x => !(before o.src o.soft x && veiled s x.src x.act.locs)) &&
  !(s.veils.any fun v => v.src != o.src && s.ops.any fun y => before v.src v.soft y && y.act.meets o.act)

/-- Whether an operation could be performed but for its turn: it is neither done, nor dropped by its epoch, nor evicted,
what it follows has been performed, and its source waits for no release that binds it. -/
def ripe (s : State) (o : Op) : Bool :=
  !o.performed && !stale s o && !o.pkt.evicted && allDone s o.after && !veiled s o.src o.act.locs &&
  (allDone s (o.soft.map (·.1)) || mayLead s o)

/-- Whether a point is one where packets of several partitions compete: a slice's P-tile or a shelver's queue. -/
def contended (point : Nat) : Bool := point % 8 ≤ 1

/-- The partitions whose packets wait at a point and could be served. -/
def waitersAt (s : State) (point : Nat) : Waiting :=
  ((s.ops.filter fun o => o.pkt.point == point && ripe s o && ((s.part? o.ptn).map (·.resident)).getD true).map (·.ptn)).eraseDups

/-- Whether an operation may be performed now: it is ripe, and its point may serve its partition (R188). -/
def performable (s : State) (o : Op) : Bool :=
  ripe s o && (!contended o.pkt.point || inTurn s o.pkt.point (waitersAt s o.pkt.point) o.ptn)

/-- An operation that is performed before what its release of a scope below dev follows leaves a veil at its place;
veils whose requests are all performed are gone. -/
def leaveVeil (s : State) (o : Op) : State :=
  let left := s.veils.filter fun v => v.soft.any fun p => !allDone s [p.1]
  let soft := o.soft.filter fun p => !allDone s [p.1]
  match soft, o.act.loc with
  | _ :: _, some (sp, a, n) =>
    let binds := match o.act with | .atomic .. => true | .agAccess _ _ _ _ _ _ q => q | _ => false
    { s with veils := left ++ [⟨sp, a, n, soft, o.src, binds⟩] }
  | _, _ => { s with veils := left }

/-- The number of a request from a source to a target, kept per pair (R103). -/
def seqKey (src target : Agent) : Nat :=
  let code : Agent → Nat
    | .task t => t * 16 | .elem r c p => (p * 4 + c) * 2048 * 16 + r * 16 + 1 | .region r => r * 16 + 2
    | .engine i => i * 16 + 3 | .shelver n => n * 16 + 4 | .tree n => n * 16 + 5 | .unit u => u * 16 + 6
    | .core c => c * 16 + 7 | .tile t => t * 16 + 8 | .host => 9
  code src * 2 ^ 32 + code target

/-- The packet of a new request: priority and epoch of its partition, its copy kept (R187, R189, R192). -/
def newPacket (s : State) (ptn point : Nat) : Packet :=
  let p := s.part? ptn
  ⟨(p.map (·.prio)).getD 0, (p.map (·.epoch)).getD 0, 0, false, false, point, s.nextId⟩

/-- The address at which an engine makes the first access of a request: its source, or its list or descriptor. -/
def engineHead (opcode : Nat) (a b c : Word) : Word :=
  if opcode = 0x57 then c else if opcode = 0x5A ∨ opcode = 0x5B ∨ opcode = 0x5C ∨ opcode = 0x5D then a else b

/-- The home slice of the page of a VA of a partition, when a walk finds it in memory. -/
def State.sliceAt (s : State) (ptn : Nat) (va : Word) : Option Nat :=
  (mget s.parts ptn).bind fun p =>
    match walk s ptn p va with
    | .ok t => if t.typ = 3 ∨ t.typ = 6 then none else some (homeSlice (t.out + va.toNat % 65536))
    | .bad _ => none

/-- The arbitration point at which an operation waits (R188): its home slice's P-tile, for an engine request that of its
first access (log entry 117), its shelver's queue, its tree's, its unit's or its region's. -/
def arbPoint (s : State) (ptn : Nat) (target : Agent) (act : Act) : Nat :=
  match act.loc, target with
  | some (0, a, _), _ => 8 * homeSlice a
  | _, .shelver n => 8 * n + 1
  | _, .tree n => 8 * n + 2
  | _, .unit u => 8 * u + 3
  | _, t =>
    match act, t with
    | .engine op a b c _, _ =>
      (match s.sliceAt ptn (engineHead op a b c) with
       | some n => 8 * n
       | none => 5)
    | _, .region r => 8 * r + 4
    | _, _ => 6

/-- Issues an operation: it takes the next serial number and stands last. -/
def issueSoft (s : State) (src : Agent) (ptn launch level : Nat) (target : Agent) (dest : Dest) (k : Nat)
    (after : List Nat) (soft : List (Nat × Nat)) (act : Act) : State :=
  let key := seqKey src target
  let n := mgetD s.seqs key 0
  let o : Op := ⟨s.nextId, src, ptn, launch, level, n, target, dest, k, after ++ sameLoc s src target act, soft, act,
    newPacket s ptn (arbPoint s ptn target act), []⟩
  { s with nextId := s.nextId + 1, ops := s.ops ++ [o], seqs := mset s.seqs key (n + 1)
           packets := match s.agentTile src with
             | some t => mset s.packets t (mgetD s.packets t 0 + 1)
             | none => s.packets
           copies := if o.performed then s.copies else s.copies ++ [⟨o.id, ptn, o.pkt.epoch, false⟩] }

/-- Issues an operation that is no release of a scope below dev. -/
def issue (s : State) (src : Agent) (ptn launch level : Nat) (target : Agent) (dest : Dest) (k : Nat)
    (after : List Nat) (act : Act) : State :=
  issueSoft s src ptn launch level target dest k after [] act

/-- Where the k results of a commit form of a task go (R262, R280). -/
def destOf (t : Task) (tid : Nat) (eng : Bool) (ta : Target) : Dest :=
  match ta with
  | .reg g => .regs tid g.val
  | .chan n => .chan (t.route tid n.val)
  | _ => if eng then .stream tid else .nowhere

/-- Notes in a task that results of request id are due (R262, R263, R280). -/
def awaitResult (t : Task) (id k : Nat) (dest : Dest) : Task :=
  match dest with
  | .regs _ g => if k = 0 then t else { t with pend := t.pend ++ [⟨id, natRange g k⟩] }
  | .stream _ => { t with resp := t.resp ++ [⟨id, none⟩] }
  | _ => t

/-- A commit form of a task issues an operation behind the requests `after`, and behind those of `soft` for the agents of
a scope (R262, R280). -/
def issueTaskBare (s : State) (tid : Nat) (target : Agent) (eng : Bool) (ta : Target) (k : Nat)
    (after : List Nat) (soft : List (Nat × Nat)) (act : Act) : State :=
  match s.task? tid with
  | none => s
  | some t =>
    let dest := destOf t tid eng ta
    let id := s.nextId
    (issueSoft s (.task tid) t.ptn t.launch t.level target dest k after soft act).setTask tid (awaitResult t id k dest)

/-- The same behind what the task's acquires and fences have put before its later accesses as well (R168). -/
def issueTaskSoft (s : State) (tid : Nat) (target : Agent) (eng : Bool) (ta : Target) (k : Nat)
    (after : List Nat) (soft : List (Nat × Nat)) (act : Act) : State :=
  issueTaskBare s tid target eng ta k (((s.task? tid).map (·.after)).getD [] ++ after) soft act

/-- The same without a release of a scope below dev. -/
def issueTask (s : State) (tid : Nat) (target : Agent) (eng : Bool) (ta : Target) (k : Nat)
    (after : List Nat) (act : Act) : State :=
  issueTaskSoft s tid target eng ta k after [] act

/-- The results of a commit form are known at once and are only on their way (R262). -/
def landTask (s : State) (tid : Nat) (ta : Target) (vals : List Word) : State :=
  issueTask s tid (.task tid) false ta vals.length [] (.land vals 0 false)

/-- A packet has been served at its arbitration point (R188). -/
def serve (s : State) (o : Op) : State := serveAt s o.pkt.point (waitersAt s o.pkt.point) o.ptn

/-- The acknowledgement of a performed operation sets out to its source (R189). -/
def ackCopy (s : State) (id : Nat) : State :=
  { s with copies := s.copies.map fun c => if c.id = id then { c with acked := true } else c }

/-- Puts the results of an operation on their way (R262, R110): it stands last, so that the operations whose
results are on their way stand in the order in which they have completed (R263). -/
def toLanding (s : State) (id : Nat) (vals : List Word) (cost : Word) (marked : Bool) : State :=
  { ackCopy s id with ops := (s.ops.filter fun o => o.id != id) ++
      (s.ops.filter fun o => o.id == id).map fun o => { o with act := .land vals cost marked } }

/-- Sends the channel words of an operation's results: its cost word is added to the `fcost` of its task when the
last of them is placed in its channel (R346). -/
def sendCharged (s : State) (o : Op) (addr : Nat) (after : List Nat) (marked : Bool) (ws : List Word) (cost : Word) : State :=
  let t := sendWords s o.src addr o.ptn after marked ws
  { t with ctrl := t.ctrl.map fun w =>
      if w.id + 1 = t.nextId ∧ w.src = o.src then { w with charge := some (o.launch, cost) } else w }

/-- Removes an operation. -/
def dropOp (s : State) (id : Nat) : State := { ackCopy s id with ops := s.ops.filter fun o => o.id != id }

/-- The operation with an id. -/
def State.op? (s : State) (id : Nat) : Option Op := s.ops.find? fun o => o.id == id

/-! ### Fault records (R355-R359) -/

/-- Class of a fault code (R357). -/
def fcodeClass (c : Nat) : Nat :=
  if c = 0x0006 then 0
  else if c = 0x0001 || c = 0x0002 || c = 0x0003 || c = 0x0005 || c = 0x0007 || c = 0x0008 || c = 0x0009 then 1
  else 3

/-- The record of a task fault (R356). -/
def taskRecord (tid lastExit head time : Nat) (f : Flt0) : List Word :=
  [wordOf (0x03 * 2 ^ 56 + f.code * 2 ^ 40 + lastExit * 2 ^ 32 + tid),
   wordOf (fcodeClass f.code * 2 ^ 60 + dieOf tid * 2 ^ 30), f.fva, wordOf time, 0, 0, wordOf head, f.lpte,
   0, 0, 0, 0, 0, 0, 0, 0]

/-- The class of a record (R356 word 1). -/
def Record.cls (r : Record) : Nat := field (lget r.words 1 0).toNat 63 60
/-- The fault code of a record (R356 word 0). -/
def Record.fcode (r : Record) : Nat := field (lget r.words 0 0).toNat 55 40

/-- The channel a class is delegated to, judged for a fault of an origin (R296, R359): none when the
class is not delegated, when the channel is bound to no task or to one below level 1, or when the
origin is the task bound to it. -/
def delegated (s : State) (p : Partition) (die cls : Nat) (origin : Agent) : Option Nat :=
  if 3 ≤ cls then none
  else match mget p.dlgt (die * 4 + cls) with
  | none => none
  | some ch =>
    match (s.chan ch).slot with
    | none => none
    | some sl =>
      let tid := sl * 1024 + seOf ch
      match s.task? tid with
      | none => none
      | some t => if t.level = 0 || origin == .task tid then none else some ch

/-- Tells of a record that has entered its mailbox (R358). -/
def tellRecord (s : State) (ptn die : Nat) (r : Record) : State :=
  match s.part? ptn with
  | none => s
  | some p =>
    match delegated s p die r.cls r.origin with
    | some ch => sendWords s (.core p.core) ch ptn [] false [lget r.words 0 0, lget r.words 2 0]
    | none =>
      { s with ctrl := s.ctrl ++ [⟨r.id, r.origin, .core p.core, 6, wordOf die, ptn, [], none⟩] }

/-- Writes a record into the mailbox of a die, or lets it wait for room (R355). -/
def postRecord (s : State) (ptn die : Nat) (words : List Word) (origin : Agent) (launch : Nat) : State :=
  let r : Record := ⟨s.nextId, words, origin, launch⟩
  let s := { s with nextId := s.nextId + 1 }
  match s.part? ptn with
  | none => s
  | some p =>
    let box := mgetD p.mbox die []
    let wait := mgetD p.waitrec die []
    if box.length < 64 ∧ wait.isEmpty then
      tellRecord { s with parts := mset s.parts ptn { p with mbox := mset p.mbox die (box ++ [r]) } } ptn die r
    else { s with parts := mset s.parts ptn { p with waitrec := mset p.waitrec die (wait ++ [r]) } }

/-! ### Taking an exception and returning from one -/

/-- Byte address of the block a task has in flight, or would issue next. -/
def Task.blockAddr (t : Task) : Nat := match t.blk with | some b => b.head | none => t.pc

/-- TAKING AN EXCEPTION (R240, R353, R355, R356): the block in flight is discarded, the task stops
at its header, and its record goes to the partition's mailbox on its die. Nothing else changes. -/
def takeFault (s : State) (tid : Nat) (f : Flt0) : State :=
  match s.task? tid with
  | none => s
  | some t =>
    let s' := s.setTask tid { t with state := .stopped, blk := none, pc := t.blockAddr, resumeAt := some t.blockAddr }
    postRecord s' t.ptn (dieOf tid) (taskRecord tid t.lastExit t.blockAddr s.time f) (.task tid) t.launch

/-- RETURNING FROM AN EXCEPTION (R295, R353): a stopped task becomes RUNNABLE at an address, its
registers as it left them. -/
def resumeTask (s : State) (tid addr : Nat) : State :=
  s.modTask tid fun t => { t with state := .runnable, pc := addr, resumeAt := none }

/-- An instruction exception without a faulting address (R420). -/
def exc (code : Nat) : Flt0 := ⟨code, 0, 0⟩

end Sys2Proof.Machine
end

