-- ==== Sys2Proof/Machine/Cache.lean ====
section
/-!
DEFINITION. The lines of an L2 slice (spec/04_memory.md R80, R83-R85; R390, R391, R404). A line
carries its tag, owner and marks; its bytes are those of the coherent memory (log entry 12).
-/

namespace Sys2Proof.Machine

/-- Writes a slice. -/
def State.setSlice (s : State) (n : Nat) (x : Slice) : State := { s with slices := mset s.slices n x }

/-- The ways of a slice that are cache ways. -/
def cacheWay (sl : Slice) (w : Nat) : Bool := bitAt sl.mask w

/-- The way of a set that holds a line (R75), cache ways only. -/
def findLine (sl : Slice) (pa : Nat) : Option Nat :=
  (natRange 0 16).find? fun w =>
    cacheWay sl w &&
    (match mget sl.lines (setOf pa * 16 + w) with
     | some l => l.tag == tagOf pa
     | none => false)

/-- Points the nodes on the path to a way at it (`near`, making it the victim) or away from it
(most recently used), from node i of a subtree of 2^d ways (R84). -/
def lruPath (near : Bool) : Nat → Nat → Nat → Nat → Nat
  | 0, _, _, bits => bits
  | d + 1, i, w, bits =>
    let right := bitAt w d
    let want := if near then right else !right
    let bits := if bitAt bits i = want then bits else if want then bits + 2 ^ i else bits - 2 ^ i
    lruPath near d (if right then 2 * i + 2 else 2 * i + 1) w bits

/-- Marks a way of a set most recently used, or with `near` least recently used (R84). -/
def touchLru (sl : Slice) (set w : Nat) (near : Bool) : Slice :=
  { sl with lru := mset sl.lru set (lruPath near 4 0 w (mgetD sl.lru set 0)) }

/-- The victim way among the eligible ones: the walk follows the pointer unless that subtree holds
no eligible way (R84). -/
def victimWay (elig : List Nat) (bits : Nat) : Nat → Nat → Nat → Nat
  | 0, _, base => base
  | d + 1, i, base =>
    let half := 2 ^ d
    let has (lo : Nat) : Bool := elig.any fun w => decide (lo ≤ w) && decide (w < lo + half)
    let right := if bitAt bits i then has (base + half) else !has base
    victimWay elig bits d (if right then 2 * i + 2 else 2 * i + 1) (if right then base + half else base)

/-- The partition's cache ways of a slice of a die, highest first. -/
def cacheWaysDown (p : Partition) (die : Nat) (sl : Slice) : List Nat :=
  ((natRange 0 16).filter fun w => (waysOn p die).contains w && cacheWay sl w).reverse

/-- The retention register numbers of a die, die * 4 + j. -/
def retKey (die j : Nat) : Nat := die * 4 + j

/-- The ways that retention register j of a die reserves in a slice (R83). -/
def reservedWays (p : Partition) (sl : Slice) (die j : Nat) : List Nat :=
  let before := ((natRange 0 j).map fun i => ((mget p.rets (retKey die i)).map (·.count)).getD 0).foldr (· + ·) 0
  match mget p.rets (retKey die j) with
  | some r => ((cacheWaysDown p die sl).drop before).take r.count
  | none => []

/-- The register whose range holds an address (R83). -/
def rangeOf (p : Partition) (die pa : Nat) : Option Nat :=
  (natRange 0 4).find? fun j =>
    match mget p.rets (retKey die j) with
    | some r => decide (r.base ≤ pa) && decide (pa < r.base + r.len)
    | none => false

/-- The cache ways that no register reserves (R84). -/
def ordinaryWays (p : Partition) (sl : Slice) (die : Nat) : List Nat :=
  let res := (natRange 0 4).flatMap (reservedWays p sl die)
  (cacheWaysDown p die sl).filter fun w => !res.contains w

/-- The address of a line of slice n by its tag (R75). -/
def lineAddr (n tag : Nat) : Nat := tag * 32768 + Nat.xor (n % 256) (tag % 256) * 128

/-- The eligible ways of a new line of slice n (R83, R84). -/
def eligibleWays (p : Partition) (sl : Slice) (n pa : Nat) : List Nat :=
  let die := n / 256
  match rangeOf p die pa with
  | none => ordinaryWays p sl die
  | some j =>
    let ways := reservedWays p sl die j
    let full := ways.all fun w =>
      match mget sl.lines (setOf pa * 16 + w) with
      | some l => rangeOf p die (lineAddr n l.tag) == some j
      | none => false
    if full then ordinaryWays p sl die else ways

/-- The line base address (128 B). -/
def lineBase (pa : Nat) : Nat := pa / 128 * 128

/-- The miss entries of a slice that are taken: by misses, and by victims that stand in the buffer of theirs (R390). -/
def Slice.entries (sl : Slice) : Nat := sl.misses.length + (sl.wbq.filter (·.held)).length

/-- Write-backs that wait take the entries that are free, of eight, in order; a miss entry whose victim has left its buffer
goes to the miss that has waited longest (R390). -/
def Slice.settled (sl : Slice) : Slice :=
  let n := 8 - sl.wbs.length
  let sl := { sl with wbs := sl.wbs ++ sl.wbq.take n, wbq := sl.wbq.drop n }
  let m := 64 - sl.entries
  { sl with misses := sl.misses ++ sl.waitq.take m, waitq := sl.waitq.drop m }

/-- A line that is written around the cache leaves for HBM by a write-back entry; stores to one line that still waits
there have merged (R171, R390; log entry 12). -/
def Slice.writeAround (sl : Slice) (pa ptn : Nat) : Slice :=
  if (sl.wbs ++ sl.wbq).any fun w => w.pa == lineBase pa then sl
  else ({ sl with wbq := sl.wbq ++ [⟨lineBase pa, false, ptn, false⟩] } : Slice).settled

/-- Adds a miss: one of 64 entries, else it waits at the P-tile (R390). A store to a line that is already
missed makes the line dirty when it comes, and the hint of the later access is the one that holds then (R84). -/
def addMiss (sl : Slice) (m : Miss) : Slice :=
  let merge (x : Miss) : Miss := if x.pa == m.pa then { x with hint := m.hint % 8 + (if 8 ≤ x.hint ∨ 8 ≤ m.hint then 8 else 0) } else x
  if (sl.misses ++ sl.waitq).any fun x => x.pa == m.pa then { sl with misses := sl.misses.map merge, waitq := sl.waitq.map merge }
  else if sl.entries < 64 ∧ sl.waitq.isEmpty then { sl with misses := sl.misses ++ [m] }
  else { sl with waitq := sl.waitq ++ [m] }

/-- What an access does to the lines of its home slice (R84, R85): hint codes of R219, page types
NORMAL and KVPG only. -/
def touch (s : State) (ptn pa typ hint : Nat) (store : Bool) : State :=
  if !(inHbm pa) || !(typ == 0 || typ == 2) then s
  else
    let n := sliceOf pa
    let sl := s.slice n
    let around := hint == 3 || (store && hint == 4)
    match findLine sl pa with
    | some w =>
      let key := setOf pa * 16 + w
      let sl := if store then { sl with lines := madj sl.lines key fun l => { l with dirty := true } } else sl
      if hint = 2 ∨ (around ∧ store) then s.setSlice n (touchLru sl (setOf pa) w true)
      else if around then s.setSlice n sl
      else s.setSlice n (touchLru sl (setOf pa) w false)
    | none =>
      if around then (if store then s.setSlice n (sl.writeAround pa ptn) else s)
      else s.setSlice n (addMiss sl ⟨lineBase pa, ptn, hint + (if store then 8 else 0)⟩)

/-- A walk reads its table entries through the L2, as loads (R89). -/
def trailTouch (s : State) (pid : Nat) (p : Partition) (va : Word) : State :=
  match p.s1root with
  | none => s
  | some r => (walkTrail s p va.toNat 4 r).foldl (fun t a => touch t pid a 0 0 false) s

/-- Installs the translation that an access has met, whatever its type (R384): a TLB of 256 entries, tagged by partition;
when it is full, the entry a free choice names leaves (R89, log entry 6). -/
def installTlb (s : State) (tlb pid : Nat) (va : Word) : State :=
  match (if isCanonical va then mget s.parts pid else none) with
  | none => s
  | some p =>
    let es := mgetD s.tlbs tlb []
    match tlbFind es pid va with
    | some _ => s
    | none =>
      match walk s pid p va with
      | .bad _ => s
      | .ok t =>
        let s := trailTouch s pid p va
        if es.length < 256 then { s with tlbs := mset s.tlbs tlb (es ++ [t]) }
        else
          let k := Config.pick s.oracle % es.length
          { s with oracle := s.oracle + 1, tlbs := mset s.tlbs tlb (lset es k t) }

/-- Installs a line in place of its victim, which leaves for HBM when it is dirty, from the buffer of its miss entry (R84,
R390). -/
def fillLine (s : State) (n : Nat) (m : Miss) : State :=
  match s.part? m.ptn with
  | none => s
  | some p =>
    let sl := s.slice n
    let set := setOf m.pa
    match findLine sl m.pa with
    | some _ => s
    | none =>
      let elig := eligibleWays p sl n m.pa
      if elig.isEmpty then s
      else
        let w := victimWay elig (mgetD sl.lru set 0) 4 0 0
        let key := set * 16 + w
        let wbq :=
          match mget sl.lines key with
          | some l => if l.dirty then sl.wbq ++ [⟨lineAddr n l.tag, l.bad, l.ptn, true⟩] else sl.wbq
          | none => sl.wbq
        let sl := { sl with lines := mset sl.lines key ⟨tagOf m.pa, m.ptn, decide (8 ≤ m.hint), false⟩, wbq := wbq }
        s.setSlice n (touchLru sl set w (m.hint % 8 == 2))

/-- Writes a line back, and with inv invalidates it (R270). -/
def cleanLine (s : State) (pa : Nat) (inv : Bool) : State :=
  if !inHbm pa then s
  else
    let n := sliceOf pa
    let sl := s.slice n
    match findLine sl pa with
    | none => s
    | some w =>
      let key := setOf pa * 16 + w
      match mget sl.lines key with
      | none => s
      | some l =>
        let s := if l.dirty && l.bad then { s with poison := s.poison ++ granules (lineBase pa) 128 } else s
        s.setSlice n { sl with lines := if inv then merase sl.lines key else mset sl.lines key { l with dirty := false, bad := false } }

/-- Writes back every dirty line of the named ways of a slice and invalidates them (R290). -/
def flushWays (sl : Slice) (ways : List Nat) : Slice :=
  { sl with lines := sl.lines.filter fun l => !ways.contains (l.1 % 16) }

/-- Whether a way of a slice holds a dirty line (R391). -/
def dirtyWay (sl : Slice) (w : Nat) : Bool := sl.lines.any fun l => l.1 % 16 == w && l.2.dirty

end Sys2Proof.Machine
end

