-- ==== Sys2Proof/Machine/Operands.lean ====
section
/-!
DEFINITION. Operand buffers, firing, null firing, squashing and the delivery of results inside a
block (R233-R238, R241, R254, R341, R419), and the two shared shapes of a block form: an in-block
form and a commit form (R261).
-/

namespace Sys2Proof.Machine

/-! ### Operand words at a type (R241, R254) -/

/-- The integer a type reads from a word: its low w bits, signed or unsigned (R241). -/
def interp (ty : Ty) (v : Word) : Int :=
  if ty.signed then signedOf ty.width v.toNat else ((v.toNat % 2 ^ ty.width : Nat) : Int)

/-- The smallest and the largest integer of a type (R146). -/
def tyMin (ty : Ty) : Int := if ty.signed then -(2 ^ (ty.width - 1) : Int) else 0
/-- The largest integer of a type. -/
def tyMax (ty : Ty) : Int := if ty.signed then 2 ^ (ty.width - 1) - 1 else 2 ^ ty.width - 1

/-- extend64: the w-bit pattern of an integer, extended by its type (R241). -/
def extend64 (ty : Ty) (x : Int) : Word :=
  if ty.signed then sext ty.width (patternOf ty.width x) else wordOf (patternOf ty.width x)

/-- The format of a scalar float type. -/
def fltOf : FTy → Flt
  | .f32 => .f32 | .f16 => .f16 | .bf16 => .bf16

/-- A float operand: bits [31:0] or [15:0] of its word; the bits above are ignored (R254). -/
def fval (ft : FTy) (v : Word) : Val := (fltOf ft).decode v.toNat

/-! ### Buffers -/

/-- The buffers of a slot that has received nothing. -/
def Slot.blank : Slot := ⟨.empty, .empty, .empty, .empty, .waiting⟩

/-- A slot of a block. -/
def Block.slot (b : Block) (k : Nat) : Slot := lget b.slots k .blank

/-- Writes a slot. -/
def Block.setSlot (b : Block) (k : Nat) (x : Slot) : Block := { b with slots := lset b.slots k x }

/-- Which buffer of a slot a target names. -/
inductive Side where
  | a | b | c | p
  deriving DecidableEq, Repr

/-- A buffer of a slot. -/
def Slot.buf (x : Slot) : Side → Buf
  | .a => x.a | .b => x.b | .c => x.c | .p => x.p

/-- Writes a buffer of a slot. -/
def Slot.setBuf (x : Slot) (sd : Side) (v : Buf) : Slot :=
  match sd with
  | .a => { x with a := v } | .b => { x with b := v } | .c => { x with c := v } | .p => { x with p := v }

/-- What can happen to a slot whose turn it is (R233-R235, R341). -/
inductive Fire where
  | notReady
  | squash
  | null
  | go (a b c : Word)
  deriving DecidableEq, Repr

/-- Whether a buffer that is required holds nothing. -/
def lacks (need : Bool) (v : Buf) : Bool := need && v == .empty

/-- Whether a buffer that is required holds NULL. -/
def nulls (need : Bool) (v : Buf) : Bool := need && v == .null

/-- The value of a buffer, 0 where it holds none. -/
def Buf.word : Buf → Word
  | .val w => w | _ => 0

/-- The decision of R233 to R235 for a slot of predicate mode p that requires n. A slot whose
predicate has come and does not match is squashed, and one that holds NULL in a buffer it requires fires null,
whatever its other buffers hold (R235, R341). -/
def fireOf (p : Pred) (n : Needs) (x : Slot) : Fire :=
  if x.phase ≠ .waiting then .notReady
  else
    let needP := decide (p ≠ .always)
    let mismatch :=
      match p, x.p with
      | .onTrue, .val w => !bitAt w.toNat 0
      | .onFalse, .val w => bitAt w.toNat 0
      | _, _ => false
    if mismatch then .squash
    else if nulls needP x.p || nulls n.a x.a || nulls n.b x.b || nulls n.c x.c then .null
    else if lacks needP x.p || lacks n.a x.a || lacks n.b x.b || lacks n.c x.c then .notReady
    else .go x.a.word x.b.word x.c.word

/-! ### Delivery (R217, R236, R420 0x0109) -/

/-- The gate of slot k (R341). -/
def Block.gate (b : Block) (k : Nat) : Gate := lget b.gates k ⟨.always, .n0⟩

/-- Whether a slot is squashed or fires null by what has reached it so far: it takes no further value and is not
checked (R341, R419). -/
def Block.settled (b : Block) (k : Nat) : Bool :=
  match (b.slot k).phase with
  | .squashed => true
  | .firedNull => true
  | _ =>
    match fireOf (b.gate k).pred (b.gate k).needs (b.slot k) with
    | .squash => true
    | .null => true
    | _ => false

/-- Delivers a value or NULL to a buffer of a slot: none when the buffer has one already; what
reaches a slot that is settled is discarded (R341). -/
def Block.toSlot (b : Block) (k : Nat) (sd : Side) (v : Buf) : Option Block :=
  let x := b.slot k
  if b.settled k then some b
  else if x.buf sd = .empty then some (b.setSlot k (x.setBuf sd v))
  else none

/-- Whether a slot has already given a register its value, or will give it one at commit (R236, R262). -/
def Block.claimed (b : Block) (g : Nat) : Bool := b.regw.any (fun r => r.1 == g) || b.claims.contains g

/-- Resolves a register target with a value: none when a register receives a second one. -/
def Block.toReg (b : Block) (g : Nat) (v : Word) : Option Block :=
  if b.claimed g then none
  else some { b with regw := b.regw ++ [(g, v)], regn := b.regn + 1 }

/-- Delivers a value to one target of slot k (`i` is 0 for TGTA and 1 for TGTB). -/
def Block.deliver (b : Block) (k i : Nat) (t : Target) (v : Word) : Option Block :=
  match t with
  | .none => some b
  | .left n => b.toSlot n.val .a (.val v)
  | .right n => b.toSlot n.val .b (.val v)
  | .third n => b.toSlot n.val .c (.val v)
  | .pred n => b.toSlot n.val .p (.val v)
  | .reg g => b.toReg g.val v
  | .chan c => some { b with chans := b.chans ++ [⟨k, i, c.val, v⟩], outn := b.outn + 1 }

/-- Delivers a value to the targets of slot k, TGTA first. -/
def Block.deliverAll (b : Block) (k i : Nat) (v : Word) : List Target → Option Block
  | [] => some b
  | t :: ts =>
    match b.deliver k i t v with
    | none => none
    | some b' => b'.deliverAll k (i + 1) v ts

/-- Resolves one target as null; NULL goes to slot targets unless the slot is squashed. -/
def Block.nullTarget (b : Block) (squashed : Bool) (t : Target) : Option Block :=
  match t with
  | .none => some b
  | .left n => if squashed then some b else b.toSlot n.val .a .null
  | .right n => if squashed then some b else b.toSlot n.val .b .null
  | .third n => if squashed then some b else b.toSlot n.val .c .null
  | .pred n => if squashed then some b else b.toSlot n.val .p .null
  | .reg _ => some { b with regn := b.regn + 1 }
  | .chan _ => some { b with outn := b.outn + 1 }

/-- Resolves targets as null. -/
def Block.nullAll (b : Block) (squashed : Bool) : List Target → Option Block
  | [] => some b
  | t :: ts =>
    match b.nullTarget squashed t with
    | none => none
    | some b' => b'.nullAll squashed ts

/-- Marks a slot. -/
def Block.mark (b : Block) (k : Nat) (ph : SlotPhase) : Block := b.setSlot k { b.slot k with phase := ph }

/-! ### The shapes of a block form -/

/-- The slot that fires: its task and its block. -/
def firing (s : State) : Option (Nat × Nat × Task × Block) :=
  match s.cur with
  | .firing tid k =>
    match s.task? tid with
    | some t =>
      match t.blk with
      | some b => some (tid, k, t, b)
      | none => none
    | none => none
  | _ => none

/-- The state with the block of a task replaced. -/
def putBlock (s : State) (tid : Nat) (t : Task) (b : Block) : State := s.setTask tid { t with blk := some b }

/-- A block that grew, or the exception 0x0109 (R420). -/
def growBlock (s : State) (tid : Nat) (t : Task) (ob : Option Block) : Out :=
  match ob with
  | some b => .next (putBlock s tid t b)
  | none => .next (takeFault s tid (exc 0x0109))

/-- What an in-block form computes: a value for its targets with the flags it sets, the two words of
a b128 load, a wait, or a fault, which the block takes at its commit (R264, R419). -/
inductive Res where
  | val (v : Word) (flags : Nat)
  | pair (lo hi : Word)
  | nothing
  | null
  | wait
  /-- the slot waits, and what it has asked for meanwhile stands in the state -/
  | asked
  | fault (f : Flt0)
  deriving DecidableEq, Repr

/-- An in-block form (R233-R235): squashed, fired null, or fired with its operands. `g` also gives
the state, for the forms whose firing touches memory; `tn` are the targets that a null resolution
counts (a b128 load counts its register twice, R269). -/
def inBlockS (p : Pred) (n : Needs) (ts tn : List Target) (s : State)
    (g : Nat → Task → Block → Word → Word → Word → State × Res) : Out :=
  match firing s with
  | none => notReady
  | some (tid, k, t, b) =>
    match fireOf p n (b.slot k) with
    | .notReady => notReady
    | .squash => growBlock s tid t ((b.mark k .squashed).nullAll true tn)
    | .null => growBlock s tid t ((b.mark k .firedNull).nullAll false tn)
    | .go x y z =>
      let (s', r) := g tid t b x y z
      match r with
      | .val v fl => growBlock s' tid t (({ b.mark k .fired with flags := Nat.lor b.flags fl }).deliverAll k 0 v ts)
      | .pair lo hi =>
        match ts with
        | [.reg d] =>
          growBlock s' tid t (((b.mark k .fired).toReg d.val lo).bind fun b2 => b2.toReg (d.val + 1) hi)
        | _ => growBlock s' tid t (some (b.mark k .fired))
      | .nothing => growBlock s' tid t (some (b.mark k .fired))
      | .null => growBlock s' tid t ((b.mark k .fired).nullAll false ts)
      | .wait => notReady
      | .asked => .next s'
      | .fault f => .next (putBlock s' tid t { b.mark k .fired with bad := b.bad ++ [(k, f)] })

/-- An in-block form that touches nothing outside its block. -/
def inBlock (p : Pred) (n : Needs) (ts : List Target) (s : State)
    (g : Nat → Task → Block → Word → Word → Word → Res) : Out :=
  inBlockS p n ts ts s fun tid t b x y z => (s, g tid t b x y z)

/-- An in-block form that computes one value and its flags from its operands alone. -/
def compute (p : Pred) (n : Needs) (ts : List Target) (s : State)
    (f : Word → Word → Word → Word × Nat) : Out :=
  inBlock p n ts s fun _ _ _ x y z => .val (f x y z).1 (f x y z).2

/-- An exit (R235, R249): one that fires null or is squashed does not exit; a second one that fires
takes 0x0109 (R420). -/
def exitForm (p : Pred) (n : Needs) (s : State) : Out :=
  match firing s with
  | none => notReady
  | some (tid, k, t, b) =>
    match fireOf p n (b.slot k) with
    | .notReady => notReady
    | .squash => growBlock s tid t (some (b.mark k .squashed))
    | .null => growBlock s tid t (some (b.mark k .firedNull))
    | .go x y z =>
      if b.exits.isEmpty then growBlock s tid t (some { b.mark k .fired with exits := [⟨k, x, y, z⟩] })
      else growBlock s tid t none

/-- A commit form: what it requires of its operands (R264, R420-R424), when the block may commit
with it (R280, R292), and what it does (R261). -/
structure CForm where
  check : State → Nat → Word → Word → Word → Option Flt0
  ready : State → Nat → Word → Word → Word → Bool
  eff   : State → Nat → Word → Word → Word → State

/-- Registers a commit form of k results with target ta counts in W (R213, R262). -/
def regCount (k : Nat) (ta : Target) : Nat := match ta with | .reg _ => k | _ => 0

/-- The registers that a commit form of k results with target ta writes (R262). -/
def regsOf (k : Nat) (ta : Target) : List Nat := match ta with | .reg g => natRange g.val k | _ => []

/-- A commit form of k results (R261): when it fires it captures its operands and resolves its
outputs, unless a register of its has a value already (R420 0x0109); at its block's commit it is checked
and takes effect. -/
def commitForm (p : Pred) (n : Needs) (ta : Target) (k : Nat) (cf : CForm) (s : State) : Out :=
  match s.cur with
  | .commit tid _ a b c =>
    match cf.check s tid a b c with
    | some f => .next (takeFault s tid f)
    | none => if cf.ready s tid a b c then .next (cf.eff s tid a b c) else notReady
  | _ =>
    match firing s with
    | none => notReady
    | some (tid, j, t, b) =>
      let done (ph : SlotPhase) : Block := { b.mark j ph with regn := b.regn + regCount k ta, outn := b.outn + 1 }
      match fireOf p n (b.slot j) with
      | .notReady => notReady
      | .squash => .next (putBlock s tid t (done .squashed))
      | .null => .next (putBlock s tid t (done .firedNull))
      | .go x y z =>
        growBlock s tid t (if (regsOf k ta).any b.claimed then none
          else some { done .fired with claims := b.claims ++ regsOf k ta, caps := b.caps ++ [⟨j, x, y, z⟩] })

/-- No check beyond those at issue. -/
def noCheck (_ : State) (_ : Nat) (_ _ _ : Word) : Option Flt0 := none
/-- Always ready. -/
def always (_ : State) (_ : Nat) (_ _ _ : Word) : Bool := true
/-- The exception 0x010E when a condition on the operands fails (R424). -/
def need (ok : Bool) : Option Flt0 := if ok then none else some (exc 0x010E)

end Sys2Proof.Machine
end

