-- ==== Sys2Proof/Machine/Integer.lean ====
section
/-!
DEFINITION. The integer family (spec/13_block_core.md R241, R242).
-/

namespace Sys2Proof.Machine

/-- R241: an exact integer narrowed to a type, by wrap or by saturation, with the flags. -/
def fitInt (ty : Ty) (sat : Bool) (e : Int) : Word × Nat :=
  if tyMin ty ≤ e ∧ e ≤ tyMax ty then (extend64 ty e, 0)
  else if sat then (extend64 ty (if e < tyMin ty then tyMin ty else tyMax ty), Nat.lor fSAT fNX)
  else (extend64 ty e, 0)

/-- The w-bit pattern of an operand. -/
def pat (ty : Ty) (v : Word) : Nat := v.toNat % 2 ^ ty.width

/-- A w-bit pattern extended by its type. -/
def extPat (ty : Ty) (n : Nat) : Word := extend64 ty (n : Int)

/-- The shift count n = b mod w (R241). -/
def shiftBy (ty : Ty) (b : Word) : Nat := b.toNat % ty.width

/-- DIV (R241, R242). -/
def divOf (ty : Ty) (sat : Bool) (a b : Word) : Word × Nat :=
  let x := interp ty a
  let y := interp ty b
  if y = 0 then (extend64 ty (-1), if x = 0 then fINV else fDVZ)
  else fitInt ty sat (x.tdiv y)

/-- REM (R241, R242). -/
def remOf (ty : Ty) (a b : Word) : Word × Nat :=
  let x := interp ty a
  let y := interp ty b
  if y = 0 then (extend64 ty x, if x = 0 then fINV else fDVZ)
  else (extend64 ty (x.tmod y), 0)

/-- Leading zeros of a pattern of w bits. -/
def clzOf (w n : Nat) : Nat := if n = 0 then w else w - 1 - n.log2

/-- Trailing zeros of a pattern of w bits, counted up from bit i. -/
def ctzOf : Nat → Nat → Nat
  | 0, _ => 0
  | w + 1, n => if n % 2 = 1 then 0 else 1 + ctzOf w (n / 2)

/-- Set bits of a pattern of w bits. -/
def popOf : Nat → Nat → Nat
  | 0, _ => 0
  | w + 1, n => n % 2 + popOf w (n / 2)

/-- A pattern of w bits rotated left by n. -/
def rolOf (w x n : Nat) : Nat := x * 2 ^ n % 2 ^ w + x / 2 ^ (w - n)

/-- ADD: a + b. -/
def execAdd (p : Pred) (ty : Ty) (sat : Bool) (ta tb : Target) (s : State) : Out :=
  compute p .n2 [ta, tb] s fun a b _ => fitInt ty sat (interp ty a + interp ty b)

/-- SUB: a - b. -/
def execSub (p : Pred) (ty : Ty) (sat : Bool) (ta tb : Target) (s : State) : Out :=
  compute p .n2 [ta, tb] s fun a b _ => fitInt ty sat (interp ty a - interp ty b)

/-- MUL: a × b. -/
def execMul (p : Pred) (ty : Ty) (sat : Bool) (ta tb : Target) (s : State) : Out :=
  compute p .n2 [ta, tb] s fun a b _ => fitInt ty sat (interp ty a * interp ty b)

/-- MULH: bits [2w - 1 : w] of the exact product. -/
def execMulh (p : Pred) (ty : Ty) (ta tb : Target) (s : State) : Out :=
  compute p .n2 [ta, tb] s fun a b _ => (extend64 ty (interp ty a * interp ty b / 2 ^ ty.width), 0)

/-- DIV: a ÷ b truncated toward zero. -/
def execDiv (p : Pred) (ty : Ty) (sat : Bool) (ta tb : Target) (s : State) : Out :=
  compute p .n2 [ta, tb] s fun a b _ => divOf ty sat a b

/-- REM: a - b × (a ÷ b). -/
def execRem (p : Pred) (ty : Ty) (ta tb : Target) (s : State) : Out :=
  compute p .n2 [ta, tb] s fun a b _ => remOf ty a b

/-- AND. -/
def execAnd (p : Pred) (ty : Ty) (ta tb : Target) (s : State) : Out :=
  compute p .n2 [ta, tb] s fun a b _ => (extPat ty (Nat.land (pat ty a) (pat ty b)), 0)

/-- OR. -/
def execOr (p : Pred) (ty : Ty) (ta tb : Target) (s : State) : Out :=
  compute p .n2 [ta, tb] s fun a b _ => (extPat ty (Nat.lor (pat ty a) (pat ty b)), 0)

/-- XOR. -/
def execXor (p : Pred) (ty : Ty) (ta tb : Target) (s : State) : Out :=
  compute p .n2 [ta, tb] s fun a b _ => (extPat ty (Nat.xor (pat ty a) (pat ty b)), 0)

/-- ANDN: a AND NOT b. -/
def execAndn (p : Pred) (ty : Ty) (ta tb : Target) (s : State) : Out :=
  compute p .n2 [ta, tb] s fun a b _ => (extPat ty (Nat.land (pat ty a) (2 ^ ty.width - 1 - pat ty b)), 0)

/-- SHL: a shifted left by b mod w; with saturation the exact result is narrowed. -/
def execShl (p : Pred) (ty : Ty) (sat : Bool) (ta tb : Target) (s : State) : Out :=
  compute p .n2 [ta, tb] s fun a b _ => fitInt ty sat (interp ty a * 2 ^ shiftBy ty b)

/-- SHR: the w-bit pattern shifted right logically. -/
def execShr (p : Pred) (ty : Ty) (ta tb : Target) (s : State) : Out :=
  compute p .n2 [ta, tb] s fun a b _ => (extPat ty (pat ty a / 2 ^ shiftBy ty b), 0)

/-- SAR: the integer of the type divided by 2^n toward minus infinity. DEDUCED (log entry 11): an n
type's integer is not negative, so its SAR brings in zeros. -/
def execSar (p : Pred) (ty : Ty) (ta tb : Target) (s : State) : Out :=
  compute p .n2 [ta, tb] s fun a b _ => (extend64 ty (interp ty a / 2 ^ shiftBy ty b), 0)

/-- ROL: rotated left within w bits. -/
def execRol (p : Pred) (ty : Ty) (ta tb : Target) (s : State) : Out :=
  compute p .n2 [ta, tb] s fun a b _ => (extPat ty (rolOf ty.width (pat ty a) (shiftBy ty b)), 0)

/-- MIN, signed or unsigned by type. -/
def execMin (p : Pred) (ty : Ty) (ta tb : Target) (s : State) : Out :=
  compute p .n2 [ta, tb] s fun a b _ =>
    (extend64 ty (if interp ty b < interp ty a then interp ty b else interp ty a), 0)

/-- MAX, signed or unsigned by type. -/
def execMax (p : Pred) (ty : Ty) (ta tb : Target) (s : State) : Out :=
  compute p .n2 [ta, tb] s fun a b _ =>
    (extend64 ty (if interp ty a < interp ty b then interp ty b else interp ty a), 0)

/-- CLZ: leading zero bits, zero-extended. -/
def execClz (p : Pred) (ty : Ty) (ta tb : Target) (s : State) : Out :=
  compute p .n1 [ta, tb] s fun a _ _ => (wordOf (clzOf ty.width (pat ty a)), 0)

/-- CTZ: trailing zero bits, zero-extended. -/
def execCtz (p : Pred) (ty : Ty) (ta tb : Target) (s : State) : Out :=
  compute p .n1 [ta, tb] s fun a _ _ => (wordOf (ctzOf ty.width (pat ty a)), 0)

/-- POPC: set bits, zero-extended. -/
def execPopc (p : Pred) (ty : Ty) (ta tb : Target) (s : State) : Out :=
  compute p .n1 [ta, tb] s fun a _ _ => (wordOf (popOf ty.width (pat ty a)), 0)

/-- EXT: the w-bit operand extended. -/
def execExt (p : Pred) (ty : Ty) (ta tb : Target) (s : State) : Out :=
  compute p .n1 [ta, tb] s fun a _ _ => (extend64 ty (interp ty a), 0)

/-- BSWAP: the w/8 bytes in reverse order. -/
def execBswap (p : Pred) (ty : Ty) (ta tb : Target) (s : State) : Out :=
  compute p .n1 [ta, tb] s fun a _ _ =>
    (extPat ty (natOfBytes (bytesOfNat (ty.width / 8) (pat ty a)).reverse), 0)

end Sys2Proof.Machine
end

