-- ==== Sys2Proof/Machine/Data.lean ====
section
/-!
DEFINITION. Compare, select, address and data forms (spec/13_block_core.md R244-R248).
-/

namespace Sys2Proof.Machine

/-- The 64-bit word of a Bool. -/
def wbit (b : Bool) : Word := wordOf (bnat b)

/-- CMP: a against b at the type (R244). -/
def execCmp (p : Pred) (ty : Ty) (cc : Cond) (ta : Target) (s : State) : Out :=
  compute p .n2 [ta] s fun a b _ => (wbit (cc.holds (interp ty a) (interp ty b)), 0)

/-- TST: a AND b, at the type, against 0 (R244). -/
def execTst (p : Pred) (ty : Ty) (cc : Cond) (ta : Target) (s : State) : Out :=
  compute p .n2 [ta] s fun a b _ => (wbit (cc.holds (interp ty (a &&& b)) 0), 0)

/-- SEL: a when bit 0 of c is 1, else b, at the type (R245). -/
def execSel (p : Pred) (ty : Ty) (ta tb : Target) (s : State) : Out :=
  compute p .n3 [ta, tb] s fun a b c => (extend64 ty (interp ty (if bitAt c.toNat 0 then a else b)), 0)

/-- LEA: canon(a + 8k) (R246). -/
def execLea (p : Pred) (k : BitVec 14) (ta : Target) (s : State) : Out :=
  compute p .n1 [ta] s fun a _ _ => (canon (a + sext 14 k.toNat * 8), 0)

/-- ADDP: canon(a + b) (R246). -/
def execAddp (p : Pred) (ta tb : Target) (s : State) : Out :=
  compute p .n2 [ta, tb] s fun a b _ => (canon (a + b), 0)

/-- ALGN: a rounded up or down to a multiple of 2^m (R246). -/
def execAlgn (p : Pred) (dn : Bool) (m : Fin 64) (ta : Target) (s : State) : Out :=
  compute p .n1 [ta] s fun a _ _ =>
    (if dn then wordOf (a.toNat / 2 ^ m.val * 2 ^ m.val)
     else wordOf ((a.toNat + 2 ^ m.val - 1) % 2 ^ 64 / 2 ^ m.val * 2 ^ m.val), 0)

/-- RD: the register as the task's previous commit left it (R238, R247). -/
def execRd (p : Pred) (g : Fin 64) (ta : Target) (s : State) : Out :=
  inBlock p .n0 [ta] s fun _ t _ _ _ _ => .val (t.reg g.val) 0

/-- MOV: a unchanged to both targets (R247). -/
def execMov (p : Pred) (ta tb : Target) (s : State) : Out :=
  compute p .n1 [ta, tb] s fun a _ _ => (a, 0)

/-- NUL: NULL to its targets (R247). -/
def execNul (p : Pred) (ta tb : Target) (s : State) : Out :=
  inBlock p .n0 [ta, tb] s fun _ _ _ _ _ _ => .null

/-- The instruction word of slot k of the block in flight. -/
def slotWord (s : State) (tid : Nat) (b : Block) (k : Nat) : Nat := s.iword (seOf tid) (b.head + 4 * (k + 1))

/-- How many slots below k are words that a test accepts. -/
def countBelow (s : State) (tid : Nat) (b : Block) (test : Nat → Bool) : Nat → Nat
  | 0 => 0
  | k + 1 => countBelow s tid b test k + (if test (slotWord s tid b k) then 1 else 0)

/-- A RECV word of channel ch. -/
def isRecvOf (ch w : Nat) : Bool := field w 31 25 == 0x28 && field w 14 9 == ch
/-- An RSP word. -/
def isRspWord (w : Nat) : Bool := field w 31 25 == 0x5E

/-- Whether channel ch of the task's SE is bound to the task (R248). -/
def boundTo (s : State) (tid ch : Nat) : Bool := (s.chan (chanAddr tid ch)).slot == some (slotOf tid)

/-- RECV: the k-th RECV of a block on one channel, in slot order, takes the k-th word from the
channel's head, once it is there (R248). A channel that is not bound to the task faults at commit
(0x010D, R420): there the form delivers a free value. -/
def execRecv (p : Pred) (ch : Fin 64) (ta : Target) (s : State) : Out :=
  inBlockS p .n0 [ta] [ta] s fun tid _ b _ _ _ =>
    match s.cur with
    | .firing _ k =>
      if boundTo s tid ch.val then
        match (s.chan (chanAddr tid ch.val)).q[countBelow s tid b (isRecvOf ch.val) k]? with
        | some w => (s, .val w.1 0)
        | none => (s, .wait)
      else (s.free.2, .val s.free.1 0)
    | _ => (s, .wait)

/-- PEEK: the head word, or with MK its mark, once there is one (R248); an unbound channel as RECV. -/
def execPeek (p : Pred) (mk : Bool) (ch : Fin 64) (ta : Target) (s : State) : Out :=
  inBlockS p .n0 [ta] [ta] s fun tid _ _ _ _ _ =>
    if boundTo s tid ch.val then
      match (s.chan (chanAddr tid ch.val)).q with
      | w :: _ => (s, .val (if mk then wbit w.2 else w.1) 0)
      | [] => (s, .wait)
    else (s.free.2, .val s.free.1 0)

/-- RSP: the k-th RSP of a block takes the k-th oldest response, once it is there (R284). -/
def execRsp (p : Pred) (ta : Target) (s : State) : Out :=
  inBlock p .n0 [ta] s fun tid t b _ _ _ =>
    match s.cur with
    | .firing _ k =>
      match t.resp[countBelow s tid b isRspWord k]? with
      | some ⟨_, some w⟩ => .val w 0
      | _ => .wait
    | _ => .wait

end Sys2Proof.Machine
end

