-- ==== Sys2Proof/Machine/MemoryForms.lean ====
section
/-!
DEFINITION. Loads, stores, prefetch, the line forms and the atomics (spec/14_block_system.md
R267-R271), with the order rules that bear on them (R164, R165, R168, R171).
-/

namespace Sys2Proof.Machine

/-! ### Addresses -/

/-- LD, PRF, CLN, INV, AMO, CAS, CAS2: a. LDX: a + b × sz (R267). -/
def ldxAddr (sz : Size) (a b : Word) : Word := a + b * wordOf sz.bytes
/-- ST: a + OFF9 × sz (R267). -/
def stAddr (sz : Size) (off : BitVec 9) (a : Word) : Word := a + sext 9 off.toNat * wordOf sz.bytes
/-- STX: a + b × sz + OFF9 × sz (R267). -/
def stxAddr (sz : Size) (off : BitVec 9) (a b : Word) : Word :=
  a + b * wordOf sz.bytes + sext 9 off.toNat * wordOf sz.bytes

/-- The memory space of a place, for the location of an operation. -/
def Place.space : Place → Nat
  | .mem _ => 0 | .host _ => 1 | .devr => 2
/-- The address of a place in its space. -/
def Place.addr : Place → Nat
  | .mem a => a | .host a => a | .devr => 0
/-- A place from its space and address. -/
def placeOf (space a : Nat) : Place := if space = 0 then .mem a else if space = 1 then .host a else .devr

/-- An access of the SE for a task (R264, R268). -/
def taskAccess (s : State) (tid : Nat) (t : Task) (ask : Ask) (va : Word) (sz : Nat) : Except Flt0 Pass :=
  access s (dieOf tid * 256 + seTlb (seOf tid)) t.ptn t.level ask va sz

/-- The TLB of a task's SE takes the translation. -/
def taskInstall (s : State) (tid : Nat) (t : Task) (va : Word) : State :=
  installTlb s (dieOf tid * 256 + seTlb (seOf tid)) t.ptn va

/-- The same for an access that has failed after its translation: the TLB caches every entry with V 1, whatever its
type (R384). -/
def faultInstall (s : State) (tid : Nat) (t : Task) (f : Flt0) : State :=
  if f.lpte = 0 ∨ f.code = 0x0003 ∨ f.code = 0x0004 then s else taskInstall s tid t f.fva

/-- What a task's access that has to wait for a walk does: it joins the walk of its page, or stands in the order of
the misses (R89). -/
def taskWalk (s : State) (tid : Nat) (t : Task) (va : Word) : State × Res :=
  let tlb := dieOf tid * 256 + seTlb (seOf tid)
  let page := va.toNat % 2 ^ 56 / 65536
  if (walkOf? (s.walks ++ s.walkq) (dieOf tid) t.ptn page).isSome then (s, .wait) else (askFor s (dieOf tid) t.ptn page tlb [], .asked)

/-- Whether a task's access has to wait for a walk. -/
def taskBusy (s : State) (tid : Nat) (t : Task) (va : Word) : Bool :=
  isCanonical va && walkBusy s (dieOf tid * 256 + seTlb (seOf tid)) t.ptn va

/-! ### Stores not yet visible (R164, R165, R171) -/

/-- Overlays the bytes of a store on n bytes read from address a of a space. -/
def overlay (space a : Nat) (bs : List Byte) (st : Nat × Nat × List Byte) : List Byte :=
  if st.1 ≠ space then bs
  else bs.zipIdx.map fun x =>
    let ad := a + x.2
    if st.2.1 ≤ ad ∧ ad < st.2.1 + st.2.2.length then lget st.2.2 (ad - st.2.1) x.1 else x.1

/-- The store an operation will make. -/
def Act.storeOf : Act → Option (Nat × Nat × List Byte)
  | .store pl a bs _ => some (pl, a, bs)
  | _ => none

/-- The bytes a source sees at a place: memory under its own stores that are not yet visible. -/
def seenBytes (s : State) (src : Agent) (pl : Place) (n : Nat) : List Byte :=
  ((opsOf s src).filterMap fun o => o.act.storeOf).foldl (overlay pl.space pl.addr) (s.readPlace pl n)

/-- Whether a page type is NC or DEVR, whose accesses keep their order (R88, R168). -/
def inOrder (typ : Nat) : Bool := typ == 5 || typ == 7

/-- Whether an operation is an NC or DEVR access: a store, or the read of a batch or of node words (R88, R168). -/
def Act.isNc : Act → Bool
  | .store _ _ _ h => inOrder (h / 16)
  | .fibre _ _ _ _ _ _ _ _ _ ps _ => ps.any fun p => decide (4 ≤ p.1)
  | .nearLoad _ ps _ => ps.any fun p => decide (4 ≤ p.1)
  | _ => false

/-- Earlier NC or DEVR accesses of a source (R168). -/
def ncIds (s : State) (src : Agent) : List Nat := ((opsOf s src).filter fun o => o.act.isNc).map (·.id)

/-- Whether a read of a source on a page of a type must wait: an acquire it has made is not complete, an operation of its
own that writes or reads the location has not been performed (log entry 109), an NC or DEVR access stands before an NC
or DEVR read, an invalidation is not complete, or the place is veiled for it (R168, R172, R273, R297). -/
def readWaits (s : State) (src : Agent) (after invs : List Nat) (typ : Nat) (pl : Place) (n : Nat) : Bool :=
  !allDone s after || !invs.isEmpty || (inOrder typ && !(ncIds s src).isEmpty) ||
  veiled s src [(pl.space, pl.addr, n)] ||
  (opsOf s src).any fun o => o.act.locs.any fun l => overlaps l (pl.space, pl.addr, n)

/-! ### Order of later accesses (R167, R168, R171, R174, R175) -/

/-- Whether an operation is a store that merges in a write-combining buffer (R84, R171). -/
def Act.combines : Act → Bool
  | .store _ _ _ h => h % 16 == 4 || h / 16 == 4
  | .agAccess _ _ w _ _ h _ => w && (h % 16 == 4 || h / 16 == 4)
  | _ => false

/-- Whether an operation is an nt store to a place outside the module (R171). -/
def Act.leaves : Act → Bool
  | .store sp _ _ h => h % 16 == 3 && sp == 1
  | .agAccess sp _ w _ _ h _ => w && h % 16 == 3 && sp == 1
  | _ => false

/-- Whether a release at a scope waits for such stores: host, and the scopes that hold it (R171;
log entry 14). -/
def drains : Scope → Bool
  | .host => true | .node => true | .pod => true | .sys => true | _ => false

/-- Whether an operation is an AXWR (R167). -/
def Act.isAxwr : Act → Bool
  | .engine c .. => c == 0x5D
  | _ => false

/-- Whether an earlier operation of the issuer holds back a release at a scope above elem (R168, R171, R174); CLN
and INV hold back those that include their own scope, elem among them (R270). -/
def heldBy (sc : Scope) (o : Op) : Bool :=
  match o.act with
  | .clean _ _ c => sc.includes c
  | .store .. | .agAccess .. => sc != .elem && (drains sc || !(o.act.combines || o.act.leaves))
  | .atomic .. | .fibre .. | .tree .. => sc != .elem
  | _ => false

/-- Whether two sources stand under one another's releases and acquires: one agent, or two of one section, whose
accesses R168 orders at the scopes of its AG words (MP-sect; log entry 111). -/
def fellow (x y : Agent) : Bool :=
  match x, y with
  | .elem r k _, .elem q j _ => r == q && k == j
  | _, _ => x == y

/-- The earlier operations a release at a scope follows: those of its source that are not performed, its scans, and
at annex and sys the AXWRs of its partition, whichever agent has asked for them (R167; log entry 110). -/
def releaseIds (s : State) (src : Agent) (sc : Scope) : List Nat :=
  (s.ops.filter fun o => fellow src o.src && !o.performed && heldBy sc o).map (·.id) ++
  (if sc = .elem then [] else scanIds s src) ++
  (if sc = .annex ∨ sc = .sys then
    (s.ops.filter fun o => !o.performed && o.act.isAxwr && agentPtn s src == some o.ptn).map (·.id)
   else [])

/-- Those that it follows for every observer: a release of a scope below dev binds only agents that share its
scope (R167). -/
def releaseAfter (s : State) (src : Agent) (sc : Scope) : List Nat := if sc.narrow then [] else releaseIds s src sc

/-- Those that it follows for the agents that share a scope below dev, with the scope's code. -/
def releaseSoft (s : State) (src : Agent) (sc : Scope) : List (Nat × Nat) :=
  if sc.narrow then (releaseIds s src sc).map fun i => (i, sc.code) else []

/-- The earlier atomics, whose acquire or result a fence orders, and what those of them follow that are releases of a scope
below dev (R168; log entry 133). -/
def rmwIds (s : State) (src : Agent) : List Nat :=
  ((opsOf s src).filter fun o => match o.act with | .atomic .. => true | _ => false).flatMap (fun o => o.id :: o.soft.map (·.1)) ++
  (s.veils.filter fun v => v.src == src && v.binds).flatMap fun v => v.soft.map (·.1)

/-- The earlier operations of a source that write memory (R141, R297). -/
def writeIds (s : State) (src : Agent) : List Nat :=
  ((opsOf s src).filter fun o => match o.act with | .store .. | .atomic .. => true | _ => false).map (·.id)

/-! ### The stores of the same block (R164) -/

/-- The LSID of a memory word. -/
def wordLsid (w : Nat) : Nat := field w 22 18
/-- Whether a word is ST or STX. -/
def isStoreWord (w : Nat) : Bool := field w 31 25 == 0x41 || field w 31 25 == 0x43

/-- The address and bytes of a store word with its operands. -/
def storeVa (w : Nat) (a b : Word) : Word :=
  let sz := Size.ofCode (field w 17 15)
  let off : BitVec 9 := BitVec.ofNat 9 (field w 8 0)
  if field w 31 25 = 0x41 then stAddr sz off a else stxAddr sz off a b

/-- The bytes a store word writes: the low sz bytes of b or c; b then c for b128 (R267, R269). -/
def storeBytes (w : Nat) (b c : Word) : List Byte :=
  let sz := Size.ofCode (field w 17 15)
  if field w 31 25 = 0x43 then bytesOfNat sz.bytes c.toNat
  else match sz with
    | .b128 => bytesOfNat 8 b.toNat ++ bytesOfNat 8 c.toNat
    | _ => bytesOfNat sz.bytes b.toNat

/-- Inserts by LSID, lowest first. -/
def insertBy (k : Nat) (x : List Byte × Word) : List (Nat × (List Byte × Word)) → List (Nat × (List Byte × Word))
  | [] => [(k, x)]
  | y :: ys => if k < y.1 then (k, x) :: y :: ys else y :: insertBy k x ys

/-- The stores of a block that have fired with an LSID below m, in LSID order: bytes and VA. -/
def blockStores (s : State) (tid : Nat) (b : Block) (m : Nat) : List (List Byte × Word) :=
  (b.caps.foldl (fun acc (c : Capture) =>
    let w := slotWord s tid b c.slot
    if isStoreWord w && decide (wordLsid w < m) then insertBy (wordLsid w) (storeBytes w c.b c.c, storeVa w c.a c.b) acc
    else acc) []).map (·.2)

/-- Whether a store with an LSID below m has neither fired nor been resolved as null. -/
def storeOpen (s : State) (tid : Nat) (b : Block) (m : Nat) : Bool :=
  (natRange 0 b.n).any fun k =>
    let w := slotWord s tid b k
    isStoreWord w && decide (wordLsid w < m) && decide ((b.slot k).phase = .waiting)

/-- Overlays the stores of the block that lie below LSID m, where their page passes. -/
def blockOverlay (s : State) (tid : Nat) (t : Task) (sts : List (List Byte × Word)) (pl : Place) (bs : List Byte) : List Byte :=
  sts.foldl (fun acc st =>
    match taskAccess s tid t askStore st.2 st.1.length with
    | .ok x => overlay pl.space pl.addr acc (x.place.space, x.place.addr, st.1)
    | .error _ => acc) bs

/-! ### When a load may read -/

/-- The instruction of slot k of a block in flight. -/
def slotInstr (s : State) (tid : Nat) (b : Block) (k : Nat) : Option Instr :=
  match decode (slotWord s tid b k) with
  | .ok i => some i
  | .error _ => none

/-- The form of slot k. -/
def slotForm (s : State) (tid : Nat) (b : Block) (k : Nat) : Option Form := (slotInstr s tid b k).bind (·.form)

/-- Whether a word is LD or LDX. -/
def isLoadWord (w : Nat) : Bool := field w 31 25 == 0x40 || field w 31 25 == 0x42

/-- Whether slot k can take a step by its buffers (R233). -/
def slotCan (s : State) (tid : Nat) (b : Block) (k : Nat) : Bool :=
  match slotForm s tid b k with
  | some f => fireOf f.pred f.needs (b.slot k) != .notReady
  | none => false

/-- The VA of a load word with its operands. -/
def loadVa (w : Nat) (a b : Word) : Word :=
  if field w 31 25 = 0x40 then a else ldxAddr (Size.ofCode (field w 17 15)) a b

/-- Whether the load of slot j, whose operands are there, reads a page whose accesses keep their order. -/
def ncLoad (s : State) (tid : Nat) (t : Task) (b : Block) (j : Nat) : Bool :=
  let w := slotWord s tid b j
  match taskAccess s tid t askLoad (loadVa w (b.slot j).a.word (b.slot j).b.word) (Size.ofCode (field w 17 15)).bytes with
  | .ok x => inOrder x.typ
  | .error _ => false

/-- Whether the load of slot j, waiting with a lower LSID than that of slot k, must read first: it acquires (R168), its
address is not known yet, it reads a location of the other, whose requests keep their order (R165), or both keep NC or
DEVR order (R168; log entry 13). -/
def loadFirst (s : State) (tid : Nat) (t : Task) (b : Block) (k j : Nat) : Bool :=
  let w := slotWord s tid b j
  let v := slotWord s tid b k
  isLoadWord w && decide (wordLsid w < wordLsid v) && decide ((b.slot j).phase = .waiting) &&
  (bitAt w 13 ||
    (!slotCan s tid b j ||
      (overlaps (0, (loadVa w (b.slot j).a.word (b.slot j).b.word).toNat, (Size.ofCode (field w 17 15)).bytes)
          (0, (loadVa v (b.slot k).a.word (b.slot k).b.word).toNat, (Size.ofCode (field v 17 15)).bytes) ||
        (ncLoad s tid t b j && ncLoad s tid t b k))))

/-- Whether the load of slot k stands behind a store of lower LSID that is not resolved, or behind another load. -/
def loadBehind (s : State) (tid : Nat) (t : Task) (b : Block) (k : Nat) : Bool :=
  storeOpen s tid b (wordLsid (slotWord s tid b k)) || (natRange 0 b.n).any (loadFirst s tid t b k)

/-- Whether any slot but k can still step without being a load that stands behind something. -/
def othersStep (s : State) (tid : Nat) (t : Task) (b : Block) (k : Nat) : Bool :=
  (natRange 0 b.n).any fun j =>
    j != k && slotCan s tid b j && (!isLoadWord (slotWord s tid b j) || !loadBehind s tid t b j)

/-- The slots that slot k sends to. -/
def slotSends (s : State) (tid : Nat) (b : Block) (k : Nat) : List Nat :=
  match slotForm s tid b k with
  | some f => f.targets.filterMap fun t =>
    match t with
    | .left n => some n.val | .right n => some n.val | .third n => some n.val | .pred n => some n.val
    | _ => none
  | none => []

/-- The slots that some slots feed in at most n hops. -/
def slotReach (s : State) (tid : Nat) (b : Block) : Nat → List Nat → List Nat
  | 0, ks => ks
  | n + 1, ks => slotReach s tid b n (ks ++ ks.flatMap (slotSends s tid b)).eraseDups

/-- Whether slot k feeds slot j. -/
def slotFeeds (s : State) (tid : Nat) (b : Block) (k j : Nat) : Bool := k != j && (slotReach s tid b b.n [k]).contains j

/-- Of two memory slots the one of the lower LSID. -/
def lowerLsid (s : State) (tid : Nat) (b : Block) (x : Option Nat) (j : Nat) : Option Nat :=
  match x with
  | none => some j
  | some i => if wordLsid (slotWord s tid b j) < wordLsid (slotWord s tid b i) then some j else some i

/-- The loads that may lead while all that could read stand behind something: those that feed the lowest memory form
which is not resolved and which one of them feeds, or all when none feeds one (log entry 13). -/
def leaders (s : State) (tid : Nat) (b : Block) : List Nat :=
  let able := (natRange 0 b.n).filter fun j => isLoadWord (slotWord s tid b j) && slotCan s tid b j
  let shut := (natRange 0 b.n).filter fun j =>
    decide ((b.slot j).phase = .waiting) &&
    (isStoreWord (slotWord s tid b j) || (isLoadWord (slotWord s tid b j) && !slotCan s tid b j)) &&
    able.any fun i => slotFeeds s tid b i j
  match shut.foldl (lowerLsid s tid b) none with
  | some j => able.filter fun i => slotFeeds s tid b i j
  | none => able

/-- Whether slot k is one of the leaders, and none of them must read before it. -/
def loadLeads (s : State) (tid : Nat) (t : Task) (b : Block) (k : Nat) : Bool :=
  (leaders s tid b).contains k && !(leaders s tid b).any (loadFirst s tid t b k)

/-- A load waits inside its block for the stores of lower LSID (R164), and for loads that must come
first, as long as another slot can still step; then the loads that may lead go first (log entry 13). -/
def loadHeld (s : State) (tid : Nat) (t : Task) (b : Block) (k : Nat) : Bool :=
  loadBehind s tid t b k && (othersStep s tid t b k || !loadLeads s tid t b k)

/-- The hint of a load, as a hint code. -/
def ldHint : LdOrd → Nat
  | .plain h => h.code | _ => 0

/-- What a rel part of a load waits for (R168, R171). -/
def ldWaits (s : State) (tid : Nat) (o : LdOrd) : List Nat :=
  match o with
  | .acqrel sc => releaseIds s (.task tid) sc
  | _ => []

/-- LD and LDX at the VA they have formed (R164, R267, R268): the bytes a task sees, extended; a fault is the
block's at its commit (R264, R419). -/
def loadAt (s : State) (tid : Nat) (t : Task) (b : Block) (k m : Nat) (sz : Size) (o : LdOrd) (va : Word) : State × Res :=
  if !t.invs.isEmpty || loadHeld s tid t b k then (s, .wait)
  else if taskBusy s tid t va then taskWalk s tid t va
  else match taskAccess s tid t askLoad va sz.bytes with
    | .error f => (faultInstall s tid t f, .fault f)
    | .ok x =>
      if readWaits s (.task tid) t.after t.invs x.typ x.place sz.bytes || !(ldWaits s tid o).isEmpty then (s, .wait)
      else if s.placeMarked x.place sz.bytes then (taskInstall s tid t va, .fault ⟨0x000A, va, x.pte⟩)
      else
        let bs := blockOverlay s tid t (blockStores s tid b m) x.place (seenBytes s (.task tid) x.place sz.bytes)
        let s' := touch (taskInstall s tid t va) t.ptn x.pa x.typ (ldHint o) false
        match sz with
        | .b128 => (s', .pair (wordOf (natOfBytes (bs.take 8))) (wordOf (natOfBytes (bs.drop 8))))
        | _ => (s', .val (sz.extend (natOfBytes bs)) 0)

/-- LD: reads sz bytes at a. -/
def execLd (p : Pred) (m : Fin 32) (sz : Size) (o : LdOrd) (ta : Target) (s : State) : Out :=
  inBlockS p .n1 [ta] (if sz = .b128 then [ta, ta] else [ta]) s fun tid t b x _ _ =>
    match s.cur with
    | .firing _ k => loadAt s tid t b k m.val sz o x
    | _ => (s, .wait)

/-- LDX: reads sz bytes at a + b × sz. -/
def execLdx (p : Pred) (m : Fin 32) (sz : Size) (o : LdOrd) (ta : Target) (s : State) : Out :=
  inBlockS p .n2 [ta] [ta] s fun tid t b x y _ =>
    match s.cur with
    | .firing _ k => loadAt s tid t b k m.val sz o (ldxAddr sz x y)
    | _ => (s, .wait)

/-- PRF: brings the line of a into its home slice; a prefetch that would fault does nothing (R268). -/
def execPrf (p : Pred) (_m : Fin 32) (_sz : Fin 8) (h : Hint) (s : State) : Out :=
  inBlockS p .n1 [] [] s fun tid t _ x _ _ =>
    if !t.invs.isEmpty then (s, .wait)
    else if taskBusy s tid t x then taskWalk s tid t x
    else match taskAccess s tid t askLoad x 1 with
    | .error f => (faultInstall s tid t f, .nothing)
    | .ok q => (touch (taskInstall s tid t x) t.ptn q.pa q.typ h.code false, .nothing)

/-! ### Stores -/

/-- The check of a store at commit (R264). -/
def storeCheck (s : State) (tid : Nat) (va : Word) (sz : Nat) : Option Flt0 :=
  match s.task? tid with
  | none => none
  | some t => match taskAccess s tid t askStore va sz with
    | .error f => some f
    | .ok _ => none

/-- An operation with an acq part: the later accesses of its task wait for it, but at elem, and for what it follows as a
release of a scope below dev (R168; log entry 133). -/
def acquire (s : State) (tid : Nat) (sc : Option Scope) (id : Nat) (soft : List (Nat × Nat)) : State :=
  match sc with
  | none => s
  | some q => if q = .elem then s else s.modTask tid fun t => { t with after := t.after ++ id :: soft.map (·.1) }

/-- A committed store sets out (R165, R168, R237): it becomes visible when it is performed. -/
def storeEff (s : State) (tid : Nat) (va : Word) (bs : List Byte) (o : StOrd) : State :=
  match s.task? tid with
  | none => s
  | some t => match taskAccess s tid t askStore va bs.length with
    | .error _ => s
    | .ok x =>
      let s := taskInstall s tid t va
      let rel := match o.rel? with | some sc => releaseAfter s (.task tid) sc | none => []
      let soft := match o.rel? with | some sc => releaseSoft s (.task tid) sc | none => []
      let nc := if inOrder x.typ then ncIds s (.task tid) else []
      let id := s.nextId
      acquire (issueTaskSoft s tid (.task tid) false .none 0 (t.afterW ++ rel ++ nc) (t.afterS ++ soft)
        (.store x.place.space x.place.addr bs (o.hint.code + 16 * x.typ))) tid o.acq? id (t.afterS ++ soft)

/-- Whether the commit forms of a task may act: its translation invalidations are complete (R297). -/
def invsDone (s : State) (tid : Nat) (_ _ _ : Word) : Bool :=
  match s.task? tid with
  | some t => t.invs.isEmpty && t.later.isEmpty
  | none => true

/-- The bytes of a ST or STX value (R267, R269). -/
def valueBytes (sz : Size) (lo hi : Word) : List Byte :=
  match sz with
  | .b128 => bytesOfNat 8 lo.toNat ++ bytesOfNat 8 hi.toNat
  | _ => bytesOfNat sz.bytes lo.toNat

/-- ST at commit. -/
def formSt (sz : Size) (o : StOrd) (off : BitVec 9) : CForm where
  check s tid a _ _ := storeCheck s tid (stAddr sz off a) sz.bytes
  ready := invsDone
  eff s tid a b c := storeEff s tid (stAddr sz off a) (valueBytes sz b c) o

/-- STX at commit. -/
def formStx (sz : Size) (o : StOrd) (off : BitVec 9) : CForm where
  check s tid a b _ := storeCheck s tid (stxAddr sz off a b) sz.bytes
  ready := invsDone
  eff s tid a b c := storeEff s tid (stxAddr sz off a b) (valueBytes sz c c) o

/-- ST: writes the low sz bytes of b at a + OFF9 × sz. -/
def execSt (p : Pred) (_m : Fin 32) (sz : Size) (o : StOrd) (off : BitVec 9) (s : State) : Out :=
  commitForm p (if sz = .b128 then .n3 else .n2) .none 0 (formSt sz o off) s

/-- STX: writes the low sz bytes of c at a + b × sz + OFF9 × sz. -/
def execStx (p : Pred) (_m : Fin 32) (sz : Size) (o : StOrd) (off : BitVec 9) (s : State) : Out :=
  commitForm p .n3 .none 0 (formStx sz o off) s

/-! ### Line forms (R270) -/

/-- The pages CLN and INV accept: every type but ANNEX, with R (log entry 15). -/
def askLine : Ask := ⟨true, false, [0, 1, 2, 4, 5, 6, 7]⟩

/-- CLN and INV at commit. -/
def formLine (inv : Bool) (sc : Scope) : CForm where
  check s tid a _ _ :=
    match s.task? tid with
    | none => none
    | some t => match taskAccess s tid t askLine (a - a % 8) 8 with
      | .error f => some { f with fva := a }
      | .ok _ => none
  ready := invsDone
  eff s tid a _ _ :=
    match s.task? tid with
    | none => s
    | some t => match taskAccess s tid t askLine (a - a % 8) 8 with
      | .error _ => s
      | .ok x =>
        if inHbm x.pa && (x.typ == 0 || x.typ == 2) then
          issueTask (taskInstall s tid t (a - a % 8)) tid (.task tid) false .none 0 t.afterW (.clean (lineBase x.pa) inv sc.code)
        else s

/-- CLN: writes back the line of a when it is dirty. -/
def execCln (p : Pred) (sc : Scope) (ta : Target) (s : State) : Out := commitForm p .n1 ta 0 (formLine false sc) s
/-- INV: writes back the line of a when it is dirty, then invalidates it. -/
def execInv (p : Pred) (sc : Scope) (ta : Target) (s : State) : Out := commitForm p .n1 ta 0 (formLine true sc) s

end Sys2Proof.Machine
end

