-- ==== Sys2Proof/Machine/Channels.lean ====
section
/-!
DEFINITION. Operand words that name units, and CHB (spec/14_block_system.md R266, R278, R279; R423,
R424).
-/

namespace Sys2Proof.Machine

/-- Whether a cluster belongs to a task's partition. -/
def ownsCluster (s : State) (t : Task) (cl : Nat) : Bool :=
  match s.part? t.ptn with
  | some p => p.clusters.contains cl
  | none => false

/-- Whether a running launch of the task's partition declares a region for a cluster (R29). -/
def regionDeclared (s : State) (t : Task) (cl reg : Nat) : Bool :=
  ownsCluster s t cl &&
  (match s.region? (reg * 256 + cl) with
   | some g => g.ptn == t.ptn &&
     (match mget s.launches g.launch with
      | some l => decide (l.state ≠ .ended)
      | none => false)
   | none => false)

/-- A cluster word and the REG field of a layout-XG form (R266, R274, R424). -/
def clusterWordOk (s : State) (tid : Nat) (a : Word) (reg : Nat) : Bool :=
  match s.task? tid with
  | none => false
  | some t => decide (a.toNat < 256) && regionDeclared s t a.toNat reg

/-- An entry destination word (R266): V, reserved bits, cluster and region. -/
def entryWordOk (s : State) (t : Task) (w : Word) : Bool :=
  let n := w.toNat
  bitAt n 63 && field n 62 28 == 0 && field n 15 14 == 0 && !bitAt n 11 &&
  regionDeclared s t (n % 256) (field n 10 8)

/-- The region and the context an entry destination word names. -/
def entryRegion (w : Word) : Nat × Nat := (field w.toNat 10 8 * 256 + w.toNat % 256, field w.toNat 13 12)

/-- A CHB form of code c (b[63:62]): its checks (R423) and its effect (R278). -/
def formChb (code : Nat) : CForm where
  check s tid a b _ :=
    match s.task? tid with
    | none => none
    | some t =>
      let n := b.toNat
      let ok : Bool :=
        if field n 63 62 ≠ code then false
        else match code with
          | 0 => n == 0
          | 2 => field n 61 16 == 0 && ownsCluster s t (n % 256)
          | 1 =>
            field n 61 3 == 0 && (s.chan (chanAddr tid (a.toNat % 64))).q.isEmpty &&
            (match s.task? (n % 8 * 1024 + seOf tid) with
             | some u => u.launch == t.launch
             | none => false)
          | _ => false
      if ok then none else some (exc 0x010D)
  ready := invsDone
  eff s tid a b _ :=
    let n := a.toNat % 64
    match code with
    | 0 => s.modTask tid fun t => { t with routes := merase t.routes n }
    | 2 => s.modTask tid fun t => { t with routes := mset t.routes n (b.toNat % 65536) }
    | _ =>
      let ad := chanAddr tid n
      s.setChan ad { s.chan ad with slot := some (b.toNat % 8) }

/-- CHB with b[63:62] = 0b00: route n returns to its default. A word whose b is 0b11 stands here as
well and takes 0x010D (R423). -/
def execChbRouteDefault (p : Pred) (ta : Target) (s : State) : Out := commitForm p .n2 ta 0 (formChb 0) s
/-- CHB with b[63:62] = 0b10: route n sends to the channel address b[15:0]. -/
def execChbRoute (p : Pred) (ta : Target) (s : State) : Out := commitForm p .n2 ta 0 (formChb 2) s
/-- CHB with b[63:62] = 0b01: binds channel n of the issuing SE to task slot b[2:0]. -/
def execChbBind (p : Pred) (ta : Target) (s : State) : Out := commitForm p .n2 ta 0 (formChb 1) s

end Sys2Proof.Machine
end

