-- ==== Sys2Proof/Machine/Engines.lean ====
section
/-!
DEFINITION. The engine request forms (spec/14_block_system.md R277, R280-R283; R424): what a block's
commit checks and issues. What an engine then does stands in Machine/EngineOps.lean.
-/

namespace Sys2Proof.Machine

/-- Whether the response stream of a task has room for one more request, when the response goes
there (R280). -/
def streamRoom (s : State) (tid : Nat) (ta : Target) : Bool :=
  match s.task? tid with
  | none => true
  | some t => match ta with
    | .none => decide (t.resp.length < 16)
    | _ => true

/-- The operand ranges of an engine request (R424). -/
def engineOk (s : State) (t : Task) (opcode : Nat) (a b c : Word) : Bool :=
  match opcode with
  | 0x55 => entryWordOk s t a && !((decide (3 ≤ field a.toNat 19 16) && decide (field a.toNat 19 16 ≤ 7)) || field a.toNat 19 16 == 15)
  | 0x56 => decide (1 ≤ c.toNat) && decide (c.toNat ≤ 2 ^ 40)
  | 0x57 => decide (1 ≤ field b.toNat 39 32) && decide (field b.toNat 39 32 ≤ 32) && field b.toNat 63 41 == 0
  | 0x5C => field b.toNat 63 29 == 0 && decide (a.toNat % 65536 = 0)
  | 0x5D => field b.toNat 63 29 == 0 && decide (a.toNat % 65536 = 0)
  | _ => true

/-- The unit that performs a request: the engine of the issuing SE, or for INJ the region it names. -/
def engineTarget (tid opcode : Nat) (a : Word) : Agent :=
  if opcode = 0x55 then .region (entryRegion a).1 else .engine (seOf tid)

/-- An engine request at commit: a release at dev of the task's earlier accesses (R168, R170, R280). -/
def formEngine (opcode : Nat) (h : Nat) (ta : Target) : CForm where
  check s tid a b c :=
    match s.task? tid with
    | none => none
    | some t => need (engineOk s t opcode a b c)
  ready s tid a b c := invsDone s tid a b c && streamRoom s tid ta
  eff s tid a b c :=
    match s.task? tid with
    | none => s
    | some t =>
      issueTask s tid (engineTarget tid opcode a) true ta 1 (t.afterW ++ releaseAfter s (.task tid) .dev) (.engine opcode a b c h)

/-- CPY: copies c bytes from b to a. -/
def execCpy (p : Pred) (_m : Fin 32) (h : Hint) (ta : Target) (s : State) : Out :=
  commitForm p .n3 ta 1 (formEngine 0x56 h.code ta) s
/-- MCST: copies the source a to each destination that the list at c names. -/
def execMcst (p : Pred) (_m : Fin 32) (h : Hint) (ta : Target) (s : State) : Out :=
  commitForm p .n3 ta 1 (formEngine 0x57 h.code ta) s
/-- GTH: gathers by the descriptor b into the contiguous destination a. -/
def execGth (p : Pred) (_m : Fin 32) (h : Hint) (ta : Target) (s : State) : Out :=
  commitForm p .n2 ta 1 (formEngine 0x58 h.code ta) s
/-- SCT: scatters the contiguous source a by the descriptor b. -/
def execSct (p : Pred) (_m : Fin 32) (h : Hint) (ta : Target) (s : State) : Out :=
  commitForm p .n2 ta 1 (formEngine 0x59 h.code ta) s
/-- KSEL: chooses KV pages by the descriptor a. -/
def execKsel (p : Pred) (_m : Fin 32) (h : Hint) (ta : Target) (s : State) : Out :=
  commitForm p .n1 ta 1 (formEngine 0x5A h.code ta) s
/-- KVPK: packs a KV page by the descriptor a. -/
def execKvpk (p : Pred) (_m : Fin 32) (h : Hint) (ta : Target) (s : State) : Out :=
  commitForm p .n1 ta 1 (formEngine 0x5B h.code ta) s
/-- AXRD: copies Annex block b to the frame a. -/
def execAxrd (p : Pred) (_m : Fin 32) (h : Hint) (ta : Target) (s : State) : Out :=
  commitForm p .n2 ta 1 (formEngine 0x5C h.code ta) s
/-- AXWR: copies the source a to Annex block b. -/
def execAxwr (p : Pred) (_m : Fin 32) (h : Hint) (ta : Target) (s : State) : Out :=
  commitForm p .n2 ta 1 (formEngine 0x5D h.code ta) s
/-- INJ: writes one token with the 32 bytes at b into the entry queue that a names. -/
def execInj (p : Pred) (_m : Fin 32) (ta : Target) (s : State) : Out :=
  commitForm p .n2 ta 1 (formEngine 0x55 0 ta) s

end Sys2Proof.Machine
end

