-- ==== Sys2Proof/Machine/Fibres.lean ====
section
/-!
DEFINITION. The fibre forms and the Concordance forms (spec/14_block_system.md R285-R287; R264, R342,
R424): what a block's commit checks and sends. What a shelver or a Concordance engine then does
stands in Machine/Shelver.lean and Machine/Concordance.lean.
-/

namespace Sys2Proof.Machine

/-! ### Fibre operations -/

/-- The operations of a shelver (R104), as numbers in `Act.fibre`. -/
def fGrant : Nat := 0
def fNew : Nat := 1
def fMrg : Nat := 2
def fScn : Nat := 3
def fPrb : Nat := 4
def fLen : Nat := 5
def fDel : Nat := 6

/-- What operand a of a fibre form asks of its page (R264): the SE leaves type FIBRE to the shelver
(R393), and only a page of HBM has a home shelver. -/
def askHead (write : Bool) : Ask := ⟨!write, write, [0, 1, 2, 4, 5]⟩

/-- The translation of operand a of a fibre form (R264). -/
def headAccess (s : State) (tid : Nat) (t : Task) (write : Bool) (va : Word) : Except Flt0 Pass :=
  match taskAccess s tid t (askHead write) va 1 with
  | .error f => .error f
  | .ok x => if inHbm x.pa then .ok x else .error ⟨0x0005, va, x.pte⟩

/-- The check of operand a. -/
def headCheck (s : State) (tid : Nat) (write : Bool) (a : Word) : Option Flt0 :=
  match s.task? tid with
  | none => none
  | some t => match headAccess s tid t write a with
    | .error f => some f
    | .ok _ => none

/-- Sends one operation to the home shelver (R98, R103, R285). -/
def fibreEff (s : State) (tid : Nat) (code : Nat) (write : Bool) (ta : Target) (k : Nat) (a b c : Word)
    (mode stpl : Nat) (places : List (Nat × Nat)) (bad : Bool) : State :=
  let nc := if places.any fun p => decide (4 ≤ p.1) then ncIds s (.task tid) else []
  match s.task? tid with
  | none => s
  | some t => match headAccess s tid t write a with
    | .error _ => s
    | .ok x =>
      issueTaskSoft (taskInstall s tid t a) tid (.shelver (shelverOf x.pa)) false ta k (t.afterW ++ nc) []
        (.fibre code a x.pa x.typ b c mode stpl [] places bad)

/-- The size of the page that holds a VA, as a power of two: what a GRANT hands over (R96). -/
def pageLog (s : State) (tid : Nat) (va : Word) : Nat :=
  match s.task? tid with
  | none => 16
  | some t => match s.part? t.ptn with
    | none => 16
    | some p => match lookup s (dieOf tid * 256 + seTlb (seOf tid)) t.ptn p va with
      | .ok e => e.size
      | .bad _ => 16

/-- A fibre form of one operation at commit; a GRANT carries the size of its page. -/
def formFibre (code : Nat) (write : Bool) (ta : Target) (k : Nat) : CForm where
  check s tid a _ _ := headCheck s tid write a
  ready := invsDone
  eff s tid a b c := fibreEff s tid code write ta k a b c 0 (if code = fGrant then pageLog s tid a else 0) [] false

/-- FNEW: allocates a fibre of format b[7:0] in the pool of the placement address a. -/
def execFnew (p : Pred) (_m : Fin 32) (ta : Target) (s : State) : Out :=
  commitForm p .n2 ta 1 (formFibre fNew true ta 1) s
/-- FNEW with GR 1: grants the FIBRE page at a to the shelvers. -/
def execFnewGrant (p : Pred) (_m : Fin 32) (ta : Target) (s : State) : Out :=
  commitForm p .n1 ta 1 (formFibre fGrant true ta 1) s
/-- FDEL: frees the fibre a. -/
def execFdel (p : Pred) (_m : Fin 32) (ta : Target) (s : State) : Out :=
  commitForm p .n1 ta 0 (formFibre fDel true ta 0) s
/-- FPRB: looks coordinate b up in the fibre a. -/
def execFprb (p : Pred) (_m : Fin 32) (ta : Target) (s : State) : Out :=
  commitForm p .n2 ta 2 (formFibre fPrb false ta 2) s
/-- FLEN: counts the pairs and segments of the fibre a. -/
def execFlen (p : Pred) (_m : Fin 32) (ta : Target) (s : State) : Out :=
  commitForm p .n1 ta 1 (formFibre fLen false ta 1) s

/-! ### FMRG -/

/-- Where the i-th word at an address lies, when its page passes (R342, R393). -/
def batchAccess (s : State) (tid : Nat) (t : Task) (b : Word) (i : Nat) : Except Flt0 Pass :=
  taskAccess s tid t askLoad (b + wordOf (8 * i)) 8

/-- The places of n words of a batch, up to the first that does not pass, with 4 more as the space of one on a page of
type NC or DEVR, and whether one did not pass (R168, R342, R393). -/
def batchPlaces (s : State) (tid : Nat) (t : Task) (b : Word) : Nat → List (Nat × Nat) × Bool
  | 0 => ([], false)
  | n + 1 =>
    let (ps, bad) := batchPlaces s tid t b n
    match bad, batchAccess s tid t b n with
    | false, .ok x => (ps ++ [(x.place.space + 4 * bnat (inOrder x.typ), x.place.addr)], false)
    | _, _ => (ps, true)

/-- The words at an address as a task reads them, and whether reading one failed. -/
def readBatch (s : State) (tid : Nat) (t : Task) (b : Word) : Nat → List Word × Bool
  | 0 => ([], false)
  | n + 1 =>
    let (ws, bad) := readBatch s tid t b n
    match batchAccess s tid t b n with
    | .error _ => (ws, true)
    | .ok x => (ws ++ [wordOf (natOfBytes (seenBytes s (.task tid) x.place 8))], bad || s.placeMarked x.place 8)

/-- Whether a task may read n words at an address now. -/
def batchReady (s : State) (tid : Nat) (t : Task) (b : Word) (n : Nat) : Bool :=
  (natRange 0 n).all fun i =>
    match batchAccess s tid t b i with
    | .error _ => true
    | .ok x => !readWaits s (.task tid) t.after t.invs x.typ x.place 8

/-- FMRG at commit: the merge reads the batch where it stands in program order (R342), after the task's earlier
accesses to it and before the later ones. -/
def formFmrg (mode : MMode) (dz : Bool) (ta : Target) : CForm where
  check s tid a _ c := if c.toNat < 128 then headCheck s tid true a else some (exc 0x010E)
  ready := invsDone
  eff s tid a b c :=
    match s.task? tid with
    | none => s
    | some t =>
      let ps := batchPlaces s tid t b c.toNat
      fibreEff s tid fMrg true ta 1 a b c (mode.code + 8 * bnat dz) 0 ps.1 ps.2

/-- FMRG: merges the c pairs at b into the fibre a. -/
def execFmrg (p : Pred) (_m : Fin 32) (mode : MMode) (dz : Bool) (ta : Target) (s : State) : Out :=
  commitForm p .n3 ta 1 (formFmrg mode dz ta) s

/-! ### FSCN -/

/-- Whether a target is a channel. -/
def Target.isChan : Target → Bool
  | .chan _ => true | _ => false

/-- FSCN at commit (R286): with b = 0 the pairs go through the route of a kind-101 target, otherwise
into the entry queue that b names, and only the cost word through that route. -/
def formFscn (stpl : Nat) (ta : Target) : CForm where
  check s tid a b _ :=
    match s.task? tid with
    | none => none
    | some t =>
      if b = 0 ∧ ¬ Target.isChan ta then some (exc 0x0105)
      else if b ≠ 0 ∧ ¬ entryWordOk s t b then some (exc 0x010E)
      else headCheck s tid false a
  ready := invsDone
  eff s tid a b _ :=
    match s.task? tid with
    | none => s
    | some t =>
      if b = 0 then fibreEff s tid fScn false ta 1 a b 0 0 0 [] false
      else match headAccess s tid t false a with
        | .error _ => s
        | .ok x =>
          let route := match ta with | .chan n => wordOf (t.route tid n.val + 65536) | _ => 0
          let er := entryRegion b
          issue (taskInstall s tid t a) (.task tid) t.ptn t.launch t.level (.shelver (shelverOf x.pa))
            (.entry er.1 er.2) 1 (t.after ++ t.afterW) (.fibre fScn a x.pa x.typ b route 0 stpl [] [] false)

/-- FSCN: scans the fibre a. -/
def execFscn (p : Pred) (_m : Fin 32) (stpl : Fin 8) (ta : Target) (s : State) : Out :=
  commitForm p .n2 ta 1 (formFscn stpl.val ta) s

/-! ### Concordance forms (R287, R141) -/

/-- The operations of a Concordance engine, as numbers in `Act.tree`. -/
def tFind : Nat := 0
def tGet : Nat := 1
def tRelease : Nat := 2
def tInsert : Nat := 3

/-- A tree word (R266): reserved bits zero, and no tree of another partition. -/
def treeWordOk (s : State) (t : Task) (a : Word) : Bool :=
  field a.toNat 63 8 == 0 && field a.toNat 3 2 == 0 &&
  (match mget s.trees (a.toNat % 4 * 16 + field a.toNat 7 4) with
   | some tr => tr.ptn == t.ptn
   | none => true)

/-- A Concordance form at commit: an acqrel access at dev, behind every earlier store of the task, those that a release at
dev does not wait for among them (R141). -/
def formTree (code : Nat) (ta : Target) (k : Nat) : CForm where
  check s tid a _ c :=
    match s.task? tid with
    | none => none
    | some t => need (treeWordOk s t a && (code != tFind || c != 0))
  ready := invsDone
  eff s tid a b c :=
    match s.task? tid with
    | none => s
    | some t =>
      let id := s.nextId
      let s := issueTask s tid (.tree (a.toNat % 4 * 16 + field a.toNat 7 4)) false ta k
        (t.afterW ++ releaseAfter s (.task tid) .dev ++ writeIds s (.task tid)) (.tree code a b c)
      s.modTask tid fun t => { t with after := t.after ++ [id] }

/-- The rolling hash: rotl64(h XOR w, 23) × 0x9E37_79B9_7F4A_7C15 (R132). -/
def snph (h w : Word) : Word := (h ^^^ w).rotateLeft 23 * 0x9E3779B97F4A7C15

/-- SNPH: one step of the rolling hash. -/
def execSnph (p : Pred) (ta : Target) (s : State) : Out :=
  compute p .n2 [ta] s fun a b _ => (snph a b, 0)
/-- SNPF: the longest stored prefix of the c words at b in the tree a. -/
def execSnpf (p : Pred) (_m : Fin 32) (ta : Target) (s : State) : Out :=
  commitForm p .n3 ta 2 (formTree tFind ta 2) s
/-- SNPP: inserts by the descriptor b in the tree a. -/
def execSnpp (p : Pred) (_m : Fin 32) (ta : Target) (s : State) : Out :=
  commitForm p .n2 ta 2 (formTree tInsert ta 2) s
/-- SNPG: takes a reference to the node word b of the tree a. -/
def execSnpg (p : Pred) (_m : Fin 32) (ta : Target) (s : State) : Out :=
  commitForm p .n2 ta 3 (formTree tGet ta 3) s
/-- SNPR: gives back a reference to the node word b of the tree a. -/
def execSnpr (p : Pred) (_m : Fin 32) (ta : Target) (s : State) : Out :=
  commitForm p .n2 ta 0 (formTree tRelease ta 0) s

end Sys2Proof.Machine
end

