-- ==== Sys2Proof/Machine/Tokens.lean ====
section
/-!
DEFINITION. Tokens and channel formats (spec/02_execution.md R43; spec/12_encodings.md R228;
spec/08_numbers.md R147, R150, R155; R362, R397), and the conversions of a router (spec/03_fabric.md
R61-R63).
-/

namespace Sys2Proof.Machine

/-! ### Kinds -/

/-- The kind of a token (R43). -/
inductive Kind where
  | data | null | poison | stop (k : Nat) | reserved
  deriving DecidableEq, Repr

/-- The kind of a `KIND` code (R43). -/
def kindOf (k : Nat) : Kind :=
  if k = 0 then .data else if k = 1 then .null else if k = 2 then .poison
  else if 8 ≤ k ∧ k ≤ 14 then .stop (k - 7) else .reserved

/-- The kind of a token. -/
def Token.cls (t : Token) : Kind := kindOf t.kind.toNat

/-- A DATA token. -/
def dataTok (scl data : Nat) : Token := ⟨0, BitVec.ofNat 8 scl, BitVec.ofNat 256 data⟩
/-- A NULL token: data and scale zero (R43). -/
def nullTok : Token := ⟨1, 0, 0⟩
/-- A STOP of level k: data and scale zero (R43). -/
def stopTok (k : Nat) : Token := ⟨BitVec.ofNat 4 (k + 7), 0, 0⟩

/-- Where a token is made: the device time, and the grid tile of its creator. -/
structure Maker where
  time : Nat
  die  : Nat
  col  : Nat
  row  : Nat
  deriving DecidableEq, Repr

/-- The data bits of a poison record (R362). -/
def poisonData (time pkind pcode die col row punit : Nat) : Nat :=
  time % 2 ^ 64 * 2 ^ 64 + pkind * 2 ^ 56 + pcode % 2 ^ 16 * 2 ^ 40 + die * 2 ^ 38 + col * 2 ^ 32 + row * 2 ^ 26 + punit * 2 ^ 25

/-- A POISON token of a grid tile. -/
def Maker.poison (m : Maker) (pkind pcode : Nat) : Token :=
  ⟨2, 0x7F, BitVec.ofNat 256 (poisonData m.time pkind pcode m.die m.col m.row 0)⟩

/-- The POISON in place of a token or value with an uncorrectable error (R404). -/
def Maker.upset (m : Maker) : Token := m.poison 7 (Config.upsetCode m.time).toNat

/-- A POISON token of a shelver, an engine or another unit of a die (R362). -/
def unitPoison (time pkind pcode die : Nat) : Token := ⟨2, 0x7F, BitVec.ofNat 256 (poisonData time pkind pcode die 0 0 1)⟩

/-- The marked word a POISON leaves in an SE channel (R362). -/
def poisonWord (t : Token) : Word :=
  wordOf (field t.data.toNat 63 56 * 2 ^ 56 + 0xFFFF * 2 ^ 16 + field t.data.toNat 55 40)

/-! ### Formats (R228) -/

/-- Elements per token of a channel format code. -/
def fmtCount : Nat → Nat
  | 3 => 8 | 4 => 16 | 5 => 32 | 6 => 8 | 7 => 16 | 8 => 16 | 9 => 32 | 10 => 32 | 11 => 64 | 12 => 160
  | 13 => 128 | 14 => 4 | _ => 1

/-- Element bits of a channel format code; for t3 the bits of one trit code as the model holds it. -/
def fmtBits : Nat → Nat
  | 1 => 64 | 2 => 32 | 3 => 32 | 4 => 16 | 5 => 8 | 6 => 32 | 7 => 16 | 8 => 16 | 9 => 8 | 10 => 8 | 11 => 4
  | 12 => 2 | 13 => 2 | 14 => 64 | _ => 256

/-- The floating-point format of a code. -/
def fmtFlt : Nat → Option Flt
  | 6 => some .f32 | 7 => some .bf16 | 8 => some .f16 | 9 => some .e4m3 | 10 => some .e5m2 | 11 => some .e2m1
  | _ => none

/-- Whether a code is an integer format. -/
def fmtInt (c : Nat) : Bool := decide (1 ≤ c) && decide (c ≤ 5)
/-- Whether a code is numeric, 0x1 to 0xC (R62). -/
def fmtNum (c : Nat) : Bool := decide (1 ≤ c) && decide (c ≤ 12)

/-- The five trit codes of a t3 byte, and whether its code is reserved (R147, R397). -/
def tritsOf (b : Nat) : List Nat × Bool :=
  if 243 ≤ b then ([1, 1, 1, 1, 1], true)
  else ([b % 3, b / 3 % 3, b / 9 % 3, b / 27 % 3, b / 81 % 3], false)

/-- The t3 byte of trit codes. -/
def tritByte : List Nat → Nat
  | [] => 0
  | t :: ts => t + 3 * tritByte ts

/-- The n fields of w bits of a number, lowest first. -/
def splitBits (w : Nat) : Nat → Nat → List Nat
  | 0, _ => []
  | n + 1, v => v % 2 ^ w :: splitBits w n (v / 2 ^ w)

/-- The number of fields of w bits, lowest first. -/
def joinBits (w : Nat) : List Nat → Nat
  | [] => 0
  | v :: vs => v % 2 ^ w + 2 ^ w * joinBits w vs

/-- The element patterns of a token's data, and the flags of decoding them. -/
def getElems (fmt : Nat) (data : TokData) : List Nat × Nat :=
  if fmt = 12 then
    let bs := (splitBits 8 32 data.toNat).map tritsOf
    (bs.flatMap (·.1), if bs.any (·.2) then fFMT else 0)
  else (splitBits (fmtBits fmt) (fmtCount fmt) data.toNat, 0)

/-- The pattern of a zero element. -/
def zeroPat (fmt : Nat) : Nat := if fmt = 12 then 1 else 0

/-- The data of element patterns; missing elements are zero. -/
def putElems (fmt : Nat) (ps : List Nat) : TokData :=
  let full := ps ++ lrep (fmtCount fmt - ps.length) (zeroPat fmt)
  if fmt = 12 then BitVec.ofNat 256 (joinBits 8 ((chunksOf 5 160 full).map tritByte))
  else BitVec.ofNat 256 (joinBits (fmtBits fmt) full)

/-- The exact value of an element pattern, scale left out (R142-R147). -/
def elemVal (fmt p : Nat) : Val :=
  match fmtFlt fmt with
  | some f => f.decode p
  | none => if fmt = 12 then .ofInt ((p : Int) - 1) else .ofInt (signedOf (fmtBits fmt) p)

/-- The rounding of element i of n by a rounding code, with the random token of SR (R150, R155). -/
def elemRound (rnd : Nat) (rand : Nat) (n i : Nat) : Round :=
  match Rnd.ofCode rnd with
  | some r => .mode r
  | none =>
    let step := 256 / n
    let b := Nat.min step 16
    .sr b (rand / 2 ^ (i * step) % 2 ^ b)

/-- Rounds a value to an element format and saturates it (R149, R150): the pattern and the flags. -/
def encodeElem (fmt : Nat) (uns : Bool) (r : Round) (sat : Nat) (v : Val) : Nat × Nat :=
  match fmtFlt fmt with
  | some f => f.round r sat v
  | none => if fmt = 12 then roundTrit r v else roundInt (fmtBits fmt) (!uns) r sat v

/-- The pattern of element 0 of a token in its lowest bits. -/
def Token.bits (t : Token) (w : Nat) : Nat := t.data.toNat % 2 ^ w

/-! ### Router conversions (R61-R63) -/

/-- What a join knows of one of its sides: the format, the value format of a pair channel, and the
fixed scale when the side takes one (`SSRC` 0). -/
structure Side3 where
  fmt   : Nat
  vfmt  : Nat
  fixed : Option Nat
  deriving DecidableEq, Repr

/-- Whether R62 permits a join of two codes. -/
def joinOk (a b : Nat) : Bool :=
  if a = b || a = 15 || b = 15 then true
  else if !fmtNum a || !fmtNum b then false
  else decide (Nat.max (fmtCount a) (fmtCount b) % Nat.min (fmtCount a) (fmtCount b) = 0)

/-- The value of a token's elements, each at the token's own scale (R61). -/
def tokenVals (fmt : Nat) (t : Token) : List Val × Nat :=
  let (ps, fl) := getElems fmt t.data
  (ps.map fun p => (elemVal fmt p).scaled t.scl.toNat, fl)

/-- Encodes values at a scale with rounding code and saturation (R61, R306): patterns and flags. -/
def encodeVals (fmt scl rnd sat rand : Nat) (vs : List Val) : List Nat × Nat :=
  let n := fmtCount fmt
  let rs := vs.zipIdx.map fun x => encodeElem fmt false (elemRound rnd rand n (x.2 % n)) sat (x.1.unscaled scl)
  (rs.map (·.1), rs.foldl (fun f r => orF f r.2) 0)

/-- Converts the value of one pair word between value formats, with the flags; the coordinate passes (R62). A value of
format t3 is the first trit of a t3 byte, whose other trits are zero as the model writes it; a byte of a reserved code
is zero trits and sets FMT (R397; log entry 131). -/
def pairConv (va vb : Nat) (p : Nat) : Nat × Nat :=
  let (v, bad) : Val × Nat :=
    if va = 12 then
      let (ts, r) := tritsOf (p / 2 ^ 32 % 256)
      (elemVal 12 (ts.headD 1), if r then fFMT else 0)
    else (elemVal va (p / 2 ^ 32), 0)
  let (q, fl) := encodeElem vb false (.mode .rne) 1 v
  let q := if vb = 12 then tritByte [q, 1, 1, 1, 1] else q
  (p % 2 ^ 32 + q % 2 ^ 32 * 2 ^ 32, orF bad fl)

/-- Converts a group of DATA tokens of one side into DATA tokens of the other, with the flags of the
conversion (R150, R397). -/
def convertGroup (a b : Side3) (ts : List Token) : List Token × Nat :=
  match ts with
  | [] => ([], 0)
  | t :: _ =>
    let scl := b.fixed.getD t.scl.toNat
    let vs := ts.map (tokenVals a.fmt)
    let (ps, fl) := encodeVals b.fmt scl 0 1 0 (vs.flatMap (·.1))
    ((chunksOf (fmtCount b.fmt) ps.length ps).map fun g => ⟨0, BitVec.ofNat 8 scl, putElems b.fmt g⟩,
     vs.foldl (fun f v => orF f v.2) fl)

/-- Whether a token passes a join as it is. -/
def passes (a b : Side3) (t : Token) : Bool :=
  a.fmt == 15 || b.fmt == 15 || a.fmt == 0 || a.fmt == 13 ||
  (a.fmt == 14 && (a.vfmt == b.vfmt || a.vfmt == 15 || b.vfmt == 15)) ||
  (a.fmt == b.fmt && a.fmt != 14 && b.fixed.getD t.scl.toNat == t.scl.toNat)

/-- A complete or closed group of a gather (R63). A STOP that closes a group of NULL tokens alone, which R63 completes
with zero elements and whose full form gives one NULL, gives one NULL (DESIGN CHOICE, log entry 126). -/
def gatherOut (a b : Side3) (m : Maker) (g : List Token) : List Token × Nat :=
  match g.find? fun t => decide (t.cls = .poison) || decide (t.cls = .reserved) with
  | some t => ([t], 0)
  | none =>
    if g.all fun t => decide (t.cls = .null) then ([nullTok], 0)
    else if g.any fun t => decide (t.cls = .null) then ([m.poison 3 3], 0)
    else convertGroup a b g

/-- One token through a join: what comes out, the group that is still open, and flags (R61-R63). -/
def joinStep (a b : Side3) (m : Maker) (open' : List Token) (t : Token) : List Token × List Token × Nat :=
  if !fmtNum a.fmt || !fmtNum b.fmt then
    match t.cls with
    | .data =>
      if passes a b t then ([t], [], 0)
      else
        let ps := (splitBits 64 4 t.data.toNat).map (pairConv a.vfmt b.vfmt)
        ([{ t with data := BitVec.ofNat 256 (joinBits 64 (ps.map (·.1))) }], [], ps.foldl (fun f p => orF f p.2) 0)
    | _ => ([t], [], 0)
  else
    let na := fmtCount a.fmt
    let nb := fmtCount b.fmt
    if na < nb then
      match t.cls with
      | .stop _ =>
        if open'.isEmpty then ([t], [], 0)
        else let (o, f) := gatherOut a b m open'; (o ++ [t], [], f)
      | _ =>
        let g := open' ++ [t]
        if g.length * na < nb then ([], g, 0)
        else let (o, f) := gatherOut a b m g; (o, [], f)
    else
      match t.cls with
      | .stop _ => ([t], [], 0)
      | .data =>
        if passes a b t then ([t], [], 0)
        else let (o, f) := convertGroup a b [t]; (o, [], f)
      | _ => (lrep (na / nb) t, [], 0)

end Sys2Proof.Machine
end

