-- ==== Sys2Proof/Machine/Firing.lean ====
section
/-!
DEFINITION. The firing of one element as a function of its configuration word, its latches and its
register bank (spec/15_element_ops.md R299-R302; spec/02_execution.md R44-R47; R365, R366, R427).
-/

namespace Sys2Proof.Machine

/-- What an element sees when it may fire. -/
structure ElemIn where
  c  : ElemCfg
  st : ElemSt
  a  : Option Token
  b  : Option Token
  cc : Option Token
  p  : Option Token
  /-- inputs that a CRY's body output feeds (R46), as numbers 0 to 3 -/
  carried : List Nat
  /-- destinations without a free slot (R47) -/
  full : List Nat
  who : Maker
  /-- 256 free bits, for a result the spec does not state (log entry 24) -/
  free : Nat
  deriving DecidableEq, Repr

/-- What a firing does: inputs it consumes, tokens it emits by destination, its register bank, the
flags it sets, and whether an NRW saturated. -/
structure Fired where
  take  : List Nat
  outs  : List (Nat × Token)
  st    : ElemSt
  flags : Nat
  sat   : Bool
  deriving DecidableEq, Repr

/-- What one element operation does: none when it does not fire. -/
abbrev ElemFn := ElemIn → Option Fired

namespace ElemIn

/-- Select of input 0 to 3 (A, B, C, P). -/
def sel (x : ElemIn) : Nat → Nat
  | 0 => x.c.sela.toNat | 1 => x.c.selb.toNat | 2 => x.c.selc.toNat | _ => x.c.selp.toNat

/-- The token at input 0 to 3. -/
def tok (x : ElemIn) : Nat → Option Token
  | 0 => x.a | 1 => x.b | 2 => x.cc | _ => x.p

/-- The inputs among a list that the configuration names. -/
def namedOf (x : ElemIn) (ins : List Nat) : List Nat := ins.filter fun i => x.sel i != 0

/-- Destination byte 0 to 2. -/
def dst (x : ElemIn) : Nat → Nat
  | 0 => x.c.dst0.toNat | 1 => x.c.dst1.toNat | _ => x.c.dst2.toNat

/-- The destinations that the configuration names. -/
def dsts (x : ElemIn) : List Nat := [0, 1, 2].filter fun j => x.dst j != 0

/-- Whether every destination of a list that is named has a free slot. -/
def room (x : ElemIn) (ds : List Nat) : Bool := ds.all fun j => x.dst j == 0 || !x.full.contains j

/-- Whether every input of a list holds a token. -/
def have' (x : ElemIn) (ins : List Nat) : Bool := ins.all fun i => (x.tok i).isSome

/-- The tokens of a list of inputs. -/
def toks (x : ElemIn) (ins : List Nat) : List Token := ins.filterMap x.tok

/-- The same token on every named destination. -/
def everywhere (x : ElemIn) (t : Token) : List (Nat × Token) := x.dsts.map fun j => (j, t)

/-- IMM32 as s32. -/
def imm (x : ElemIn) : Int := signedOf 32 x.c.imm.toNat

/-- Stop level of the element. -/
def level (x : ElemIn) : Nat := x.c.stpl.toNat

/-- Whether a STOP of level k reaches the element's stop level; level 0 reacts to none (R44). -/
def closes (x : ElemIn) (k : Nat) : Bool := decide (1 ≤ x.level) && decide (x.level ≤ k)

/-- The predicate bit of a token (R300): bit 0 of element 0, inverted by PINV. -/
def decision (x : ElemIn) (t : Token) : Bool := (t.data.toNat % 2 == 1) != (x.c.pinv == 1)

end ElemIn

/-- A firing that only moves tokens. -/
def ElemIn.out (x : ElemIn) (take : List Nat) (outs : List (Nat × Token)) : Option Fired := some ⟨take, outs, x.st, 0, false⟩

/-- A firing that also leaves a register bank and flags. -/
def ElemIn.outSt (_x : ElemIn) (take : List Nat) (outs : List (Nat × Token)) (st : ElemSt) (flags : Nat) : Option Fired :=
  some ⟨take, outs, st, flags, false⟩

/-- The first POISON among tokens in the order of the inputs; a reserved kind counts as one, made by
the element itself (R46, R362, R427). -/
def firstPoison (m : Maker) : List Token → Option Token
  | [] => none
  | t :: ts =>
    match t.cls with
    | .poison => some t
    | .reserved => some (m.poison 4 t.kind.toNat)
    | _ => firstPoison m ts

/-- The level of a STOP token, 0 for another. -/
def Token.stopLevel (t : Token) : Nat := match t.cls with | .stop k => k | _ => 0

/-- The highest STOP level among tokens. -/
def maxStop (ts : List Token) : Nat := ts.foldl (fun k t => Nat.max k t.stopLevel) 0

/-- A misalignment (R365): one token of each input is consumed, a POISON goes to every destination,
and the state is reset as by the highest STOP present, or as by the element's own level. -/
def misaligned (x : ElemIn) (ins : List Nat) (pcode : Nat) (reset : Nat → ElemSt → ElemSt) : Option Fired :=
  let k := maxStop (x.toks ins)
  x.outSt ins (x.everywhere (x.who.poison 3 pcode)) (reset (if k = 0 then x.level else k) x.st) 0

/-- What the tokens at several inputs are together (R45, R46). -/
inductive Meet where
  | waits
  | poison (t : Token)
  | stop (k : Nat)
  | bad
  | null
  | data
  deriving DecidableEq, Repr

/-- Judges the tokens of the named inputs of an element (R45, R46): a DATA or NULL on a carried input
gives way to a STOP on all the others. -/
def meet (x : ElemIn) (ins : List Nat) : Meet :=
  if !x.have' ins then .waits
  else
    let ts := x.toks ins
    match firstPoison x.who ts with
    | some t => .poison t
    | none =>
      let free := x.toks (ins.filter fun i => !x.carried.contains i)
      let held := x.toks (ins.filter fun i => x.carried.contains i)
      let k := maxStop ts
      if k = 0 then (if ts.any fun t => decide (t.cls = .null) then .null else .data)
      else if free.all (fun t => t.stopLevel == k) && held.all (fun t => t.stopLevel == k || t.stopLevel == 0) &&
        !(free.isEmpty && held.any fun t => t.stopLevel == 0) then .stop k
      else .bad

/-- The frame of an ordinary element (R45-R47, R300): it fires when every input of `ins` that it names
holds a token and every destination has a free slot; `f` computes on DATA tokens whose predicate is
true; `reset` is what a STOP of a level resets. -/
def ordinary (ins : List Nat) (reset : Nat → ElemSt → ElemSt) (f : ElemIn → Option Fired) : ElemFn := fun x =>
  let named := x.namedOf ins
  if !x.room [0, 1, 2] then none
  else match meet x named with
    | .waits => none
    | .poison t => x.out named (x.everywhere t)
    | .stop k => x.outSt named (x.everywhere (stopTok k)) (reset k x.st) 0
    | .bad => misaligned x named 1 reset
    | .null => x.out named (x.everywhere nullTok)
    | .data =>
      match x.p with
      | some t =>
        if named.contains 3 && !x.decision t then x.out named (x.everywhere nullTok) else f x
      | none => f x

/-- An element that a STOP resets nothing of. -/
def keepState (_ : Nat) (st : ElemSt) : ElemSt := st

/-- The register n of an element. -/
def ElemSt.reg (st : ElemSt) (n : Nat) : Nat := lget st.regs n 0

end Sys2Proof.Machine
end

