-- ==== Sys2Proof/Machine/Float.lean ====
section
/-!
DEFINITION. The scalar float family (spec/13_block_core.md R254-R259).
-/

namespace Sys2Proof.Machine

/-- Rounds and saturates a result and joins the flags of its special case (R149, R150, R255). -/
def floatOut (ft : FTy) (r : Rnd) (sm : FSat) (v : Val) (fl : Nat) : Word × Nat :=
  let (n, f) := (fltOf ft).round (.mode r) sm.code v
  (wordOf n, Nat.lor f fl)

/-- INV of an invalid operation (R255). -/
def invIf (b : Bool) : Nat := if b then fINV else 0

/-- Division: the exact quotient and its special cases (R255). -/
def divVal : Val → Val → Val × Nat
  | .nan, _ => (.nan, 0)
  | _, .nan => (.nan, 0)
  | .inf _, .inf _ => (.nan, fINV)
  | .inf n, .fin m _ _ => (.inf (n != m), 0)
  | .fin n _ _, .inf m => (.fin (n != m) 0 1, 0)
  | .fin n a b, .fin m c d =>
    if c = 0 then (if a = 0 then (.nan, fINV) else (.inf (n != m), fDVZ))
    else (.fin (n != m) (a * d) (b * c), 0)

/-- Square root and its special cases (R255). -/
def sqrtOf : Val → Val × Nat
  | .nan => (.nan, 0)
  | .inf n => if n then (.nan, fINV) else (.inf false, 0)
  | .fin n a b => if a = 0 then (.fin n 0 1, 0) else if n then (.nan, fINV) else (sqrtVal a b, 0)

/-- FADD: a + b. -/
def execFadd (p : Pred) (ft : FTy) (r : Rnd) (sm : FSat) (ta : Target) (s : State) : Out :=
  compute p .n2 [ta] s fun a b _ =>
    let (v, i) := Val.add (decide (r = .rdn)) (fval ft a) (fval ft b)
    floatOut ft r sm v (invIf i)

/-- FSUB: a - b. -/
def execFsub (p : Pred) (ft : FTy) (r : Rnd) (sm : FSat) (ta : Target) (s : State) : Out :=
  compute p .n2 [ta] s fun a b _ =>
    let (v, i) := Val.add (decide (r = .rdn)) (fval ft a) (fval ft b).neg
    floatOut ft r sm v (invIf i)

/-- FMUL: a × b. -/
def execFmul (p : Pred) (ft : FTy) (r : Rnd) (sm : FSat) (ta : Target) (s : State) : Out :=
  compute p .n2 [ta] s fun a b _ =>
    let (v, i) := Val.mul (fval ft a) (fval ft b)
    floatOut ft r sm v (invIf i)

/-- FMA: a × b + c, rounded once. -/
def execFma (p : Pred) (ft : FTy) (r : Rnd) (sm : FSat) (ta : Target) (s : State) : Out :=
  compute p .n3 [ta] s fun a b c =>
    if (fval ft a).isNan || (fval ft b).isNan || (fval ft c).isNan then floatOut ft r sm .nan 0
    else
      let (m, i) := Val.mul (fval ft a) (fval ft b)
      let (v, j) := Val.add (decide (r = .rdn)) m (fval ft c)
      floatOut ft r sm v (invIf (i || j))

/-- FDIV: a ÷ b. -/
def execFdiv (p : Pred) (ft : FTy) (r : Rnd) (sm : FSat) (ta : Target) (s : State) : Out :=
  compute p .n2 [ta] s fun a b _ =>
    let (v, fl) := divVal (fval ft a) (fval ft b)
    floatOut ft r sm v fl

/-- FSQRT: √a. -/
def execFsqrt (p : Pred) (ft : FTy) (r : Rnd) (sm : FSat) (ta : Target) (s : State) : Out :=
  compute p .n1 [ta] s fun a _ _ =>
    let (v, fl) := sqrtOf (fval ft a)
    floatOut ft r sm v fl

/-- A value that is already of the format, as a word; no flag. -/
def exactOut (ft : FTy) (v : Val) : Word := wordOf ((fltOf ft).round (.mode .rne) 0 v).1

/-- FMIN: the smaller, -0 below +0, NaN with any NaN (R256). -/
def execFmin (p : Pred) (ft : FTy) (ta : Target) (s : State) : Out :=
  compute p .n2 [ta] s fun a b _ => (exactOut ft (Val.min (fval ft a) (fval ft b)), 0)

/-- FMAX: the larger, -0 below +0, NaN with any NaN (R256). -/
def execFmax (p : Pred) (ft : FTy) (ta : Target) (s : State) : Out :=
  compute p .n2 [ta] s fun a b _ => (exactOut ft (Val.max (fval ft a) (fval ft b)), 0)

/-- A float condition of two values (R257). -/
def fcondHolds (cc : FCond) (x y : Val) : Bool :=
  let un := x.isNan || y.isNan
  match cc with
  | .eq => !un && x.eqv y
  | .ne => un || !x.eqv y
  | .lt => !un && x.lt y
  | .le => !un && (x.lt y || x.eqv y)
  | .gt => !un && y.lt x
  | .ge => !un && (y.lt x || x.eqv y)
  | .unordered => un
  | .ordered => !un

/-- FCMP (R257). -/
def execFcmp (p : Pred) (ft : FTy) (cc : FCond) (ta : Target) (s : State) : Out :=
  compute p .n2 [ta] s fun a b _ => (wbit (fcondHolds cc (fval ft a) (fval ft b)), 0)

/-- FCVT (R258): from float to integer or float with DIR 0, from integer to float with DIR 1. For an
integer destination SATM 0 acts as 1. Equal float formats return the operand, a NaN canonical. -/
def fcvtOf (ft : FTy) (r : Rnd) (sm : FSat) (o : CvtSide) (dir : Bool) (a : Word) : Word × Nat :=
  match o with
  | .int ty =>
    if dir then floatOut ft r sm (.ofInt (interp ty a)) 0
    else
      let (n, fl) := roundInt ty.width ty.signed (.mode r) 1 (fval ft a)
      (extend64 ty (n : Int), fl)
  | .flt g =>
    let src := if dir then g else ft
    let dst := if dir then ft else g
    if src = dst then
      (if (fval src a).isNan then wordOf (fltOf src).nanPat else wordOf (a.toNat % 2 ^ (fltOf src).width), 0)
    else floatOut dst r sm (fval src a) 0

/-- FCVT. -/
def execFcvt (p : Pred) (ft : FTy) (r : Rnd) (sm : FSat) (o : CvtSide) (dir : Bool) (ta : Target) (s : State) : Out :=
  compute p .n1 [ta] s fun a _ _ => fcvtOf ft r sm o dir a

/-- The class of a value, as a bit number (R259). -/
def classOf (f : Flt) : Val → Nat
  | .nan => 8
  | .inf n => if n then 0 else 7
  | .fin n a b =>
    if a = 0 then (if n then 3 else 4)
    else if a * 2 ^ (f.bias - 1) < b then (if n then 2 else 5)
    else (if n then 1 else 6)

/-- FCLS: a mask of exactly one bit (R259). -/
def execFcls (p : Pred) (ft : FTy) (ta : Target) (s : State) : Out :=
  compute p .n1 [ta] s fun a _ _ => (wordOf (2 ^ classOf (fltOf ft) (fval ft a)), 0)

end Sys2Proof.Machine
end

