-- ==== Sys2Proof/Machine/LaneOps.lean ====
section
/-!
DEFINITION. The lane operations (spec/15_element_ops.md R303-R305; spec/08_numbers.md R154-R157).
-/

namespace Sys2Proof.Machine

namespace ElemIn

/-- Field UNS (R303). -/
def uns (x : ElemIn) : Bool := bitAt x.c.ops.toNat 20
/-- Field CC (R303). -/
def ccode (x : ElemIn) : Nat := field x.c.ops.toNat 19 17
/-- Field ROP (R303). -/
def rop (x : ElemIn) : Nat := field x.c.ops.toNat 16 14
/-- Field SCO (R303). -/
def sco (x : ElemIn) : Bool := bitAt x.c.ops.toNat 13
/-- Format of inputs A and B. -/
def ifm (x : ElemIn) : Nat := x.c.ifmt.toNat
/-- Output format. -/
def ofm (x : ElemIn) : Nat := x.c.ofmt.toNat
/-- Saturation code. -/
def satc (x : ElemIn) : Nat := x.c.satm.toNat
/-- The scale a lane result carries: that of its A token, 0x7F without one (R301). -/
def sclA (x : ElemIn) : Nat := match x.a with | some t => t.scl.toNat | none => 0x7F
/-- The random token of SR (R154). -/
def rand (x : ElemIn) : Nat := match x.cc with | some t => t.data.toNat | none => 0
/-- The rounding of element i of the output. -/
def rnd (x : ElemIn) (i : Nat) : Round := elemRound x.c.rnd.toNat x.rand (fmtCount x.ofm) i

end ElemIn

/-- The value of an element pattern in a lane: integers by UNS, floats at their token's scale (R301, R303). -/
def laneVal (fmt : Nat) (uns : Bool) (scl p : Nat) : Val :=
  if fmtInt fmt then .ofInt (if uns then ((p % 2 ^ fmtBits fmt : Nat) : Int) else signedOf (fmtBits fmt) p)
  else (elemVal fmt p).scaled scl

/-- IMM32 as an element value (R299). -/
def immVal (x : ElemIn) : Val :=
  let fmt := x.ifm
  if fmtInt fmt then laneVal fmt x.uns 0x7F (patternOf (fmtBits fmt) x.imm)
  else elemVal fmt (encodeElem fmt false (.mode .rne) x.satc (Flt.f32.decode x.c.imm.toNat)).1

/-- The values of a token of a format, negated where the word says so. -/
def tokVals (x : ElemIn) (fmt : Nat) (neg : Bool) (t : Token) : List Val :=
  (getElems fmt t.data).1.map fun p => let v := laneVal fmt x.uns t.scl.toNat p; if neg then v.neg else v

/-- The values of input A. -/
def aVals (x : ElemIn) : List Val := match x.a with | some t => tokVals x x.ifm (x.c.na == 1) t | none => []

/-- The values of input B, or for every element the plain value of IMM32 when `SELB` is 0 (R299, R301). -/
def bVals (x : ElemIn) : List Val :=
  match x.b with
  | some t => tokVals x x.ifm (x.c.nb == 1) t
  | none => lrep (fmtCount x.ifm) (immVal x)

/-- The values of input C. -/
def cVals (x : ElemIn) : List Val := match x.cc with | some t => tokVals x x.c.afmt.toNat (x.c.nc == 1) t | none => []

/-- Rounds one result to the output format at the scale of the result (R301, R304). -/
def laneEnc (x : ElemIn) (i : Nat) (v : Val) : Nat × Nat :=
  encodeElem x.ofm x.uns (x.rnd i) x.satc (if fmtInt x.ofm then v else v.unscaled x.sclA)

/-- A lane result: one DATA token of the encoded values on every destination, all inputs consumed. -/
def laneOut (x : ElemIn) (vs : List (Val × Nat)) : Option Fired :=
  let rs := vs.zipIdx.map fun y => (laneEnc x y.2 y.1.1, y.1.2)
  let t : Token := ⟨0, BitVec.ofNat 8 x.sclA, putElems x.ofm (rs.map (·.1.1))⟩
  x.outSt (x.namedOf [0, 1, 2, 3]) (x.everywhere t) x.st (rs.foldl (fun f r => orF f (orF r.1.2 r.2)) 0)

/-- A lane result of element patterns that never round. -/
def laneBits (x : ElemIn) (ps : List Nat) : Option Fired :=
  x.out (x.namedOf [0, 1, 2, 3]) (x.everywhere ⟨0, BitVec.ofNat 8 x.sclA, putElems x.ofm ps⟩)

/-- The frame of a lane operation. -/
def laneOp (f : ElemIn → Option Fired) : ElemFn := ordinary [0, 1, 2, 3] keepState f

/-- An operation on the elements of A. -/
def lane1 (f : Val → Val × Nat) : ElemFn := laneOp fun x => laneOut x ((aVals x).map f)

/-- An operation on the elements of A and B. -/
def lane2 (f : ElemIn → Val → Val → Val × Nat) : ElemFn := laneOp fun x =>
  laneOut x ((aVals x).zipWith (fun a b => f x a b) (bVals x))

/-- Whether the rounding is RDN, which gives an exact zero sum its sign. -/
def ElemIn.rdn (x : ElemIn) : Bool := x.c.rnd.toNat == 2

/-- A value with the flag INV of an invalid operation. -/
def withInv (r : Val × Bool) : Val × Nat := (r.1, invIf r.2)

/-- |v|. -/
def Val.abs : Val → Val
  | .nan => .nan | .inf _ => .inf false | .fin _ a b => .fin false a b

/-- a × b + c, exactly; NaN with any NaN (R156). -/
def fmaVal (rdn : Bool) (a b c : Val) : Val × Nat :=
  if a.isNan || b.isNan || c.isNan then (.nan, 0)
  else
    let (m, i) := Val.mul a b
    let (v, j) := Val.add rdn m c
    (v, invIf (i || j))

/-- VADD: a + b. -/
def fireVadd : ElemFn := lane2 fun x a b => withInv (Val.add x.rdn a b)
/-- VSUB: a - b. -/
def fireVsub : ElemFn := lane2 fun x a b => withInv (Val.add x.rdn a b.neg)
/-- VMUL: a × b. -/
def fireVmul : ElemFn := lane2 fun _ a b => withInv (Val.mul a b)
/-- VMIN: the smaller. -/
def fireVmin : ElemFn := lane2 fun _ a b => (Val.min a b, 0)
/-- VMAX: the larger. -/
def fireVmax : ElemFn := lane2 fun _ a b => (Val.max a b, 0)
/-- VABS: |a|. -/
def fireVabs : ElemFn := lane1 fun a => (a.abs, 0)
/-- VNEG: -a. -/
def fireVneg : ElemFn := lane1 fun a => (a.neg, 0)

/-- VFMA: a × b + c, rounded once. -/
def fireVfma : ElemFn := laneOp fun x =>
  laneOut x (((aVals x).zip (bVals x)).zipWith (fun ab c => fmaVal x.rdn ab.1 ab.2 c) (cVals x))

/-- The 256 bits of input B of a bitwise operation: its token, or IMM32 in every element; for raw, which
has no elements, the spec states no value for IMM32 (log entry 24). -/
def bBits (x : ElemIn) : Nat :=
  match x.b with
  | some t => t.data.toNat
  | none =>
    if x.ifm = 15 then x.free
    else (putElems x.ifm (lrep (fmtCount x.ifm) (patternOf (fmtBits x.ifm) x.imm))).toNat

/-- A bitwise operation over the whole token. -/
def laneBitwise (f : Nat → Nat → Nat) : ElemFn := laneOp fun x =>
  let a := match x.a with | some t => t.data.toNat | none => 0
  x.out (x.namedOf [0, 1, 2, 3]) (x.everywhere ⟨0, BitVec.ofNat 8 x.sclA, BitVec.ofNat 256 (f a (bBits x))⟩)

/-- VAND. -/
def fireVand : ElemFn := laneBitwise Nat.land
/-- VOR. -/
def fireVor : ElemFn := laneBitwise Nat.lor
/-- VXOR. -/
def fireVxor : ElemFn := laneBitwise Nat.xor

/-- An integer value of a lane. -/
def Val.toInt : Val → Int
  | .fin n a b => let q : Int := ((a / b : Nat) : Int); if n then -q else q
  | _ => 0

/-- The shift count of an element: b mod w, or IMM32 mod w (R304). -/
def elemShift (w : Nat) (v : Val) : Nat := patternOf w v.toInt % w

/-- VSHL: a shifted left by n. -/
def fireVshl : ElemFn := lane2 fun x a b => (.ofInt (a.toInt * 2 ^ elemShift (fmtBits x.ifm) b), 0)

/-- A right shift of the w-bit patterns. -/
def laneShift (f : Nat → Nat → Nat → Nat) : ElemFn := laneOp fun x =>
  let w := fmtBits x.ifm
  laneBits x ((aVals x).zipWith (fun a b => f w (patternOf w a.toInt) (elemShift w b)) (bVals x))

/-- VSHR: a shifted right logically by n. -/
def fireVshr : ElemFn := laneShift fun _ p n => p / 2 ^ n
/-- VSAR: a shifted right arithmetically by n; the sign of an unsigned element is plus (log entry 11). -/
def fireVsar : ElemFn := lane2 fun x a b => (.ofInt (a.toInt / 2 ^ elemShift (fmtBits x.ifm) b), 0)

/-- Whether condition CC holds of two element values (R303, R304). -/
def laneCond (x : ElemIn) (a b : Val) : Bool :=
  match FCond.ofCode x.ccode with
  | some c => fcondHolds c a b
  | none => false

/-- VCMP: all ones where a CC b holds. -/
def fireVcmp : ElemFn := laneOp fun x =>
  let w := fmtBits x.ofm
  laneBits x ((aVals x).zipWith (fun a b => if laneCond x a b then 2 ^ w - 1 else 0) (bVals x))

/-- VCLP: min(max(a, lo), hi), with lo = b or -IMM32 and hi = c or IMM32. -/
def fireVclp : ElemFn := laneOp fun x =>
  let n := fmtCount x.ifm
  let lo := match x.b with | some _ => bVals x | none => lrep n (immVal x).neg
  let hi := match x.cc with | some _ => cVals x | none => lrep n (immVal x)
  laneOut x (((aVals x).zip lo).zipWith (fun al h => (Val.min (Val.max al.1 al.2) h, 0)) hi)

/-- k of VSCL; beyond 2,000 in magnitude it changes no rounded result. -/
def sclShift (x : ElemIn) : Int := if x.imm < -2000 then -2000 else if 2000 < x.imm then 2000 else x.imm

/-- VSCL: a × 2^k, or with SCO the scale alone. -/
def fireVscl : ElemFn := laneOp fun x =>
  if x.sco then
    match x.a with
    | none => none
    | some t =>
      let s : Int := (t.scl.toNat : Int) + x.imm
      let s' : Int := if s < 0 then 0 else if 254 < s then 254 else s
      x.outSt (x.namedOf [0, 1, 2, 3]) (x.everywhere { t with scl := BitVec.ofNat 8 s'.toNat }) x.st (if s = s' then 0 else fSAT)
  else laneOut x ((aVals x).map fun a => (a.scale (sclShift x), 0))

/-! ### Reductions (R157, R305) -/

/-- op(u, v) of ROP on two values, with INV where it is invalid. -/
def ropVal (x : ElemIn) (u v : Val) : Val × Nat :=
  let w := fmtBits x.ifm
  let bits (f : Nat → Nat → Nat) : Val × Nat :=
    (laneVal x.ifm x.uns 0x7F (f (patternOf w u.toInt) (patternOf w v.toInt)), 0)
  match x.rop with
  | 0 => withInv (Val.add x.rdn u v)
  | 1 => (Val.min u v, 0)
  | 2 => (Val.max u v, 0)
  | 3 => bits Nat.land
  | 4 => bits Nat.lor
  | _ => bits Nat.xor

/-- op of two element patterns, rounded once to the output format at scale scl. -/
def ropPat (x : ElemIn) (scl i : Nat) (u v : Val) : Nat × Nat :=
  let (r, f) := ropVal x u v
  let (p, g) := encodeElem x.ofm x.uns (x.rnd i) x.satc (if fmtInt x.ofm then r else r.unscaled scl)
  (p, orF f g)

/-- One level of the pairwise tree (R157). -/
def redLevel (x : ElemIn) (scl : Nat) : Nat → List Val → List Val × Nat
  | i, u :: v :: vs =>
    let (p, f) := ropPat x scl i u v
    let (rest, g) := redLevel x scl (i + 1) vs
    (laneVal x.ofm x.uns scl p :: rest, orF f g)
  | _, vs => (vs, 0)

/-- The pairwise tree; fuel is the number of levels. -/
def redTree (x : ElemIn) (scl : Nat) : Nat → List Val → List Val × Nat
  | 0, vs => (vs, 0)
  | n + 1, vs =>
    let (us, f) := redLevel x scl 0 vs
    let (ws, g) := redTree x scl n us
    (ws, orF f g)

/-- VRED: the pairwise reduction of A's elements, in element 0. -/
def fireVred : ElemFn := laneOp fun x =>
  let (vs, f) := redTree x x.sclA (fmtCount x.ifm).log2 (aVals x)
  let (p, g) := match vs with | v :: _ => laneEnc x 0 v | [] => (0, 0)
  x.outSt (x.namedOf [0, 1, 2, 3]) (x.everywhere ⟨0, BitVec.ofNat 8 x.sclA, putElems x.ofm [p]⟩) x.st (orF f g)

/-- The accumulator codes of +∞ and -∞ in a format that has none (R305). -/
def accInf (f : Flt) (neg : Bool) : Nat := 2 ^ f.width + bnat neg

/-- The value an accumulator holds. -/
def accVal (x : ElemIn) (p : Nat) : Val :=
  match fmtFlt x.ofm with
  | some f =>
    if p = accInf f false then .inf false else if p = accInf f true then .inf true else laneVal x.ofm x.uns 0x7F p
  | none => laneVal x.ofm x.uns 0x7F p

/-- The element an accumulator emits; an infinity that the format lacks goes by SATM (R150). -/
def accOut (x : ElemIn) (p : Nat) : Nat :=
  match fmtFlt x.ofm with
  | some f => if 2 ^ f.width ≤ p then (f.round (.mode .rne) x.satc (accVal x p)).1 else p
  | none => p

/-- The identity of ROP as an accumulator (R305). -/
def ropIdent (x : ElemIn) : Nat :=
  let w := fmtBits x.ifm
  match fmtFlt x.ifm with
  | some f =>
    let inf (neg : Bool) : Nat := match f.infPat with | some _ => (f.round (.mode .rne) 0 (.inf neg)).1 | none => accInf f neg
    match x.rop with
    | 1 => inf false
    | 2 => inf true
    | _ => 0
  | none =>
    match x.rop with
    | 1 => if x.uns then 2 ^ w - 1 else 2 ^ (w - 1) - 1
    | 2 => if x.uns then 0 else 2 ^ (w - 1)
    | 3 => 2 ^ w - 1
    | _ => 0

/-- The accumulator before its first token (R305): C's elements, or the identity. -/
def accInit (x : ElemIn) : List Nat × Nat :=
  match x.cc with
  | some t =>
    if t.cls = .data then
      let rs := (cVals x).zipIdx.map fun v => encodeElem x.ofm x.uns (x.rnd v.2) x.satc (if fmtInt x.ofm then v.1 else v.1.unscaled 0x7F)
      (rs.map (·.1), rs.foldl (fun f r => orF f r.2) 0)
    else (lrep (fmtCount x.ifm) (ropIdent x), 0)
  | none => (lrep (fmtCount x.ifm) (ropIdent x), 0)

/-- Marks an accumulator poisoned by the first POISON taken (R366). -/
def ElemSt.taint (st : ElemSt) (t : Token) : ElemSt :=
  match st.poison with
  | some _ => st
  | none => { st with poison := some t }

/-- Whether a STOP at input C, taken at the first firing of a strip, agrees with what the other inputs hold: a STOP of its
own level on all of them, or a POISON. Beside anything else it is a misalignment (R46, R365). -/
def initAligned (x : ElemIn) (m : Meet) : Bool :=
  match x.cc.map (·.stopLevel), m with
  | none, _ => true
  | some 0, _ => true
  | some k, .stop j => k == j
  | some _, .poison _ => true
  | some _, _ => false

/-- VACC (R305): the accumulator in the register bank is empty until the first firing after load and
after each emission. C supplies one token at that firing only. -/
def fireVacc : ElemFn := fun x =>
  let named := x.namedOf [0, 3]
  let first := x.st.regs.isEmpty
  let takeC := first && x.c.selc != 0
  if !x.room [0, 1, 2] || (takeC && x.cc.isNone) then none
  else
    let init := if first then accInit x else (x.st.regs, 0)
    let st0 : ElemSt := { x.st with regs := init.1 }
    let st0 := if takeC then (match firstPoison x.who (x.toks [2]) with | some t => st0.taint t | none => st0) else st0
    let take := if takeC then named ++ [2] else named
    let reset (k : Nat) (st : ElemSt) : ElemSt := if x.closes k then { st with regs := [], poison := none } else st
    let met := meet x named
    if met ≠ .waits ∧ takeC ∧ !initAligned x met then misaligned x take 1 reset
    else match met with
    | .waits => none
    | .poison t => x.outSt take [] (st0.taint t) init.2
    | .stop k =>
      if x.closes k then
        let out := match st0.poison with
          | some t => t
          | none => ⟨0, 0x7F, putElems x.ofm (st0.regs.map (accOut x))⟩
        x.outSt take (x.everywhere out ++ x.everywhere (stopTok k)) (reset k st0) init.2
      else x.outSt take (x.everywhere (stopTok k)) st0 init.2
    | .bad => (misaligned { x with st := st0 } named 1 reset).map fun f => { f with take := take }
    | .null => x.outSt take [] st0 init.2
    | .data =>
      let go := match x.p with | some t => x.c.selp == 0 || x.decision t | none => true
      if go then
        let rs := ((st0.regs.zip (aVals x)).zipIdx).map fun y =>
          ropPat x 0x7F y.2 (accVal x y.1.1) y.1.2
        x.outSt take [] { st0 with regs := rs.map (·.1) } (rs.foldl (fun f r => orF f r.2) init.2)
      else x.outSt take [] st0 init.2

/-! ### Exponential, reciprocal, selection -/

/-- A value between 2^f and the next 320-bit step above it, for a fraction f = n/2^k below 1, by
repeated square roots; it rounds to every format of R143 as 2^f does. -/
def pow2Frac : Nat → Nat → Nat → Nat → Nat
  | 0, _, _, acc => acc
  | k + 1, n, root, acc =>
    let acc := if bitAt n k then acc * root / 2 ^ 320 else acc
    pow2Frac k n (isqrt (root * 2 ^ 320)) acc

/-- 2^v (R304): exact for an integral v; otherwise a value strictly between neighbours of every format,
the exponent held to ±2,000. The fraction is taken to 160 bits, more than a value of R143 has. -/
def exp2Val : Val → Val
  | .nan => .nan
  | .inf n => if n then .fin false 0 1 else .inf false
  | .fin n a b =>
    let q := a / b
    let r := a % b
    let q := if 2000 < q then 2000 else q
    if r = 0 then (if n then .fin false 1 (2 ^ q) else .fin false (2 ^ q) 1)
    else
      let frac := r * 2 ^ 160 / b
      if n && frac == 0 then (Val.fin false (2 ^ 321 - 1) (2 ^ 321)).scale (-(q : Int)) else
      let f := if n then 2 ^ 160 - frac else frac
      let e : Int := if n then -(q : Int) - 1 else q
      let m := pow2Frac 160 f (isqrt (2 * 2 ^ 640)) (2 ^ 320)
      (Val.fin false (2 * m + 1) (2 ^ 321)).scale e

/-- VEX2: 2^a. -/
def fireVex2 : ElemFn := lane1 fun a => (exp2Val a, 0)

/-- 1/a (R304). -/
def recipVal : Val → Val × Nat
  | .nan => (.nan, 0)
  | .inf n => (.fin n 0 1, 0)
  | .fin n a b => if a = 0 then (.inf n, fDVZ) else (.fin n b a, 0)

/-- VRCP: 1/a. -/
def fireVrcp : ElemFn := lane1 recipVal

/-- VSEL: a where bit 0 of c is 1, otherwise b. -/
def fireVsel : ElemFn := laneOp fun x =>
  let cs := match x.cc with | some t => (getElems x.c.afmt.toNat t.data).1 | none => []
  laneOut x (((aVals x).zip (bVals x)).zipWith (fun ab c => (if c % 2 = 1 then ab.1 else ab.2, 0)) cs)

/-- The index VPRM takes for element i (R304); NC negates C's (R301). -/
def permIndex (x : ElemIn) (cs : List Nat) (i : Nat) : Nat :=
  let n := fmtCount x.ifm
  match x.cc with
  | some _ =>
    let c := signedOf (fmtBits x.c.afmt.toNat) (lget cs i 0)
    ((if x.c.nc == 1 then -c else c) % (n : Int)).toNat
  | none => (((i : Int) + x.imm) % (n : Int)).toNat

/-- VPRM: a[idx(i)]. -/
def fireVprm : ElemFn := laneOp fun x =>
  let cs := match x.cc with | some t => (getElems x.c.afmt.toNat t.data).1 | none => []
  let as' := aVals x
  laneOut x ((natRange 0 (fmtCount x.ifm)).map fun i => (lget as' (permIndex x cs i) (.fin false 0 1), 0))

end Sys2Proof.Machine
end

