-- ==== Sys2Proof/Machine/Converters.lean ====
section
/-!
DEFINITION. The converters and the generator (spec/15_element_ops.md R306-R308, R320 WPL;
spec/08_numbers.md R153, R160; R428), and DLY, LREC and ADRN (R320, R321).
-/

namespace Sys2Proof.Machine

/-! ### The side port (R160, R428) -/

/-- Whether an element could hold a rounding and saturation mode at load (R150, R154, R155, R428). -/
def modeOk (x : ElemIn) (rnd satm : Nat) : Bool :=
  decide (rnd ≤ 5) && decide (satm ≤ 2) && (satm != 2 || fmtInt x.ofm) &&
  (rnd != 5 || (decide (fmtCount x.ofm ≤ 64) && x.c.selc != 0))

/-- The element with the modes in force (R160): those of its last side token, else its word's. -/
def ElemIn.withModes (x : ElemIn) : ElemIn :=
  match x.st.side with
  | some m => { x with c := { x.c with rnd := BitVec.ofNat 3 m, satm := BitVec.ofNat 2 (m / 8) } }
  | none => x

/-- What a DATA side token leaves as modes, and the flag FMT when it names a mode that the element could
not hold (R160, R428). -/
def sideModes (x : ElemIn) (d : Nat) : Option Nat × Nat :=
  let y := x.withModes
  let rnd := if bitAt d 6 then y.c.rnd.toNat else field d 3 1
  let satm := if bitAt d 7 then y.c.satm.toNat else field d 5 4
  if d / 256 = 0 ∧ d % 2 = 0 ∧ modeOk x rnd satm then (some (rnd + 8 * satm), 0) else (x.st.side, fFMT)

/-- An operation with a side port (R160): before the work tile's first token it takes one side token, by
itself; a STOP of the stop level or above that the element consumes, on whatever input, ends the work tile
(R365). A side token that is neither DATA nor POISON keeps both modes. That a work tile which
opens with a STOP takes its side token too, and that a STOP on the side port is one, is a DESIGN CHOICE (log entry 128:
R160 speaks of value tokens). -/
def sided (f : ElemFn) : ElemFn := fun x =>
  if x.c.side = 1 ∧ !x.st.sideIn then
    match x.b with
    | none => none
    | some t =>
      let st : ElemSt := { x.st with sideIn := true }
      match t.cls with
      | .data => let (m, fl) := sideModes x t.data.toNat; x.outSt [1] [] { st with side := m } fl
      | .poison => if x.room [0, 1, 2] then x.outSt [1] (x.everywhere t) st 0 else none
      | .reserved => if x.room [0, 1, 2] then x.outSt [1] (x.everywhere (x.who.poison 4 t.kind.toNat)) st 0 else none
      | _ => x.outSt [1] [] st 0
  else
    (f x.withModes).map fun r =>
      if x.c.side = 1 ∧ x.closes (maxStop (x.toks r.take)) then { r with st := { r.st with sideIn := false } } else r

/-! ### Converting groups of tokens (R306, R307) -/

/-- Values of a converter's input tokens: floats at their own scale, integers and trits as they are (R301). -/
def convVals (fmt : Nat) (t : Token) : List Val × Nat :=
  let (ps, fl) := getElems fmt t.data
  (ps.map fun p => if (fmtFlt fmt).isSome then (elemVal fmt p).scaled t.scl.toNat else elemVal fmt p, fl)

/-- Those of the element's own input A, negated where the word says so (R229). -/
def ElemIn.inVals (x : ElemIn) (t : Token) : List Val × Nat :=
  let r := convVals x.ifm t
  (if x.c.na == 1 then r.1.map Val.neg else r.1, r.2)

/-- How a converter chooses the output scale. -/
inductive ScaleBy where
  | fixed (s : Nat)
  | first
  | auto
  deriving DecidableEq, Repr

/-- E of R307. -/
def cvtsE (fmt : Nat) : Int := if fmt = 9 then 8 else if fmt = 10 then 15 else 2

/-- The larger of two magnitudes num/den. -/
def maxMag (x y : Nat × Nat) : Nat × Nat := if x.1 * y.2 < y.1 * x.2 then y else x

/-- The scale CVTS chooses for the elements of one output token (R307). -/
def autoScale (fmt : Nat) (vs : List Val) : Nat :=
  if vs.any fun v => match v with | .inf _ => true | _ => false then 254
  else
    let amax := vs.foldl (fun m v => match v with | .fin _ a b => maxMag m (a, b) | _ => m) (0, 1)
    if amax.1 = 0 then 0x7F
    else
      let s : Int := floorLog2 amax.1 amax.2 - cvtsE fmt + 127
      if s < 0 then 0 else if 254 < s then 254 else s.toNat

/-- Converts the values of one output token, each with the random token of the input token it comes from
(R154, R155). -/
def convToken (x : ElemIn) (by' : ScaleBy) (firstScl : Nat) (isFlt : Bool) (vs : List (Val × Nat)) : Token × Nat :=
  let scl := match by' with | .fixed s => s | .first => firstScl | .auto => autoScale x.ofm (vs.map (·.1))
  let sat := match by' with | .auto => 1 | _ => x.satc
  let scaled (v : Val) : Val := match by' with | .first => if isFlt then v.unscaled scl else v | _ => v.unscaled scl
  let round (rand i : Nat) : Round := elemRound x.c.rnd.toNat rand (fmtCount x.ofm) i
  let rs := vs.zipIdx.map fun v => encodeElem x.ofm false (round v.1.2 v.2) sat (scaled v.1.1)
  (⟨0, BitVec.ofNat 8 scl, putElems x.ofm (rs.map (·.1))⟩, rs.foldl (fun f r => orF f r.2) 0)

/-- Whether a group mixes DATA with NULL, which is a misalignment (R63, R365). -/
def mixedGroup (g : List Token) : Bool :=
  (g.any fun t => decide (t.cls = .null)) && (g.any fun t => decide (t.cls = .data)) &&
    g.all fun t => decide (t.cls = .null) || decide (t.cls = .data)

/-- A complete or closed group of input tokens, with the random token that came with each: the output tokens
and the flags (R63, R154, R306, R307). -/
def convGroup (x : ElemIn) (by' : ScaleBy) (rands : List Nat) (g : List Token) : List Token × Nat :=
  let split := if fmtCount x.ofm < fmtCount x.ifm then fmtCount x.ifm / fmtCount x.ofm else 1
  match firstPoison x.who g with
  | some t => (lrep split t, 0)
  | none =>
    if g.all fun t => decide (t.cls = .null) then (lrep split nullTok, 0)
    else if mixedGroup g then ([x.who.poison 3 3], 0)
    else
      let ds := (g.map x.inVals).zip rands
      let vs := ds.flatMap fun d => d.1.1.map fun v => (v, d.2)
      let per := fmtCount x.ofm
      let vs := vs ++ lrep ((per - vs.length % per) % per) (.fin false 0 1, 0)
      let firstScl := match g with | t :: _ => t.scl.toNat | [] => 0x7F
      let outs := (chunksOf per vs.length vs).map (convToken x by' firstScl (fmtFlt x.ifm).isSome)
      (outs.map (·.1), orF (outs.foldl (fun f r => orF f r.2) 0) (ds.foldl (fun f d => orF f d.1.2) 0))

/-- Tokens on every named destination, in order. -/
def ElemIn.all (x : ElemIn) (ts : List Token) : List (Nat × Token) := ts.flatMap x.everywhere

/-- A converter (R306, R307): input tokens gather in the register bank, each with its random token, until they
fill an output token. A mixed group resets what a STOP of the stop level would (R365). -/
def convFire (by' : ElemIn → ScaleBy) : ElemFn := fun x =>
  let named := x.namedOf [0, 2, 3]
  let g := x.st.toks.map (·.tok)
  let need := if fmtCount x.ifm < fmtCount x.ofm then fmtCount x.ofm / fmtCount x.ifm else 1
  let clear : ElemSt := { x.st with toks := [], regs := [] }
  let done (g : List Token) : ElemSt := if mixedGroup g ∧ 1 ≤ x.level then { clear with sideIn := false } else clear
  let add (t : Token) : Option Fired :=
    if g.length + 1 < need then
      x.outSt named [] { x.st with toks := x.st.toks ++ [⟨t, false, 0⟩], regs := x.st.regs ++ [x.rand] } 0
    else
      let (ts, fl) := convGroup x (by' x) (x.st.regs ++ [x.rand]) (g ++ [t])
      x.outSt named (x.all ts) (done (g ++ [t])) fl
  if !x.room [0, 1, 2] then none
  else match meet x named with
    | .waits => none
    | .poison t => add t
    | .null => add nullTok
    | .bad => misaligned { x with st := clear } named 1 keepState
    | .stop k =>
      if g.isEmpty then x.out named (x.everywhere (stopTok k))
      else
        let (ts, fl) := convGroup x (by' x) x.st.regs g
        x.outSt named (x.all ts ++ x.everywhere (stopTok k)) (done g) fl
    | .data =>
      match x.a with
      | none => none
      | some t =>
        let go := match x.p with | some p => x.c.selp == 0 || x.decision p | none => true
        add (if go then t else nullTok)

/-- The scale rule of CVT (R306): OPS [16] SSO. -/
def cvtScale (x : ElemIn) : ScaleBy := if bitAt x.c.ops.toNat 16 then .first else .fixed (x.c.imm.toNat % 256)

/-- CVT: converts each element from IFMT to OFMT. -/
def fireCvt : ElemFn := sided (convFire cvtScale)
/-- CVTS: converts to a block-scaled format and chooses the scale (R307). -/
def fireCvts : ElemFn := sided (convFire fun _ => .auto)
/-- WPL: converts as CVT does with SSO 1 (R320). -/
def fireWpl : ElemFn := sided (convFire fun _ => .first)

/-! ### RNG (R153, R308) -/

/-- One advance of the generator. -/
def rngAdvance (s : Nat) : Nat :=
  let s := Nat.xor s (s * 2 ^ 13 % 2 ^ 64)
  let s := Nat.xor s (s / 2 ^ 7)
  Nat.xor s (s * 2 ^ 17 % 2 ^ 64)

/-- The seed in a RNG word; zero is replaced (R153, R308). -/
def rngSeed (c : ElemCfg) : Nat :=
  let s := c.ifmt.toNat * 2 ^ 60 + c.afmt.toNat * 2 ^ 56 + c.rnd.toNat * 2 ^ 53 + c.ops.toNat * 2 ^ 32 + c.imm.toNat
  if s = 0 then 0x9E3779B97F4A7C15 else s

/-- RNG: four advances make one raw DATA token. The register is empty until the first firing. -/
def fireRng : ElemFn := fun x =>
  if x.dsts.isEmpty || !x.room [0, 1, 2] then none
  else
    let s0 := match x.st.regs with | s :: _ => s | [] => rngSeed x.c
    let s1 := rngAdvance s0
    let s2 := rngAdvance s1
    let s3 := rngAdvance s2
    let s4 := rngAdvance s3
    x.outSt [] (x.everywhere (dataTok 0x7F (joinBits 64 [s1, s2, s3, s4]))) { x.st with regs := [s4] } 0

/-! ### DLY, LREC, ADRN (R320, R321) -/

/-- The initial token of a DLY: IMM32 in every element of OFMT, by the rule of R299; free data in a format
of which R299 says nothing, free trits in t3, of which no reserved code is ever made (R397; log entry 24). -/
def dlyInitial (x : ElemIn) : Token :=
  let fmt := x.ofm
  let all (p : Nat) : TokData := putElems fmt (lrep (fmtCount fmt) p)
  ⟨0, 0x7F,
    match fmtFlt fmt with
    | some _ => all (encodeElem fmt false (.mode .rne) 0 (Flt.f32.decode x.c.imm.toNat)).1
    | none =>
      if fmtInt fmt then all (patternOf (fmtBits fmt) x.imm)
      else if fmt = 12 then putElems 12 ((natRange 0 160).map fun i => x.free / 3 ^ i % 3)
      else BitVec.ofNat 256 x.free⟩

/-- DLY: register 0 is absent while the initial token is due. A STOP of the stop level or above is taken
and not forwarded. -/
def fireDly : ElemFn := fun x =>
  if !x.room [0, 1, 2] then none
  else if x.st.regs.isEmpty then x.outSt [] (x.everywhere (dlyInitial x)) { x.st with regs := [1] } 0
  else
    let named := x.namedOf [0, 3]
    match meet x named with
    | .stop k => if x.closes k then x.outSt named [] { x.st with regs := [] } 0 else x.out named (x.everywhere (stopTok k))
    | _ => ordinary [0, 3] (fun k st => if x.closes k then { st with regs := [] } else st)
        (fun x => match x.a with | some t => x.out named (x.everywhere t) | none => none) x

/-- The recurrence y[i] = a[i] × y_prev + b[i], each step rounded (R321). -/
def recurrence (x : ElemIn) : Nat → Val → List (Val × Val) → List Nat × Nat
  | _, _, [] => ([], 0)
  | i, y, (a, b) :: rest =>
    let (v, f) := fmaVal x.rdn a y b
    let (p, g) := laneEnc x i v
    let (ps, h) := recurrence x (i + 1) (laneVal x.ofm x.uns x.sclA p) rest
    (p :: ps, orF f (orF g h))

/-- LREC: y on DST0 and the last element in every place of a carry token on DST1. The carry on C gives
way to a STOP (R321). -/
def fireLrec : ElemFn := fun x =>
  ordinary [0, 1, 2, 3] keepState (fun x =>
    let y0 := match x.cc with
      | some t => laneVal x.c.afmt.toNat x.uns t.scl.toNat (lget (getElems x.c.afmt.toNat t.data).1 0 0)
      | none => .fin false 0 1
    let y0 := if x.c.nc == 1 then y0.neg else y0
    let (ps, fl) := recurrence x 0 y0 ((aVals x).zip (bVals x))
    let scl := BitVec.ofNat 8 x.sclA
    let carry := putElems x.ofm (lrep (fmtCount x.ofm) (ps.getLast?.getD 0))
    let outs := [(0, ⟨0, scl, putElems x.ofm ps⟩), (1, ⟨0, scl, carry⟩)]
    x.outSt (x.namedOf [0, 1, 2, 3]) (outs.filter fun o => x.dst o.1 != 0) x.st fl)
    { x with carried := 2 :: x.carried }

/-- ADRN: the first four elements of A, then those of B. -/
def fireAdrn : ElemFn := ordinary [0, 1, 3] keepState fun x =>
  let part (t : Option Token) : List Nat := match t with | some u => (getElems 6 u.data).1.take 4 | none => lrep 4 0
  x.out (x.namedOf [0, 1, 3]) (x.everywhere ⟨0, BitVec.ofNat 8 x.sclA, putElems 6 (part x.a ++ part x.b)⟩)

end Sys2Proof.Machine
end

