-- ==== Sys2Proof/Machine/MatrixOps.lean ====
section
/-!
DEFINITION. MMA and MMAW (spec/15_element_ops.md R317-R319; spec/08_numbers.md R158; R365, R366).
-/

namespace Sys2Proof.Machine

/-! ### Groups (R158, R318) -/

/-- Groups per A token, B tokens per group, rows per B token (R318). -/
def mmaShape (ifmt : Nat) : Nat × Nat × Nat :=
  if ifmt = 11 then (2, 2, 16) else if ifmt = 7 ∨ ifmt = 8 then (4, 1, 4) else (4, 1, 8)

/-- The value of element k of a token, negated where the word says so. -/
def mmaVal (ifmt : Nat) (neg : Bool) (t : Token) (k : Nat) : Val :=
  let v := laneVal ifmt false t.scl.toNat (lget (splitBits (fmtBits ifmt) (fmtCount ifmt) t.data.toNat) k 0)
  if neg then v.neg else v

/-- Adds a product to an exact sum; a sum that starts with its first term keeps the sign of a zero, so
that a sum whose every product is -0 is -0 (R158). -/
def sumTerm (acc : Option Val × Bool) (p : Val × Bool) : Option Val × Bool :=
  match acc.1 with
  | none => (some p.1, p.2 || acc.2)
  | some v => let (w, i) := Val.add false v p.1; (some w, acc.2 || p.2 || i)

/-- The exact sum of column j over the rows of one B token, from A element base on (R318). -/
def mmaColumn (x : ElemIn) (a b : Token) (base rows j : Nat) (acc : Option Val × Bool) : Option Val × Bool :=
  (natRange 0 rows).foldl (fun acc k =>
    sumTerm acc (Val.mul (mmaVal x.ifm (x.c.na == 1) a (base + k)) (mmaVal x.ifm (x.c.nb == 1) b (4 * k + j)))) acc

/-- One group sum added to the strip: D[j] := rne32(D[j] + sg[j]), saturated by SATM (R158, R318). -/
def mmaAdd (x : ElemIn) (a : Token) (bs : List Token) (g : Nat) (d : List Nat) : List Nat × Nat :=
  let (_, per, rows) := mmaShape x.ifm
  let rs := (natRange 0 4).map fun j =>
    let (sg, inv) := (bs.zipIdx).foldl (fun acc b => mmaColumn x a b.1 ((g * per + b.2) * rows) rows j acc) ((none, false) : Option Val × Bool)
    let (v, i) := Val.add false (Flt.f32.decode (lget d j 0)) (sg.getD (.fin false 0 1))
    let (p, f) := Flt.f32.round (.mode .rne) x.satc v
    (p, orF f (invIf (inv || i)))
  (rs.map (·.1), rs.foldl (fun f r => orF f r.2) 0)

/-- The strip before its first group: C's elements, or +0.0 (R318). -/
def stripInit (x : ElemIn) : List Nat × Nat :=
  match x.cc with
  | some t =>
    if t.cls = .data then
      let rs := (natRange 0 4).map fun j =>
        let v := laneVal 6 false t.scl.toNat (lget (getElems 6 t.data).1 j 0)
        Flt.f32.round (.mode .rne) x.satc (if x.c.nc == 1 then v.neg else v)
      (rs.map (·.1), rs.foldl (fun f r => orF f r.2) 0)
    else (lrep 4 0, 0)
  | none => (lrep 4 0, 0)

/-- What a STOP that closes the tile emits on DST2 (R318, R366). -/
def stripOut (st : ElemSt) : Token :=
  match st.poison with
  | some t => t
  | none => ⟨0, 0x7F, putElems 6 (st.regs.drop 1)⟩

/-- A token on a destination, when the word names it. -/
def ElemIn.on (x : ElemIn) (j : Nat) (t : Token) : List (Nat × Token) := if x.dst j = 0 then [] else [(j, t)]

/-- The state a closing STOP leaves: no strip, no poison, group 0. -/
def stripReset (st : ElemSt) : ElemSt := { st with regs := [], toks := [], poison := none }

/-- A token as the lane forwards it (R427). -/
def pzOf (x : ElemIn) (t : Token) : Token := match firstPoison x.who [t] with | some q => q | none => t

/-- The firing on which a data input is NULL, or the predicate is false: NULL on every destination and no register
changed, but that an A token which is given up leaves its place at 0 (R45, R300, R318). C is not taken for a NULL
elsewhere, and a NULL on C is taken with the tokens beside it (log entry 49). -/
def nullFiring (x : ElemIn) (take : List Nat) (rest : ElemSt) : Option Fired := x.outSt take (x.everywhere nullTok) rest 0

/-- MMA (R318). Registers: the place in the A token, counted in B tokens, then D; empty before the first
firing of a strip. Held tokens: the first half of an e2m1 group. POISON on A or B marks the strip and
moves on as the token it stands for; beside a STOP the POISON takes its place on the way (R46, R366). -/
def fireMma : ElemFn := fun x =>
  let named := x.namedOf [0, 1, 3]
  let (groups, per, _) := mmaShape x.ifm
  let first := x.st.regs.isEmpty
  let takeC := first && x.c.selc != 0
  let (init, fl) := if first then stripInit x else (x.st.regs.drop 1, 0)
  let place := x.st.reg 0
  let take (ins : List Nat) : List Nat := if takeC then 2 :: ins else ins
  let st0 : ElemSt := { x.st with regs := place :: init }
  let st0 := if takeC then (match firstPoison x.who (x.toks [2]) with | some t => st0.taint t | none => st0) else st0
  if !x.room [0, 1, 2] || !x.have' named || (takeC && x.cc.isNone) then none
  else
    match x.a, x.b with
    | some a, some b =>
      let met := meet x named
      let k := maxStop (x.toks named)
      let reset (j : Nat) (st : ElemSt) : ElemSt := if x.closes j then stripReset st else { st with regs := st.regs.set 0 0, toks := [] }
      if takeC ∧ !initAligned x met then misaligned x (take named) 1 reset else
      let bad := firstPoison x.who (x.toks named)
      if k ≠ 0 then
        match bad with
        | some t =>
          x.outSt (take named) (x.on 0 t ++ x.on 1 t) { (st0.taint t) with regs := st0.regs.set 0 0, toks := [] } fl
        | none =>
          if met = .stop k && place == 0 then
            if x.closes k then
              x.outSt (take named) (x.on 2 (stripOut st0) ++ x.everywhere (stopTok k)) (stripReset st0) fl
            else x.out (if takeC && (x.cc.map (·.stopLevel)) == some k then take named else named) (x.everywhere (stopTok k))
          else misaligned x named (if (a.stopLevel == 0) != (b.stopLevel == 0) || place != 0 then 4 else 1) reset
      else
        let isNull := (x.toks named).any fun t => decide (t.cls = .null)
        let go := match x.p with | some p => x.c.selp == 0 || x.decision p | none => true
        let spent : ElemSt := if place = 0 then x.st else { x.st with regs := x.st.regs.set 0 0, toks := [] }
        if bad.isNone && (isNull || !go) then nullFiring x named spent
        else if bad.isNone && takeC && (x.cc.map (·.cls)) == some .null then nullFiring x (take named) spent
        else
          let lastB := place + 1 == groups * per
          let halves := st0.toks.map (·.tok) ++ [b]
          let fwd := x.on 1 (pzOf x b) ++ (if lastB then x.on 0 (pzOf x a) else [])
          let ins := if lastB then named else named.filter (· != 0)
          let next := if lastB then 0 else place + 1
          match bad with
          | some t => x.outSt (take ins) fwd { (st0.taint t) with regs := st0.regs.set 0 next, toks := [] } fl
          | none =>
            if halves.length < per then
              x.outSt (take ins) fwd { st0 with regs := st0.regs.set 0 next, toks := [⟨b, false, 0⟩] } fl
            else
              let (d, f) := mmaAdd x a halves (place / per) init
              x.outSt (take ins) fwd { st0 with regs := next :: d, toks := [] } (orF fl f)
    | _, _ => none

/-! ### MMAW (R319) -/

/-- The register bank of an MMAW: place in the A token, whether the latch must be loaded, whether a load
is open on B, whether this lane takes from it, whether the strip is set, and D. -/
structure Mmaw where
  place  : Nat
  want   : Bool
  loadOn : Bool
  taking : Bool
  strip  : Option (List Nat)
  deriving DecidableEq, Repr

/-- Reads the bank; after load the latch must be loaded and no strip is set. -/
def mmawOf (st : ElemSt) : Mmaw :=
  if st.regs.isEmpty then ⟨0, true, false, false, none⟩
  else ⟨st.reg 0, st.reg 1 == 1, st.reg 2 == 1, st.reg 3 == 1, if st.reg 4 = 1 then some (st.regs.drop 5) else none⟩

/-- Writes the bank. -/
def Mmaw.put (m : Mmaw) (st : ElemSt) : ElemSt :=
  { st with regs := [m.place, bnat m.want, bnat m.loadOn, bnat m.taking, bnat m.strip.isSome] ++ m.strip.getD [] }

/-- Field BRL of OPS (R319). -/
def ElemIn.brl (x : ElemIn) : Bool := bitAt x.c.ops.toNat 0

/-- A firing on B: a load fills the latch with its first four DATA tokens, and the rest of it, its STOP
included, goes on south (R319; log entry 27). A NULL that a load takes gives NULL on every destination and
fills nothing (R45). -/
def mmawB (x : ElemIn) (m : Mmaw) : Option Fired :=
  match x.b with
  | none => none
  | some b =>
    let latch := x.st.toks
    let fwd (m : Mmaw) (st : ElemSt) : Option Fired :=
      if x.room [1] then x.outSt [1] (x.on 1 (pzOf x b)) (m.put st) 0 else none
    if b.stopLevel ≠ 0 then fwd { m with loadOn := false, taking := false } x.st
    else
      let start := !m.loadOn
      if start && !m.want && x.brl then none
      else
        let m := if start then { m with loadOn := true, taking := m.want } else m
        let latch := if start && m.want then [] else latch
        let st : ElemSt := { x.st with toks := latch }
        if m.taking && decide (latch.length < 4) then
          match b.cls with
          | .data =>
            let latch := latch ++ [⟨b, false, 0⟩]
            x.outSt [1] [] (({ m with want := decide (latch.length < 4) }).put { x.st with toks := latch }) 0
          | .null => if x.room [0, 1, 2] then x.out [1] (x.everywhere nullTok) else none
          | _ => fwd m (st.taint (pzOf x b))
        else fwd m st

/-- A firing on A, once the latch is full (R319). -/
def mmawA (x : ElemIn) (m : Mmaw) : Option Fired :=
  let named := x.namedOf [0, 3]
  let takeC := m.strip.isNone && x.c.selc != 0
  if m.want || !x.room [0, 2] || !x.have' named || (takeC && x.cc.isNone) then none
  else
    let (d, fl) := match m.strip with | some d => (d, 0) | none => stripInit x
    let st0 := if takeC then (match firstPoison x.who (x.toks [2]) with | some t => x.st.taint t | none => x.st) else x.st
    let take (ins : List Nat) : List Nat := if takeC then 2 :: ins else ins
    let out2 (t : Token) : List (Nat × Token) := x.on 0 t ++ x.on 2 t
    let m1 : Mmaw := { m with strip := some d }
    let met := meet x named
    let reset (j : Nat) (st : ElemSt) : ElemSt :=
      if x.closes j then ({ m with place := 0, strip := none, want := x.brl }).put { st with poison := none }
      else ({ m with place := 0 }).put st
    let spent : ElemSt := if m.place = 0 then x.st else ({ m with place := 0 }).put x.st
    if takeC ∧ !initAligned x met then (if x.room [1] then misaligned x (take named) 1 reset else none)
    else match met with
    | .waits => none
    | .poison t => x.outSt (take named) (x.on 0 t) (({ m1 with place := 0 }).put (st0.taint t)) fl
    | .stop k =>
      if x.closes k then
        let res := match st0.poison with | some t => t | none => ⟨0, 0x7F, putElems 6 d⟩
        let m2 : Mmaw := { m with place := 0, strip := none, want := x.brl }
        x.outSt (take named) (x.on 2 res ++ out2 (stopTok k)) (m2.put { st0 with poison := none }) fl
      else x.out (if takeC && (x.cc.map (·.stopLevel)) == some k then take named else named) (out2 (stopTok k))
    | .bad =>
      if x.room [1] then misaligned x named (if m.place != 0 then 4 else 1) reset else none
    | .null => if x.room [1] then nullFiring x named spent else none
    | .data =>
      match x.a with
      | none => none
      | some a =>
        let go := match x.p with | some p => x.c.selp == 0 || x.decision p | none => true
        if !go then (if x.room [1] then nullFiring x named spent else none)
        else if takeC ∧ (x.cc.map (·.cls)) = some .null then (if x.room [1] then nullFiring x (take named) spent else none)
        else
          let (groups, per, _) := mmaShape x.ifm
          let bs := ((x.st.toks.map (·.tok)).drop (m.place * per)).take per
          let (d', f) := mmaAdd x a bs m.place d
          let last := m.place + 1 == groups
          let m2 : Mmaw := { m with place := if last then 0 else m.place + 1, strip := some d' }
          x.outSt (take (if last then named else named.filter (· != 0))) (if last then x.on 0 a else []) (m2.put st0) (orF fl f)

/-- MMAW: B's load goes first; otherwise one group of the A token is multiplied with the latch. -/
def fireMmaw : ElemFn := fun x =>
  match mmawB x (mmawOf x.st) with
  | some r => some r
  | none => mmawA x (mmawOf x.st)

end Sys2Proof.Machine
end

