-- ==== Sys2Proof/Machine/OnlineOps.lean ====
section
/-!
DEFINITION. The online digit operations (spec/15_element_ops.md R309-R311; spec/08_numbers.md R148,
R161, R162; R429).
-/

namespace Sys2Proof.Machine

/-! ### Digit streams (R148) -/

/-- The digits of an sd token up to its end marker, and whether it holds one. -/
def digitsGo : Nat → Nat → List Int × Bool
  | 0, _ => ([], false)
  | n + 1, v =>
    match v % 4 with
    | 2 => ([], true)
    | d =>
      let (ds, e) := digitsGo n (v / 4)
      ((if d = 0 then 0 else if d = 1 then 1 else -1) :: ds, e)

/-- The digits of one token. -/
def tokDigits (t : Token) : List Int × Bool := digitsGo 128 t.data.toNat

/-- An operand as far as its tokens have been consumed: digits, whether it has ended, and its scale. -/
structure Operand where
  digits : List Int
  ended  : Bool
  scl    : Nat
  deriving DecidableEq, Repr

/-- The operand that the held tokens of input i make up (the fold position of a held token is its
input). -/
def operandOf (st : ElemSt) (i : Nat) : Operand :=
  let ts := (st.toks.filter fun t => t.fold == i).map (·.tok)
  ts.foldl (fun o t => let (ds, e) := tokDigits t; { o with digits := o.digits ++ ds, ended := e })
    ⟨[], false, match ts with | t :: _ => t.scl.toNat | [] => 0x7F⟩

/-- An operand shifted right by n digits (R310). -/
def Operand.shift (o : Operand) (n : Nat) : Operand := { o with digits := lrep n 0 ++ o.digits }

/-- Digit k of an operand: 0 after its end marker, none when it has not come. -/
def Operand.at (o : Operand) (k : Nat) : Option Int :=
  if k < o.digits.length then some (lget o.digits k 0) else if o.ended then some 0 else none

/-- Whether the end marker lies among the first n places. -/
def Operand.endedBy (o : Operand) (n : Nat) : Bool := o.ended && decide (o.digits.length < n)

/-- The code of a digit (R148). -/
def digitCode (d : Int) : Nat := if d = 0 then 0 else if d = 1 then 1 else 3

/-- The sd token of up to 128 digit codes. -/
def sdToken (scl : Nat) (codes : List Nat) : Token := ⟨0, BitVec.ofNat 8 scl, BitVec.ofNat 256 (joinBits 2 codes)⟩

/-- Cuts a list of digit codes into tokens of 128. -/
def sdTokens (scl : Nat) (codes : List Nat) : List Token := (chunksOf 128 codes.length codes).map (sdToken scl)

/-! ### The engine of OADD and OMLC (R309) -/

/-- The unit in which the engine holds P and Y: 2^-5000. -/
def onK : Nat := 5000

/-- The exact value of digit k of the operands, in units of 2^-5000 and of the output scale: each
operand's digit times its coefficient, divided by 2^s. -/
def digitPart (ops : List (Operand × Int)) (s : Int) (k : Nat) : Option Int :=
  ops.foldl (fun acc o =>
    match acc, o.1.at k with
    | some v, some d => some (v + d * o.2 * 2 ^ ((onK : Int) - (k + 1) - s).toNat)
    | _, _ => none) (some 0)

/-- What the engine has put out: digit codes, whether the number is complete, whether it was cut (R429). -/
structure Emitted where
  codes : List Nat
  done  : Bool
  cut   : Bool
  deriving DecidableEq, Repr

/-- Steps j, j+1, ... of the engine (R309) on P (digits 0 to j + 1 summed) and Y; fuel is what is left of
4,096 digits. -/
def engineGo (ops : List (Operand × Int)) (s : Int) : Nat → Nat → Int → Int → Emitted
  | 0, _, _, _ => ⟨[2], true, true⟩
  | fuel + 1, j, p, y =>
    match digitPart ops s (j + 2) with
    | none => ⟨[], false, false⟩
    | some d =>
      let p := p + d
      let e := (p - y) * 2 ^ (j + 2)
      let u : Int := 2 ^ onK
      let z : Int := if u < e then 1 else if e < -u then -1 else 0
      let y := y + z * 2 ^ (onK - (j + 1))
      if ops.all (fun o => o.1.endedBy (j + 3)) && p == y then ⟨[digitCode z, 2], true, false⟩
      else
        let r := engineGo ops s fuel (j + 1) p y
        { r with codes := digitCode z :: r.codes }

/-- The output digits that the consumed operand digits determine. -/
def engineRun (ops : List (Operand × Int)) (s : Int) : Emitted :=
  match digitPart ops s 0, digitPart ops s 1 with
  | some a, some b => engineGo ops s 4096 0 (a + b) 0
  | _, _ => ⟨[], false, false⟩

/-! ### The frame of an online operation -/

/-- Register 0 of an online operation: 0 between numbers, 1 inside, 2 when it only consumes what is left
of the operands. Register 1 counts the output tokens emitted. -/
def onMode (st : ElemSt) : Nat := st.reg 0

/-- The operands whose number has not ended. -/
def openInputs (st : ElemSt) (ins : List Nat) : List Nat := ins.filter fun i => !(operandOf st i).ended

/-- Takes the waiting tokens of the open operands into the register bank. -/
def takeDigits (x : ElemIn) (ins : List Nat) : List Nat × ElemSt :=
  let ready := (openInputs x.st ins).filter fun i => (x.tok i).isSome
  (ready, { x.st with toks := x.st.toks ++ ready.filterMap fun i => (x.tok i).map fun t => ⟨t, false, i⟩ })

/-- What an operation makes of its operands: the output tokens fixed so far, whether the output is
complete, and the flags its completion sets. -/
structure OnOut where
  toks  : List Token
  done  : Bool
  flags : Nat
  deriving DecidableEq, Repr

/-- The frame: numbers start together on the named inputs; inside a number each open operand is consumed
as it arrives, and the output tokens that are complete go out. A NULL inside a number gives NULL on every
destination and leaves the number as it is (R45). A STOP inside a number is a misalignment (log entry 27). -/
def online (ins : List Nat) (f : ElemIn → ElemSt → OnOut) : ElemFn := fun x =>
  let idle : ElemSt := { x.st with toks := [], regs := [0, 0] }
  let named := x.namedOf (ins ++ [3])
  let run (take : List Nat) (st : ElemSt) (mode sent : Nat) : Option Fired :=
    let allEnded := ins.all fun i => (operandOf st i).ended
    if mode = 2 then x.outSt take [] (if allEnded then idle else { st with regs := [2, 0] }) 0
    else
      let o := f x st
      let fresh := o.toks.drop sent
      let st := { st with regs := [if o.done then 2 else 1, o.toks.length] }
      x.outSt take (x.all fresh) (if o.done && allEnded then idle else st) (if o.done then o.flags else 0)
  if !x.room [0, 1, 2] then none
  else if onMode x.st = 0 then
    match meet x named with
    | .waits => none
    | .poison t => x.out named (x.everywhere t)
    | .stop k => x.out named (x.everywhere (stopTok k))
    | .bad => misaligned x named 1 keepState
    | .null => x.out named (x.everywhere nullTok)
    | .data =>
      let st : ElemSt := { x.st with toks := x.st.toks ++ ins.filterMap fun i => (x.tok i).map fun t => ⟨t, false, i⟩ }
      let go := match x.p with | some p => x.c.selp == 0 || x.decision p | none => true
      if go then run named st 1 0
      else
        let allEnded := ins.all fun i => (operandOf st i).ended
        x.outSt named (x.everywhere nullTok) (if allEnded then idle else { st with regs := [2, 0] }) 0
  else
    let (ready, st) := takeDigits x ins
    if ready.isEmpty then none
    else match firstPoison x.who (x.toks ready) with
      | some t => x.outSt ready (x.everywhere t) idle 0
      | none =>
        let nulls := ready.filter fun i => (x.tok i).any fun t => decide (t.cls = .null)
        if !nulls.isEmpty then x.out nulls (x.everywhere nullTok)
        else if (x.toks ready).all fun t => decide (t.cls = .data) then run ready st (onMode x.st) (x.st.reg 1)
        else misaligned { x with st := idle } ready 1 keepState

/-- An output of the engine as tokens: only complete tokens until the number is complete (R148). -/
def engineOut (scl : Nat) (sat : Bool) (e : Emitted) : OnOut :=
  let codes := if e.done then e.codes else e.codes.take (e.codes.length / 128 * 128)
  ⟨sdTokens scl codes, e.done, orF (if sat then fSAT else 0) (if e.cut then fNX else 0)⟩

/-- The output scale, held at 254 (R310). -/
def sclClamp (s : Nat) : Nat × Bool := if 254 < s then (254, true) else (s, false)

/-- The two operands aligned at the larger scale, and that scale (R310). -/
def aligned (st : ElemSt) : Operand × Operand × Nat :=
  let a := operandOf st 0
  let b := operandOf st 1
  let m := Nat.max a.scl b.scl
  (a.shift (m - a.scl), b.shift (m - b.scl), m)

/-- OADD: P = a + b. -/
def fireOadd : ElemFn := online [0, 1] fun _ st =>
  let (a, b, m) := aligned st
  let (s, sat) := sclClamp (m + 2)
  engineOut s sat (engineRun [(a, 1), (b, 1)] ((s : Int) - m))

/-- ⌈log2 |c|⌉ of a coefficient that is not 0. -/
def ceilLog2 (n : Nat) : Nat := if n ≤ 1 then 0 else (n - 1).log2 + 1

/-- OMLC: P = c × a. -/
def fireOmlc : ElemFn := online [0] fun x st =>
  let a := operandOf st 0
  let c := signedOf 16 x.c.imm.toNat
  let (s, sat) := sclClamp (a.scl + ceilLog2 c.natAbs + 1)
  engineOut s sat (engineRun [(a, c)] ((s : Int) - a.scl))

/-- The comparison of two digit streams (R162): the outcome at the first digit at which the prefixes
differ by more than 2 × 2^-(j+1), and at the end the exact one; none while it is open. -/
def compareGo (a b : Operand) : Nat → Nat → Int → Option Int
  | 0, _, _ => none
  | fuel + 1, j, diff =>
    match a.at j, b.at j with
    | some x, some y =>
      -- diff counts units of 2^-(j+1)
      let d := 2 * diff + (x - y)
      if 2 < d then some 1
      else if d < -2 then some (-1)
      else if a.endedBy (j + 1) && b.endedBy (j + 1) then some (if 0 < d then 1 else if d < 0 then -1 else 0)
      else compareGo a b fuel (j + 1) d
    | _, _ => none

/-- OCMP: one s32x1 token of -1, 0 or +1. -/
def fireOcmp : ElemFn := online [0, 1] fun _ st =>
  let (a, b, _) := aligned st
  match compareGo a b (a.digits.length + b.digits.length + 2) 0 0 with
  | some r => ⟨[dataTok 0x7F (patternOf 32 r)], true, 0⟩
  | none => ⟨[], false, 0⟩

/-! ### SDE and SDD (R310, R311) -/

/-- The digits of q and the end marker (R311). -/
def sdeCodes (n : Nat) (neg : Bool) (m : Nat) : List Nat :=
  ((natRange 0 n).map fun j => if bitAt m (n - 1 - j) then (if neg then 3 else 1) else 0) ++ [2]

/-- q of R311: sign, magnitude and flags. A NaN gives 0 and an infinity the end of the range, with INV, as
for an integer destination (R150). -/
def sdeRound (r : Round) (n : Nat) (v : Val) : Bool × Nat × Nat :=
  let top := 2 ^ n - 1
  match v with
  | .nan => (false, 0, fINV)
  | .inf s => (s, top, fINV)
  | .fin s a b =>
    let (q, inexact) := roundNat r s a b
    if top < q then (s, top, orF fSAT fNX) else (s, q, if inexact then fNX else 0)

/-- SDE: one sd token for each element of A, in element order. -/
def fireSde : ElemFn := sided (ordinary [0, 2, 3] keepState fun x =>
  match x.a with
  | none => none
  | some t =>
    let n := x.c.ops.toNat % 128
    let scl := x.c.imm.toNat % 256
    let (vs, fl) := x.inVals t
    let rs := vs.map fun v => sdeRound (x.rnd 0) n ((v.unscaled scl).scale n)
    x.outSt (x.namedOf [0, 2, 3]) (x.all (rs.map fun r => sdToken scl (sdeCodes n r.1 r.2.1))) x.st
      (rs.foldl (fun f r => orF f r.2.2) fl))

/-- The exact value of a complete number (R148). -/
def operandVal (o : Operand) : Val :=
  let n := o.digits.length
  let q : Int := o.digits.foldl (fun v d => 2 * v + d) 0
  Val.scaled o.scl (.fin (decide (q < 0)) q.natAbs (2 ^ n))

/-- SDD: each number becomes one element; elements gather into tokens of OFMT. The register bank holds
the tokens of the open number, and the elements in its registers. -/
def fireSdd : ElemFn := sided fun x =>
  let named := x.namedOf [0, 2, 3]
  let per := fmtCount x.ofm
  let pack (ps : List Nat) : Token := ⟨0, 0x7F, putElems x.ofm ps⟩
  let fresh : ElemSt := { x.st with toks := [], regs := [] }
  if !x.room [0, 1, 2] then none
  else match meet x named with
    | .waits => none
    | .poison t => x.outSt named (x.everywhere t) { x.st with toks := [] } 0
    | .null => x.out named (x.everywhere nullTok)
    | .bad => misaligned { x with st := fresh } named 1 keepState
    | .stop k =>
      if x.st.toks.isEmpty then
        let out := if x.st.regs.isEmpty then [] else x.everywhere (pack x.st.regs)
        x.outSt named (out ++ x.everywhere (stopTok k)) fresh 0
      else misaligned { x with st := fresh } named 1 keepState
    | .data =>
      match x.a with
      | none => none
      | some t =>
        let go := match x.p with | some p => x.c.selp == 0 || x.decision p | none => true
        if !go then x.out named (x.everywhere nullTok)
        else
          let st : ElemSt := { x.st with toks := x.st.toks ++ [⟨t, false, 0⟩] }
          let o := operandOf st 0
          if !o.ended then x.outSt named [] st 0
          else
            let (p, fl) := encodeElem x.ofm false (x.rnd x.st.regs.length) x.satc (operandVal o)
            let ps := x.st.regs ++ [p]
            if ps.length < per then x.outSt named [] { st with toks := [], regs := ps } fl
            else x.outSt named (x.everywhere (pack ps)) fresh fl

end Sys2Proof.Machine
end

