-- ==== Sys2Proof/Machine/FolioOps.lean ====
section
/-!
DEFINITION. Folio images and nodes (spec/06_weight_graphs.md R121-R127): the fields of a node entry, and
the firing of SHA, SUM4, TAP and NRW.
-/

namespace Sys2Proof.Machine

/-! ### Node entries (R126) -/

/-- Bits hi down to lo of the lower 44 bits of a node entry. -/
def nodeFld (n : FolioNode) (hi lo : Nat) : Nat := field n.rest.toNat hi lo

/-- No source (R126). -/
def noSource : Nat := 0xFFF

/-- The source references of a node entry in input order, absent ones left out: input and reference. -/
def entrySources (w : Nat) : List (Nat × Nat) :=
  let refs : List (Nat × Nat) :=
    match field w 63 60 with
    | 0 => [(0, field w 55 44), (1, field w 43 32)]
    | 1 => [(0, field w 55 44), (1, field w 43 32), (2, field w 31 20), (3, field w 19 8)]
    | _ => [(0, field w 55 44)]
  refs.filter fun r => r.2 != noSource

/-- Whether a source reference names an input port, and its number (R126). -/
def refPort (r : Nat) : Option Nat := if bitAt r 11 then some (r % 16) else none

/-- Elements of a value by the mode of the Folio (R121). -/
def folioElems (mode : Nat) : Nat := if mode = 0 then 16 else 8

/-- Bits of an input or output element by the mode (R121, R123). -/
def folioBits (mode : Nat) : Nat := if mode = 0 then 16 else 32

/-- Mode of a loaded Folio, from its header word 0 (R125). -/
def Folio.mode (f : Folio) : Nat := field (lget f.hdr 0 0).toNat 40 40

/-! ### Firing -/

/-- What a node sees: its entry, its inputs as an element's, the mode, and the exact values at the inputs
that hold DATA. -/
structure NodeIn where
  n    : FolioNode
  x    : ElemIn
  ins  : List Nat
  mode : Nat
  vals : List (List Int)
  /-- the output register, or for NRW the destination of the port, is free (R124) -/
  room : Bool
  deriving DecidableEq, Repr

/-- What one node operation does. -/
abbrev NodeFn := NodeIn → Option Fired

/-- Bits hi down to lo of the node's entry. -/
def NodeIn.fld (v : NodeIn) (hi lo : Nat) : Nat := nodeFld v.n hi lo

/-- The values at input i. -/
def NodeIn.val (v : NodeIn) (i : Nat) : List Int := lget v.vals i []

/-- Element j of input i, 0 where there is none. -/
def NodeIn.el (v : NodeIn) (i j : Nat) : Int := lget (v.val i) j 0

/-- The output register of a node: the 40-bit patterns of its value (R121, R124). -/
def outReg (ys : List Int) : List Nat := ys.map (patternOf 40)

/-- The frame of a node (R124): it fires under R47, and NULL, STOP and POISON go as R44 to R46 give. On
DATA, `f` gives the register bank and the token. -/
def node (reset : Nat → ElemSt → ElemSt) (f : NodeIn → Fired) : NodeFn := fun v =>
  if !v.room then none
  else match meet v.x v.ins with
    | .waits => none
    | .poison t => some ⟨v.ins, [(0, t)], v.x.st, 0, false⟩
    | .stop k => some ⟨v.ins, [(0, stopTok k)], reset k v.x.st, 0, false⟩
    | .bad =>
      let k := maxStop (v.x.toks v.ins)
      some ⟨v.ins, [(0, v.x.who.poison 3 1)], reset k v.x.st, 0, false⟩
    | .null => some ⟨v.ins, [(0, nullTok)], v.x.st, 0, false⟩
    | .data => some (f v)

/-- A node that leaves its value in its output register. -/
def valueNode (f : NodeIn → Nat → Int) : NodeFn := node keepState fun v =>
  ⟨v.ins, [(0, dataTok 0x7F 0)], { v.x.st with regs := outReg ((natRange 0 (folioElems v.mode)).map (f v)) }, 0, false⟩

/-- A shifted and signed operand of SHA. -/
def shaTerm (a : Int) (s : Nat) (neg : Bool) : Int := let y := a * 2 ^ s; if neg then -y else y

/-- SHA: (-1)^NA (a ≪ s) + (-1)^NB (b ≪ t); without b the first term alone. -/
def nodeSha : NodeFn := valueNode fun v j =>
  shaTerm (v.el 0 j) (v.fld 31 27) (v.fld 21 21 == 1) +
  (if v.ins.contains 1 then shaTerm (v.el 1 j) (v.fld 26 22) (v.fld 20 20 == 1) else 0)

/-- SUM4: the sum of its sources. -/
def nodeSum4 : NodeFn := valueNode fun v j =>
  (v.ins.map fun i => v.el i j).foldl (· + ·) 0

/-- The delay line of a TAP: its registers after the output register; zeros after load (R122). -/
def tapLine (v : NodeIn) (d : Nat) : List Nat :=
  let l := v.x.st.regs.drop (folioElems v.mode)
  if l.isEmpty then lrep d 0 else l

/-- TAP: the element d stream positions back; any STOP resets the line (R122). -/
def nodeTap : NodeFn := node (fun _ st => { st with regs := [] }) fun v =>
  let d := v.fld 38 32
  let all := tapLine v d ++ outReg (v.val 0)
  let n := folioElems v.mode
  ⟨v.ins, [(0, dataTok 0x7F 0)], { v.x.st with regs := all.take n ++ all.drop n }, 0, false⟩

/-- One element of NRW: sat(round(a / 2^K)) and its flags (R121, R123). -/
def narrow (mode k : Nat) (r : Round) (a : Int) : Nat × Nat :=
  roundInt (folioBits mode) true r 0 ((Val.ofInt a).scale (-(k : Int)))

/-- NRW: rounds and narrows to the output format; the first rounding or clamp of an element sets the
context's flags, and a clamp its SAT bit. Its token has the SCL 0x7F, which is what R301 gives a result that has no A input
(DESIGN CHOICE, log entry 127: no rule of the Folio names one). -/
def nodeNrw : NodeFn := node keepState fun v =>
  let r : Round := .mode ((Rnd.ofCode (v.fld 37 35)).getD .rne)
  let rs := ((v.val 0).take (folioElems v.mode)).map (narrow v.mode (v.fld 43 38) r)
  let fl := rs.foldl (fun f x => orF f x.2) 0
  ⟨v.ins, [(0, ⟨0, 0x7F, BitVec.ofNat 256 (joinBits (folioBits v.mode) (rs.map (·.1)))⟩)],
    { v.x.st with regs := outReg (rs.map fun r => signedOf (folioBits v.mode) r.1) }, fl, bitAt fl 5⟩

end Sys2Proof.Machine
end

