-- ==== Sys2Proof/Machine/Geometry.lean ====
section
/-!
DEFINITION. Which wires join the elements of a context (spec/03_fabric.md R56, R57; spec/12_encodings.md R230, R231;
R317, R323, R326, R336, R349), and the edges at which dies meet (R9, R11, R13).
-/

namespace Sys2Proof.Machine

/-- The neighbour of a grid tile on side d (0 N, 1 E, 2 S, 3 W), on the same die (R373). -/
def gridNeigh (t d : Nat) : Option Nat :=
  let col := t % 64
  let row := t / 64 % 64
  match d with
  | 0 => if row = 0 then none else some (t - 64)
  | 1 => if col = 63 then none else some (t + 1)
  | 2 => if row = 63 then none else some (t + 64)
  | _ => if col = 0 then none else some (t - 1)

/-! ### P-tiles and the edges at which dies meet (R9, R11, R13) -/

/-- The edge a P-tile stands on, 0 N, 1 E, 2 S, 3 W (R9). -/
def ptileEdge (p : Nat) : Nat := p % 256 / 64

/-- The grid tile that a P-tile, as die * 256 + number, faces (R11). -/
def ptileFaces (p : Nat) : Nat :=
  let i := p % 64
  p / 256 * 4096 + (match ptileEdge p with
    | 0 => i
    | 1 => i * 64 + 63
    | 2 => 63 * 64 + (63 - i)
    | _ => (63 - i) * 64)

/-- The P-tile that a grid tile faces on side d; none inside the grid (R11). A corner tile faces two. -/
def ptileOf (t d : Nat) : Option Nat :=
  if (gridNeigh t d).isSome then none
  else
    let die := t / 4096 * 256
    match d with
    | 0 => some (die + t % 64)
    | 1 => some (die + 64 + t / 64 % 64)
    | 2 => some (die + 128 + (63 - t % 64))
    | _ => some (die + 192 + (63 - t / 64 % 64))

/-- The die beyond an edge of a die (R13). -/
def dieBeyond (die edge : Nat) : Option Nat :=
  match die, edge with
  | 0, 1 => some 1 | 1, 3 => some 0 | 2, 1 => some 3 | 3, 3 => some 2
  | 0, 2 => some 2 | 2, 0 => some 0 | 1, 2 => some 3 | 3, 0 => some 1
  | _, _ => none

/-- The P-tile of the adjacent die that serves the same row or column; none on an edge that meets no die (R13). -/
def facingPtile (p : Nat) : Option Nat :=
  (dieBeyond (p / 256) (ptileEdge p)).map fun d =>
    let i := 63 - p % 64
    d * 256 + (match ptileEdge p with
      | 0 => 128 + i
      | 1 => 192 + i
      | 2 => i
      | _ => 64 + i)

/-- The grid tile on side d of a grid tile, across the edge of the die where it lies there, with the facing pair that
is crossed. -/
def stepTile (t d : Nat) : Option (Nat × Option (Nat × Nat)) :=
  match gridNeigh t d with
  | some n => some (n, none)
  | none => (ptileOf t d).bind fun p => (facingPtile p).map fun q => (ptileFaces q, some (Nat.min p q, Nat.max p q))

/-! ### Circuits (R57, R64, R65) -/

/-- The facing pairs that a circuit crosses. -/
def CircuitPath.crossings (x : CircuitPath) : List (Nat × Nat) := x.via.filterMap fun v => (stepTile v.1 (v.2 / 4)).bind (·.2)

/-- The cycles that a circuit takes: one for each latched hop, and 12 for each crossing (R59, R65). -/
def CircuitPath.latency (x : CircuitPath) : Nat := (x.hops.filter (· != 0)).length + 12 * x.crossings.length

/-- How many tokens a circuit holds: 64 where it leaves its die, under end-to-end credit (R65), else its slots. -/
def CircuitPath.room (x : CircuitPath) : Nat :=
  if x.crossings ≠ [] ∨ x.novey.isSome then 64 else Nat.max 1 (x.hops.foldl (· + ·) 0)

/-- Whether a circuit has a credit. -/
def Circuit.free (x : Circuit) : Bool := x.dead || decide (x.toks.length < x.path.room)

/-- Whether a circuit holds no token. -/
def Circuit.empty (x : Circuit) : Bool := x.toks.isEmpty && x.wait.isEmpty

/-- The first of some slots with the places of their errors: its token, a POISON where it holds an uncorrectable error
(R404). -/
def headSeen (m : Maker) (bad : List Nat) (t : Stok) : Stok := if bad.contains 0 then { t with tok := m.upset } else t

/-- The places of the errors in the slots behind the first. -/
def tailBad (bad : List Nat) : List Nat := (bad.filter (· != 0)).map (· - 1)

/-- A token sets out for the end of a circuit; it comes out at least a cycle after the one before it (R65). -/
def Circuit.put (x : Circuit) (now : Nat) (t : Stok) : Circuit :=
  let last := (x.toks.getLast?.map fun q => q.2 + 1).getD 0
  { x with toks := x.toks ++ [({ t with fold := 0 }, Nat.max (now + x.path.latency) last)] }

/-- A token enters a circuit. Of one that has been cut the first token gives the POISON, and the others are dropped
(R379). -/
def Circuit.push (x : Circuit) (now : Nat) (t : Stok) : Circuit :=
  if !x.dead then x.put now t
  else match x.cut with
    | some p => { x with cut := none }.put now { t with tok := p }
    | none => x

/-- A circuit is cut: of what is in flight the oldest `past` tokens have passed the cut and go on. A POISON comes in the
place of the first of the others, which are dropped; where there is none it comes with the next token, or at once where
`now` is given (R379, R418; log entry 23). -/
def Circuit.sever (x : Circuit) (past : Nat) (now : Option Nat) (p : Token) : Circuit :=
  let keep := x.toks.take past
  let last := (keep.getLast?.map fun q => q.2 + 1).getD 0
  match x.toks.drop past, now with
  | q :: _, _ =>
    { x with toks := keep ++ [({ q.1 with tok := p }, q.2)], bad := x.bad.filter fun i => decide (i < past), dead := true, cut := none }
  | [], some t => if x.dead then x else { x with toks := keep ++ [(⟨p, false, 0⟩, Nat.max t last)], dead := true, cut := none }
  | [], none => if x.dead then x else { x with dead := true, cut := some p }

/-- The place on a circuit's way at which it reaches the neighbour on side d of a tile, from that neighbour; none where it
does not pass there. -/
def CircuitPath.comesBy (x : CircuitPath) (from' d : Nat) : Option Nat :=
  x.via.findIdx? fun v => v.1 == from' && v.2 / 4 == (d + 2) % 4

/-- How many tokens in flight have passed place i of a circuit's way: by the cycles that lie behind it, and inside a die by
the slots that hold them there. -/
def Circuit.past (x : Circuit) (now i : Nat) : Nat :=
  let back := x.path.hops.drop (((x.path.via.take (i + 1)).drop 1).filter fun v => isCTile (v.1 % 64, v.1 / 64 % 64)).length
  let far := ({ x.path with via := x.path.via.drop (i + 1), hops := back } : CircuitPath).latency
  let n := (x.toks.takeWhile fun q => decide (q.2 ≤ now + far)).length
  if x.path.crossings ≠ [] ∨ x.path.novey.isSome then n else Nat.min n (back.foldl (· + ·) 0)

/-- Whether each tile of a path is the one that the step before it reaches. -/
def viaOk : List (Nat × Nat) → Bool
  | v :: w :: vs => (stepTile v.1 (v.2 / 4)).map (·.1) == some w.1 && viaOk (w :: vs)
  | _ => true

/-- Whether a path leads from the link that feeds it to the lane where it ends. -/
def CircuitPath.ok (x : CircuitPath) (start : Option Nat) (stop : Option Nat) : Bool :=
  viaOk x.via &&
  (match x.link, x.via with
   | some key, v :: _ => start == some v.1 && v.2 == key % 16
   | some _, [] => false
   | none, _ => x.novey.isSome) &&
  (match x.dest, x.via.getLast? with
   | some e, some v => (stepTile v.1 (v.2 / 4)).map (·.1) == stop && e.side == (v.2 / 4 + 2) % 4 && e.vl == v.2 % 4
   | some _, none => x.link.isNone
   | none, _ => x.novey.isSome && x.link.isSome)

/-- The key of a declared circuit of a context: the link that feeds it, or 512 and more. -/
def circKeys : Nat → List CircuitPath → Map Circuit
  | _, [] => []
  | n, x :: xs =>
    match x.link with
    | some key => mset (circKeys n xs) key ⟨x, [], [], [], [], false, none⟩
    | none => mset (circKeys (n + 1) xs) n ⟨x, [], [], [], [], false, none⟩

/-- The circuits that loading context k of region r makes. -/
def newCircs (r k : Nat) (paths : List CircuitPath) : Map Circuit := circKeys 512 (paths.filter fun x => x.r == r && x.ctx == k)

/-- The lanes of context k of region r at which circuits end: ct * 16 + side * 4 + lane, and their entries. -/
def newInlets (r k : Nat) (paths : List CircuitPath) : List (Nat × Nat) :=
  paths.filterMap fun x => match x.dest with
    | some e => if e.r = r ∧ e.ctx = k then some (e.ct * 16 + e.side * 4 + e.vl, x.entry) else none
    | none => none

/-! ### Configuration words by position -/

/-- The element operation code of a configuration word (R229). -/
def eopOf (w : Nat) : Nat := field w 127 120

/-- The configuration word at a position; an empty element otherwise (R275). -/
def Ctx.word (c : Ctx) (pos : Nat) : Nat := mgetD c.elems pos 0

/-- Input select i of a word: 0 A, 1 B, 2 C, 3 P (R229). -/
def selOf (w i : Nat) : Nat := field w (63 - 4 * i) (60 - 4 * i)

/-- Destination byte j of a word (R229). -/
def dstOf (w j : Nat) : Nat := field w (47 - 8 * j) (40 - 8 * j)

/-- The number of an AG word that stands at an AG position: 0x60 AGR, 0x61 AGW. -/
def eopAgr : Nat := 0x60
/-- AGW. -/
def eopAgw : Nat := 0x61
/-- Role MBUF (R232). -/
def eopMbuf : Nat := 0x62
/-- Role TFIFO. -/
def eopTfifo : Nat := 0x63
/-- Role LBUF. -/
def eopLbuf : Nat := 0x64
/-- Role CBNK. -/
def eopCbnk : Nat := 0x65

/-- Whether an operation uses the operand network (R317). -/
def onOperands (e : Nat) : Bool := e == 0x50 || e == 0x51 || e == 0x52

/-! ### Wires -/

/-- What brings tokens to an input. -/
inductive Wire where
  /-- virtual lane vl of port `side` of a C-tile -/
  | port (ct side vl : Nat)
  /-- the lane link into a lane, from the west or from the east -/
  | lane (ct l : Nat) (east : Bool)
  /-- virtual lane vl of a C-tile's M-tile port -/
  | fromM (ct vl : Nat)
  /-- the M-tile port of a lane's partner -/
  | toM (mt : Nat)
  /-- the carry return of an element -/
  | carry (pos : Nat)
  /-- the operand lane of a lane, from the north -/
  | operand (ct l : Nat)
  /-- virtual lane vl of a side of an M-tile -/
  | mside (mt side vl : Nat)
  /-- the context's entry queue -/
  | entry
  /-- the region's predicate network -/
  | named
  deriving DecidableEq, Repr

/-- The wire that input i of the word at a position reads (R230, R317, R323). -/
def inputWire (pos w i : Nat) : Option Wire :=
  let s := selOf w i
  match posKind pos with
  | .lane ct l =>
    if i = 1 ∧ s = 1 ∧ onOperands (eopOf w) then some (.operand ct l)
    else match s with
      | 0 => none
      | 1 => some (.port ct 0 i) | 2 => some (.port ct 1 i) | 3 => some (.port ct 2 i) | 4 => some (.port ct 3 i)
      | 5 => some (.lane ct l false) | 6 => some (.lane ct l true)
      | 7 => some (.fromM ct i) | 8 => some (.carry pos)
      | _ => none
  | .slot ct _ =>
    match s with
    | 1 => some (.port ct 0 i) | 2 => some (.port ct 1 i) | 3 => some (.port ct 2 i) | 4 => some (.port ct 3 i)
    | 7 => some (.fromM ct i) | 8 => some (.carry pos)
    | _ => none
  | .role mt => mWire mt s i
  | .ag mt _ => mWire mt s i
  | .node _ => none
where
  /-- Selects of an M-tile word (R323, R57). -/
  mWire (mt s i : Nat) : Option Wire :=
    match s with
    | 1 => some (.mside mt 0 i) | 2 => some (.mside mt 1 i) | 3 => some (.mside mt 2 i) | 4 => some (.mside mt 3 i)
    | 7 => if i = 0 then some .entry else if i = 1 then some (.toM mt) else none
    | _ => none

/-- Input ports of a Folio that stand on a wire: the C-tile the port's home is on (R349). -/
def folioHome (f : Folio) (k : Nat) : Option Nat :=
  match (f.nodes.zipIdx).find? fun x => (entrySources x.1.toNat).any fun r => refPort r.2 == some k with
  | some (_, n) => some (field (lget f.places n 0).toNat 15 11)
  | none => none

/-- The wire of input port k of a Folio (R349). -/
def folioPortWire (f : Folio) (k : Nat) : Option Wire :=
  if k = 0 then some .entry
  else match folioHome f k with
    | none => none
    | some ct => if k ≤ 2 then some (.fromM ct (k - 1)) else some (.port ct ((k - 3) / 4) ((k - 3) % 4))

/-- The inputs of Folio nodes that read a wire. -/
def folioReaders (f : Folio) (x : Wire) : List (Nat × Nat) :=
  (f.nodes.zipIdx).flatMap fun e =>
    ((entrySources e.1.toNat).filter fun r =>
      match refPort r.2 with
      | some k => folioPortWire f k == some x
      | none => false).map fun r => (nodePos e.2, r.1)

/-- The inputs that read a wire in a context: position and input (R230). A wire that several inputs name
brings each of them every token. -/
def Ctx.readers (c : Ctx) (x : Wire) : List (Nat × Nat) :=
  (c.elems.flatMap fun e =>
    ((natRange 0 4).filter fun i => inputWire e.1 e.2 i == some x).map fun i => (e.1, i)) ++
  (match c.folio with | some f => folioReaders f x | none => [])

/-! ### Relays and hops (R57) -/

/-- The key of a relay entry. -/
def relayKey (mt side vl : Nat) : Nat := mt * 16 + side * 4 + vl
/-- The key of a routing entry or a link. -/
def linkKey (ct port vl : Nat) : Nat := ct * 16 + port * 4 + vl

/-- Where a token that passes a relay from an arrival side arrives: none outside the region. -/
def relayWire (g : Region) (relays : Map Nat) (m : Spot) (side vl : Nat) : Option Wire :=
  match g.tileIdx m with
  | none => none
  | some mt =>
    let leave (d : Nat) : Option Wire := (g.sideIdx m d).map fun ct => .port ct (oppSide d) vl
    match mget relays (relayKey mt side vl) with
    | none => leave (oppSide side)
    | some e => if bitAt e 2 then some (.mside mt side vl) else leave (e % 4)

/-- Where a token that a C-tile sends out of a port arrives. -/
def hopFrom (g : Region) (relays : Map Nat) (ct port vl : Nat) : Option Wire :=
  match g.cTiles[ct]? with
  | none => none
  | some x => (sideOf x port).bind fun m => relayWire g relays m (oppSide port) vl

/-- As `hopFrom` for a link of a context: one that feeds a circuit ends at no wire of its region. -/
def Ctx.hop (c : Ctx) (g : Region) (ct port vl : Nat) : Option Wire :=
  if mhas c.circs (linkKey ct port vl) then none else hopFrom g c.relays ct port vl

/-- Where a destination byte sends: nowhere, into a link, onto a wire, or somewhere that no
configuration CFGL accepts names. -/
inductive Dst where
  | none
  | link (ct port vl : Nat)
  | wire (x : Wire)
  | bad
  deriving DecidableEq, Repr

/-- The wire of an M-tile index's partner C-tile. -/
def partnerC (g : Region) (mt : Nat) : Option Nat := (g.mTiles[mt]?).bind fun m => g.tileIdx (partnerSpot m)
/-- The partner M-tile of a C-tile index. -/
def partnerM (g : Region) (ct : Nat) : Option Nat := (g.cTiles[ct]?).bind fun x => g.tileIdx (partnerSpot x)

/-- Where a destination byte of the word at a position sends (R231, R317, R323). -/
def destOfByte (g : Region) (pos w d : Nat) : Dst :=
  let wire (x : Option Wire) : Dst := match x with | some x => .wire x | none => .bad
  let place := field d 7 5
  let port := field d 4 3
  let vl := field d 2 1
  let carryTo (ct : Nat) : Dst := .wire (.carry (if bitAt d 4 then slotPos ct (d % 4) else lanePos ct (d % 16)))
  match posKind pos with
  | .lane ct l =>
    match place with
    | 0 => .none
    | 1 =>
      if onOperands (eopOf w) ∧ port = 2 ∧ d % 2 = 0 then
        wire ((g.cTiles[ct]?).bind fun x => (g.tileIdx (x.1, x.2 + 2)).map fun c2 => .operand c2 l)
      else if d % 2 = 1 then .wire (.port ct port vl) else .link ct port vl
    | 2 => if l = 0 then .bad else .wire (.lane ct (l - 1) true)
    | 3 => if l = 15 then .bad else .wire (.lane ct (l + 1) false)
    | 4 => wire ((partnerM g ct).map .toM)
    | 5 => carryTo ct
    | 6 => .wire .named
    | _ => .bad
  | .slot ct _ =>
    match place with
    | 0 => .none
    | 1 => if d % 2 = 1 then .wire (.port ct port vl) else .link ct port vl
    | 4 => wire ((partnerM g ct).map .toM)
    | 5 => carryTo ct
    | 6 => .wire .named
    | _ => .bad
  | .role mt => mDest mt place port vl w
  | .ag mt _ => mDest mt place port vl w
  | .node _ => .none
where
  /-- Destinations of an M-tile word (R323, R57). -/
  mDest (mt place port vl w : Nat) : Dst :=
    match place with
    | 0 => .none
    | 1 => match (g.mTiles[mt]?).bind fun m => g.sideIdx m port with
      | some ct => .wire (.port ct (oppSide port) vl)
      | none => .bad
    | 4 => match partnerC g mt with
      | some ct => .wire (.fromM ct (if eopOf w = eopTfifo then 1 else 0))
      | none => .bad
    | 6 => .wire .named
    | _ => .bad

/-- Where output port k of a Folio sends from its home C-tile (R349). -/
def folioDst (g : Region) (ct k : Nat) : Dst :=
  if k = 0 then match partnerM g ct with | some m => .wire (.toM m) | none => .bad
  else .link ct ((k - 1) / 4) ((k - 1) % 4)

/-- Where destination j of a position sends in a context; a Folio's NRW sends by its output port. -/
def Ctx.dest (c : Ctx) (g : Region) (pos j : Nat) : Dst :=
  match posKind pos with
  | .node n =>
    match c.folio with
    | some f =>
      let e := (lget f.nodes n 0).toNat
      if field e 63 60 = 3 ∧ j = 0 then folioDst g (field (lget f.places n 0).toNat 15 11) (field e 30 27) else .none
    | none => .none
  | _ => destOfByte g pos (c.word pos) (dstOf (c.word pos) j)

/-! ### Routing entries with what the loader adds -/

/-- The routing entry of a link: in a slot that no image has been loaded into, the reset value (R60); in a loaded
slot an entry that the image does not name is zero (R275). -/
def Ctx.entryOf (c : Ctx) (key : Nat) : Nat :=
  mgetD c.routing key (if c.status = .free then 0x7F * 2 ^ 16 else 0) % 2 ^ 32

/-- The sender whose tokens take fold position 0 on a folded link: a position and its destination, as the
loader has noted it above the routing entry (R67, R336). -/
def Ctx.foldArm (c : Ctx) (key : Nat) : Option (Nat × Nat) :=
  match mgetD c.routing key 0 / 2 ^ 32 with
  | 0 => none
  | n + 1 => some (n / 4, n % 4)

/-- The note of a fold. -/
def foldNote (pos j : Nat) : Nat := 2 ^ 32 * (pos * 4 + j + 1)

/-- The fold position that a sender's tokens take on a link (R336). -/
def Ctx.foldPos (c : Ctx) (key pos j : Nat) : Nat :=
  match c.foldArm key with
  | some a => if a = (pos, j) then 0 else 1
  | none => 0

/-- Whether a link is folded. -/
def Ctx.folded (c : Ctx) (key : Nat) : Bool := (c.foldArm key).isSome

/-- The key of a lane of an M-tile's port, by the facing port of the C-tile: such a lane has no routing entry, and where it
is folded its two head slots stand under this key (R336). -/
def mLaneKey (ct side vl : Nat) : Nat := 520 + (ct * 4 + side) * 2 + vl / 2

/-- The wire of a fold position of a folded lane of an M-tile's port. -/
def mLaneWire (key fold : Nat) : Wire := .port ((key - 520) / 8) ((key - 520) / 2 % 4) (2 * ((key - 520) % 2) + fold)

/-- The folded lane of an M-tile's port on which an output sends, if it does. -/
def Ctx.mLane (c : Ctx) (pos : Nat) (d : Dst) : Option Nat :=
  match d with
  | .wire (.port ct side vl) =>
    if 1024 ≤ pos ∧ pos < 2048 ∧ vl % 2 = 0 ∧ c.folded (mLaneKey ct side vl) then some (mLaneKey ct side vl) else none
  | _ => none

/-- The wire a link's tokens of a fold position arrive on. -/
def Ctx.linkWire (c : Ctx) (g : Region) (key fold : Nat) : Option Wire :=
  if 520 ≤ key then some (mLaneWire key fold)
  else match c.hop g (key / 16) (key / 4 % 4) (key % 4), fold with
    | some (.port ct s v), 1 => some (.port ct s (v + 1))
    | x, _ => x

/-- Slots of a link (R60). -/
def entrySlots (e : Nat) : Nat := field e 11 8

/-! ### What stands on each side of a join (R61) -/

/-- A link's side of a join: `CFMT`, `VFMT`, and `FSCL` when `SSRC` is 0 (R60). -/
def linkSide (e : Nat) : Side3 := ⟨e % 16, field e 7 4, if bitAt e 15 then none else some (field e 23 16)⟩

/-- Whether an output of an operation passes on tokens that it has taken, as they are (R312, R318, R326, R329). -/
def passesOn (e j : Nat) : Bool :=
  (decide (0x40 ≤ e) && decide (e ≤ 0x4C) && e != 0x48 && e != 0x4C && !(e == 0x43 && j == 1)) || e == eopTfifo ||
  ((e == eopAgr || e == eopAgw) && j == 2)

/-- The side of output j of an operation; none where it passes tokens on as they are. It is OFMT and, for pairs,
AFMT; but the exit count of a CRY (R49), the completion word of an AGW (R79), the input tokens that MMA and MMAW
forward (R318) and FOUT's summary (R330) have formats of their own. -/
def outSide (w j : Nat) : Option Side3 :=
  let e := eopOf w
  let own (f : Nat) : Option Side3 := some ⟨f, 0, none⟩
  if passesOn e j then none
  else if e = 0x43 then own 2
  else if e = eopAgw then own 0
  else if (e = 0x50 ∨ e = 0x51) ∧ j ≠ 2 then own (cfgOf w).ifmt.toNat
  else if e = 0x69 then own 1
  else some ⟨(cfgOf w).ofmt.toNat, (cfgOf w).afmt.toNat, none⟩

/-- The side of an input: AFMT for C, IFMT for A and B; none for an input whose tokens no join converts: a
predicate, an operator's input, a descriptor, a side token, a random token, a fibre's head. -/
def inSide (w i : Nat) : Option Side3 :=
  let e := eopOf w
  let c := cfgOf w
  let side (f : Nat) : Option Side3 := some ⟨f, c.afmt.toNat, none⟩
  if (0x40 ≤ e ∧ e ≤ 0x4C) ∨ (0x62 ≤ e ∧ e ≤ 0x65) ∨ e = eopAgr ∨ e = 0x68 ∨ (e = 0x69 ∧ i = 1) then none
  else if e = eopAgw then (if i = 1 then side c.ifmt.toNat else none)
  else match i with
    | 0 => side c.ifmt.toNat
    | 1 => if c.side = 1 then none else side c.ifmt.toNat
    | 2 => if c.rnd.toNat = 5 then none else side c.afmt.toNat
    | _ => none

/-- The sides of the circuits that end at a wire (R66). -/
def Ctx.inletSides (c : Ctx) (x : Wire) : List Side3 :=
  match x with
  | .port ct side vl => (c.inlets.filter fun i => i.1 == ct * 16 + side * 4 + vl).map fun i => linkSide i.2
  | _ => []

/-- Where every output of a context sends: those of its elements, and those of the nodes of its Folio. -/
def Ctx.outputs (c : Ctx) (g : Region) : List ((Nat × Nat) × Dst) :=
  (c.elems.flatMap fun e => (natRange 0 3).map fun j => ((e.1, j), destOfByte g e.1 e.2 (dstOf e.2 j))) ++
  (match c.folio with
   | some f => (natRange 0 f.nodes.length).map fun n => ((nodePos n, 0), c.dest g (nodePos n) 0)
   | none => [])

/-- The outputs that send on a link, or on a folded lane of an M-tile's port. -/
def Ctx.linkOutputs (c : Ctx) (g : Region) (key : Nat) : List (Nat × Nat) :=
  (c.outputs g).filterMap fun q =>
    match q.2 with
    | .link ct port vl => if linkKey ct port vl = key then some q.1 else none
    | d => if c.mLane q.1.1 d = some key then some q.1 else none

/-- The wire on which an output's tokens arrive, with the link that they come over; the arms of a fold arrive on wires of
their own (R336). -/
def Ctx.arrivesOn (c : Ctx) (g : Region) (q : (Nat × Nat) × Dst) : Option (Wire × Option Nat) :=
  match q.2 with
  | .wire y =>
    match c.mLane q.1.1 q.2 with
    | some key => some (mLaneWire key (c.foldPos key q.1.1 q.1.2), none)
    | none => some (y, none)
  | .link ct port vl =>
    let key := linkKey ct port vl
    (c.linkWire g key (c.foldPos key q.1.1 q.1.2)).map fun y => (y, some key)
  | _ => none

/-- The senders whose tokens arrive on a wire, position and output, with the link they come over. -/
def Ctx.sendersOf (c : Ctx) (g : Region) (x : Wire) : List ((Nat × Nat) × Option Nat) :=
  (c.outputs g).filterMap fun q =>
    match c.arrivesOn g q with
    | some (y, l) => if y = x then some (q.1, l) else none
    | none => none

/-- The input whose tokens an operator passes on: A, or the first that its word names. -/
def passedInput (w : Nat) : Nat := if selOf w 0 ≠ 0 then 0 else if selOf w 1 ≠ 0 then 1 else 2

/-- The inputs whose tokens output j of an operation may pass on: for a code that is not 0, input code - 1. -/
def passedInputs (w j code : Nat) : List Nat :=
  let e := eopOf w
  if code ≠ 0 then [code - 1]
  else if j = 2 ∧ (e = eopAgr ∨ e = eopAgw) then [3]
  else if e = 0x41 ∨ e = 0x42 ∨ e = 0x43 then [0, 1]
  else if e = 0x4A then [0, 1, 2].filter fun i => selOf w i != 0
  else [passedInput w]

/-- The sides that the outputs of a list may have, nearest first: position, output and code. An operator that
passes tokens on has the sides of what feeds it; over a direct wire, those of what that sender may send (log
entry 114). -/
def Ctx.sidesGo (c : Ctx) (g : Region) : Nat → List (Nat × Nat × Nat) → List (Nat × Nat × Nat) → List Side3
  | 0, _, _ => []
  | _, _, [] => []
  | n + 1, seen, q :: qs =>
    if seen.contains q then c.sidesGo g n seen qs
    else match posKind q.1 with
      | .node _ => (match c.folio with | some f => [⟨if f.mode = 0 then 4 else 3, 0, none⟩] | none => []) ++ c.sidesGo g n (q :: seen) qs
      | _ =>
        let w := c.word q.1
        match outSide w q.2.1 with
        | some s => s :: c.sidesGo g n (q :: seen) qs
        | none =>
          let fs := (passedInputs w q.2.1 q.2.2).flatMap fun i =>
            match inputWire q.1 w i with
            | some x => c.sendersOf g x
            | none => []
          let inlets := (passedInputs w q.2.1 q.2.2).flatMap fun i => ((inputWire q.1 w i).map c.inletSides).getD []
          (fs.filterMap fun f => f.2.map fun key => linkSide (c.entryOf key)) ++ inlets ++
            c.sidesGo g n (q :: seen) (qs ++ fs.filterMap fun f => match f.2 with | none => some (f.1.1, f.1.2, 0) | some _ => none)

/-- The sides that output j of an element may have. -/
def Ctx.sidesOut (c : Ctx) (g : Region) (pos j code : Nat) : List Side3 := c.sidesGo g 256 [] [(pos, j, code)]

/-- The side of a token on output j of an element, with its code. -/
def Ctx.sideOut (c : Ctx) (g : Region) (pos j code : Nat) : Option Side3 := (c.sidesOut g pos j code).head?

/-- Whether a wire has room: every input that reads it has a free latch; the predicate network always
takes a token (R34). -/
def Ctx.wireRoom (c : Ctx) (x : Wire) : Bool :=
  match x with
  | .named => true
  | _ => let rs := c.readers x; !rs.isEmpty && rs.all fun r => !mhas c.lat (r.1 * 4 + r.2)

/-- Puts a token into the latches of every input that reads a wire. -/
def Ctx.toLatches (c : Ctx) (x : Wire) (t : Stok) : Ctx :=
  { c with lat := (c.readers x).foldl (fun m r => mset m (r.1 * 4 + r.2) t) c.lat }

end Sys2Proof.Machine
end

