-- ==== Sys2Proof/Machine/ConfigCheck.lean ====
section
/-!
DEFINITION. What CFGL refuses (spec/21 R363; R275; R48, R57, R59-R62, R67, R68, R336; R229-R232; R34, R150,
R154, R155, R160, R299-R331): the reading of a context image and its checks. An input that an operation
cannot do without and that a word does not name counts as a field outside its range, as does a field
that the operation ignores and that is not zero.
-/

namespace Sys2Proof.Machine

/-! ### Fields of one word (0x000B) -/

/-- Formats a fibre may hold (R101). -/
def fibreFmt (v : Nat) : Bool := v == 2 || v == 6 || v == 7 || v == 8 || v == 15

/-- The integer code of the same width and count as a lane format (R304). -/
def intTwin (f : Nat) : Option Nat :=
  match f with
  | 1 => some 1 | 2 => some 2 | 3 => some 3 | 4 => some 4 | 5 => some 5
  | 6 => some 3 | 7 => some 4 | 8 => some 4 | 9 => some 5 | 10 => some 5
  | _ => none

/-- Whether the element counts of two numeric formats are multiples of one another (R62). -/
def numJoin (a b : Nat) : Bool := fmtNum a && fmtNum b && joinOk a b

/-- The word of an element operation and what the checks read of it. -/
structure WordIn where
  e : Nat
  c : ElemCfg
  deriving DecidableEq, Repr

namespace WordIn

/-- Output format. -/
def o (x : WordIn) : Nat := x.c.ofmt.toNat
/-- Format of A and B. -/
def f (x : WordIn) : Nat := x.c.ifmt.toNat
/-- Format of C. -/
def a (x : WordIn) : Nat := x.c.afmt.toNat
/-- OPS. -/
def ops (x : WordIn) : Nat := x.c.ops.toNat
/-- IMM32. -/
def imm (x : WordIn) : Nat := x.c.imm.toNat
/-- STPL. -/
def l (x : WordIn) : Nat := x.c.stpl.toNat
/-- Whether an input is named. -/
def named (x : WordIn) (i : Nat) : Bool :=
  match i with | 0 => x.c.sela != 0 | 1 => x.c.selb != 0 | 2 => x.c.selc != 0 | _ => x.c.selp != 0
/-- Whether every input of a list is named. -/
def need (x : WordIn) (is : List Nat) : Bool := is.all x.named
/-- Whether no input outside a list is named. -/
def only (x : WordIn) (is : List Nat) : Bool := [0, 1, 2, 3].all fun i => is.contains i || !x.named i
/-- Whether no destination outside a list is named. -/
def dsts (x : WordIn) (js : List Nat) : Bool :=
  (js.contains 0 || x.c.dst0 == 0) && (js.contains 1 || x.c.dst1 == 0) && (js.contains 2 || x.c.dst2 == 0)
/-- NA, NB and NC are zero. -/
def unsigned (x : WordIn) : Bool := x.c.na == 0 && x.c.nb == 0 && x.c.nc == 0
/-- RND and SATM are zero. -/
def exact (x : WordIn) : Bool := x.c.rnd == 0 && x.c.satm == 0
/-- The fields a router operator, an AG or a fibre element ignores are zero (R312). -/
def bare (x : WordIn) : Bool := x.exact && x.unsigned && x.c.side == 0
/-- A floating-point format. -/
def isF (x : WordIn) : Bool := (fmtFlt x.f).isSome
/-- SR with its random input on C, which is no operand (R154, R155). -/
def srOk (x : WordIn) (cFree : Bool) : Bool :=
  x.c.rnd != 5 || (cFree && x.named 2 && decide (fmtCount x.o ≤ 64))
/-- Input C named only where it has a use: as the random input (R154). -/
def cForSr (x : WordIn) : Bool := x.c.rnd == 5 || !x.named 2

/-- Lane operations (R299, R303, R304). -/
def laneOk (x : WordIn) : Bool :=
  let e := x.e
  let bitwise := decide (0x18 ≤ e) && decide (e ≤ 0x1A)
  let shift := decide (0x1B ≤ e) && decide (e ≤ 0x1D)
  let two := (decide (0x10 ≤ e) && decide (e ≤ 0x12)) || e == 0x14 || e == 0x15 || bitwise || shift || e == 0x1E
  let useC := e == 0x13 || e == 0x1F || e == 0x22 || e == 0x25 || e == 0x26
  let fmtOk := if bitwise then fmtInt x.f || x.f == 15 else if shift then fmtInt x.f
    else if e = 0x23 ∨ e = 0x24 then x.isF else fmtInt x.f || x.isF
  let inputs := x.named 0 &&
    (if two || e == 0x1F then true else if e = 0x13 ∨ e = 0x25 then x.need [1, 2] else !x.named 1) &&
    (useC || x.cForSr)
  let ofmt := if e = 0x1E then intTwin x.f == some x.o else x.o == x.f
  let afmt := if e = 0x25 ∨ e = 0x26 then intTwin x.f == some x.a else if x.named 2 then x.a == x.f else x.a == 0
  let imms := if x.named 1 then (e == 0x1F && !x.named 2) || e == 0x20 else two || e == 0x1F || e == 0x20 || (e == 0x26 && !x.named 2)
  let onBits := (e == 0x21 || e == 0x22) && decide (3 ≤ field x.ops 16 14)
  let scaleOnly := bitAt x.ops 13
  let neverRounds := bitwise || shift || onBits || scaleOnly || [0x16, 0x17, 0x1E, 0x26].contains e
  let neverClamps := bitwise || onBits || scaleOnly || [0x1C, 0x1D, 0x1E, 0x26].contains e
  fmtOk && inputs && ofmt && afmt && x.c.side == 0 &&
  (!bitwise || x.unsigned) && (x.c.nb == 0 || x.named 1) && (x.c.nc == 0 || (useC && x.named 2)) &&
  (!neverClamps || x.c.satm == 0) && (!neverRounds || x.c.rnd == 0) &&
  x.srOk (!useC) &&
  (!scaleOnly || x.c.na == 0) && (!bitAt x.ops 20 || (fmtInt x.f && !bitwise && !scaleOnly)) &&
  (field x.ops 19 17 == 0 || (e == 0x1E && (x.isF || decide (field x.ops 19 17 ≤ 5)))) &&
  (field x.ops 16 14 == 0 || ((e == 0x21 || e == 0x22) && decide (field x.ops 16 14 ≤ 5) && (fmtInt x.f || decide (field x.ops 16 14 ≤ 2)))) &&
  (!scaleOnly || e == 0x20) && field x.ops 12 0 == 0 &&
  (imms || x.imm == 0)

/-- The converters CVT, CVTS and WPL (R306, R307, R320), with their side port (R160). -/
def convOk (x : WordIn) : Bool :=
  numJoin x.f x.o && x.named 0 && (x.c.side == 1 || (!x.named 1 && x.cForSr)) && (x.c.side == 0 || x.named 1) &&
  (x.a == 0 || x.named 2) && x.c.nb == 0 && x.c.nc == 0 && x.srOk true &&
  (match x.e with
   | 0x30 => field x.ops 20 17 == 0 && field x.ops 15 0 == 0 && (if bitAt x.ops 16 then x.imm == 0 else decide (x.imm < 256))
   | 0x31 => x.ops == 0 && x.imm == 0 && x.c.satm == 0 && decide (9 ≤ x.o) && decide (x.o ≤ 11)
   | _ => x.ops == 0 && x.imm == 0)

/-- RNG (R308). -/
def rngOk (x : WordIn) : Bool :=
  x.o == 15 && x.c.satm == 0 && x.c.side == 0 && x.unsigned && x.c.pinv == 0 && x.only [] && x.l == 0

/-- The online operations (R310, R311). -/
def onlineOk (x : WordIn) : Bool :=
  x.a == 0 && x.c.nb == 0 && x.c.nc == 0 &&
  (match x.e with
   | 0x38 => x.f == 13 && x.o == 13 && x.need [0, 1] && x.only [0, 1, 3] && x.bare && x.ops == 0 && x.imm == 0
   | 0x39 => x.f == 13 && x.o == 13 && x.named 0 && x.only [0, 3] && x.bare && x.ops == 0 && decide (x.imm < 65536) && x.imm != 0
   | 0x3A => x.f == 13 && x.o == 2 && x.need [0, 1] && x.only [0, 1, 3] && x.bare && x.ops == 0 && x.imm == 0
   | 0x3B =>
     fmtNum x.f && x.o == 13 && x.named 0 && (if x.c.side = 1 then x.named 1 else !x.named 1) && !x.named 2 &&
     x.c.rnd.toNat != 5 && x.c.satm == 0 && decide (1 ≤ x.ops) && decide (x.ops ≤ 127) && decide (x.imm < 256)
   | _ =>
     x.f == 13 && (x.o == 6 || x.o == 7 || x.o == 8 || x.o == 2 || x.o == 3 || x.o == 4) && x.named 0 && x.c.na == 0 &&
     (if x.c.side = 1 then x.named 1 else !x.named 1 && x.cForSr) && x.srOk true && x.ops == 0 && x.imm == 0)

/-- The steps of a JN pattern (R314). -/
def jnPat (x : WordIn) : List Nat := (natRange 0 (field x.ops 20 18 + 1)).map fun s => field x.ops (2 * s + 1) (2 * s)

/-- Router operators (R312-R316). -/
def routerOk (x : WordIn) : Bool :=
  let ins : List Nat := match x.e with
    | 0x40 => [0, 3] | 0x41 => [0, 1] | 0x42 => [0, 1, 3] | 0x43 => [0, 1, 3] | 0x44 => [0, 1] | 0x45 => [0, 3] | 0x46 => [0, 3]
    | 0x4A => ([0, 1, 2] : List Nat).filter fun i => x.jnPat.contains (i + 1)
    | _ => [0]
  x.bare && x.f == 0 && x.a == 0 && (x.e == 0x48 || x.e == 0x4C || x.o == 0) && x.need ins && x.only ins &&
  (x.c.pinv == 0 || x.e == 0x40 || x.e == 0x42 || x.e == 0x43 || x.e == 0x46) &&
  (match x.e with
   | 0x40 => x.ops == 0 && x.imm == 0 && x.dsts [0, 1]
   | 0x43 => x.ops == 0 && x.imm == 0 && x.dsts [0, 1]
   | 0x47 => x.ops == 0 && x.imm != 0 && x.l != 0
   | 0x48 => (x.ops == 0 || x.ops == 2 ^ 17) && x.imm == 0 && x.l != 0 && (x.o == 1 || x.o == 2)
   | 0x49 => x.ops == 0 && x.imm != 0
   | 0x4A =>
     field x.ops 17 16 == 0 && x.jnPat.all (· != 0) && field x.ops 15 0 / 4 ^ (field x.ops 20 18 + 1) == 0 && x.imm == 0 && x.dsts [0]
   | 0x4B => decide (1 ≤ x.ops) && decide (x.ops ≤ 16) && x.imm == 0
   | 0x4C => decide (x.ops < 65536) && x.l != 0 && (x.o == 2 || x.o == 3)
   | _ => x.ops == 0 && x.imm == 0)

/-- Matrix region operations (R318-R321); WPL stands with the converters. -/
def matrixOk (x : WordIn) : Bool :=
  x.c.side == 0 &&
  (match x.e with
   | 0x53 => x.o == x.f && x.a == 0 && x.exact && x.unsigned && x.named 0 && x.only [0, 3] && x.ops == 0
   | 0x54 =>
     x.o == x.f && x.a == x.f && (fmtInt x.f || x.isF) && x.c.rnd != 5 && x.need [0, 1, 2] && x.ops == 0 && x.imm == 0 && x.dsts [0, 1]
   | 0x55 => x.f == 6 && x.o == 6 && x.a == 0 && x.exact && x.unsigned && x.need [0, 1] && x.only [0, 1, 3] && x.ops == 0 && x.imm == 0
   | _ =>
     decide (7 ≤ x.f) && decide (x.f ≤ 11) && x.o == 6 && (if x.named 2 then x.a == 6 else x.a == 0) && x.c.rnd == 0 &&
     x.need [0, 1] && (x.c.nc == 0 || x.named 2) && x.imm == 0 && (x.ops == 0 || (x.e == 0x51 && x.ops == 1)))

/-- AG words (R325). -/
def agOk (x : WordIn) : Bool :=
  let ord := field x.ops 13 12
  let sc := field x.ops 11 8
  x.bare && x.a == 0 && x.named 0 && !x.named 2 && x.dsts [0, 2] && x.l == 0 && x.imm == 0 &&
  decide (field x.ops 16 14 ≤ 5) && field x.ops 6 0 == 0 &&
  (if ord = 0 then decide (sc ≤ 4) else decide (1 ≤ sc) && decide (sc ≤ 12)) &&
  (if x.e = eopAgr then x.f == 0 && !x.named 1 && ord != 2 else x.o == 0 && x.named 1 && ord != 1)

/-- Role words (R324): every other field is reserved. -/
def roleOk (x : WordIn) : Bool :=
  let blank := x.bare && x.o == 0 && x.f == 0 && x.a == 0 && x.c.pinv == 0 && x.imm == 0 && x.l == 0 && x.dsts [0] && x.only [0, 1]
  let n := field x.ops 2 0 + 1
  blank &&
  (match x.e with
   | 0x62 => x.only [] && x.dsts [] && decide (x.ops ≤ 3)
   | 0x63 =>
     let sa := x.c.sela.toNat
     x.ops == 0 && (if x.c.selb = 0 then (decide (1 ≤ sa) && decide (sa ≤ 4)) || sa == 7 else x.c.selb.toNat == 7 && sa == 0)
   | 0x64 => x.only [] && x.dsts [] && field x.ops 17 16 == 0 && field x.ops 15 3 != 0 && decide (field x.ops 15 3 * 32 * n ≤ 24576)
   | _ => x.only [] && x.dsts [] && x.ops == 0)

/-- Fibre stream elements (R330). -/
def fibreOk (x : WordIn) : Bool :=
  let crt := bitAt x.ops 16
  x.bare && x.f == 14 && x.o == 14 && fibreFmt x.a && x.c.pinv == 0 && field x.ops 15 0 == 0 &&
  (match x.e with
   | 0x68 => x.named 0 && x.only [0] && x.dsts [0] && !bitAt x.ops 17 && (if crt then decide (x.imm < 65536) else x.imm == 0)
   | 0x69 => x.need [0, 1] && x.only [0, 1] && x.dsts [0] && decide (field x.ops 20 18 ≤ 5) && (if crt then decide (x.imm < 65536) else x.imm == 0)
   | _ => x.need [0, 1] && x.only [0, 1] && x.dsts [0, 1] && x.ops == 0 && x.imm == 0)

/-- Whether an operation reacts to a STOP of its stop level; the others leave STPL unused (R229). -/
def usesLevel (x : WordIn) : Bool :=
  [0x22, 0x43, 0x44, 0x47, 0x48, 0x4C, 0x50, 0x51, 0x53, 0x68, 0x69].contains x.e ||
  (x.c.side == 1 && [0x30, 0x31, 0x3B, 0x3C, 0x52].contains x.e)

/-- The fields of a word that stands where its operation may stand (R299-R331). -/
def fieldsOk (x : WordIn) : Bool :=
  let e := x.e
  if e = 0x32 then x.c.rsv == 0 && x.rngOk
  else
    x.c.rsv == 0 && (x.usesLevel || x.l == 0) && (x.c.pinv == 0 || x.named 3) && decide (x.c.rnd.toNat ≤ 5) && x.c.satm.toNat != 3 && (x.c.satm.toNat != 2 || fmtInt x.o || decide (0x40 ≤ e) && decide (e ≤ 0x4C)) &&
    (if e ≤ 0x26 then x.laneOk
     else if e = 0x30 ∨ e = 0x31 ∨ e = 0x52 then x.convOk
     else if e ≤ 0x3C then x.onlineOk
     else if e ≤ 0x4C then x.routerOk
     else if e ≤ 0x55 then x.matrixOk
     else if e ≤ 0x61 then x.agOk
     else if e ≤ 0x65 then x.roleOk
     else x.fibreOk)

end WordIn

/-! ### Placement, selects and destinations (0x000A, 0x0008, 0x0009) -/

/-- Whether R232 places an operation where the word stands; the empty element stands anywhere. -/
def placedOk (pos e : Nat) : Bool :=
  let within (lo hi : Nat) : Bool := decide (lo ≤ e) && decide (e ≤ hi)
  e == 0 ||
  (match posKind pos with
   | .lane .. => within 0x10 0x26 || within 0x30 0x32 || within 0x38 0x3C || within 0x50 0x55 || within 0x68 0x6B
   | .slot .. => within 0x40 0x4C
   | .role _ => within 0x62 0x65
   | .ag _ w => e == 0x60 + w
   | .node _ => false)

/-- Whether select i of a word is one that R230 gives there. -/
def selectOk (pos w i : Nat) : Bool :=
  selOf w i == 0 ||
  ((inputWire pos w i).isSome &&
   (match posKind pos with
    | .lane _ l => !(selOf w i == 5 && l == 0) && !(selOf w i == 6 && l == 15)
    | _ => true))

/-- Whether a destination byte is one that R231 gives there. -/
def destOk (pos d : Nat) : Bool :=
  let place := field d 7 5
  let wh := d % 32
  let isM := match posKind pos with | .role _ => true | .ag .. => true | _ => false
  match place with
  | 0 => wh == 0
  | 1 => !(isM && d % 2 == 1)
  | 2 => wh == 0 && (match posKind pos with | .lane _ l => l != 0 | _ => false)
  | 3 => wh == 0 && (match posKind pos with | .lane _ l => l != 15 | _ => false)
  | 4 => wh == 0
  | 5 => !isM && !(bitAt wh 4 && field wh 3 2 != 0)
  | 6 => wh == 0
  | _ => false

/-! ### The image -/

/-- A context image as it is read (R275): element records and link records in order. -/
structure CtxImage where
  recs  : List (Nat × Nat)
  links : List Nat
  deriving DecidableEq, Repr

/-- Magic of a context image. -/
def ctxMagic : Nat := 0x4358494D

/-- The position a record names in a region: `PK`, `TI`, `SUBP`. -/
def recPos (g : Region) (h : Nat) : Option Nat :=
  let ti := field h 13 9
  let sp := field h 8 5
  match field h 15 14 with
  | 0 => if ti < g.cTiles.length then some (lanePos ti sp) else none
  | 1 => if ti < g.cTiles.length ∧ sp < 4 then some (slotPos ti sp) else none
  | 2 => if ti < g.mTiles.length ∧ sp = 0 then some (rolePos ti) else none
  | _ => if ti < g.mTiles.length ∧ sp < 2 then some (agPos ti sp) else none

/-- The kind of position that a record's `PK` names, whether or not it lies in the region. -/
def rawPos (h : Nat) : Nat :=
  match field h 15 14 with
  | 0 => lanePos (field h 13 9) (field h 8 5)
  | 1 => slotPos (field h 13 9) (field h 8 5 % 4)
  | 2 => rolePos (field h 13 9)
  | _ => agPos (field h 13 9) (field h 8 5 % 2)

/-- An element record that names a position: its index, position and word. -/
structure Placed where
  idx  : Nat
  pos  : Nat
  w    : Nat
  deriving DecidableEq, Repr

/-- The records that name a position nobody named before, in image order. -/
def placedOf (g : Region) : Nat → List (Nat × Nat) → List Placed
  | _, [] => []
  | i, (h, w) :: rs =>
    match recPos g h with
    | none => placedOf g (i + 1) rs
    | some pos => ⟨i, pos, w⟩ :: (placedOf g (i + 1) rs).filter fun p => p.pos != pos

/-- A link record's key among routing entries or relay entries. -/
def linkRecKey (r : Nat) : Nat := field r 13 9 * 16 + field r 8 7 * 4 + field r 6 5

/-- A finding: `PART`, `INDEX`, `RCODE`. -/
structure Finding where
  part : Nat
  idx  : Nat
  code : Nat
  deriving DecidableEq, Repr

/-- Whether a finding is reported before another: record order, then the lower code (R363). -/
def Finding.before (x y : Finding) : Bool :=
  decide (x.part < y.part) || (x.part == y.part && (decide (x.idx < y.idx) || (x.idx == y.idx && decide (x.code < y.code))))

/-- The status word of a finding. -/
def Finding.status (x : Finding) : Word := wordOf (x.part * 2 ^ 32 + x.idx * 2 ^ 16 + x.code)

/-- The finding that is reported. -/
def firstFinding : List Finding → Option Finding
  | [] => none
  | x :: xs => match firstFinding xs with
    | some y => some (if y.before x then y else x)
    | none => some x

/-! ### Checks of a record by itself -/

/-- The codes of an element record by itself. Of one whose position lies outside the region, what its `PK` decides counts
too (R232, R363). -/
def recordCodes (g : Region) (rec : Nat × Nat) : List Nat :=
  let (h, w) := rec
  let inside := (recPos g h).isSome
  let pos := (recPos g h).getD (rawPos h)
  let e := eopOf w
  let stands := placedOk pos e || (!inside && field h 15 14 == 3 && (e == eopAgr || e == eopAgw))
  let sels := if (natRange 0 4).all (selectOk pos w) then [] else [0x8]
  let dsts := if (natRange 0 3).all (fun j => destOk pos (dstOf w j)) then [] else [0x9]
  let flds := if field h 63 16 != 0 || h % 32 != 0 then [0xB]
    else if e = 0 then (if w = 0 then [] else [0xB])
    else if stands && !(WordIn.fieldsOk ⟨e, cfgOf w⟩) then [0xB] else []
  sels ++ dsts ++ (if stands then [] else [0xA]) ++ flds ++ (if inside then [] else [0xC])

/-- The codes of a link record by itself (R57, R60). A side of a relay that leads to a tile outside the region counts as an
absent one, 0x0008: R57 names both findings and does not say which holds there (DESIGN CHOICE, log entry 124). -/
def linkCodes (g : Region) (r : Nat) : List Nat :=
  let ent := r / 2 ^ 32
  let ti := field r 13 9
  if field r 30 14 != 0 || r % 32 != 0 then [0x7]
  else if bitAt r 31 then
    if field ent 31 3 ≠ 0 then [0x7]
    else
      (if !bitAt ent 2 && (ent % 4 == field r 8 7 || ((g.mTiles[ti]?).any fun m => (g.sideIdx m (ent % 4)).isNone)) then [0x8] else []) ++
      (if ti < g.mTiles.length then [] else [0xC])
  else
    (if field ent 31 24 != 0 || field ent 14 12 != 0 || decide (8 < field ent 11 8) || (field ent 7 4 != 0 && ent % 16 != 14) then [0x7] else []) ++
    (if ti < g.cTiles.length then [] else [0xC])

/-! ### Checks of the whole image -/

/-- What the whole-image checks see: the placed records, and the context they would make. -/
structure Whole where
  g  : Region
  ps : List Placed
  c  : Ctx
  deriving DecidableEq, Repr

/-- An empty context slot. -/
def Ctx.blank : Ctx :=
  ⟨.free, false, none, [], [], [], none, 0, 0, none, none, [], [], [], [], [], 0, false, false, 0, false, false, false, [], []⟩

/-- The record index of a position. -/
def Whole.idxOf (x : Whole) (pos : Nat) : Nat := ((x.ps.find? fun p => p.pos == pos).map (·.idx)).getD 0

/-- The word at a position. -/
def Whole.word (x : Whole) (pos : Nat) : Nat := x.c.word pos

/-- Every sender with what its destination byte names: position, destination, target. -/
def Whole.sends (x : Whole) : List (Placed × Nat × Dst) :=
  x.ps.flatMap fun p => (natRange 0 3).filterMap fun j =>
    if dstOf p.w j = 0 ∨ !destOk p.pos (dstOf p.w j) then none else some (p, j, destOfByte x.g p.pos p.w (dstOf p.w j))

/-- A link's arrival wires: two for a fold (R336). -/
def Whole.arrivals (x : Whole) (ct port vl : Nat) (folded : Bool) : List Wire :=
  match x.c.hop x.g ct port vl with
  | some (.port c s v) => if folded then [.port c s v, .port c s (v + 1)] else [.port c s v]
  | some w => [w]
  | none => []

/-- The senders of a link, in record order. -/
def Whole.linkSenders (x : Whole) (ct port vl : Nat) : List (Placed × Nat) :=
  x.sends.filterMap fun s => if s.2.2 = .link ct port vl then some (s.1, s.2.1) else none

/-- The words of M-tiles that send on a wire, in record order: those of one port and virtual lane (R57, R336). -/
def Whole.mSenders (x : Whole) (w : Wire) : List (Placed × Nat) :=
  x.sends.filterMap fun s => if 1024 ≤ s.1.pos ∧ s.2.2 = .wire w then some (s.1, s.2.1) else none

/-- The wires a sender's tokens may arrive on, with the slots of the hop. -/
def Whole.ends (x : Whole) (d : Dst) : List Wire × Nat :=
  match d with
  | .wire (.port c s v) => (if 1 < (x.mSenders (.port c s v)).length then [.port c s v, .port c s (v + 1)] else [.port c s v], 0)
  | .wire w => ([w], 0)
  | .link ct port vl =>
    (x.arrivals ct port vl (decide (1 < (x.linkSenders ct port vl).length)), entrySlots (x.c.entryOf (linkKey ct port vl)))
  | _ => ([], 0)

/-- An edge between two elements: sender, reader, latched slots of the hop. -/
structure Edge where
  src   : Nat
  dst   : Nat
  slots : Nat
  deriving DecidableEq, Repr

/-- All edges of the context. -/
def Whole.edges (x : Whole) : List Edge :=
  x.sends.flatMap fun s =>
    let (ws, n) := x.ends s.2.2
    ws.flatMap fun w => (x.c.readers w).map fun r => ⟨s.1.pos, r.1, n⟩

/-- The wires that tokens arrive on, with the sender and whether it is delivered inward. -/
def Whole.feeds (x : Whole) : List (Placed × Wire × Bool) :=
  x.sends.flatMap fun s =>
    (x.ends s.2.2).1.map fun w => (s.1, w, match s.2.2 with | .wire _ => decide (s.1.pos < 1024) | _ => false)

/-- Wires that a virtual lane of a port carries, so that only one input may read each (R230). -/
def Wire.shared : Wire → Bool
  | .port .. => true | .fromM .. => true | .mside .. => true | .toM _ => true | _ => false

/-- Findings of the selects (R230, R323): a virtual lane read by two inputs, one fed both by the
neighbour and inward, whether a link or a circuit comes from the neighbour, and a partner outside the region. -/
def Whole.laneFindings (x : Whole) : List Finding :=
  let reads : List (Placed × Wire) := x.ps.flatMap fun p => (natRange 0 4).filterMap fun i => (inputWire p.pos p.w i).map fun w => (p, w)
  let twice := reads.zipIdx.filterMap fun r =>
    if r.1.2.shared && (reads.take r.2).any (fun q => q.2 == r.1.2) then some (⟨1, r.1.1.idx, 0x8⟩ : Finding) else none
  let fs := x.feeds
  let both := fs.zipIdx.filterMap fun f =>
    match f.1.2.1 with
    | .port .. => if (fs.take f.2).any (fun q => q.2.1 == f.1.2.1 && q.2.2 != f.1.2.2) then some (⟨1, f.1.1.idx, 0x8⟩ : Finding) else none
    | _ => none
  let far := reads.filterMap fun r =>
    match r.2 with
    | .fromM ct _ => if (partnerM x.g ct).isNone then some (⟨1, r.1.idx, 0xC⟩ : Finding) else none
    | .toM mt => if (partnerC x.g mt).isNone then some (⟨1, r.1.idx, 0xC⟩ : Finding) else none
    | _ => none
  let ended := fs.filterMap fun f =>
    match f.2.1 with
    | .port ct side vl => if f.2.2 && (x.c.inlets.any fun i => i.1 == ct * 16 + side * 4 + vl) then some (⟨1, f.1.idx, 0x8⟩ : Finding) else none
    | _ => none
  twice ++ both ++ ended ++ far

/-- Findings of the destinations (R231, R34, R57): hops that leave the region, two senders to one carry
return, two elements that name the predicate network. -/
def Whole.destFindings (x : Whole) : List Finding :=
  let ss := x.sends
  let out := ss.filterMap fun s =>
    match s.2.2 with
    | .bad => some (⟨1, s.1.idx, 0xC⟩ : Finding)
    | .link ct port vl => if (hopFrom x.g x.c.relays ct port vl).isNone && !mhas x.c.circs (linkKey ct port vl) then some ⟨1, s.1.idx, 0xC⟩ else none
    | _ => none
  let twice := ss.zipIdx.filterMap fun s =>
    let same (q : Placed × Nat × Dst) : Bool := q.2.2 == s.1.2.2 && q.1.pos != s.1.1.pos
    match s.1.2.2 with
    | .wire (.carry _) => if (ss.take s.2).any same then some (⟨1, s.1.1.idx, 0x9⟩ : Finding) else none
    | .wire .named => if (ss.take s.2).any same then some ⟨1, s.1.1.idx, 0x9⟩ else none
    | _ => none
  out ++ twice

/-- The arrival side and leaving side of every relay arrival that is configured or used by a hop: M-tile
index, arrival side, virtual lane, leaving side. -/
def Whole.relayUses (x : Whole) : List (Nat × Nat × Nat × Nat) :=
  let recs := x.c.relays.filterMap fun r => if bitAt r.2 2 then none else some (r.1 / 16, r.1 / 4 % 4, r.1 % 4, r.2 % 4)
  let hops := x.sends.filterMap fun s =>
    match s.2.2 with
    | .link ct port vl =>
      match (x.g.cTiles[ct]?).bind fun c => x.g.sideIdx c port with
      | some mt => if mhas x.c.relays (relayKey mt (oppSide port) vl) || mhas x.c.circs (linkKey ct port vl) then none else some (mt, oppSide port, vl, port)
      | none => none
    | _ => none
  recs ++ hops

/-- Findings of the relay records (R57): two arrivals that leave one side on one virtual lane. -/
def Whole.relayFindings (x : Whole) (links : List Nat) : List Finding :=
  let us := x.relayUses
  links.zipIdx.filterMap fun l =>
    let r := l.1
    let mt := field r 13 9
    let ent := r / 2 ^ 32
    if bitAt r 31 && !bitAt ent 2 &&
      us.any (fun u => u.1 == mt && u.2.2.1 == field r 6 5 && u.2.2.2 == ent % 4 && u.2.1 != field r 8 7 &&
        !((links.drop (l.2 + 1)).any fun q => bitAt q 31 && linkRecKey q == relayKey mt u.2.1 u.2.2.1))
    then some (⟨2, l.2, 0x8⟩ : Finding) else none

/-- The context with a note of every fold, so that the senders on each of its two lanes can be told; which arm takes
position 0 does not matter to the sides of a join. -/
def Whole.noted (x : Whole) : Ctx :=
  { x.c with routing := x.sends.foldl (fun m s =>
      match s.2.2 with
      | .link ct port vl =>
        if 1 < (x.linkSenders ct port vl).length ∧ (mgetD m (linkKey ct port vl) 0) < 2 ^ 32 then
          mset m (linkKey ct port vl) (x.c.entryOf (linkKey ct port vl) + foldNote s.1.pos s.2.1)
        else m
      | .wire (.port c p v) =>
        if 1024 ≤ s.1.pos ∧ 1 < (x.mSenders (.port c p v)).length ∧ mgetD m (mLaneKey c p v) 0 < 2 ^ 32 then
          mset m (mLaneKey c p v) (foldNote s.1.pos s.2.1)
        else m
      | _ => m) x.c.routing }

/-- Findings of the joins (R61, R62): a sender and its link, a link and the input it ends at. -/
def Whole.joinFindings (x : Whole) : List Finding :=
  x.sends.flatMap fun s =>
    match s.2.2 with
    | .link ct port vl =>
      let cf := x.c.entryOf (linkKey ct port vl) % 16
      let a := if (x.noted.sidesOut x.g s.1.pos s.2.1 0).all fun o => joinOk o.fmt cf then [] else [(⟨1, s.1.idx, 0x6⟩ : Finding)]
      let b := (x.ends s.2.2).1.flatMap fun w => (x.c.readers w).filterMap fun r =>
        match inSide (x.word r.1) r.2 with
        | some i => if joinOk cf i.fmt then none else some (⟨1, x.idxOf r.1, 0x6⟩ : Finding)
        | none => none
      a ++ b
    | _ => []

/-- What reaches from a position along edges without slots; a DLY adds its one slot (R48, R59, R320). -/
def Whole.zeroReach (x : Whole) (es : List Edge) : Nat → List Nat → List Nat
  | 0, seen => seen
  | n + 1, seen =>
    let more := (es.filter fun e => e.slots == 0 && eopOf (x.word e.src) != 0x53 && seen.contains e.src && !seen.contains e.dst).map (·.dst)
    if more.isEmpty then seen else x.zeroReach es n (seen ++ more)

/-- Findings of the zero-slot loops, at the first element record that lies on one (R48). A chain of hops
without slots is one hop long, since each hop ends at an element (R59). -/
def Whole.loopFindings (x : Whole) : List Finding :=
  let es := x.edges
  x.ps.filterMap fun p =>
    let start := (es.filter fun e => e.src == p.pos && e.slots == 0 && eopOf p.w != 0x53).map (·.dst)
    if (x.zeroReach es es.length start).contains p.pos then some ⟨1, p.idx, 0x2⟩ else none

/-! ### Folds (R67, R68, R335, R336) -/

/-- The elements on the backward trace of a position, nearest first. -/
def traceBack (es : List Edge) : Nat → List Nat → List Nat → List Nat
  | 0, _, seen => seen
  | _ + 1, [], seen => seen
  | n + 1, p :: queue, seen =>
    let more := ((es.filter fun e => e.dst == p).map (·.src)).filter fun q => !seen.contains q && !queue.contains q
    traceBack es n (queue ++ more.eraseDups) (seen ++ more.eraseDups)

/-- A path of an arm: its latency in stages and the PADs on it. -/
structure ArmPath where
  lat  : Nat
  pads : List Nat
  deriving DecidableEq, Repr

/-- The stages of an element: d for a PAD, one for any other (R335). -/
def Whole.stages (x : Whole) (pos : Nat) : Nat := if eopOf (x.word pos) = 0x4B then (cfgOf (x.word pos)).ops.toNat % 32 else 1

/-- The longer of two paths. -/
def longer (a b : Option ArmPath) : Option ArmPath :=
  match a, b with
  | some u, some v => if u.lat < v.lat then b else a
  | some _, none => a
  | none, _ => b

/-- The path with the most latched stages from the fork's output through an element (R67). -/
def Whole.armPath (x : Whole) (es : List Edge) (fork : Nat) : Nat → List Nat → Nat → Option ArmPath
  | 0, _, _ => none
  | n + 1, seen, pos =>
    let here (p : ArmPath) (hop : Nat) : ArmPath :=
      ⟨p.lat + hop + x.stages pos, if eopOf (x.word pos) = 0x4B then p.pads ++ [pos] else p.pads⟩
    (es.filter fun e => e.dst == pos).foldl (fun best e =>
      let hop := if e.slots = 0 then 0 else 1
      if e.src = fork then longer best (some (here ⟨0, []⟩ hop))
      else if seen.contains e.src then best
      else longer best ((x.armPath es fork n (e.src :: seen) e.src).map fun p => here p hop)) none

/-- What the loader makes of a fold: the arm at position 0, the depths of its PADs, or a finding. -/
inductive FoldEnd where
  | ok (key : Nat) (arm : Nat × Nat) (pads : List (Nat × Nat))
  | bad (f : Finding)
  deriving DecidableEq, Repr

/-- An arm judged: base latency without its PADs, PAD stages, record index, position and destination,
PADs on its path, latency. -/
structure Arm where
  base : Nat
  pad  : Nat
  idx  : Nat
  pos  : Nat
  j    : Nat
  pads : List Nat
  lat  : Nat
  deriving DecidableEq, Repr

/-- Whether an arm is the shorter of two: by latency without its PADs, then the one with more padding, then
the one whose last element stands earlier (R67). -/
def Arm.first (a b : Arm) : Bool :=
  decide (a.base < b.base) || (a.base == b.base && (decide (b.pad < a.pad) || (a.pad == b.pad && decide (a.idx ≤ b.idx))))

/-- The active depths of the PADs of the shorter arm, which add up to ΔL (R68). -/
def trimPads (x : Whole) : Nat → List Nat → List (Nat × Nat)
  | _, [] => []
  | left, p :: ps => let d := Nat.min left (x.stages p); (p, d) :: trimPads x (left - d) ps

/-- Whether a virtual lane of a port is free of every use but those of the arms of a fold: nothing reads or feeds it
from outside, no circuit ends at it, and no other element sends on it. -/
def Whole.laneFree (x : Whole) (arms : List Nat) (ct port vl : Nat) (receives : Bool) : Bool :=
  !(x.c.inlets.any fun i => i.1 == ct * 16 + port * 4 + vl) &&
  (if receives then (x.linkSenders ct port vl).isEmpty && !(x.feeds.any fun f => f.2.1 == .port ct port vl && !arms.contains f.1.pos)
   else (x.linkSenders ct port vl).all (fun p => arms.contains p.1.pos) && (x.c.readers (.port ct port vl)).isEmpty &&
     !(x.feeds.any fun f => f.2.1 == .port ct port vl))

/-- Whether a fold has the form of R336: two arms, v 0 or 2, and v and v + 1 free of every other use on
the sending and the receiving port. -/
def Whole.foldForm (x : Whole) (ct port vl : Nat) : Bool :=
  let arms := (x.linkSenders ct port vl).map fun p => p.1.pos
  (x.linkSenders ct port vl).length == 2 && (vl == 0 || vl == 2) && (x.linkSenders ct port (vl + 1)).isEmpty &&
  x.laneFree arms ct port vl false && x.laneFree arms ct port (vl + 1) false &&
  (match x.c.hop x.g ct port vl with
   | some (.port c s v) => x.laneFree arms c s v true && x.laneFree arms c s (v + 1) true
   | _ => false)

/-- Whether a fold of two words of one M-tile has that form; `c`, `s` and `v` are the facing port of the C-tile and the
lane. -/
def Whole.mFoldForm (x : Whole) (c s v : Nat) : Bool :=
  let ss := x.mSenders (.port c s v)
  let arms := ss.map fun p => p.1.pos
  let mt := ((x.g.cTiles[c]?).bind fun t => x.g.sideIdx t s).getD 0
  let out := oppSide s
  let sendFree (l : Nat) : Bool :=
    (x.c.readers (.mside mt out l)).isEmpty && !(x.feeds.any fun f => f.2.1 == .mside mt out l) &&
    !(x.relayUses.any fun u => u.1 == mt && u.2.2.1 == l && u.2.2.2 == out)
  ss.length == 2 && (v == 0 || v == 2) && (x.mSenders (.port c s (v + 1))).isEmpty && sendFree v && sendFree (v + 1) &&
  x.laneFree arms c s v true && x.laneFree arms c s (v + 1) true

/-- One fold: of which arms, whether it has the form, and its key. -/
def Whole.fold (x : Whole) (es : List Edge) (arms : List (Placed × Nat)) (form : Bool) (key : Nat) : FoldEnd :=
  match arms with
  | [(p, j), (q, k)] =>
    let later : Finding := ⟨1, Nat.max p.idx q.idx, 0x5⟩
    if !form then .bad later
    else
      let ta := traceBack es (x.ps.length + 1) [p.pos] [p.pos]
      let tb := traceBack es (x.ps.length + 1) [q.pos] [q.pos]
      match ta.find? fun e => tb.contains e with
      | none => .bad later
      | some fork =>
        let arm (r : Placed) (d : Nat) : Arm :=
          let path := if r.pos = fork then ⟨0, []⟩ else (x.armPath es fork (x.ps.length + 1) [r.pos] r.pos).getD ⟨0, []⟩
          let pad := (path.pads.map x.stages).foldr (· + ·) 0
          ⟨path.lat - pad, pad, r.idx, r.pos, d, path.pads, path.lat⟩
        let a := arm p j
        let b := arm q k
        let (s, l) := if a.first b then (a, b) else (b, a)
        let dl := l.lat - s.base
        if s.pad < dl then
          let at' := (s.pads.map x.idxOf).foldl (fun m i => match m with | none => some i | some n => some (Nat.min n i)) (none : Option Nat)
          .bad ⟨1, at'.getD s.idx, 0x4⟩
        else .ok key (s.pos, s.j) (trimPads x dl s.pads)
  | ss => .bad ⟨1, (ss.map fun s => s.1.idx).foldl Nat.max 0, 0x5⟩

/-- Every fold of the context: of links, and of lanes of M-tile ports. -/
def Whole.folds (x : Whole) : List FoldEnd :=
  let es := x.edges
  let keys := (x.sends.filterMap fun s => match s.2.2 with | .link ct port vl => some (ct, port, vl) | _ => none).eraseDups
  let faces := (x.sends.filterMap fun s =>
    match s.2.2 with
    | .wire (.port c p v) => if 1024 ≤ s.1.pos then some (c, p, v) else none
    | _ => none).eraseDups
  (keys.filterMap fun (ct, port, vl) =>
    let ss := x.linkSenders ct port vl
    if 1 < ss.length then some (x.fold es ss (x.foldForm ct port vl) (linkKey ct port vl)) else none) ++
  faces.filterMap fun (c, p, v) =>
    let ss := x.mSenders (.port c p v)
    if 1 < ss.length then some (x.fold es ss (x.mFoldForm c p v) (mLaneKey c p v)) else none

/-! ### Circuits (R57, R59, R64-R66; log entry 23) -/

/-- What stands around the region that an image is loaded for: its number, the regions of the module, the circuits
that its launch declares, and of these the ones that are cut from the start, each with the POISON that it gives and,
where that comes at once, its time (R379, R418). -/
structure Outside where
  r        : Nat
  regions  : Map Region
  declared : List CircuitPath
  cut      : List (CircuitPath × Option Nat × Token)
  deriving DecidableEq, Repr

/-- A circuit as it is loaded: one of those that are cut is severed. -/
def Outside.atLoad (o : Outside) (x : Circuit) : Circuit :=
  match o.cut.find? fun q => q.1 == x.path with
  | some q => x.sever 0 q.2.1 q.2.2
  | none => x

/-- The circuits that are loaded, those left out that run by a given way. -/
def Outside.others (o : Outside) (x : CircuitPath) : List CircuitPath :=
  ((o.regions.flatMap fun g => g.2.ctxs.flatMap fun c => c.circs.map fun y => { y.2.path with ctx := 0, dest := none }).eraseDups).filter
    fun y => !(y.r == x.r && y.link == x.link && y.via == x.via)

/-- The lanes by which the arrivals at the relays of a context leave: grid tile, side * 4 + virtual lane. -/
def Whole.relayLanes (x : Whole) (r : Nat) : List (Nat × Nat) :=
  x.relayUses.filterMap fun u => (x.g.mTiles[u.1]?).map fun m => (gridTile r m, u.2.2.2 * 4 + u.2.2.1)

/-- The relay lanes that the contexts of the module use. -/
def Outside.relays (o : Outside) : List (Nat × Nat) :=
  o.regions.flatMap fun g => g.2.ctxs.flatMap fun c =>
    if c.status = .free then [] else (Whole.mk g.2 (c.elems.map fun e => ⟨0, e.1, e.2⟩) c).relayLanes g.1

/-- The longest chain of hops of no slots. -/
def zeroChain : Nat → List Nat → Nat
  | n, [] => n
  | n, 0 :: xs => zeroChain (n + 1) xs
  | n, _ :: xs => Nat.max n (zeroChain 0 xs)

/-- The codes of a circuit that a link of the image feeds: a way that does not lead to its end, or a facing pair that
carries 32 already, 0x000C; a lane that carries something else, 0x0008; a hop's slots, 0x0007; its format, 0x0006; a
chain of hops without slots, 0x0003. `before` holds the circuits that the image itself makes before it. -/
def Whole.circuitCodes (x : Whole) (o : Outside) (before : List CircuitPath) (key : Nat) (y : CircuitPath) : List Nat :=
  let start := (x.g.cTiles[key / 16]?).map (gridTile o.r)
  let stop := y.dest.bind fun e => (mget o.regions e.r).bind fun g => (g.cTiles[e.ct]?).map (gridTile e.r)
  let others := o.others y ++ before
  let taken := others.flatMap (·.via) ++ o.relays ++ x.relayLanes o.r
  let full (p : Nat × Nat) : Bool := decide (32 ≤ (others.filter fun z => z.crossings.contains p).length)
  (if y.ok start stop && !y.crossings.any full then [] else [0xC]) ++
  (if y.via.any taken.contains then [0x8] else []) ++
  (if y.hops.all (· ≤ 8) then [] else [0x7]) ++
  (if linkSide y.entry == linkSide (x.c.entryOf key) then [] else [0x6]) ++
  (if 4 < zeroChain 0 (entrySlots (x.c.entryOf key) :: y.hops) then [0x3] else [])

/-- Findings of the circuits: those that the image's links feed, at the first record that sends on the link; relay lanes
that a loaded circuit has; and inputs that a circuit ends at. -/
def Whole.circuitFindings (x : Whole) (o : Outside) (links : List Nat) : List Finding :=
  let idx (key : Nat) : Nat := ((x.linkSenders (key / 16) (key / 4 % 4) (key % 4)).head?.map fun p => p.1.idx).getD 0
  let earlier (y z : Nat × Circuit) : Bool :=
    z.2.path.link.isNone || decide (idx z.1 < idx y.1) || (idx z.1 == idx y.1 && decide (z.1 < y.1))
  let own := (x.c.circs.filter fun y => y.2.path.link.isSome).flatMap fun y =>
    (x.circuitCodes o ((x.c.circs.filter (earlier y)).map fun z => z.2.path) y.1 y.2.path).map fun k => (⟨1, idx y.1, k⟩ : Finding)
  let taken := (o.others ⟨0, 0, none, [], [], 0, none, none⟩).flatMap (·.via)
  let used (mt d vl : Nat) : Bool := ((x.g.mTiles[mt]?).any fun m => taken.contains (gridTile o.r m, d * 4 + vl))
  let recs := links.zipIdx.filterMap fun l =>
    if bitAt l.1 31 && !bitAt (l.1 / 2 ^ 32) 2 && used (field l.1 13 9) (l.1 / 2 ^ 32 % 4) (field l.1 6 5) then some (⟨2, l.2, 0x8⟩ : Finding) else none
  let hops := x.sends.filterMap fun s =>
    match s.2.2 with
    | .link ct port vl =>
      match (x.g.cTiles[ct]?).bind fun c => x.g.sideIdx c port with
      | some mt => if !mhas x.c.relays (relayKey mt (oppSide port) vl) && !mhas x.c.circs (linkKey ct port vl) && used mt port vl
          then some (⟨1, s.1.idx, 0x8⟩ : Finding) else none
      | none => none
    | _ => none
  let ends := x.c.inlets.flatMap fun i => (x.c.readers (.port (i.1 / 16) (i.1 / 4 % 4) (i.1 % 4))).filterMap fun r =>
    match inSide (x.word r.1) r.2 with
    | some q => if joinOk (i.2 % 16) q.fmt then none else some (⟨1, x.idxOf r.1, 0x6⟩ : Finding)
    | none => none
  own ++ recs ++ hops ++ ends

/-! ### The check of an image -/

/-- What a loaded image leaves in its slot: words, routing entries with fold notes, relay entries, and the
register of every trimmed PAD. -/
structure Loaded where
  elems   : Map Nat
  routing : Map Nat
  relays  : Map Nat
  pads    : List (Nat × Nat)
  circs   : Map Circuit
  inlets  : List (Nat × Nat)
  deriving DecidableEq, Repr

/-- Roles and AG words together (R329, R331): no AGW beside a CBNK, and select 7 on A of an AG word only
beside another reader of the entry queue. -/
def Whole.roleFindings (x : Whole) : List Finding :=
  let entryReaders := x.c.readers .entry
  x.ps.flatMap fun p =>
    match posKind p.pos with
    | .ag mt w =>
      (if w = 1 ∧ eopOf (x.word (rolePos mt)) = eopCbnk then [(⟨1, p.idx, 0xB⟩ : Finding)] else []) ++
      (if inputWire p.pos p.w 0 = some .entry ∧ !(entryReaders.any fun r => r.1 != p.pos) then [⟨1, p.idx, 0xB⟩] else [])
    | _ => []

/-- Link records that name a position named before. -/
def dupLinks (links : List Nat) : List Finding :=
  links.zipIdx.filterMap fun l =>
    if (links.take l.2).any fun q => linkRecKey q == linkRecKey l.1 && bitAt q 31 == bitAt l.1 31 then some (⟨2, l.2, 0xC⟩ : Finding) else none

/-- Element records that name a position named before. -/
def dupRecs (g : Region) (recs : List (Nat × Nat)) : List Finding :=
  recs.zipIdx.filterMap fun r =>
    match recPos g r.1.1 with
    | none => none
    | some pos => if (recs.take r.2).any fun q => recPos g q.1 == some pos then some (⟨1, r.2, 0xC⟩ : Finding) else none

/-- The check of an image for context k of a region: what loading it leaves, or the status word of the refusal. -/
def checkImage (o : Outside) (g : Region) (k : Nat) (im : CtxImage) : Except Word Loaded :=
  let ps := placedOf g 0 im.recs
  let elems := ps.foldl (fun m p => mset m p.pos p.w) ([] : Map Nat)
  let part (rly : Bool) : Map Nat := im.links.foldl (fun m r =>
    if bitAt r 31 = rly ∧ ¬ mhas m (linkRecKey r) then mset m (linkRecKey r) (r / 2 ^ 32) else m) []
  let c : Ctx :=
    { Ctx.blank with
      status := .staged, elems := elems, routing := part false, relays := part true
      circs := mmapv o.atLoad (newCircs o.r k o.declared), inlets := newInlets o.r k o.declared }
  let x : Whole := ⟨g, ps, c⟩
  let own := (im.recs.zipIdx.flatMap fun r => (recordCodes g r.1).map fun k => (⟨1, r.2, k⟩ : Finding)) ++
    (im.links.zipIdx.flatMap fun l => (linkCodes g l.1).map fun k => (⟨2, l.2, k⟩ : Finding))
  let folds := x.folds
  let bad := folds.filterMap fun f => match f with | .bad y => some y | _ => none
  match firstFinding (own ++ dupRecs g im.recs ++ dupLinks im.links ++ x.laneFindings ++ x.destFindings ++
      x.relayFindings im.links ++ x.joinFindings ++ x.loopFindings ++ x.roleFindings ++
      x.circuitFindings o im.links ++ bad) with
  | some f => .error f.status
  | none =>
    .ok { elems := elems.filter fun e => e.2 != 0
          relays := c.relays
          routing := folds.foldl (fun m f => match f with
            | .ok key arm _ => mset m key (c.entryOf key + foldNote arm.1 arm.2)
            | .bad _ => m) c.routing
          circs := c.circs
          inlets := c.inlets
          pads := folds.flatMap fun f => match f with | .ok _ _ ps => ps | .bad _ => [] }

end Sys2Proof.Machine
end

