-- ==== Sys2Proof/Machine/FolioCheck.lean ====
section
/-!
DEFINITION. What WGL refuses (spec/21 R363; R121, R123, R125-R128, R348, R349), and what a Folio that it
accepts leaves in its slot.
-/

namespace Sys2Proof.Machine

/-- Magic of a Folio image (R125). -/
def folioMagic : Nat := 0x464F4C49

/-- Header codes (R125, R128): 0x0020, then 0x0021. -/
def folioHeader (g : Region) (hdr : List Word) : Option Nat :=
  let w (i : Nat) : Nat := (lget hdr i 0).toNat
  let n := field (w 0) 63 48
  let nct := field (w 1) 21 16
  let nout := field (w 1) 12 8
  let nin := field (w 1) 4 0
  if w 0 % 2 ^ 32 ≠ folioMagic ∨ field (w 0) 39 32 ≠ 1 ∨ field (w 0) 47 41 ≠ 0 ∨ n = 0 ∨ 2048 < n ∨
     field (w 1) 63 22 ≠ 0 ∨ field (w 1) 15 13 ≠ 0 ∨ field (w 1) 7 5 ≠ 0 ∨ nct = 0 ∨ 32 < nct ∨
     nout = 0 ∨ 16 < nout ∨ nin = 0 ∨ 16 < nin ∨ w 2 ≠ 0 ∨ w 3 ≠ 0 then some 0x20
  else if 64 * g.cTiles.length < n ∨ g.cTiles.length < nct then some 0x21
  else none

/-- A declared width (R126). -/
def declared (e : Nat) : Nat := 16 + 8 * field e 59 58

/-- Width of a source: the port width of the mode, or the declared width of its node (R121). -/
def sourceWidth (nodes : List Word) (mode r : Nat) : Nat :=
  if bitAt r 11 then folioBits mode else declared (lget nodes r 0).toNat

/-- How often nodes read a node. -/
def readsOf (nodes : List Word) (n : Nat) : Nat :=
  ((nodes.flatMap fun w => entrySources w.toNat).filter fun r => !bitAt r.2 11 && r.2 == n).length

/-- Whether the sources of entry n are as R126 gives (log entry 108). -/
def sourcesOk (nodes : List Word) (nin n e : Nat) : Bool :=
  let refOk (r : Nat) : Bool := if bitAt r 11 then field r 10 4 == 0 && decide (r % 16 < nin) else decide (r < n)
  let opt (r : Nat) : Bool := r == noSource || refOk r
  decide (field e 63 60 ≤ 3) && refOk (field e 55 44) && field e 55 44 != noSource &&
  (match field e 63 60 with
   | 0 => opt (field e 43 32)
   | 1 => opt (field e 43 32) && opt (field e 31 20) && opt (field e 19 8)
   | _ => true) &&
  decide (readsOf nodes n ≤ 4)

/-- Whether the declared width of an entry is as R121 asks. -/
def widthOk (nodes : List Word) (mode e : Nat) : Bool :=
  let w := declared e
  let ws := (entrySources e).map fun r => (r.1, sourceWidth nodes mode r.2)
  match field e 63 60 with
  | 0 => decide ((ws.map fun x => x.2 + (if x.1 = 0 then field e 31 27 else field e 26 22)).foldl Nat.max 0 + 1 ≤ w)
  | 1 => decide ((ws.map (·.2)).foldl Nat.max 0 + 2 ≤ w)
  | _ => ws.all fun x => x.2 == w

/-- Whether the other fields of an entry are as R123 and R126 ask. -/
def nodeFieldsOk (mode e : Nat) : Bool :=
  field e 57 56 == 0 &&
  (match field e 63 60 with
   | 0 => field e 19 0 == 0
   | 1 => field e 7 0 == 0
   | 2 => field e 43 39 == 0 && field e 31 0 == 0 && decide (1 ≤ field e 38 32) && decide (field e 38 32 ≤ 64)
   | _ =>
     field e 26 0 == 0 && decide (field e 43 38 ≤ 39) && decide (field e 37 35 ≤ 4) &&
     field e 34 31 == (if mode = 0 then 4 else 3))

/-- The codes of node entry n. -/
def nodeCodes (nodes : List Word) (mode nin nout n e : Nat) : List Nat :=
  (if sourcesOk nodes nin n e && (field e 63 60 != 3 || decide (field e 30 27 < nout)) then [] else [0x22]) ++
  (if decide (field e 63 60 ≤ 3) && !widthOk nodes mode e then [0x23] else []) ++
  (if decide (field e 63 60 ≤ 3) && !nodeFieldsOk mode e then [0x24] else [])

/-- The node slot a placement entry names (R127). -/
def placeOfEntry (p : Nat) : Nat := field p 15 5

/-- The codes of placement entry n: outside the region, or a slot used before. -/
def placeCodes (g : Region) (places : List Word) (n : Nat) : List Nat :=
  let p := (lget places n 0).toNat
  if p % 32 = 0 ∧ field p 15 11 < g.cTiles.length ∧ ¬ (places.take n).any (fun q => placeOfEntry q.toNat == placeOfEntry p) then [] else [0x25]

/-- Whether the ports of the list as a whole are used as R128 asks. -/
def portsOk (nodes : List Word) (nin nout : Nat) : Bool :=
  let named := (nodes.flatMap fun w => entrySources w.toNat).filterMap fun r => refPort r.2
  let outs := nodes.filterMap fun w => if field w.toNat 63 60 = 3 then some (field w.toNat 30 27) else none
  (natRange 0 nin).all (fun k => named.contains k) && (natRange 0 nout).all fun k => (outs.filter (· == k)).length == 1

/-- Whether node n of a Folio meets something the staged image holds: a lane that is not empty (R348). -/
def laneMeets (c : Ctx) (f : Folio) (n : Nat) : Bool :=
  let p := (lget f.places n 0).toNat
  c.word (lanePos (field p 15 11) (field p 10 7)) != 0

/-- The elements of a context that send on a link. -/
def Ctx.linkUsers (c : Ctx) (g : Region) (ct port vl : Nat) : List Nat :=
  (c.elems.filter fun e => (natRange 0 3).any fun j => destOfByte g e.1 e.2 (dstOf e.2 j) == .link ct port vl).map (·.1)

/-- The wires that node n of a Folio reads by input ports, and the port lane on which it sends (R349). -/
def nodeLanes (f : Folio) (n : Nat) : List Wire × List (Nat × Nat × Nat) :=
  let e := (lget f.nodes n 0).toNat
  let o := field e 30 27
  ((entrySources e).filterMap fun r => (refPort r.2).bind fun k => if k = 0 then none else folioPortWire f k,
   if field e 63 60 = 3 ∧ o ≠ 0 then [(field (lget f.places n 0).toNat 15 11, (o - 1) / 4, (o - 1) % 4)] else [])

/-- Whether an element word of the staged image meets a virtual lane of node n of the Folio: it reads one that an input
port of the node reads, or feeds one that its output port feeds (R348); a word that feeds an input port does not (R124,
R347). A fold takes the lane above its own too, on both ports (R336). -/
def portMeets (g : Region) (c : Ctx) (f : Folio) (n : Nat) : Bool :=
  let (ins, outs) := nodeLanes f n
  let e := (lget f.nodes n 0).toNat
  let zero : Option Wire :=
    if field e 63 60 = 3 ∧ field e 30 27 = 0 then
      (match folioDst g (field (lget f.places n 0).toNat 15 11) 0 with | .wire w => some w | _ => none)
    else none
  let takes (ct side vl : Nat) : Bool :=
    ins.contains (.port ct side vl) || ins.contains (.port ct side (vl + 1)) || outs.contains (ct, side, vl) || outs.contains (ct, side, vl + 1)
  c.elems.any fun e =>
    ((natRange 0 4).any fun i => match inputWire e.1 e.2 i with | some w => ins.contains w | none => false) ||
    ((natRange 0 3).any fun j =>
      match destOfByte g e.1 e.2 (dstOf e.2 j) with
      | .wire w => zero == some w || (match c.mLane e.1 (.wire w), w with | some _, .port ct side vl => takes ct side vl | _, _ => false)
      | .link ct port vl =>
        outs.contains (ct, port, vl) ||
        (decide (1 < (c.linkUsers g ct port vl).length) &&
          (takes ct port vl ||
           (match c.hop g ct port vl with
            | some (.port c2 s2 v2) => takes c2 s2 v2
            | _ => false)))
      | _ => false)

/-- The check of a Folio image for a region and, when it joins a staged image, that slot's contents: the
Folio, or the status word of the refusal. -/
def checkFolio (g : Region) (join : Option Ctx) (hdr nodes places : List Word) : Except Word Folio :=
  match folioHeader g hdr with
  | some k => .error (wordOf k)
  | none =>
    let w1 := (lget hdr 1 0).toNat
    let mode := field (lget hdr 0 0).toNat 40 40
    let nin := field w1 4 0
    let nout := field w1 12 8
    let f : Folio := ⟨nodes, places, nin, nout, hdr, 0⟩
    let n := nodes.length
    let own := nodes.zipIdx.flatMap fun e => (nodeCodes nodes mode nin nout e.2 e.1.toNat).map fun k => (⟨3, e.2, k⟩ : Finding)
    let pl := (natRange 0 n).flatMap fun i => (placeCodes g places i).map fun k => (⟨3, n + i, k⟩ : Finding)
    let ports := if portsOk nodes nin nout then [] else [(⟨3, 0xFFFF, 0x22⟩ : Finding)]
    let joins := match join with
      | none => []
      | some c =>
        ((natRange 0 n).filter (laneMeets c f)).map (fun i => (⟨3, n + i, 0x26⟩ : Finding)) ++
        ((natRange 0 n).filter (portMeets g c f)).map fun i => (⟨3, i, 0x26⟩ : Finding)
    match firstFinding (own ++ pl ++ ports ++ joins) with
    | some x => .error x.status
    | none => .ok f

end Sys2Proof.Machine
end

