-- ==== Sys2Proof/Machine/Regions.lean ====
section
/-!
DEFINITION. Contexts of a region, their completion words, their release and the selector
(spec/02_execution.md R30-R38, R71; R130, R350, R364, R370, R444).
-/

namespace Sys2Proof.Machine

/-! ### Access -/

/-- Context k of a region. -/
def Region.ctx (g : Region) (k : Nat) : Ctx := lget g.ctxs k Ctx.blank
/-- Writes context k. -/
def Region.setCtx (g : Region) (k : Nat) (c : Ctx) : Region := { g with ctxs := lset g.ctxs k c }
/-- Changes context k. -/
def Region.modCtx (g : Region) (k : Nat) (f : Ctx → Ctx) : Region := g.setCtx k (f (g.ctx k))
/-- Changes context k of a region of the state. -/
def State.modCtx (s : State) (r k : Nat) (f : Ctx → Ctx) : State := s.modRegion r fun g => g.modCtx k f

/-- The state of an address generator that has walked nothing. -/
def AgState.init : AgState := ⟨false, 0, [], [], [], false, false, 0, 0⟩
/-- The register bank of an element after load. -/
def ElemSt.init : ElemSt := ⟨[], [], [], none, none, false, AgState.init, 0, false, false⟩
/-- The register bank at a position. -/
def Ctx.bank (c : Ctx) (pos : Nat) : ElemSt := mgetD c.es pos ElemSt.init
/-- Writes the register bank at a position. -/
def Ctx.setBank (c : Ctx) (pos : Nat) (e : ElemSt) : Ctx := { c with es := mset c.es pos e }
/-- A link that nothing has used. -/
def Link.init : Link := ⟨[], [], [], [], 0⟩
/-- A link of a context. -/
def Ctx.link (c : Ctx) (key : Nat) : Link := mgetD c.links key Link.init

/-- Whether a context is resident. -/
def Ctx.resident (c : Ctx) : Bool := c.status == .resident
/-- Whether a slot is free (R37). -/
def Ctx.isFree (c : Ctx) : Bool := c.status == .free

/-! ### Tokens that wait without holding anything back (R444) -/

/-- The edges between the elements and nodes of a context: sender, reader, input. -/
def Ctx.wires (c : Ctx) (g : Region) : List (Nat × Nat × Nat) :=
  (c.elems.flatMap fun e => (natRange 0 4).flatMap fun i =>
    match inputWire e.1 e.2 i with
    | some w => (c.sendersOf g w).map fun p => (p.1.1, e.1, i)
    | none => []) ++
  (match c.folio with
   | some f => f.nodes.zipIdx.flatMap fun e => (entrySources e.1.toNat).flatMap fun r =>
      if bitAt r.2 11 then
        match (refPort r.2).bind (folioPortWire f) with
        | some w => (c.sendersOf g w).map fun p => (p.1.1, nodePos e.2, r.1)
        | none => []
      else [(nodePos r.2, nodePos e.2, r.1)]
   | none => [])

/-- What can be reached from positions along edges. -/
def reach (es : List (Nat × Nat × Nat)) : Nat → List Nat → List Nat
  | 0, seen => seen
  | n + 1, seen =>
    let more := ((es.filter fun e => seen.contains e.1 && !seen.contains e.2.1).map (·.2.1)).eraseDups
    if more.isEmpty then seen else reach es n (seen ++ more)

/-- Whether an edge lies on a loop closed through a DLY. -/
def onDlyLoop (c : Ctx) (es : List (Nat × Nat × Nat)) (src dst : Nat) : Bool :=
  let fwd := reach es es.length [dst]
  fwd.contains src && (fwd.filter fun d => eopOf (c.word d) == 0x53 && (reach es es.length [d]).contains src).isEmpty == false

/-- Elements that only generators feed: an RNG, and what reads nothing but such elements. -/
def fedByRng (c : Ctx) (es : List (Nat × Nat × Nat)) : Nat → Nat → Bool
  | 0, _ => false
  | n + 1, pos =>
    eopOf (c.word pos) == 0x32 ||
    (let ins := es.filter fun e => e.2.1 == pos
     !ins.isEmpty && ins.all (fun e => fedByRng c es n e.1) &&
     (natRange 0 4).all fun i => selOf (c.word pos) i == 0 || ins.any fun e => e.2.2 == i)

/-- Which tokens may wait without holding back what is to drain: those of a DLY loop (R444), and those of a
generator, which makes them without end (log entry 66). -/
structure Exempt where
  loops : Bool
  gens  : Bool
  deriving DecidableEq, Repr

/-- At the end of a phase or of a section. -/
def Exempt.phase : Exempt := ⟨true, true⟩
/-- In a pre-emption (R50). -/
def Exempt.preempt : Exempt := ⟨true, false⟩
/-- Where no token may remain (R71, R130). -/
def Exempt.none : Exempt := ⟨false, false⟩

/-- The inputs whose tokens an element or a node waits for as it stands: those that its word names, but for the inputs
of operations that take them by turns (R49, R305, R312, R314, R318). -/
def Ctx.awaits (c : Ctx) (pos : Nat) : List Nat :=
  let w := c.word pos
  let regs := (c.bank pos).regs
  let named := (natRange 0 4).filter fun i => selOf w i != 0
  match posKind pos with
  | .node n => (c.folio.map fun f => (entrySources (lget f.nodes n 0).toNat).map (·.1)).getD []
  | _ =>
    match eopOf w with
    | 0x22 => if regs.isEmpty then named else named.filter (· != 2)
    | 0x50 => if regs.isEmpty then named else named.filter (· != 2)
    | 0x51 => if regs.isEmpty then named else named.filter (· != 2)
    | 0x42 =>
      (match mget c.lat (pos * 4 + 3) with
       | some t => if t.tok.cls = .data then [if (t.tok.data.toNat % 2 == 1) != ((cfgOf w).pinv == 1) then 0 else 1, 3] else [3]
       | none => [3])
    | 0x43 => if lget regs 0 0 = 0 then [0] else [1, 3]
    | 0x4A => named.filter fun i => i + 1 == field (cfgOf w).ops.toNat (2 * lget regs 0 0 + 1) (2 * lget regs 0 0)
    | _ => named

/-- Whether what stands at an input waits there under back-pressure: its element waits for a token of another input. -/
def Ctx.starved (c : Ctx) (pos i : Nat) : Bool :=
  !(c.awaits pos).contains i || (c.awaits pos).any fun j => j != i && !mhas c.lat (pos * 4 + j)

/-- Whether an edge carries tokens that wait in a loop closed through a DLY (R444): those of an edge of the loop, and
those that an element of the loop has sent to a reader outside it that waits for another of its inputs. -/
def waitsInLoop (c : Ctx) (es : List (Nat × Nat × Nat)) (e : Nat × Nat × Nat) : Bool :=
  onDlyLoop c es e.1 e.2.1 ||
  ((es.any fun f => f.1 == e.1 && onDlyLoop c es e.1 f.2.1) && mhas c.lat (e.2.1 * 4 + e.2.2) && c.starved e.2.1 e.2.2)

/-- Whether the tokens that an edge carries may wait. -/
def exemptEdge (x : Exempt) (c : Ctx) (es : List (Nat × Nat × Nat)) (e : Nat × Nat × Nat) : Bool :=
  (x.gens && fedByRng c es 64 e.1) || (x.loops && waitsInLoop c es e)

/-- Whether the token at an input is one of those. -/
def exemptInput (x : Exempt) (c : Ctx) (es : List (Nat × Nat × Nat)) (pos i : Nat) : Bool :=
  let ins := es.filter fun e => e.2.1 == pos && e.2.2 == i
  !ins.isEmpty && ins.all fun e => exemptEdge x c es e

/-- Whether an output of an element is one of those. -/
def exemptOut (x : Exempt) (c : Ctx) (es : List (Nat × Nat × Nat)) (pos : Nat) : Bool :=
  let outs := es.filter fun e => e.1 == pos
  (x.gens && fedByRng c es 64 pos) || (x.loops && !outs.isEmpty && outs.all fun e => waitsInLoop c es e)

/-- Whether an element holds tokens on their way, or has some still to make: a PAD or a TFIFO with tokens, an
NGEN in the middle of its values, a fibre element with pairs not yet sent. -/
def Ctx.holds (c : Ctx) (pos : Nat) : Bool :=
  let e := eopOf (c.word pos)
  let b := c.bank pos
  ((e == 0x4B || e == eopTfifo) && !b.toks.isEmpty) || (e == 0x4C && lget b.regs 0 0 != 0) ||
  (e == 0x69 && !(b.regs.drop 4).isEmpty) || ((e == 0x6A || e == 0x6B) && (b.regs.take 3).any (· != 0))

/-- The operations in flight of a context's elements. -/
def ctxOps (s : State) (r k : Nat) : List Op :=
  s.ops.filter fun o => match o.src with | .elem r' k' _ => r' == r && k' == k | _ => false

/-- Whether an AG of the context still works. -/
def Ctx.agBusy (c : Ctx) : Bool := c.es.any fun e => e.2.ag.active || !e.2.ag.queue.isEmpty

/-- Whether no token of a context remains anywhere but in its entry queue, those left out that may wait. -/
def Ctx.drained (c : Ctx) (g : Region) (x : Exempt) : Bool :=
  let es := c.wires g
  !c.agBusy && c.circs.all (fun x => x.2.empty) &&
  c.lat.all (fun l => exemptInput x c es (l.1 / 4) (l.1 % 4)) &&
  c.es.all (fun e => (e.2.outq.isEmpty || exemptOut x c es e.1) && !c.holds e.1) &&
  c.links.all (fun l =>
    (l.2.slots.isEmpty && l.2.gather.all (fun q => q.2.isEmpty) && l.2.split.all (fun q => q.2.isEmpty)) ||
    (let senders := c.linkOutputs g l.1
     !senders.isEmpty && senders.all fun q => exemptOut x c es q.1))

/-! ### Completion (R31) -/

/-- The completion word of context k of region r. -/
def completionWord (r k nph : Nat) : Word := wordOf (nph % 2 ^ 32 * 2 ^ 32 + r % 256 * 2 ^ 16 + regOf r * 2 ^ 13 + k % 4)

/-- Sends the completion word of a context whose arm count has reached zero, and starts its phase count
anew (R31). -/
def completeCtx (s : State) (r k : Nat) : State :=
  match s.region? r with
  | none => s
  | some g =>
    let c := g.ctx k
    let s := s.modCtx r k fun c => { c with nph := 0 }
    match c.route with
    | some a => sendCtrl s (.region r) (.chan a) 0 (completionWord r k c.nph) g.ptn []
    | none => s

/-- Whether a control word is a completion word of context k of region r that the context itself answers for. -/
def CtrlWord.completes (w : CtrlWord) (r k : Nat) : Bool :=
  w.src == .region r && w.ckind == 0 && w.payload.toNat % 4 == k && w.charge.isNone

/-- A context that gives up its slot or its work hands its flag word to the first of its completion words on their way,
which finds it as its placement would have; the others find it cleared (R152). -/
def oweFlags (s : State) (r k : Nat) : State :=
  match s.ctrl.find? fun w => w.completes r k with
  | none => s
  | some w0 =>
    let f := ((s.region? r).map fun g => (g.ctx k).flags).getD 0
    { s.modCtx r k fun c => { c with flags := 0 } with
      ctrl := s.ctrl.map fun w => if w.completes r k then { w with charge := some (0, wordOf (if w.id = w0.id then f else 0)) } else w }

/-! ### Free slots (R37, R32, R130, R364) -/

/-- Whether context k of region r has drained and no phase of it runs. -/
def ctxQuiet (s : State) (r k : Nat) (g : Region) (x : Exempt) : Bool :=
  (g.ctx k).drained g x && (ctxOps s r k).isEmpty && !(g.phase && (g.cur == some k || g.oldCtx == some k))

/-- Frees a slot that DARM with FRE has released, or WGU has marked, once its conditions hold: an unload waits until
no token at all remains (R130, R71). -/
def tryFree (s : State) (r k : Nat) : State :=
  match s.region? r with
  | none => s
  | some g =>
    let c := g.ctx k
    if c.arm = 0 ∧ c.entry.isEmpty ∧ ((c.release ∧ ctxQuiet s r k g .phase) ∨ (c.unload ∧ ctxQuiet s r k g .none)) ∧
        g.oldCtx ≠ some k then
      (oweFlags s r k).modCtx r k fun _ => Ctx.blank
    else s

/-- Frees every slot of a region that can be freed. -/
def tryFreeAll (s : State) (r : Nat) : State := (natRange 0 4).foldl (fun s k => tryFree s r k) s

/-! ### The selector (R33-R37, R350, R370) -/

/-- A candidate of COUNT mode: resident, armed, and its entry queue not empty (R35). -/
def Region.candidate (g : Region) (k : Nat) : Bool :=
  let c := g.ctx k
  c.resident && c.arm != 0 && !c.entry.isEmpty

/-- PASS of context k. -/
def Region.passOf (g : Region) (k : Nat) : Nat := lget g.pass k 0

/-- The element of a list with the largest value, the earlier on a tie. -/
def largest (f : Nat → Nat) : List Nat → Option Nat
  | [] => none
  | x :: xs => match largest f xs with
    | some y => some (if f x < f y then y else x)
    | none => some x

/-- The choice of COUNT mode (R35). -/
def Region.chosen (g : Region) : Option Nat :=
  let cand := (natRange 0 4).filter g.candidate
  let due := cand.filter fun k => decide (5 ≤ g.passOf k)
  if due.isEmpty then largest (fun k => (g.ctx k).entry.length) cand else largest g.passOf due

/-- A selection in COUNT mode. -/
def Region.selectCount (g : Region) : Region :=
  match g.chosen with
  | none => { g with waiting := true }
  | some n =>
    { g with
      cur := some n, waiting := false
      pass := (natRange 0 4).map fun k => if k = n || !g.candidate k then 0 else g.passOf k + 1 }

/-- A selection in PRED mode (R34): the first one names the lowest-numbered armed context. After a change from
COUNT the name last given stands (log entry 98). -/
def Region.selectPred (g : Region) : Region :=
  let first := (natRange 0 4).find? fun k => (g.ctx k).resident && (g.ctx k).arm != 0
  let g := if g.named0 then (match first with | some k => { g with named := k, named0 := false } | none => g) else g
  if g.named0 then { g with waiting := true }
  else { g with cur := some g.named, waiting := !g.candidate g.named }

/-- A selection by the region's mode. -/
def Region.select (g : Region) : Region := if g.count then g.selectCount else g.selectPred

/-- The context counter as it stands (R38); CUR is the context whose phase has ended (R347). -/
def Region.counters (g : Region) (cur : Nat) : Word × Word :=
  let sum (f : Nat → Nat) : Nat := ((natRange 0 4).map f).foldr (· + ·) 0
  (wordOf (sum fun k => lget g.ph k 0 % 2 ^ 16 * 2 ^ (16 * k)),
   wordOf (sum (fun k => (if (g.ctx k).arm = 0 then 0 else 2 ^ (28 + k)) + (if (g.ctx k).resident then 2 ^ (24 + k) else 0) +
     g.passOf k % 16 * 2 ^ (8 + 4 * k)) + (if g.count then 4 else 0) + cur % 4))

/-! ### ARM (R30, R426, R32) -/

/-- The POISON word of an arm count overflow (R362, R426). -/
def overflowWord : Word := wordOf (8 * 2 ^ 56 + 0xFFFF * 2 ^ 16)

/-- Adds a count to a pending section of context k (R37). -/
def addPending (ps : List PendSect) (k image count route tid launch : Nat) : List PendSect :=
  if ps.any fun p => p.ctx == k then
    ps.map fun p => if p.ctx = k then { p with count := p.count + count, route := some route, armTask := some (tid, launch) } else p
  else ps ++ [⟨k, image, count, some route, some (tid, launch)⟩]

/-- Invalidates every CBNK of a context: a new generation, no line (R78). -/
def Ctx.newBanks (c : Ctx) : Ctx :=
  { c with es := (c.elems.filter fun e => eopOf e.2 == eopCbnk).foldl (fun m e =>
      mset m e.1 { mgetD m e.1 ElemSt.init with regs := [lget (mgetD m e.1 ElemSt.init).regs 0 0 + 1] }) c.es }

/-- What an ARM that has reached its region does. -/
def applyArm (s : State) (r k count route tid launch : Nat) : State :=
  match s.region? r with
  | none => s
  | some g =>
    let c := g.ctx k
    let overflow (s : State) : State := sendCtrl s (.region r) (.chan route) 7 overflowWord g.ptn []
    if c.resident then
      if 2 ^ 32 ≤ c.arm + count then overflow s
      else s.setRegion r (g.setCtx k { c.newBanks with arm := c.arm + count, route := some route, armTask := some (tid, launch), release := false })
    else
      let had := ((g.pends.find? fun p => p.ctx == k).map (·.count)).getD 0 + c.arm
      if 2 ^ 32 ≤ had + count then overflow s
      else
        let va := ((mget s.launches g.launch).bind fun l => (mget s.images l.image).bind fun im =>
          (im.ctxs.find? fun x => x.r == r && x.ctx == k).map (·.va)).getD 0
        s.setRegion r { g with pends := addPending g.pends k va count route tid launch }

/-- A context that has become resident takes what its pending section was armed with (R37). A sum above 2^32 - 1
leaves its count and route as they are, and the route of the pending section takes the POISON word (R426). -/
def absorbPending (s : State) (r k : Nat) : State :=
  match s.region? r with
  | none => s
  | some g =>
    match g.pends.find? fun p => p.ctx == k with
    | none => s
    | some p =>
      let s := s.setRegion r { g with pends := g.pends.filter fun q => q.ctx != k }
      if 2 ^ 32 ≤ (g.ctx k).arm + p.count then
        match p.route with
        | some a => sendCtrl s (.region r) (.chan a) 7 overflowWord g.ptn []
        | none => s
      else s.modCtx r k fun c => { c with arm := c.arm + p.count, route := p.route.or c.route, armTask := p.armTask.or c.armTask }

end Sys2Proof.Machine
end

