-- ==== Sys2Proof/Machine/RouterOps.lean ====
section
/-!
DEFINITION. The router operators (spec/15_element_ops.md R312-R316; spec/02_execution.md R49; R365,
R366), and the token FIFO of an M-tile (R76, R329).
-/

namespace Sys2Proof.Machine

/-- A POISON as an operator passes it on: itself, or one of the operator's own for a reserved kind (R427). -/
def pz (x : ElemIn) (t : Token) : Token := (firstPoison x.who [t]).getD t

/-- Whether a token is POISON or of a reserved kind. -/
def Token.isBad (t : Token) : Bool := decide (t.cls = .poison) || decide (t.cls = .reserved)

/-- Whether a token is DATA. -/
def Token.isData (t : Token) : Bool := decide (t.cls = .data)

/-- A firing of a router operator: only the destinations it emits to must have a free slot (R312). -/
def sendIf (x : ElemIn) (take : List Nat) (outs : List (Nat × Token)) (st : ElemSt) : Option Fired :=
  let outs := outs.filter fun o => x.dst o.1 != 0
  if x.room (outs.map (·.1)) then x.outSt take outs st 0 else none

/-- STR: A on DST0 and NULL on DST1 at decision 1, the other way round at decision 0. -/
def fireStr : ElemFn := fun x =>
  match meet x [0, 3] with
  | .waits => none
  | .poison t => sendIf x [0, 3] (x.everywhere t) x.st
  | .stop k => sendIf x [0, 3] (x.everywhere (stopTok k)) x.st
  | .bad => sendIf x [0, 3] (x.everywhere (x.who.poison 3 1)) x.st
  | .null => sendIf x [0, 3] (x.everywhere nullTok) x.st
  | .data =>
    match x.a, x.p with
    | some a, some p =>
      if x.decision p then sendIf x [0, 3] [(0, a), (1, nullTok)] x.st else sendIf x [0, 3] [(0, nullTok), (1, a)] x.st
    | _, _ => none

/-- MRG: the non-NULL token of its two arms; two DATA tokens are a misalignment (R365). -/
def fireMrg : ElemFn := fun x =>
  match meet x [0, 1] with
  | .waits => none
  | .poison t => sendIf x [0, 1] (x.everywhere t) x.st
  | .stop k => sendIf x [0, 1] (x.everywhere (stopTok k)) x.st
  | .bad => sendIf x [0, 1] (x.everywhere (x.who.poison 3 1)) x.st
  | .data => sendIf x [0, 1] (x.everywhere (x.who.poison 3 2)) x.st
  | .null =>
    match x.a, x.b with
    | some a, some b => sendIf x [0, 1] (x.everywhere (if a.isData then a else if b.isData then b else nullTok)) x.st
    | _, _ => none

/-- CMRG: the token of the arm that P chooses; the other arm is not consumed. -/
def fireCmrg : ElemFn := fun x =>
  match x.p with
  | none => none
  | some p =>
    match p.cls with
    | .data =>
      let i := if x.decision p then 0 else 1
      match x.tok i with
      | none => none
      | some t => sendIf x [i, 3] (x.everywhere (if t.isBad then pz x t else t)) x.st
    | .null => sendIf x [3] (x.everywhere nullTok) x.st
    | .stop k => sendIf x [3] (x.everywhere (stopTok k)) x.st
    | _ => sendIf x [3] (x.everywhere (pz x p)) x.st

/-- The states of a CRY (R49), in register 0; register 1 counts the loop tokens taken. -/
def cryIdle : Nat := 0
def cryRunning : Nat := 1
def cryDraining : Nat := 2

/-- CRY (R49): A initial, B loop return, P continue; DST0 body, DST1 exit. A NULL that returns to a
running CRY leaves its state and gives NULL on every destination (R45). A STOP below L does not count (log
entry 99). -/
def fireCry : ElemFn := fun x =>
  let mode := x.st.reg 0
  let n := x.st.reg 1
  let next (m c : Nat) : ElemSt := { x.st with regs := [m, c] }
  if mode = cryIdle then
    match x.a with
    | none => none
    | some t =>
      match t.cls with
      | .stop _ => sendIf x [0] [(1, t)] x.st
      | .poison => sendIf x [0] [(0, t)] (next cryDraining 0)
      | .reserved => sendIf x [0] [(0, pz x t)] (next cryDraining 0)
      | _ => sendIf x [0] [(0, t)] (next cryRunning 0)
  else
    match meet x [1, 3] with
    | .waits => none
    | .poison t => sendIf x [1, 3] [(0, t)] (next cryDraining n)
    | .bad =>
      sendIf x [1, 3] [(0, x.who.poison 3 1), (1, x.who.poison 3 1)]
        (if x.closes (maxStop (x.toks [1, 3])) then next cryIdle 0 else x.st)
    | .stop k =>
      if x.closes k then sendIf x [1, 3] [(1, stopTok k)] (next cryIdle 0)
      else sendIf x [1, 3] [(0, stopTok k)] x.st
    | .null => sendIf x [1, 3] (if mode = cryRunning then x.everywhere nullTok else [(0, nullTok)]) x.st
    | .data =>
      match x.b, x.p with
      | some b, some p =>
        if mode = cryDraining then sendIf x [1, 3] [(0, nullTok)] x.st
        else if x.decision p then sendIf x [1, 3] [(0, b)] (next mode (n + 1))
        else sendIf x [1, 3] [(0, nullTok), (1, dataTok 0x7F (n % 2 ^ 32))] (next cryDraining n)
      | _, _ => none

/-- IVR: a copy of A for each DATA token on B; A leaves with a STOP of level STPL or above. -/
def fireIvr : ElemFn := fun x =>
  match x.a, x.b with
  | some a, some b =>
    if b.isBad then sendIf x [1] (x.everywhere (pz x b)) x.st
    else match a.stopLevel, b.stopLevel with
      | 0, 0 => sendIf x [1] (x.everywhere (if b.isData then (if a.isBad then pz x a else a) else nullTok)) x.st
      | 0, k => sendIf x (if x.closes k then [0, 1] else [1]) (x.everywhere (stopTok k)) x.st
      | j, k => sendIf x [0, 1] (x.everywhere (if j = k then stopTok k else x.who.poison 3 1)) x.st
  | _, _ => none

/-- RSEL: A on the destination that P's index names, NULL on the others. -/
def fireRsel : ElemFn := fun x =>
  match meet x [0, 3] with
  | .waits => none
  | .poison t => sendIf x [0, 3] (x.everywhere t) x.st
  | .stop k => sendIf x [0, 3] (x.everywhere (stopTok k)) x.st
  | .bad => sendIf x [0, 3] (x.everywhere (x.who.poison 3 1)) x.st
  | .null => sendIf x [0, 3] (x.everywhere nullTok) x.st
  | .data =>
    match x.a, x.p with
    | some a, some p => sendIf x [0, 3] (x.dsts.map fun j => (j, if j = p.bits 2 then a else nullTok)) x.st
    | _, _ => none

/-- FLT: A on decision 1; nothing on decision 0 or with a NULL. -/
def fireFlt : ElemFn := fun x =>
  match meet x [0, 3] with
  | .waits => none
  | .poison t => sendIf x [0, 3] (x.everywhere t) x.st
  | .stop k => sendIf x [0, 3] (x.everywhere (stopTok k)) x.st
  | .bad => sendIf x [0, 3] (x.everywhere (x.who.poison 3 1)) x.st
  | .null => sendIf x [0, 3] [] x.st
  | .data =>
    match x.a, x.p with
    | some a, some p => sendIf x [0, 3] (if x.decision p then x.everywhere a else []) x.st
    | _, _ => none

/-- STPG (R313): inserts a STOP of level STPL after every IMM32 DATA and NULL tokens. -/
def fireStpg : ElemFn := fun x =>
  match x.a with
  | none => none
  | some t =>
    let n := x.st.reg 0
    let count (c : Nat) : ElemSt := { x.st with regs := [c] }
    match t.cls with
    | .stop k => sendIf x [0] (x.everywhere t) (if x.closes k then count 0 else x.st)
    | .poison => sendIf x [0] (x.everywhere t) x.st
    | .reserved => sendIf x [0] (x.everywhere (pz x t)) x.st
    | _ =>
      if n + 1 = x.c.imm.toNat then sendIf x [0] (x.everywhere t ++ x.everywhere (stopTok x.level)) (count 0)
      else sendIf x [0] (x.everywhere t) (count (n + 1))

/-- STPC (R313): counts DATA tokens, and NULL tokens with CNUL; a STOP of level STPL or above gives the
count, or the first POISON taken (R366). -/
def fireStpc : ElemFn := fun x =>
  match x.a with
  | none => none
  | some t =>
    let n := x.st.reg 0
    match t.cls with
    | .stop k =>
      if x.closes k then
        let w := if x.c.ofmt.toNat = 2 then 32 else 64
        let out := match x.st.poison with | some q => q | none => dataTok 0x7F (n % 2 ^ w)
        sendIf x [0] (x.everywhere out ++ x.everywhere t) { x.st with regs := [0], poison := none }
      else sendIf x [0] (x.everywhere t) x.st
    | .data => sendIf x [0] [] { x.st with regs := [n + 1] }
    | .null => sendIf x [0] [] (if bitAt x.c.ops.toNat 17 then { x.st with regs := [n + 1] } else x.st)
    | _ =>
      sendIf x [0] [] (match x.st.poison with | some _ => x.st | none => { x.st with poison := some (pz x t) })

/-- RPT: A's token IMM32 times, a POISON too; a STOP once. -/
def fireRpt : ElemFn := fun x =>
  match x.a with
  | none => none
  | some t =>
    let n := x.st.reg 0
    match t.cls with
    | .stop _ => sendIf x [0] (x.everywhere t) x.st
    | _ =>
      let t := if t.isBad then pz x t else t
      if n + 1 = x.c.imm.toNat then sendIf x [0] (x.everywhere t) { x.st with regs := [0] }
      else sendIf x [] (x.everywhere t) { x.st with regs := [n + 1] }

/-- The inputs of a JN pattern, one for each step (R314). -/
def jnSteps (x : ElemIn) : List Nat :=
  (natRange 0 (field x.c.ops.toNat 20 18 + 1)).map fun s => field x.c.ops.toNat (2 * s + 1) (2 * s) - 1

/-- The distinct inputs of a pattern, lowest first. -/
def jnInputs (x : ElemIn) : List Nat := [0, 1, 2].filter fun i => (jnSteps x).contains i

/-- JN (R314): one token from the input of the current step. -/
def fireJn : ElemFn := fun x =>
  let steps := jnSteps x
  let s := x.st.reg 0
  let cur := lget steps s 0
  let at' (n : Nat) : ElemSt := { x.st with regs := [n] }
  match x.tok cur with
  | none => none
  | some t =>
    if t.stopLevel = 0 then
      sendIf x [cur] [(0, if t.isBad then pz x t else t)] (at' (if s + 1 < steps.length then s + 1 else 0))
    else if !x.have' (jnInputs x) then none
    else
      let ts := x.toks (jnInputs x)
      let out := if ts.all fun u => u.stopLevel == t.stopLevel then t else x.who.poison 3 7
      sendIf x (jnInputs x) [(0, out)] (at' 0)

/-- A bounded first-in first-out line of tokens (R329): the oldest token leaves when its
destination has room, and the token at input i enters when there is room for it then. -/
def fifo (x : ElemIn) (i cap : Nat) : Option Fired :=
  let pop := match x.st.toks with | [] => none | h :: ts => if x.room x.dsts then some (h, ts) else none
  let rest := match pop with | some (_, ts) => ts | none => x.st.toks
  let push := match x.tok i with | some t => if rest.length < cap then some t else none | none => none
  match pop, push with
  | none, none => none
  | _, _ =>
    x.outSt (match push with | some _ => [i] | none => [])
      (match pop with | some (h, _) => x.everywhere h.tok | none => [])
      { x.st with toks := match push with | some t => rest ++ [⟨if t.isBad then pz x t else t, false, 0⟩] | none => rest } 0

/-- The active depth of a PAD: what the loader left in register 0, else OPS [4:0] (R68, R315). -/
def padDepth (x : ElemIn) : Nat := match x.st.regs with | d :: _ => d | [] => x.c.ops.toNat % 32

/-- The tokens of a PAD, oldest first, each with its stage, one cycle on: each advances by one stage when the next one
is free (R315); `free` is the last free stage before them. -/
def padStep : Nat → List Stok → List Stok
  | _, [] => []
  | free, t :: ts =>
    let n := Nat.min (t.fold + 1) free
    { t with fold := n } :: padStep (n - 1) ts

/-- A PAD of m stages before its output register: the token in the last one leaves when its destination has room, the
others advance, and the token at input A enters stage 1 when it is free (R315). -/
def padLine (x : ElemIn) (m : Nat) : Option Fired :=
  let pop := match x.st.toks with
    | [] => none
    | h :: ts => if h.fold = m ∧ x.room x.dsts then some (h, ts) else none
  let rest := padStep m (match pop with | some (_, ts) => ts | none => x.st.toks)
  let push := match x.a with
    | some t => if rest.all fun u => decide (1 < u.fold) then some (⟨if t.isBad then pz x t else t, false, 1⟩ : Stok) else none
    | none => none
  if pop.isNone ∧ push.isNone ∧ rest = x.st.toks then none
  else
    x.outSt (match push with | some _ => [0] | none => []) (match pop with | some (h, _) => x.everywhere h.tok | none => [])
      { x.st with toks := rest ++ push.toList } 0

/-- PAD: a line of d stages, the last of which is the output register that every element has (R302, R335). With one stage,
or trimmed to none, it passes tokens on as any element does. -/
def firePad : ElemFn := fun x =>
  if padDepth x ≤ 1 then (match x.a with | some t => sendIf x [0] (x.everywhere (if t.isBad then pz x t else t)) x.st | none => none)
  else padLine x (padDepth x - 1)

/-- The values a NGEN still emits: register 0 marks it active, 1 counts them, 2 is the next. -/
def fireNgen : ElemFn := fun x =>
  if x.st.reg 0 = 0 then
    match x.a with
    | none => none
    | some t =>
      match t.cls with
      | .data => x.outSt [0] [] { x.st with regs := [1, t.bits 32, x.c.imm.toNat] } 0
      | .null => sendIf x [0] (x.everywhere nullTok) x.st
      | .stop _ => sendIf x [0] (x.everywhere t) x.st
      | _ => sendIf x [0] (x.everywhere (pz x t)) x.st
  else
    let n := x.st.reg 1
    let v := x.st.reg 2
    let per := fmtCount x.c.ofmt.toNat
    let k := Nat.min per n
    let step : Int := signedOf 16 x.c.ops.toNat
    let nth (i : Nat) : Nat := patternOf 32 ((v : Int) + step * i)
    if n = 0 then sendIf x [] (x.everywhere (stopTok x.level)) { x.st with regs := [0, 0, 0] }
    else sendIf x [] (x.everywhere ⟨0, 0x7F, putElems x.c.ofmt.toNat ((natRange 0 k).map nth)⟩) { x.st with regs := [1, n - k, nth k] }

/-- TFIFO: 768 entries; tokens of every kind enter from A or B and leave on DST0. -/
def fireTfifo : ElemFn := fun x => fifo x (if x.c.sela = 0 then 1 else 0) 768

end Sys2Proof.Machine
end

