-- ==== Sys2Proof/Machine/Elements.lean ====
section
/-!
DEFINITION. The firing of an element on the state (spec/02_execution.md R33, R34, R44-R47; spec/03_fabric.md
R56-R63; spec/15_element_ops.md R302, R312; R72, R152, R336), the way of its tokens to their latches, and
the meaning of every operation that acts through its latches alone.
-/

namespace Sys2Proof.Machine

/-! ### Who may fire -/

/-- Whether context k of a region is the running one, or the old one of a switch (R33, R70). -/
def Region.active (g : Region) (k : Nat) : Bool := (g.cur == some k && !g.waiting) || g.oldCtx == some k

/-- A tile that nothing has touched. -/
def Tile.init : Tile := ⟨0, 0, 0, [], [], 0, [], false, false, [], [], [], [], none⟩
/-- A grid tile. -/
def State.tile (s : State) (t : Nat) : Tile := mgetD s.tiles t Tile.init
/-- Changes a grid tile. -/
def State.modTile (s : State) (t : Nat) (f : Tile → Tile) : State := { s with tiles := mset s.tiles t (f (s.tile t)) }

/-- What a tile holds of its neighbour on side d. -/
def State.neigh (s : State) (t d : Nat) : Option Neigh := (mget s.tiles t).bind fun x => mget x.neigh d

/-- Whether a fence has fallen on a tile: a neighbour has isolated its link to it (R378). -/
def tileFenced (s : State) (t : Nat) : Bool :=
  (natRange 0 4).any fun d =>
    match gridNeigh t d with
    | some n => ((s.neigh n (oppSide d)).map (·.fenced)).getD false
    | none => false

/-- Changes every circuit of the regions of a fabric. -/
def Fabric.mapCircs (f : Fabric) (h : Circuit → Circuit) : Fabric :=
  { f with regions := mmapv (fun (g : Region) => { g with ctxs := g.ctxs.map fun c => { c with circs := mmapv h c.circs } }) f.regions }

/-- Changes every circuit, saved ones as well. -/
def State.mapCircs (s : State) (h : Circuit → Circuit) : State :=
  { s with fab := s.fab.mapCircs h, saved := mmapv (fun (v : Saved) => { v with fab := v.fab.mapCircs h }) s.saved }

/-- The neighbour on side d of a tile that has isolated its link to it. -/
def fencedStep (s : State) (t d : Nat) : Option Nat :=
  (gridNeigh t d).filter fun n => ((s.neigh n (oppSide d)).map (·.fenced)).getD false

/-- Whether nothing on a circuit's way keeps it cut: no tile has isolated the link by which it comes, and its Novey port
is ready (R379, R418). -/
def circuitOpen (s : State) (x : CircuitPath) : Bool :=
  (x.via.all fun v => (fencedStep s v.1 (v.2 / 4)).isNone) &&
  (match x.novey with | some p => s.ready 4 p | none => true)

/-- Circuits that nothing keeps cut carry tokens again. -/
def State.reopenCircs (s : State) : State :=
  s.mapCircs fun x => if x.dead && circuitOpen s x.path then { x with dead := false, cut := none } else x

/-- The grid tile of a position. -/
def posTile (r : Nat) (g : Region) (k pos : Nat) : Nat := ((spotOf g (g.ctx k).folio pos).map (gridTile r)).getD 0

/-- The grid tile at which an agent sends its packets and takes its responses. -/
def Agent.tileOf (s : State) : Agent → Option Nat
  | .task tid => some (seTile (seOf tid))
  | .elem r k pos => (s.region? r).map fun g => posTile r g k pos
  | _ => none

/-- The maker of what an element makes. -/
def makerOf (s : State) (tile : Nat) : Maker := ⟨s.time, tile / 4096, tile % 64, tile / 64 % 64⟩

/-- The POISON of a circuit through a Novey port that is not ready, made on the port's die, for the lane where the circuit
ends (R418). -/
def portPoison (s : State) (x : CircuitPath) : Token :=
  (makerOf s (x.novey.getD 0 / 6 * 4096)).poison 1 (match x.dest with | some e => e.side * 4 + e.vl | none => (x.via.getLast?.map (·.2)).getD 0)

/-- Whether the lane of a position is power-gated (R72). -/
def laneOff (s : State) (r : Nat) (g : Region) (k pos : Nat) : Bool :=
  let lane : Option Nat := match posKind pos with
    | .lane _ l => some l
    | .node _ => ((g.ctx k).folio).map fun f => field (lget f.places (pos - 2048) 0).toNat 10 7
    | _ => none
  match lane, mget s.tiles (posTile r g k pos) with
  | some l, some t => mhas t.gated l
  | _, _ => false

/-- Whether the elements of a region act at all: its partition runs and it is not saved in place (R371). -/
def regionRuns (s : State) (g : Region) : Bool := partRuns s g.ptn && !g.frozen

/-- Whether the element at a position may act now. A generator has no token of the old epoch, so after a switch it
acts under the new context alone (R70). -/
def elemRuns (s : State) (r : Nat) (g : Region) (k pos : Nat) : Bool :=
  regionRuns s g && g.active k && !((g.ctx k).bank pos).gated && !laneOff s r g k pos &&
  !(g.oldCtx == some k && eopOf ((g.ctx k).word pos) == 0x32)

/-! ### The way of a token -/

/-- The side of the inputs that read a wire: that of the first of them. -/
def Ctx.wireSide (c : Ctx) (x : Wire) : Option Side3 :=
  match c.readers x with
  | [] => none
  | (pos, i) :: _ => match posKind pos with
    | .node _ => (c.folio).map fun f => ⟨if f.mode = 0 then 4 else 3, 0, none⟩
    | _ => inSide (c.word pos) i

/-- One token through a join whose sides are known and that R62 permits; otherwise unchanged. -/
def joinAt (a b : Option Side3) (m : Maker) (held : List Token) (t : Token) : List Token × List Token × Nat :=
  match a, b with
  | some a, some b => if joinOk a.fmt b.fmt then joinStep a b m held t else ([t], held, 0)
  | _, _ => ([t], held, 0)

/-- A token that a link with a fixed scale carries (R61). -/
def atLinkScale (e : Nat) (t : Token) : Token :=
  if !bitAt e 15 && fmtNum (e % 16) && t.isData then { t with scl := BitVec.ofNat 8 (field e 23 16) } else t

/-! ### Links to a fenced tile (R379) -/

/-- Whether the tile at a spot has isolated its link on side d. -/
def Region.cutAt (g : Region) (x : Spot) (d : Nat) : Bool := g.cuts.contains ((x.2 * 8 + x.1) * 4 + d)

/-- The side of a spot on which its partner stands. -/
def partnerSide (x : Spot) : Nat := if (partnerSpot x).1 < x.1 then 3 else 1

/-- The tile, side and lane by which a wire enters a tile from a neighbour. -/
def Region.wireEntry (g : Region) : Wire → Option (Spot × Nat × Nat)
  | .port ct d vl => (g.cTiles[ct]?).map fun x => (x, d, vl)
  | .mside mt d vl => (g.mTiles[mt]?).map fun x => (x, d, vl)
  | .fromM ct vl => (g.cTiles[ct]?).map fun x => (x, partnerSide x, vl)
  | .toM mt => (g.mTiles[mt]?).map fun x => (x, partnerSide x, 0)
  | _ => none

/-- The inbound lane on which a wire brings what a fenced tile has sent: none when its link is open. -/
def Region.cutWire (g : Region) (x : Wire) : Option (Spot × Nat × Nat) :=
  match g.wireEntry x with
  | some (t, d, vl) => if g.cutAt t d then some (t, d, vl) else none
  | none => none

/-- As `cutWire`, for the hop of a link, whose relay may have isolated the sender. -/
def Region.cutHop (g : Region) (key : Nat) (x : Wire) : Option (Spot × Nat × Nat) :=
  match (g.cTiles[key / 16]?).bind fun a => sideOf a (key / 4 % 4) with
  | some m => if g.cutAt m (oppSide (key / 4 % 4)) then some (m, oppSide (key / 4 % 4), key % 4) else g.cutWire x
  | none => g.cutWire x

/-- The number of an inbound lane. -/
def laneCode (e : Spot × Nat × Nat) : Nat := ((e.1.2 * 8 + e.1.1) * 4 + e.2.1) * 4 + e.2.2

/-- What reaches a tile on an inbound lane: the token; in place of what a fenced tile has sent, the first time on the lane
a POISON of the neighbour, then nothing. -/
def Region.letIn (g : Region) (m : Maker) (cut : Option (Spot × Nat × Nat)) (t : Stok) : Region × Option Stok :=
  match cut with
  | none => (g, some t)
  | some e =>
    if g.cutLanes.contains (laneCode e) then (g, none)
    else
      let who : Maker := { m with col := m.col / 8 * 8 + e.1.1, row := m.row / 8 * 8 + e.1.2 }
      ({ g with cutLanes := g.cutLanes ++ [laneCode e] }, some { t with tok := who.poison 1 (e.2.1 * 4 + e.2.2) })

/-- A token of context k arrives on a wire. -/
def Region.arrive (g : Region) (m : Maker) (k : Nat) (x : Wire) (t : Stok) : Region :=
  match g.letIn m (g.cutWire x) t with
  | (g, some t) => g.setCtx k ((g.ctx k).toLatches x t)
  | (g, none) => g

/-- Whether a token may enter the receiving join of a link: nothing waits behind it, and what comes out has
a free latch; or the circuit that the link feeds, which has a credit (R65). -/
def Ctx.recvFree (c : Ctx) (g : Region) (key fold : Nat) : Bool :=
  match mget c.circs key with
  | some x => x.free
  | none =>
    (mgetD (c.link key).split (2 * fold + 1) []).isEmpty &&
    (match c.linkWire g key fold with
     | some x => c.wireRoom x
     | none => false)

/-- A token passes the receiving join of a link: the first token that comes out stands in the latches, the
others wait. A link that feeds a circuit hands it to the circuit. -/
def Region.recvIn (g : Region) (m : Maker) (k key fold : Nat) (t : Stok) : Region :=
  let c := g.ctx k
  let l := c.link key
  match mget c.circs key, c.linkWire g key fold with
  | some x, _ => g.setCtx k { c with circs := mset c.circs key (x.push m.time { t with tok := atLinkScale (c.entryOf key) t.tok }) }
  | none, none => g
  | none, some x =>
    match g.letIn m (g.cutHop key x) t with
    | (g, none) => g
    | (g, some t) =>
    let e := c.entryOf key
    let (outs, held, fl) := joinAt (some (linkSide e)) (c.wireSide x) m (mgetD l.gather (2 * fold + 1) []) (atLinkScale e t.tok)
    let stoks := outs.map fun q => ({ t with tok := q } : Stok)
    let c := { c with flags := orF c.flags fl
                      links := mset c.links key { l with gather := mset l.gather (2 * fold + 1) held, split := mset l.split (2 * fold + 1) (stoks.drop 1) } }
    g.setCtx k (match stoks with
      | [] => c
      | q :: _ => c.toLatches x q)

/-- The elements and nodes from which tokens come to one arm of a fold and not to the other. -/
def Ctx.armPath (c : Ctx) (g : Region) (key fold : Nat) : List Nat :=
  let es := (c.wires g).map fun e => (e.2.1, e.1, e.2.2)
  let back (f : Nat) : List Nat :=
    match (c.linkOutputs g key).find? fun q => c.foldPos key q.1 q.2 == f with
    | some q => reach es es.length [q.1]
    | none => []
  (back fold).filter fun p => !(back (1 - fold)).contains p

/-- Whether no token stands on an arm of a fold, or on its way to it. -/
def Ctx.armEmpty (c : Ctx) (g : Region) (key fold : Nat) : Bool :=
  let path := c.armPath g key fold
  (path.all fun p => ((natRange 0 4).all fun i => !mhas c.lat (p * 4 + i)) && (c.bank p).outq.isEmpty && !c.holds p) &&
  c.links.all fun l =>
    l.1 == key || (l.2.slots.isEmpty && l.2.split.all (fun q => q.2.isEmpty)) ||
    !((c.linkOutputs g l.1).any (fun q => path.contains q.1) ||
      ([0, 1].any fun f => match c.linkWire g l.1 f with
        | some w => (c.readers w).any fun r => path.contains r.1
        | none => false))

/-- Whether it is an arm's turn on a folded lane. The arms of a fold have equal latency and carry the same item in every
stage, and a tie goes to position 0 (R67, R68), so that tokens of the two positions go on by turns, position 0 first; an
arm on which no token stands is not waited for (log entry 125). -/
def Ctx.foldTurn (c : Ctx) (g : Region) (key fold : Nat) : Bool :=
  !c.folded key ||
  (let turn := if (c.link key).lastArm = 1 then 1 else 0
   fold == turn || ((mgetD (c.link key).split (2 * turn) []).isEmpty && c.armEmpty g key turn))

/-- Whether what follows the sending join of a link has room: a slot, or with no slots the receiving latch. -/
def Ctx.hopFree (c : Ctx) (g : Region) (key fold : Nat) : Bool :=
  let n := entrySlots (c.entryOf key)
  if n = 0 then c.recvFree g key fold else decide ((c.link key).slots.length < n)

/-- Whether a link has a token that the port could move: the head of its slots, or with no slots the token behind
its sending join. -/
def Ctx.laneReady (c : Ctx) (g : Region) (key : Nat) : Bool :=
  match (c.link key).slots with
  | t :: _ => c.recvFree g key t.fold
  | [] => entrySlots (c.entryOf key) == 0 &&
      [0, 1].any fun f => !(mgetD (c.link key).split (2 * f) []).isEmpty && c.foldTurn g key f && c.recvFree g key f

/-- Whether it is a link's turn among the virtual lanes of its port that are ready (R58); a port that has served
none starts at lane 0 (log entry 102). -/
def Ctx.laneTurn (c : Ctx) (g : Region) (key : Nat) : Bool :=
  let port := key / 4
  let last := mgetD g.rr port 3
  let far (v : Nat) : Nat := (v + 3 - last) % 4
  (natRange 0 4).all fun v => v == key % 4 || !c.laneReady g (port * 4 + v) || decide (far (key % 4) < far v)

/-- Whether the head of the sending side of a link, at a fold position, goes on now: a link without slots moves
it through the port, in its turn. -/
def Ctx.sendFree (c : Ctx) (g : Region) (key fold : Nat) : Bool :=
  c.foldTurn g key fold && c.hopFree g key fold && (entrySlots (c.entryOf key) != 0 || c.laneTurn g key)

/-- The port of a link has served it (R58). -/
def Region.servedLane (g : Region) (key : Nat) : Region := { g with rr := mset g.rr (key / 4) (key % 4) }

/-- The head of the sending side of a link goes into the slots, or through a link of no slots (R56, R59). -/
def Region.sendMove (g : Region) (m : Maker) (k key fold : Nat) : Region :=
  let c := g.ctx k
  let l := c.link key
  match mgetD l.split (2 * fold) [] with
  | [] => g
  | t :: ts =>
    let l := { l with split := mset l.split (2 * fold) ts, lastArm := fold + 1 }
    if entrySlots (c.entryOf key) = 0 then
      ((g.servedLane key).setCtx k { c with links := mset c.links key l }).recvIn m k key fold t
    else g.setCtx k { c with links := mset c.links key { l with slots := l.slots ++ [t] } }

/-- The sending side goes on as far as it can, n times at most. -/
def Region.sendAll (m : Maker) (k key fold : Nat) : Nat → Region → Region
  | 0, g => g
  | n + 1, g =>
    let c := g.ctx k
    if (mgetD (c.link key).split (2 * fold) []).isEmpty || !c.sendFree g key fold then g
    else Region.sendAll m k key fold n (g.sendMove m k key fold)

/-- A token of an element enters a link through its sending join (R61-R63). -/
def Region.sendIn (g : Region) (m : Maker) (k key fold : Nat) (a : Option Side3) (t : Stok) : Region :=
  let c := g.ctx k
  let l := c.link key
  let (outs, held, fl) := joinAt a (some (linkSide (c.entryOf key))) m (mgetD l.gather (2 * fold) []) t.tok
  let stoks := outs.map fun q => ({ t with tok := q, fold := fold } : Stok)
  let wait := mgetD l.split (2 * fold) []
  let l := { l with gather := mset l.gather (2 * fold) held, split := mset l.split (2 * fold) (wait ++ stoks) }
  (g.setCtx k { c with flags := orF c.flags fl, links := mset c.links key l }).sendAll m k key fold stoks.length

/-- Whether a destination of an element has a free slot (R47): the latches of a wire, a slot of a link, or
the head slot of a fold (R67). -/
def Ctx.destFree (c : Ctx) (g : Region) (pos j : Nat) : Bool :=
  match c.dest g pos j with
  | .none => true
  | .bad => false
  | .wire x =>
    match c.mLane pos (.wire x) with
    | some key => (mgetD (c.link key).split (2 * c.foldPos key pos j) []).isEmpty
    | none => c.wireRoom x
  | .link ct port vl =>
    let key := linkKey ct port vl
    let fold := c.foldPos key pos j
    (mgetD (c.link key).split (2 * fold) []).isEmpty && (c.folded key || c.hopFree g key fold)

/-- The context that stands for context k: after a switch, the new one for the old one (R70, R71). -/
def Region.standsFor (g : Region) (k : Nat) : Nat := if g.oldCtx = some k then g.heir else k

/-- What a token does to the predicate network (R34). -/
def Region.nameNext (g : Region) (t : Token) : Region :=
  if t.isData then { g with named := g.standsFor (t.data.toNat % 4), named0 := false } else g

/-- A token reaches its head slot of a folded lane of an M-tile's port (R67, R336). -/
def Ctx.mLaneIn (c : Ctx) (key fold : Nat) (t : Stok) : Ctx :=
  let l := c.link key
  let l := { l with split := mset l.split (2 * fold) [({ t with fold := fold } : Stok)] }
  { c with links := mset c.links key l }

/-- The head of an arm of such a lane goes on to its wire in its turn. -/
def mLaneMove (m : Maker) (g : Region) (k key fold : Nat) : Option Region :=
  let c := g.ctx k
  let l := c.link key
  let w := mLaneWire key fold
  match mgetD l.split (2 * fold) [] with
  | [] => none
  | t :: ts =>
    if c.foldTurn g key fold && c.wireRoom w then
      let c := { c with links := mset c.links key { l with split := mset l.split (2 * fold) ts, lastArm := fold + 1 } }
      some ((g.setCtx k c).arrive m k w { t with fold := 0 })
    else none

/-- Delivers a token to destination j of an element. -/
def Region.deliver (g : Region) (m : Maker) (k pos j : Nat) (t : Stok) : Region :=
  let c := g.ctx k
  match c.dest g pos j with
  | .none => g
  | .bad => g
  | .wire .named => g.nameNext t.tok
  | .wire x =>
    match c.mLane pos (.wire x) with
    | some key => g.setCtx k (c.mLaneIn key (c.foldPos key pos j) t)
    | none => g.arrive m k x { t with fold := 0 }
  | .link ct port vl =>
    let key := linkKey ct port vl
    g.sendIn m k key (c.foldPos key pos j) (c.sideOut g pos j t.fold) t

/-- Delivers tokens in order, each destination's first one first, as far as there is room: the region and
the tokens that wait. -/
def Region.deliverAll (m : Maker) (k pos : Nat) : List (Nat × Stok) → List Nat → Region → Region × List (Nat × Stok)
  | [], _, g => (g, [])
  | (j, t) :: os, held, g =>
    if held.contains j || !(g.ctx k).destFree g pos j then
      let (g', left) := Region.deliverAll m k pos os (j :: held) g
      (g', (j, t) :: left)
    else Region.deliverAll m k pos os held (g.deliver m k pos j t)

/-- Sends what waits in an element's output. -/
def Region.flush (g : Region) (m : Maker) (k pos : Nat) : Region :=
  let b := (g.ctx k).bank pos
  let outs := if b.upset then b.outq.map fun (o : Nat × Stok) => (o.1, { o.2 with tok := m.upset }) else b.outq
  let (g', left) := g.deliverAll m k pos outs []
  g'.modCtx k fun c => c.setBank pos { c.bank pos with outq := left }

/-! ### What an element sees -/

/-- Whether a CRY's body output feeds a wire (R46, R49). -/
def Ctx.bodyFeeds (c : Ctx) (g : Region) (x : Wire) : Bool :=
  c.elems.any fun e =>
    eopOf e.2 == 0x43 &&
    (match destOfByte g e.1 e.2 (dstOf e.2 0) with
     | .wire y => y == x
     | .link ct port vl => c.linkWire g (linkKey ct port vl) (c.foldPos (linkKey ct port vl) e.1 0) == some x
     | _ => false)

/-- The carried inputs of an element: those that a CRY's body output feeds (R46). -/
def Ctx.carriedAt (c : Ctx) (g : Region) (pos : Nat) : List Nat :=
  (natRange 0 4).filter fun i =>
    match inputWire pos (c.word pos) i with
    | some x => c.bodyFeeds g x
    | none => false

/-- 256 free bits (log entry 24). -/
def freeBits (n : Nat) : Nat :=
  (Config.freeWord n).toNat + 2 ^ 64 * (Config.freeWord (n + 1)).toNat + 2 ^ 128 * (Config.freeWord (n + 2)).toNat +
    2 ^ 192 * (Config.freeWord (n + 3)).toNat

/-- The token in a latch. -/
def Ctx.latch (c : Ctx) (pos i : Nat) : Option Token := (mget c.lat (pos * 4 + i)).map (·.tok)

/-- A register bank as it is read: where it holds an uncorrectable error, a POISON stands in place of each token and of
the value that it accumulates (R404; log entry 62). -/
def ElemSt.sound (m : Maker) (st : ElemSt) : ElemSt :=
  if !st.upset then st
  else
    let item (x : AgItem) : AgItem :=
      match x with
      | .read _ (some (_ :: _)) c => .tok m.upset c
      | .tok _ c => .tok m.upset c
      | y => y
    let st := { st with toks := st.toks.map fun t => { t with tok := m.upset }, ag := { st.ag with queue := st.ag.queue.map item } }
    if st.regs.isEmpty && st.toks.isEmpty then st else st.taint m.upset

/-- A context as the element at a position reads it: a POISON stands in place of what a latch or the register bank holds
with an uncorrectable error (R404). -/
def Ctx.seen (c : Ctx) (m : Maker) (pos : Nat) : Ctx :=
  if c.spoilt.isEmpty && !(c.bank pos).upset then c
  else
    let lat := (natRange (pos * 4) 4).foldl
      (fun l i => if c.spoilt.contains i then madj l i fun t => { t with tok := m.upset } else l) c.lat
    { c with lat := lat }.setBank pos ((c.bank pos).sound m)

/-- What a firing gives that reads a bank with an uncorrectable error: a POISON in place of the values made from it. An
accumulator gives it when it is emitted, by its mark; a DLY forwards what is in no bank (R404; log entry 62). -/
def Fired.spoil (fd : Fired) (m : Maker) (eop : Nat) (st : ElemSt) : Fired :=
  if !st.upset || (st.regs.isEmpty && st.toks.isEmpty) || [0x22, 0x48, 0x50, 0x51, 0x53].contains eop then fd
  else { fd with outs := fd.outs.map fun (o : Nat × Token) => if o.2.isData then (o.1, m.upset) else o }

/-- What the element at a position sees. -/
def elemInput (s : State) (r : Nat) (g : Region) (k pos : Nat) (w : ElemCfg) : ElemIn :=
  let c := (g.ctx k).seen (makerOf s (posTile r g k pos)) pos
  { c := w, st := c.bank pos
    a := c.latch pos 0, b := c.latch pos 1, cc := c.latch pos 2, p := c.latch pos 3
    carried := c.carriedAt g pos
    full := (natRange 0 3).filter fun j => !c.destFree g pos j
    who := makerOf s (posTile r g k pos), free := freeBits s.oracle }

/-- Empties the latches of inputs that a firing has consumed. -/
def Ctx.consume (c : Ctx) (pos : Nat) (ins : List Nat) : Ctx :=
  { c with
    lat := ins.foldl (fun m i => merase m (pos * 4 + i)) c.lat
    spoilt := c.spoilt.filter fun x => !(ins.any fun i => x == pos * 4 + i) }

/-- The code of what a firing puts out: 1 more than the input whose token it passes on, where an operation may pass
on tokens of several inputs; otherwise 0. -/
def passCode (eop : Nat) (a : Option Token) (fd : Fired) : Nat :=
  match eop with
  | 0x41 => if a.any fun t => decide (t.cls ≠ .null) then 1 else 2
  | 0x42 => if fd.take.contains 1 then 2 else 1
  | 0x43 => if fd.take.contains 1 then 2 else 1
  | 0x4A => (fd.take.headD 0) + 1
  | _ => 0

/-- What a firing leaves in its context: latches emptied, the bank, the flag word (R152) and SAT (R129). An error in the
bank stays as long as the tokens do that it has spoilt. -/
def Ctx.fired (c : Ctx) (m : Maker) (pos : Nat) (fd : Fired) : Ctx :=
  let d := c.seen m pos
  let eop := eopOf (c.word pos)
  let outs := if pos < 2048 then (fd.spoil m eop (c.bank pos)).outs else fd.outs
  ({ c.consume pos fd.take with flags := orF c.flags fd.flags, sat := c.sat || fd.sat }).setBank pos
    { fd.st with
      outq := outs.map fun (o : Nat × Token) => (o.1, (⟨o.2, false, passCode eop (d.latch pos 0) fd⟩ : Stok)), lastFire := m.time, gated := false
      upset := (c.bank pos).upset && !fd.st.toks.isEmpty && decide (fd.st.toks = (d.bank pos).toks) }

/-- The firing of an element that acts through its latches alone (R47): what `f` gives on what it sees. -/
def elemForm (w : ElemCfg) (f : ElemFn) (s : State) : Out :=
  match s.cur with
  | .elem r k pos =>
    match s.region? r with
    | none => notReady
    | some g =>
      if !elemRuns s r g k pos || !((g.ctx k).bank pos).outq.isEmpty then notReady
      else match f (elemInput s r g k pos w) with
        | none => notReady
        | some fd =>
          let g' := ({ g with stall := 0 }).modCtx k fun c => c.fired (makerOf s (posTile r g k pos)) pos fd
          .next { s.setRegion r (g'.flush (makerOf s (posTile r g k pos)) k pos) with oracle := s.oracle + 4 }
  | _ => notReady

/-! ### Lane operations (R303-R305) -/

/-- VADD: a + b. -/
def execVadd (c : ElemCfg) (s : State) : Out := elemForm c fireVadd s
/-- VSUB: a - b. -/
def execVsub (c : ElemCfg) (s : State) : Out := elemForm c fireVsub s
/-- VMUL: a × b. -/
def execVmul (c : ElemCfg) (s : State) : Out := elemForm c fireVmul s
/-- VFMA: a × b + c, rounded once. -/
def execVfma (c : ElemCfg) (s : State) : Out := elemForm c fireVfma s
/-- VMIN: the smaller. -/
def execVmin (c : ElemCfg) (s : State) : Out := elemForm c fireVmin s
/-- VMAX: the larger. -/
def execVmax (c : ElemCfg) (s : State) : Out := elemForm c fireVmax s
/-- VABS: the magnitude. -/
def execVabs (c : ElemCfg) (s : State) : Out := elemForm c fireVabs s
/-- VNEG: the negation. -/
def execVneg (c : ElemCfg) (s : State) : Out := elemForm c fireVneg s
/-- VAND: bitwise and. -/
def execVand (c : ElemCfg) (s : State) : Out := elemForm c fireVand s
/-- VOR: bitwise or. -/
def execVor (c : ElemCfg) (s : State) : Out := elemForm c fireVor s
/-- VXOR: bitwise exclusive or. -/
def execVxor (c : ElemCfg) (s : State) : Out := elemForm c fireVxor s
/-- VSHL: a shifted left by b. -/
def execVshl (c : ElemCfg) (s : State) : Out := elemForm c fireVshl s
/-- VSHR: a shifted right by b, zeros in. -/
def execVshr (c : ElemCfg) (s : State) : Out := elemForm c fireVshr s
/-- VSAR: a shifted right by b, sign in. -/
def execVsar (c : ElemCfg) (s : State) : Out := elemForm c fireVsar s
/-- VCMP: 1 where the condition holds. -/
def execVcmp (c : ElemCfg) (s : State) : Out := elemForm c fireVcmp s
/-- VCLP: a clipped between b and c. -/
def execVclp (c : ElemCfg) (s : State) : Out := elemForm c fireVclp s
/-- VSCL: a times a power of two. -/
def execVscl (c : ElemCfg) (s : State) : Out := elemForm c fireVscl s
/-- VRED: the elements of a reduced to one. -/
def execVred (c : ElemCfg) (s : State) : Out := elemForm c fireVred s
/-- VACC: tokens accumulated up to a STOP. -/
def execVacc (c : ElemCfg) (s : State) : Out := elemForm c fireVacc s
/-- VEX2: two to the a. -/
def execVex2 (c : ElemCfg) (s : State) : Out := elemForm c fireVex2 s
/-- VRCP: the reciprocal. -/
def execVrcp (c : ElemCfg) (s : State) : Out := elemForm c fireVrcp s
/-- VSEL: b or c by element. -/
def execVsel (c : ElemCfg) (s : State) : Out := elemForm c fireVsel s
/-- VPRM: elements permuted. -/
def execVprm (c : ElemCfg) (s : State) : Out := elemForm c fireVprm s

/-! ### Converters and online operations (R306-R311) -/

/-- CVT: a converted, at a fixed or its first scale. -/
def execCvt (c : ElemCfg) (s : State) : Out := elemForm c fireCvt s
/-- CVTS: a converted, at a scale of its own. -/
def execCvts (c : ElemCfg) (s : State) : Out := elemForm c fireCvts s
/-- RNG: a random token. -/
def execRng (c : ElemCfg) (s : State) : Out := elemForm c fireRng s
/-- OADD: the online sum. -/
def execOadd (c : ElemCfg) (s : State) : Out := elemForm c fireOadd s
/-- OMLC: the online product by a constant. -/
def execOmlc (c : ElemCfg) (s : State) : Out := elemForm c fireOmlc s
/-- OCMP: the online comparison. -/
def execOcmp (c : ElemCfg) (s : State) : Out := elemForm c fireOcmp s
/-- SDE: a number into signed digits. -/
def execSde (c : ElemCfg) (s : State) : Out := elemForm c fireSde s
/-- SDD: signed digits into a number. -/
def execSdd (c : ElemCfg) (s : State) : Out := elemForm c fireSdd s

/-! ### Router operators (R312-R316) -/

/-- STR: steers by a predicate. -/
def execStr (c : ElemCfg) (s : State) : Out := elemForm c fireStr s
/-- MRG: the arm that is not NULL. -/
def execMrg (c : ElemCfg) (s : State) : Out := elemForm c fireMrg s
/-- CMRG: the arm that a predicate names. -/
def execCmrg (c : ElemCfg) (s : State) : Out := elemForm c fireCmrg s
/-- CRY: the loop operator. -/
def execCry (c : ElemCfg) (s : State) : Out := elemForm c fireCry s
/-- IVR: a copy of a for each DATA token on b. -/
def execIvr (c : ElemCfg) (s : State) : Out := elemForm c fireIvr s
/-- RSEL: a on the destination that p names. -/
def execRsel (c : ElemCfg) (s : State) : Out := elemForm c fireRsel s
/-- FLT: drops what its predicate refuses. -/
def execFlt (c : ElemCfg) (s : State) : Out := elemForm c fireFlt s
/-- STPG: a STOP after every IMM32 tokens. -/
def execStpg (c : ElemCfg) (s : State) : Out := elemForm c fireStpg s
/-- STPC: counts the tokens up to a STOP. -/
def execStpc (c : ElemCfg) (s : State) : Out := elemForm c fireStpc s
/-- RPT: repeats a token. -/
def execRpt (c : ElemCfg) (s : State) : Out := elemForm c fireRpt s
/-- JN: joins its inputs in a pattern. -/
def execJn (c : ElemCfg) (s : State) : Out := elemForm c fireJn s
/-- PAD: stages of delay. -/
def execPad (c : ElemCfg) (s : State) : Out := elemForm c firePad s
/-- NGEN: counted values. -/
def execNgen (c : ElemCfg) (s : State) : Out := elemForm c fireNgen s

/-! ### Matrix region (R317-R321) -/

/-- MMA: the outer-product accumulator. -/
def execMma (c : ElemCfg) (s : State) : Out := elemForm c fireMma s
/-- MMAW: MMA with stationary weights. -/
def execMmaw (c : ElemCfg) (s : State) : Out := elemForm c fireMmaw s
/-- WPL: weights converted and placed. -/
def execWpl (c : ElemCfg) (s : State) : Out := elemForm c fireWpl s
/-- DLY: one token of delay. -/
def execDly (c : ElemCfg) (s : State) : Out := elemForm c fireDly s
/-- LREC: the linear recurrence with its carry. -/
def execLrec (c : ElemCfg) (s : State) : Out := elemForm c fireLrec s
/-- ADRN: four elements of a, then those of b. -/
def execAdrn (c : ElemCfg) (s : State) : Out := elemForm c fireAdrn s

/-! ### M-tile (R324, R329) -/

/-- TFIFO: tokens of every kind in order. -/
def execTfifo (c : ElemCfg) (s : State) : Out := elemForm c fireTfifo s

end Sys2Proof.Machine
end

