-- ==== Sys2Proof/Machine/StreamOps.lean ====
section
/-!
DEFINITION. The fibre stream elements FIN, FOUT, FISX and FUNI (spec/05_fibres.md R100, R110, R114, R119;
spec/15_element_ops.md R330; R392, R393, R396).
-/

namespace Sys2Proof.Machine

/-! ### Pairs of a token (R99, R100, R228) -/

/-- The pad coordinate. -/
def padCoord : Nat := 0xFFFFFFFF

/-- The pairs of a pair×4 token, pads left out (R119). -/
def tokenPairs (t : Token) : List Nat := (splitBits 64 4 t.data.toNat).filter fun p => p % 2 ^ 32 != padCoord

/-- A token of up to four pairs, the last places padded (R114). -/
def pairToken (ps : List Nat) : Token := dataTok 0x7F (joinBits 64 (ps ++ lrep (4 - ps.length) padCoord))

/-! ### FISX and FUNI (R119, R396) -/

/-- What a join element holds: pairs not yet compared, aligned pairs not yet emitted, the last accepted
coordinates (plus 1; 0 for none), and whether the work tile has had its POISON. -/
structure Joiner where
  qa : List Nat
  qb : List Nat
  oa : List Nat
  ob : List Nat
  la : Nat
  lb : Nat
  warned : Bool
  deriving DecidableEq, Repr

/-- The joiner in a register bank. -/
def joinerOf (st : ElemSt) : Joiner :=
  let l := st.regs.drop 6
  let na := st.reg 0
  let nb := st.reg 1
  let no := st.reg 2
  ⟨l.take na, (l.drop na).take nb, (l.drop (na + nb)).take no, (l.drop (na + nb + no)).take no, st.reg 3, st.reg 4, st.reg 5 == 1⟩

/-- The register bank of a joiner. -/
def Joiner.put (j : Joiner) (st : ElemSt) : ElemSt :=
  { st with regs := [j.qa.length, j.qb.length, j.oa.length, j.la, j.lb, bnat j.warned] ++ j.qa ++ j.qb ++ j.oa ++ j.ob }

/-- Accepts the pairs of a token: those kept, the last coordinate, and whether one was discarded (R396). -/
def acceptPairs : Nat → List Nat → List Nat × Nat × Bool
  | last, [] => ([], last, false)
  | last, p :: ps =>
    let x := p % 2 ^ 32
    if last ≤ x then
      let (q, l, bad) := acceptPairs (x + 1) ps
      (p :: q, l, bad)
    else
      let (q, l, _) := acceptPairs last ps
      (q, l, true)

/-- Adds an aligned pair of coordinate x. -/
def Joiner.pair (j : Joiner) (x a b : Nat) : Joiner := { j with oa := j.oa ++ [x + a * 2 ^ 32], ob := j.ob ++ [x + b * 2 ^ 32] }

/-- Compares as far as both sides allow; a side that stands at its STOP gives way (R119). -/
def Joiner.run (uni endA endB : Bool) : Nat → Joiner → Joiner
  | 0, j => j
  | n + 1, j =>
    let x (p : Nat) : Nat := p % 2 ^ 32
    let v (p : Nat) : Nat := p / 2 ^ 32
    let onlyA (p : Nat) (ps : List Nat) : Joiner := let j := { j with qa := ps }; if uni then j.pair (x p) (v p) 0 else j
    let onlyB (p : Nat) (ps : List Nat) : Joiner := let j := { j with qb := ps }; if uni then j.pair (x p) 0 (v p) else j
    match j.qa, j.qb with
    | p :: ps, q :: qs =>
      if x p = x q then Joiner.run uni endA endB n (({ j with qa := ps, qb := qs } : Joiner).pair (x p) (v p) (v q))
      else if x p < x q then Joiner.run uni endA endB n (onlyA p ps)
      else Joiner.run uni endA endB n (onlyB q qs)
    | p :: ps, [] => if endB then Joiner.run uni endA endB n (onlyA p ps) else j
    | [], q :: qs => if endA then Joiner.run uni endA endB n (onlyB q qs) else j
    | [], [] => j

/-- The full tokens of the aligned pairs, on both outputs in turn, and what is left. -/
def Joiner.full : Nat → Joiner → List (Nat × Token) × Joiner
  | 0, j => ([], j)
  | n + 1, j =>
    if j.oa.length < 4 then ([], j)
    else
      let (ts, j') := Joiner.full n { j with oa := j.oa.drop 4, ob := j.ob.drop 4 }
      ((0, pairToken (j.oa.take 4)) :: (1, pairToken (j.ob.take 4)) :: ts, j')

/-- Whether a token is a STOP. -/
def isStop (t : Option Token) : Bool := match t with | some t => t.stopLevel != 0 | none => false

/-- A firing of a joiner that consumes `take`: it compares, and emits what it can after `first`. -/
def Joiner.step (x : ElemIn) (uni : Bool) (take : List Nat) (j : Joiner) (first : List (Nat × Token)) : Option Fired :=
  let j := Joiner.run uni (isStop x.a && j.qa.isEmpty) (isStop x.b && j.qb.isEmpty) (j.qa.length + j.qb.length) j
  let (ts, j) := Joiner.full j.oa.length j
  x.outSt take ((ts ++ first).filter fun o => x.dst o.1 != 0) (j.put x.st) 0

/-- Takes a token that is no STOP from input i. -/
def Joiner.take (x : ElemIn) (uni : Bool) (i : Nat) (t : Token) (j : Joiner) : Option Fired :=
  match t.cls with
  | .data =>
    let (ps, l, bad) := acceptPairs (if i = 0 then j.la else j.lb) (tokenPairs t)
    let warn := bad && !j.warned
    let j := { j with warned := j.warned || bad }
    let j := if i = 0 then { j with qa := j.qa ++ ps, la := l } else { j with qb := j.qb ++ ps, lb := l }
    let p := x.who.poison 3 6
    j.step x uni [i] (if warn then [(0, p), (1, p)] else [])
  | .null => j.step x uni [i] []
  | _ => let p := (firstPoison x.who [t]).getD t; j.step x uni [i] [(0, p), (1, p)]

/-- FISX and FUNI: one token of an input whose pairs are used up, or both STOP tokens at the end of a stream; a work tile
may hold several streams, and its one POISON has then been given (R396). -/
def fireJoin (uni : Bool) : ElemFn := fun x =>
  let j := joinerOf x.st
  if !x.room [0, 1] then none
  else match x.a, x.b with
  | some a, _ =>
    if a.stopLevel = 0 ∧ j.qa.isEmpty then j.take x uni 0 a else other x j
  | none, _ => other x j
where
  /-- The other ways to fire. -/
  other (x : ElemIn) (j : Joiner) : Option Fired :=
    match x.b with
    | none => none
    | some b =>
      if b.stopLevel = 0 then (if j.qb.isEmpty then j.take x uni 1 b else if isStop x.a ∧ j.qa.isEmpty then j.step x uni [] [] else none)
      else if !isStop x.a then (if j.qa.isEmpty then none else j.step x uni [] [])
      else if !(j.qa.isEmpty && j.qb.isEmpty) then j.step x uni [] []
      else
        let k := ((x.a).map (·.stopLevel)).getD 0
        let t := if k = b.stopLevel then stopTok k else x.who.poison 3 1
        let rest := if j.oa.isEmpty then [] else [(0, pairToken j.oa), (1, pairToken j.ob)]
        x.outSt [0, 1] ((rest ++ [(0, t), (1, t)]).filter fun o => x.dst o.1 != 0) ((⟨[], [], [], [], 0, 0, j.warned⟩ : Joiner).put x.st) 0

/-- FISX: the pairs of coordinates present in both streams. -/
def execFisx (c : ElemCfg) (s : State) : Out := elemForm c (fireJoin false) s
/-- FUNI: the pairs of coordinates present in either stream, zero for a missing value. -/
def execFuni (c : ElemCfg) (s : State) : Out := elemForm c (fireJoin true) s

/-! ### Elements that send requests -/

/-- An element whose turn it is, that may act and has nothing to send: its region, context and bank. -/
def elemTurn (s : State) : Option (Nat × Nat × Nat × Region) :=
  match s.cur with
  | .elem r k pos =>
    match s.region? r with
    | some g => if elemRuns s r g k pos && ((g.ctx k).bank pos).outq.isEmpty then some (r, k, pos, g) else none
    | none => none
  | _ => none

/-- The privilege level of a context's accesses: that of the task that armed it (log entry 29). -/
def ctxLevel (s : State) (c : Ctx) : Nat := ((c.armTask.bind fun a => s.task? a.1).map (·.level)).getD 0

/-- The launch that a context works for (R358). -/
def ctxLaunch (g : Region) (c : Ctx) : Nat := (c.armTask.map (·.2)).getD g.launch

/-- Writes what an element's step leaves: inputs consumed, its bank, and tokens to send. -/
def elemDone (s : State) (r k pos : Nat) (take : List Nat) (st : ElemSt) (outs : List (Nat × Token)) : State :=
  match s.region? r with
  | none => s
  | some g =>
    let g := ({ g with stall := 0 }).modCtx k fun c => c.fired (makerOf s (posTile r g k pos)) pos ⟨take, outs, st, 0, false⟩
    s.setRegion r (g.flush (makerOf s (posTile r g k pos)) k pos)

/-- The translation of a fibre's head by a stream element (R393). -/
def elemHead (s : State) (r : Nat) (g : Region) (c : Ctx) (write : Bool) (va : Word) : Option Pass :=
  match access s (dieOf r * 256 + seTlb (4096 + r)) g.ptn (ctxLevel s c) ⟨!write, write, [0, 1, 2, 4, 5]⟩ va 1 with
  | .ok x => if inHbm x.pa then some x else none
  | .error _ => none

/-- The TLB through which a region's stream elements look up (log entry 9), and whether the translation of a head there has
to wait for a walk (R89). -/
def elemTlb (r : Nat) : Nat := dieOf r * 256 + seTlb (4096 + r)
def headWalked (s : State) (r ptn : Nat) (va : Word) : Bool := walksFree s (elemTlb r) ptn [va]

/-- Adds cost words field by field, each saturating (R110, R111). -/
def costAdd (a b : Nat) : Nat := (addCost (wordOf a) (wordOf b)).toNat

/-- Sends a stream element's cost sum at the end of its stream (R110, R330). -/
def sendCost (s : State) (r k pos : Nat) (g : Region) (c : ElemCfg) (sum : Nat) : State :=
  if bitAt c.ops.toNat 16 then sendWords s (.elem r k pos) (c.imm.toNat % 65536) g.ptn [] false [wordOf sum] else s

/-- A STOP of this level ends a stream (R110). -/
def endsStream (c : ElemCfg) (k : Nat) : Bool := decide (Nat.max c.stpl.toNat 1 ≤ k)

/-- The VFMT a stream element asks of its fibre, plus 1, above the mode of its operation (R330). -/
def wantFmt (c : ElemCfg) : Nat := 16 * (c.afmt.toNat + 1)

/-! ### FIN: register 0 is 1 while a scan runs, register 1 sums the cost words -/

/-- FIN (R114, R119, R330). -/
def execFin (c : ElemCfg) (s : State) : Out :=
  match elemTurn s with
  | none => notReady
  | some (r, k, pos, g) =>
    let x := (g.ctx k).seen (makerOf s (posTile r g k pos)) pos
    let st := x.bank pos
    let die := dieOf r
    if st.reg 0 = 1 || !x.destFree g pos 0 then notReady
    else match x.latch pos 0 with
      | none => notReady
      | some t =>
        let done (st : ElemSt) (outs : List (Nat × Token)) (s : State) : Out := .next (elemDone s r k pos [0] st outs)
        match t.cls with
        | .null => done st [] s
        | .stop j =>
          if endsStream c j then done { st with regs := [0, 0] } [(0, t)] (sendCost s r k pos g c (st.reg 1))
          else done st [(0, t)] s
        | .data =>
          let va := wordOf (t.data.toNat % 2 ^ 64)
          let lvl := Nat.max 1 (field c.ops.toNat 20 18)
          if !headWalked s r g.ptn va then notReady
          else
          let s := installTlb s (elemTlb r) g.ptn va
          match elemHead s r g x false va with
          | none => done st [(0, unitPoison s.time 5 6 die), (0, stopTok lvl)] s
          | some p =>
            done { st with regs := [1, st.reg 1] } []
              (issue s (.elem r k pos) g.ptn (ctxLaunch g x) (ctxLevel s x) (.shelver (shelverOf p.pa)) (.elem r k pos) 1 []
                (.fibre 3 va p.pa p.typ 0 0 (wantFmt c) lvl [] [] false))
        | _ => done st [(0, (firstPoison (makerOf s (posTile r g k pos)) [t]).getD t)] s

/-! ### FOUT: register 0 is 0 before a work tile's head, 1 with a head, 2 for NULL, 3 for POISON, which
`toks` holds; 1 the head VA; 2 is 1 while a merge runs; 3 sums the cost words; the batch follows -/

/-- The refusal word of a code (R392). -/
def refusalWord (code : Nat) : Word := wordOf (0x8000 * 2 ^ 48 + code)

/-- Closes a batch of FOUT: a merge sets out, or its summary is known at once (R330). -/
def closeBatch (s : State) (r k pos : Nat) (g : Region) (c : ElemCfg) (st : ElemSt) (take : List Nat) (batch rest : List Nat) : State :=
  let x := g.ctx k
  let va := wordOf (st.reg 1)
  let after (busy : Nat) : ElemSt := { st with regs := [st.reg 0, st.reg 1, busy, st.reg 3] ++ rest }
  let answer (t : Token) : State := elemDone s r k pos take (after 0) [(0, t)]
  if st.reg 0 = 2 then answer nullTok
  else if st.reg 0 = 3 then answer ((st.toks.head?.map (·.tok)).getD nullTok)
  else
    let s := installTlb s (elemTlb r) g.ptn va
    match elemHead s r g x true va with
    | none => elemDone s r k pos take (after 0) [(0, dataTok 0x7F (refusalWord 6).toNat)]
    | some p =>
      elemDone
        (issue s (.elem r k pos) g.ptn (ctxLaunch g x) (ctxLevel s x) (.shelver (shelverOf p.pa)) (.elem r k pos) 1 []
          (.fibre 2 va p.pa p.typ 0 (wordOf batch.length) (field c.ops.toNat 20 18 + 8 * bnat (bitAt c.ops.toNat 17) + wantFmt c) 0
            (batch.map wordOf) [] false))
        r k pos take (after 1) []

/-- FOUT (R119, R330); its work tile opens with its token on B and closes with a STOP of level max(STPL, 1) (log
entry 107). -/
def execFout (c : ElemCfg) (s : State) : Out :=
  match elemTurn s with
  | none => notReady
  | some (r, k, pos, g) =>
    let who := makerOf s (posTile r g k pos)
    let x := (g.ctx k).seen who pos
    let st := x.bank pos
    if st.reg 2 = 1 || !x.destFree g pos 0 || (st.reg 0 = 1 && !headWalked s r g.ptn (wordOf (st.reg 1))) then notReady
    else if st.reg 0 = 0 then
      match x.latch pos 1 with
      | none => notReady
      | some b =>
        let head (n va : Nat) (ts : List Stok) : Out := .next (elemDone s r k pos [1] { st with regs := [n, va, 0, st.reg 3], toks := ts } [])
        match b.cls with
        | .stop _ => head 0 0 []
        | .null => head 2 0 []
        | .data => head 1 (b.data.toNat % 2 ^ 64) []
        | _ => head 3 0 [⟨(firstPoison who [b]).getD b, false, 0⟩]
    else
      match x.latch pos 0 with
      | none => notReady
      | some t =>
        let batch := st.regs.drop 4
        match t.cls with
        | .null => .next (elemDone s r k pos [0] st [])
        | .data =>
          let all := batch ++ tokenPairs t
          if 64 ≤ all.length then .next (closeBatch s r k pos g c st [0] (all.take 64) (all.drop 64))
          else .next (elemDone s r k pos [0] { st with regs := st.regs.take 4 ++ all } [])
        | .stop j =>
          if !batch.isEmpty then .next (closeBatch s r k pos g c st [] batch [])
          else if endsStream c j then
            .next (elemDone (sendCost s r k pos g c (st.reg 3)) r k pos [0] { st with regs := [], toks := [] } [(0, t)])
          else .next (elemDone s r k pos [0] st [(0, t)])
        | _ => .next (elemDone s r k pos [0] st [(0, (firstPoison who [t]).getD t)])

/-! ### What a shelver sends back to a stream element -/

/-- Tokens of a scan reach the FIN that runs it, which emits them (R113, R114). -/
def scanTokens (s : State) (r k pos : Nat) (ts : List Token) : State :=
  match s.region? r with
  | none => s
  | some g =>
    let g := ({ g with stall := 0 }).modCtx k fun c =>
      let b := c.bank pos
      c.setBank pos { b with outq := b.outq ++ ts.map fun t => (0, (⟨t, false, 0⟩ : Stok)) }
    s.setRegion r (g.flush (makerOf s (posTile r g k pos)) k pos)

/-- The results of a stream element's operation have come back: the cost word joins the sum, a merge's
summary goes out on DST0, and a scan has ended (R110, R330). -/
def streamResult (s : State) (r k pos : Nat) (vals : List Word) (cost : Word) : State :=
  match s.region? r with
  | none => s
  | some g =>
    let x := g.ctx k
    let st := x.bank pos
    if eopOf (x.word pos) = 0x68 then
      s.setRegion r (g.modCtx k fun c => c.setBank pos { st with regs := [0, costAdd (st.reg 1) cost.toNat] })
    else
      let st := { st with regs := [st.reg 0, st.reg 1, 0, costAdd (st.reg 3) cost.toNat] ++ st.regs.drop 4 }
      elemDone s r k pos [] st [(0, dataTok 0x7F (vals.headD 0).toNat)]

end Sys2Proof.Machine
end

