-- ==== Sys2Proof/Machine/AddressGen.lean ====
section
/-!
DEFINITION. The address generators AGR and AGW (spec/15_element_ops.md R324-R329; spec/04_memory.md R76-R79,
R89; R333, R352, R356, R362, R365, R366, R430, R443). An AG takes one step at a time: a token that is ready
to leave, a STOP on P, a descriptor, an access.
-/

namespace Sys2Proof.Machine

/-! ### Words and descriptors (R325-R327) -/

/-- Stride unit, as a power of two. -/
def agSsh (c : ElemCfg) : Nat := field c.ops.toNat 20 17
/-- Loop levels. -/
def agLevels (c : ElemCfg) : Nat := field c.ops.toNat 16 14 + 1
/-- ORD. -/
def agOrd (c : ElemCfg) : Nat := field c.ops.toNat 13 12
/-- SCOPE, or the hint. -/
def agScope (c : ElemCfg) : Nat := field c.ops.toNat 11 8
/-- NSTP: no STOP tokens. -/
def agNoStop (c : ElemCfg) : Bool := bitAt c.ops.toNat 7
/-- Bytes of an access by its format. -/
def agSize (fmt : Nat) : Nat := if fmt = 1 then 8 else if fmt = 2 then 4 else 32

/-- BASE of a descriptor. -/
def descBase (d : TokData) : Nat := d.toNat % 2 ^ 64
/-- Stride of level i. -/
def descStride (d : TokData) (i : Nat) : Int := signedOf 16 (field d.toNat (95 + 32 * i) (80 + 32 * i))
/-- Count of level i, minus 1. -/
def descLast (d : TokData) (i : Nat) : Nat := field d.toNat (79 + 32 * i) (64 + 32 * i)

/-- Counter of level i. -/
def AgState.count (a : AgState) (i : Nat) : Nat := lget a.cnt i 0

/-- The address of the present iteration, modulo 2^64 (R327). -/
def agAddr (c : ElemCfg) (a : AgState) : Word :=
  wordOfInt ((descBase a.desc : Int) +
    (((natRange 0 (agLevels c)).map fun i => (a.count i : Int) * descStride a.desc i).foldl (· + ·) 0) * 2 ^ agSsh c)

/-- The advance of the counters: the levels that have closed, and the new counters (R327). -/
def agAdvance (d : TokData) : Nat → Nat → List Nat → Nat × List Nat
  | _, 0, cnt => (0, cnt)
  | i, left + 1, cnt =>
    if lget cnt i 0 = descLast d i then
      let (n, cnt') := agAdvance d (i + 1) left (lset cnt i 0)
      (n + 1, cnt')
    else (0, lset cnt i (lget cnt i 0 + 1))

/-- Whether the AG stands where an outermost iteration begins (R50). -/
def agBoundary (c : ElemCfg) (a : AgState) : Bool := (natRange 0 (agLevels c - 1)).all fun i => a.count i == 0

/-! ### The AG whose turn it is -/

/-- An AG that may act, and what its step reads of the state. -/
structure AgEnv where
  r   : Nat
  k   : Nat
  pos : Nat
  mt  : Nat
  isW : Bool
  g   : Region
  c   : Ctx
  w   : ElemCfg
  st  : ElemSt
  tile : Nat
  who : Maker
  deriving DecidableEq, Repr

/-- The AG whose turn it is. -/
def agTurn (w : ElemCfg) (isW : Bool) (s : State) : Option AgEnv :=
  match elemTurn s with
  | some (r, k, pos, g) =>
    match posKind pos with
    | .ag mt n =>
      if n = bnat isW then
        let who := makerOf s (posTile r g k pos)
        let c := (g.ctx k).seen who pos
        some ⟨r, k, pos, mt, isW, g, c, w, c.bank pos, posTile r g k pos, who⟩
      else none
    | _ => none
  | none => none

namespace AgEnv

/-- The walk. -/
def a (e : AgEnv) : AgState := e.st.ag
/-- The token at input i. -/
def tok (e : AgEnv) (i : Nat) : Option Token := e.c.latch e.pos i
/-- Whether destination j is free. -/
def free (e : AgEnv) (j : Nat) : Bool := e.c.destFree e.g e.pos j
/-- Whether P is named. -/
def hasP (e : AgEnv) : Bool := e.w.selp != 0
/-- The source of its requests. -/
def src (e : AgEnv) : Agent := .elem e.r e.k e.pos
/-- The role word of its M-tile in this context. -/
def role (e : AgEnv) : Nat := e.c.word (rolePos e.mt)
/-- The bank of the role word. -/
def roleSt (e : AgEnv) : ElemSt := e.c.bank (rolePos e.mt)
/-- The work tiles of the other AG of the M-tile (R329): that of its own context, or where that context has none,
those of the region's other contexts that share the M-tile as MBUF, the children of a PIPE (R27; log entry 57). -/
def partnerTiles (e : AgEnv) : Nat :=
  let pos := agPos e.mt (1 - bnat e.isW)
  let has (c : Ctx) : Bool := c.word pos != 0 && eopOf (c.word (rolePos e.mt)) == eopMbuf
  if has e.c then (e.c.bank pos).ag.tiles
  else (((natRange 0 4).filter fun j => j != e.k && has (e.g.ctx j)).map fun j => ((e.g.ctx j).bank pos).ag.tiles).foldl (· + ·) 0
/-- The step's result: inputs consumed, the new walk, tokens to send. -/
def done (e : AgEnv) (s : State) (take : List Nat) (a : AgState) (outs : List (Nat × Token)) : State :=
  elemDone s e.r e.k e.pos take { e.st with ag := a } (outs.filter fun o => dstOf (e.c.word e.pos) o.1 != 0)

/-! ### Faults (R352, R356, R365, R366) -/

/-- The record of an AG fault. Where the STOP of level i is due, the counter of that level has not gone on yet
(R327). -/
def record (e : AgEnv) (now : Nat) (f : Flt0) (prec : Nat) : List Word :=
  let cnt (i : Nat) : Nat := (e.a.count i - bnat (e.a.due.head? == some i)) % 2 ^ 16
  let pr := if f.code = 0x0010 then prec else 0
  [wordOf (0x02 * 2 ^ 56 + f.code * 2 ^ 40),
   wordOf (fcodeClass f.code * 2 ^ 60 + e.tile / 4096 * 2 ^ 30 + e.tile % 64 * 2 ^ 24 + e.tile / 64 % 64 * 2 ^ 18 +
     bnat e.isW * 2 ^ 17 + regOf e.r * 2 ^ 14 + e.k % 4 * 2 ^ 12),
   f.fva, wordOf now, wordOf (cnt 3 * 2 ^ 48 + cnt 2 * 2 ^ 32 + cnt 1 * 2 ^ 16 + cnt 0), wordOf (cnt 5 * 2 ^ 16 + cnt 4),
   wordOf (descBase e.a.desc), f.lpte, wordOf (pr % 2 ^ 64), wordOf (pr / 2 ^ 64 % 2 ^ 64), 0, 0, 0, 0, 0, 0]

/-- TAKING AN AG FAULT: the AG stops at its iteration, inputs consumed as given, and its record goes to
the mailbox of its die. -/
def fault (e : AgEnv) (s : State) (take : List Nat) (f : Flt0) (prec : Nat) : State :=
  postRecord (e.done s take { e.a with faulted := true } []) e.g.ptn (e.tile / 4096) (e.record s.time f prec) e.src (ctxLaunch e.g e.c)

/-- The fault of an AG that consumes a POISON or a reserved kind. -/
def poisoned (e : AgEnv) (s : State) (take : List Nat) (t : Token) : State :=
  e.fault s take (exc 0x0010) ((firstPoison e.who [t]).getD t).data.toNat

/-! ### Descriptors (R326, R329) -/

/-- Buffers of a MBUF role, lines, line bytes and released lines of a LBUF role (R324). -/
def nBuf (e : AgEnv) : Nat := field e.role 1 0 + 1
def nLine (e : AgEnv) : Nat := field e.role 2 0 + 1
def lineBytes (e : AgEnv) : Nat := field e.role 15 3 * 32
def released (e : AgEnv) : Nat := Nat.max 1 (field e.role 20 18)

/-- Whether the AG may begin its next work tile (R329). -/
def mayBegin (e : AgEnv) : Bool :=
  if eopOf e.role = eopMbuf then
    if e.isW then decide (e.a.tiles < e.partnerTiles + e.nBuf) else decide (e.a.tiles < e.partnerTiles)
  else true

/-- A descriptor is taken; none when there is none to take. -/
def begin? (e : AgEnv) (s : State) : Option State :=
  if e.a.active || e.a.faulted || !e.a.queue.isEmpty then none
  else match e.tok 0 with
    | none => none
    | some t =>
      match t.cls with
      | .data =>
        if e.mayBegin then
          some (e.done s [0] { e.a with active := true, desc := t.data, cnt := lrep 6 0, due := [], last := false, wbytes := 0 } [])
        else none
      | .null => some (e.done s [0] e.a [])
      | .stop _ => if e.isW then some (e.done s [0] e.a []) else if e.free 0 then some (e.done s [0] e.a [(0, t)]) else none
      | _ => some (e.poisoned s [0] t)

/-! ### P (R328) -/

/-- What P says of the next access. -/
inductive Gate where
  | wait
  | go (chain : Option Token)
  | skip (chain : Option Token)
  | bad (t : Token)
  deriving DecidableEq, Repr

/-- The decision of P. -/
def gate (e : AgEnv) : Gate :=
  if !e.hasP then .go none
  else match e.tok 3 with
    | none => .wait
    | some t =>
      match t.cls with
      | .data => if (t.data.toNat % 2 == 1) != (e.w.pinv == 1) then .go (some t) else .skip (some t)
      | .null => .skip (some t)
      | .stop _ => .wait
      | _ => .bad t

/-- A STOP on P passes to DST2, between accesses or outside a walk, after what is still to leave. -/
def passStop (e : AgEnv) (s : State) : Option State :=
  match e.tok 3 with
  | some t =>
    if e.hasP && t.stopLevel != 0 && !e.a.faulted && e.a.queue.isEmpty && e.free 2 then some (e.done s [3] e.a [(2, t)]) else none
  | none => none

/-! ### What is ready to leave (R327, R328) -/

/-- The head of what an AG has still to emit leaves, once its access has been performed. -/
def emit? (e : AgEnv) (s : State) : Option State :=
  let send (outs : List (Nat × Token)) (rest : List AgItem) : Option State :=
    if outs.all (fun o => e.free o.1) then some (e.done s [] { e.a with queue := rest } outs) else none
  let chained (c : Option Token) : List (Nat × Token) := match c with | some t => [(2, t)] | none => []
  match e.a.queue with
  | [] => none
  | .tok t c :: rest => send ((0, t) :: chained c) rest
  | .read _ (some bs) c :: rest =>
    send ((if bs.isEmpty then [] else [(0, dataTok 0x7F (natOfBytes bs))]) ++ chained c) rest
  | .read _ none _ :: _ => none

/-! ### Where an access lands -/

/-- The memory key of a byte of an M-tile (R76). -/
def sramKey (e : AgEnv) (off : Nat) : Nat := e.tile * 32768 + off

/-- Where an access of n bytes lands. -/
inductive Spot1 where
  | wait
  | bad (f : Flt0)
  /-- the M-tile's own bank, at an offset -/
  | own (off : Nat)
  | page (x : Pass)
  deriving DecidableEq, Repr

/-- The number of an AG among those that wait for walks. -/
def code (e : AgEnv) : Nat := (e.r * 4 + e.k) * 4096 + e.pos

/-- The translation cache of the AG, and the P-tile it looks up through (R89; log entry 9). -/
def cacheKey (e : AgEnv) : Nat := e.tile * 2 + bnat e.isW
def ptile (e : AgEnv) : Nat := e.tile / 4096 * 256 + Config.ptileOf (8192 + e.tile) % 256

/-- The translation of a VA that the AG can use now (R89). -/
def cached (e : AgEnv) (s : State) (va : Word) : Option TlbEntry :=
  (tlbFind (mgetD s.agtlbs e.cacheKey []) e.g.ptn va).or (tlbFind (mgetD s.tlbs e.ptile []) e.g.ptn va)

/-- A virtual access: canonical form, alignment, translation and page (R327, R357). -/
def virtual (e : AgEnv) (s : State) (va : Word) (n : Nat) : Spot1 :=
  if !isCanonical va then .bad ⟨0x0003, va, 0⟩
  else if va.toNat % n ≠ 0 then .bad ⟨0x0004, va, 0⟩
  else match e.cached s va, s.part? e.g.ptn with
    | some t, some p =>
      match checkPage s p (ctxLevel s e.c) (if e.isW then askStore else askLoad) va n t with
      | .ok x => .page x
      | .error f => .bad f
    | _, _ => .wait

/-- Where the access of the present iteration lands (R77, R329, R430). -/
def place (e : AgEnv) (s : State) (n : Nat) : Spot1 :=
  let va := agAddr e.w e.a
  let local' := Flt0.mk 0x000C va 0
  if eopOf e.role = eopMbuf then
    let seg := 24576 / e.nBuf
    if seg ≤ va.toNat ∨ 24576 < e.a.tiles % e.nBuf * seg + va.toNat + n then .bad local'
    else .own (e.a.tiles % e.nBuf * seg + va.toNat)
  else if eopOf e.role = eopLbuf then
    let len := e.lineBytes
    let full := lget e.roleSt.regs 0 0
    let head := lget e.roleSt.regs 1 0
    if e.isW then
      if full < e.nLine then .own ((head + full) % e.nLine * len + lget e.roleSt.regs 2 0) else .wait
    else if len = 0 ∨ e.nLine ≤ va.toNat / len then .bad local'
    else if full ≤ va.toNat / len then .wait
    else
      let off := (head + va.toNat / len) % e.nLine * len + va.toNat % len
      if 24576 < off + n then .bad local' else .own off
  else e.virtual s va n

/-- The request of a walk for a VA that no cache holds (R89); none when the AG waits for it already. -/
def askWalk (e : AgEnv) (s : State) (va : Word) : Option State :=
  let page := va.toNat % 2 ^ 56 / 65536
  match walkOf? (s.walks ++ s.walkq) (e.tile / 4096) e.g.ptn page with
  | some w => if w.waiters.contains e.code then none else some (askFor s w.die w.ptn page w.tlb [e.code])
  | none => some (askFor s (e.tile / 4096) e.g.ptn page e.ptile [e.code])

/-! ### Order (R168, R325) -/

/-- The acquires of the section, and what those of them follow that are releases of a scope below dev: its later accesses
wait for them (R168; log entry 133). -/
def acqIds (e : AgEnv) (s : State) : List Nat :=
  (s.ops.filter fun o => fellow e.src o.src && (match o.act with | .agAccess _ _ _ _ _ _ q => q | _ => false)).flatMap
    (fun o => o.id :: o.soft.map (·.1)) ++
  (s.veils.filter fun v => fellow e.src v.src && v.binds).flatMap fun v => v.soft.map (·.1)

/-- Whether the access acquires for its section. -/
def isAcq (e : AgEnv) : Bool := agOrd e.w % 2 == 1

/-- The scope of the rel part of the access, when it has one. -/
def rel? (e : AgEnv) : Option Scope := if 2 ≤ agOrd e.w then Scope.ofCode (agScope e.w) else none

/-- Requests that an access of page type typ must follow: the section's acquires, what its own rel part follows, and
among NC and DEVR accesses the earlier ones of the AG. -/
def orderIds (e : AgEnv) (s : State) (typ : Nat) : List Nat :=
  e.acqIds s ++ (match e.rel? with | some sc => releaseAfter s e.src sc | none => []) ++
  (if inOrder typ then
    ((opsOf s e.src).filter fun o => match o.act with | .agAccess _ _ _ _ _ h _ => inOrder (h / 16) | _ => false).map (·.id)
   else [])

/-- Hint and page type of an access. -/
def hintOf (e : AgEnv) (typ : Nat) : Nat := (if agOrd e.w = 0 then agScope e.w else 0) + 16 * typ

/-- Sends an access. -/
def send (e : AgEnv) (s : State) (x : Pass) (write : Bool) (bytes : List Byte) (place addr len : Nat) : State :=
  issueSoft s e.src e.g.ptn (ctxLaunch e.g e.c) (ctxLevel s e.c) (.tile e.tile) (.elem e.r e.k e.pos) 0 (e.orderIds s x.typ)
    (match e.rel? with | some sc => releaseSoft s e.src sc | none => [])
    (.agAccess place addr write bytes len (e.hintOf x.typ) e.isAcq)

/-- Whether the AG may make an access now: it walks, no fault stands, and a pre-emption lets it (R50, R352). -/
def mayAccess (e : AgEnv) (s : State) : Bool :=
  e.a.active && !e.a.faulted && !e.a.last &&
  !((match mget s.launches e.g.launch with | some l => decide (l.state = .preempting) | none => false) && agBoundary e.w e.a)

/-- The walk after the present iteration, with the STOP level that closes there. -/
def advance (e : AgEnv) : Nat × AgState :=
  let (i, cnt) := agAdvance e.a.desc 0 (agLevels e.w) e.a.cnt
  (i, { e.a with cnt := cnt, last := decide (i = agLevels e.w) })

end AgEnv

/-- The contexts of a region share the banks of an M-tile (R76): what context k writes there drops the CBNK
lines that the other contexts held (log entry 57). -/
def Region.dropLines (g : Region) (k mt : Nat) : Region :=
  (natRange 0 4).foldl (fun g j =>
    if j = k ∨ eopOf ((g.ctx j).word (rolePos mt)) ≠ eopCbnk then g
    else g.modCtx j fun c =>
      let b := c.bank (rolePos mt)
      c.setBank (rolePos mt) { b with regs := [lget b.regs 0 0 + 1] }) g

/-! ### AGR -/

/-- Reads of an AGR that are under way (R327). -/
def readsOut (q : List AgItem) : Nat :=
  (q.filter fun x => match x with | .read _ none _ => true | _ => false).length

/-- The end of an AGR's walk: the work tile counts, and a LBUF releases its oldest lines (R329). -/
def agrEnd (e : AgEnv) (s : State) : State :=
  if eopOf e.role = eopLbuf then
    s.modCtx e.r e.k fun c =>
      let b := c.bank (rolePos e.mt)
      let n := Nat.min e.released (lget b.regs 0 0)
      c.setBank (rolePos e.mt) { b with regs := [lget b.regs 0 0 - n, (lget b.regs 1 0 + n) % e.nLine, lget b.regs 2 0] }
  else s

/-- An AGR goes on after an iteration whose item it has queued. -/
def agrNext (e : AgEnv) (s : State) (item : AgItem) : State :=
  let (i, a) := e.advance
  let stop := if i = 0 ∨ agNoStop e.w then [] else [AgItem.tok (stopTok i) none]
  let a := { a with queue := a.queue ++ [item] ++ stop, active := !a.last, tiles := a.tiles + bnat a.last }
  let s := e.done s (if e.hasP then [3] else []) a []
  if a.last then agrEnd e s else s

/-- The slot of a CBNK line that the bank holds (R78). -/
def bankSlot (st : ElemSt) (va : Word) : Option Nat :=
  let l := st.regs.drop 2
  let i := l.findIdx fun x => x == va.toNat / 128 + 1
  if i < l.length then some i else none

/-- Whether a CBNK may keep a line of a page: the L2 caches it (R78, R82, R85). -/
def bankable (x : Pass) : Bool := (x.typ == 0 || x.typ == 2) && inHbm x.pa

/-- An acquire invalidates the lines of its section's CBNKs, wherever its access lands (R78, R168). -/
def AgEnv.acquired (e : AgEnv) (s : State) : State := if e.isAcq then s.modCtx e.r e.k Ctx.newBanks else s

/-- An AGR makes the access of its iteration. A marked granule is an uncorrectable error where its bytes are read: not when
the bank holds the line (R78, R404). -/
def agrAccess (e : AgEnv) (s : State) (chain : Option Token) : Option State :=
  let n := agSize e.w.ofmt.toNat
  let va := agAddr e.w e.a
  match e.place s n with
  | .wait => if eopOf e.role = eopLbuf then none else e.askWalk s va
  | .bad f => some (e.fault s [] f 0)
  | .own off => some (readOwn off n va 0)
  | .page x =>
    let bank := if eopOf e.role = eopCbnk ∧ bankable x ∧ !e.isAcq then bankSlot e.roleSt va else none
    match bank with
    | some i => if !allDone s (e.acqIds s) then none else some (readOwn (i * 128 + va.toNat % 128) n va x.pte)
    | none =>
    if s.placeMarked x.place n then some (e.fault s [] ⟨0x000A, va, x.pte⟩ 0)
    else if eopOf e.role = eopCbnk ∧ bankable x then fill x n va
    else
      let id := s.nextId
      some (agrNext e (e.send s x false [] x.place.space x.place.addr n) (.read id none chain))
where
  /-- A read of the M-tile's own bank; an uncorrectable error there is the fault of R404. -/
  readOwn (off n : Nat) (va pte : Word) : State :=
    if s.fab.bankMarked (e.sramKey off) n then e.fault s [] ⟨0x000A, va, pte⟩ 0
    else e.acquired (agrNext e s (.read 0 (some (Memory.readN s.fab.sram (e.sramKey off) n)) chain))
  /-- A miss of a CBNK: the line is read from its home slice; the bank's generation and the VA go with it. -/
  fill (x : Pass) (n : Nat) (va : Word) : Option State :=
    let gen := lget (((s.region? e.r).map fun g => ((g.ctx e.k).bank (rolePos e.mt)).regs).getD []) 0 0
    let note := bytesOfNat 8 gen ++ bytesOfNat 8 va.toNat ++ bytesOfNat 1 n
    some (agrNext e (e.send s x false note x.place.space (x.place.addr - va.toNat % 128) 128) (.read s.nextId none chain))

/-- A step of an AGR; none when it can take none. -/
def agrStep (e : AgEnv) (s : State) : Option State :=
  (e.emit? s).or <| (e.passStop s).or <| (e.begin? s).or <|
    if !e.mayAccess s || 64 ≤ readsOut e.a.queue then none
    else match e.gate with
      | .wait => none
      | .bad t => some (e.poisoned s [3] t)
      | .skip chain => some (agrNext e s (.tok nullTok chain))
      | .go chain => agrAccess e s chain

/-- AGR: walks its descriptor and reads. -/
def execAgr (c : ElemCfg) (s : State) : Out :=
  match agTurn c false s with
  | none => notReady
  | some e => match agrStep e s with
    | some s' => .next s'
    | none => notReady

/-! ### AGW -/

/-- A misplaced token on an AGW's data input: it creates the POISON, consumes it and faults (R365). -/
def agwMisplaced (e : AgEnv) (s : State) : State := e.fault s [1] (exc 0x0010) (e.who.poison 3 5).data.toNat

/-- An AGW goes on after an iteration: n bytes written, and the write or the copy of P that is due. -/
def agwNext (e : AgEnv) (s : State) (n : Nat) (item : AgItem) : State :=
  let (i, a) := e.advance
  let due := if i = 0 ∨ agNoStop e.w then [] else [i]
  e.done s (1 :: (if e.hasP then [3] else [])) { a with queue := a.queue ++ [item], due := due, wbytes := a.wbytes + n } []

/-- An AGW appends to its LBUF: a full line counts (R329). -/
def lbufFill (e : AgEnv) (s : State) (n : Nat) : State :=
  if eopOf e.role = eopLbuf then
    s.modCtx e.r e.k fun c =>
      let b := c.bank (rolePos e.mt)
      let fill := lget b.regs 2 0 + n
      let full := decide (e.lineBytes ≤ fill)
      c.setBank (rolePos e.mt) { b with regs := [lget b.regs 0 0 + bnat full, lget b.regs 1 0, if full then 0 else fill] }
  else s

/-- An AGW writes the token on its data input. -/
def agwAccess (e : AgEnv) (s : State) (t : Token) (chain : Option Token) : Option State :=
  let n := agSize e.w.ifmt.toNat
  let bs := bytesOfNat n t.data.toNat
  match e.place s n with
  | .wait => if eopOf e.role = eopLbuf then none else e.askWalk s (agAddr e.w e.a)
  | .bad f => some (e.fault s [] f 0)
  | .own off =>
    let s := { s with fab := s.fab.writeBank (e.sramKey off) bs }
    let s := lbufFill e (agwNext e s n (.read 0 (some []) chain)) n
    some (e.acquired (match s.region? e.r with
      | some g => s.setRegion e.r (g.dropLines e.k e.mt)
      | none => s))
  | .page x =>
    let id := s.nextId
    some (agwNext e (e.send s x true bs x.place.space x.place.addr n) n (.read id none chain))

/-- The completion of an AGW's work tile (R79, R327): after its last write, one token on DST0. -/
def agwEnd (e : AgEnv) (s : State) : Option State :=
  if e.a.active && e.a.last && e.a.due.isEmpty && e.a.queue.isEmpty && e.free 0 then
    let word := 2 ^ 56 + (e.a.tiles + 1) % 2 ^ 16 * 2 ^ 32 + e.a.wbytes % 2 ^ 32
    some (e.done s [] { e.a with active := false, last := false, tiles := e.a.tiles + 1, wbytes := 0 } [(0, dataTok 0 word)])
  else none

/-- What an AGW does with its data input, as long as its walk takes one. -/
def agwData (e : AgEnv) (s : State) : Option State :=
  match if e.a.last && e.a.due.isEmpty then none else e.tok 1 with
  | none => none
  | some t =>
    match t.cls with
    | .stop k =>
      match e.a.due with
      | d :: _ => if k = d then some (e.done s [1] { e.a with due := [] } []) else some (agwMisplaced e s)
      | [] => some (agwMisplaced e s)
    | .poison => some (e.poisoned s [1] t)
    | .reserved => some (e.poisoned s [1] t)
    | _ =>
      if !e.a.due.isEmpty then some (agwMisplaced e s)
      else if !e.mayAccess s then none
      else match e.gate with
        | .wait => none
        | .bad p => some (e.poisoned s [3] p)
        | .skip chain => some (agwNext e s 0 (.read 0 (some []) chain))
        | .go chain =>
          if t.isData then agwAccess e s t chain else some (agwNext e s 0 (.read 0 (some []) chain))

/-- A step of an AGW; none when it can take none. -/
def agwStep (e : AgEnv) (s : State) : Option State :=
  (e.emit? s).or <| (agwEnd e s).or <| (e.passStop s).or <| (e.begin? s).or <|
    if e.a.active && !e.a.faulted then agwData e s else none

/-- AGW: walks its descriptor and writes. -/
def execAgw (c : ElemCfg) (s : State) : Out :=
  match agTurn c true s with
  | none => notReady
  | some e => match agwStep e s with
    | some s' => .next s'
    | none => notReady

/-! ### What memory sends back -/

/-- The item of a read or write, once it has been performed. -/
def fillItem (id : Nat) (bs : List Byte) : List AgItem → List AgItem
  | [] => []
  | .read i none c :: q => if i = id then .read i (some bs) c :: q else .read i none c :: fillItem id bs q
  | x :: q => x :: fillItem id bs q

/-- A line that a CBNK keeps: in the slot of the line filled longest ago (R78, R329); a granule that was marked where it was
read stays an uncorrectable error in the bank (R404). -/
def keepLine (tile gen : Nat) (va : Word) (line : List Byte) (marks : Nat) (st : ElemSt) (fab : Fabric) : ElemSt × Fabric :=
  if lget st.regs 0 0 ≠ gen ∨ (bankSlot st va).isSome then (st, fab)
  else
    let n := lget st.regs 1 0
    let lines := st.regs.drop 2
    let lines := if n % 192 < lines.length then lset lines (n % 192) (va.toNat / 128 + 1) else lines ++ [va.toNat / 128 + 1]
    let base := tile * 32768 + n % 192 * 128
    let fab := fab.writeBank base line
    ({ st with regs := [gen, n + 1] ++ lines },
     { fab with smarks := fab.smarks ++ ((natRange 0 16).filter fun i => bitAt marks (i / 8)).map fun i => base / 8 + i })

/-- The note of a fill of a bank once its line has been read: with the marks of its two granules behind it. -/
def markedNote (s : State) (space a : Nat) (note : List Byte) : List Byte :=
  if note.isEmpty then note
  else note ++ bytesOfNat 1 (bnat (s.placeMarked (placeOf space a) 64) + 2 * bnat (s.placeMarked (placeOf space (a + 64)) 64))

/-- An access of an AG has been performed: the bytes it read, none for a write. An acquire invalidates the CBNK
lines of its section (R78). -/
def agPerformed (s : State) (r k pos id : Nat) (acq : Bool) (note bytes : List Byte) : State :=
  match s.region? r with
  | none => s
  | some g =>
    let g := if acq then g.modCtx k Ctx.newBanks else g
    let upd (bs : List Byte) (g : Region) : Region := g.modCtx k fun c =>
      let b := c.bank pos
      c.setBank pos { b with ag := { b.ag with queue := fillItem id bs b.ag.queue } }
    if note.isEmpty then s.setRegion r (upd bytes g)
    else
      let gen := natOfBytes (note.take 8)
      let va := wordOf (natOfBytes ((note.drop 8).take 8))
      let n := natOfBytes ((note.drop 16).take 1)
      let marks := natOfBytes (note.drop 17)
      match posKind pos with
      | .ag mt _ =>
        let (st, fab) := keepLine (posTile r g k pos) gen va bytes marks ((g.ctx k).bank (rolePos mt)) s.fab
        let g := ((upd ((bytes.drop (va.toNat % 128)).take n) g).modCtx k fun c => c.setBank (rolePos mt) st).dropLines k mt
        { s with fab := fab }.setRegion r g
      | _ => s

end Sys2Proof.Machine
end

