-- ==== Sys2Proof/Machine/Atomics.lean ====
section
/-!
DEFINITION. The atomics (spec/14_block_system.md R271): single-copy read-modify-writes at the home
slice, performed after commit in the order of R168.
-/

namespace Sys2Proof.Machine

/-- The check of an atomic at commit (R264, R271); its read of a granule with an uncorrectable error faults (R404). -/
def atomicCheck (s : State) (tid : Nat) (va : Word) (w : Nat) : Option Flt0 :=
  match s.task? tid with
  | none => none
  | some t => match taskAccess s tid t askAtomic va w with
    | .error f => some f
    | .ok x => if s.placeMarked x.place w then some ⟨0x000A, va, x.pte⟩ else none

/-- An atomic sets out. With a scope it is acqrel: it waits for the earlier accesses of its task, and
the later ones wait for it (R168, R223). -/
def atomicEff (s : State) (tid code : Nat) (op : AOp) (w : Nat) (sc : Option Scope) (ta : Target) (a b c : Word) : State :=
  match s.task? tid with
  | none => s
  | some t => match taskAccess s tid t askAtomic a w with
    | .error _ => s
    | .ok x =>
      let s := taskInstall s tid t a
      let rel := match sc with | some q => releaseAfter s (.task tid) q | none => []
      let soft := match sc with | some q => releaseSoft s (.task tid) q | none => []
      let id := s.nextId
      acquire (issueTaskSoft s tid (.task tid) false ta 1 (t.afterW ++ rel) (t.afterS ++ soft)
        (.atomic code op x.place.space x.place.addr w b c)) tid sc id (t.afterS ++ soft)

/-- AMO at commit. -/
def formAmo (wd : Bool) (op : AOp) (sc : Option Scope) (ta : Target) : CForm where
  check s tid a _ _ := atomicCheck s tid a (if wd then 8 else 4)
  ready := invsDone
  eff s tid a b c := atomicEff s tid 0 op (if wd then 8 else 4) sc ta a b c

/-- CAS at commit. -/
def formCas (wd : Bool) (sc : Option Scope) (ta : Target) : CForm where
  check s tid a _ _ := atomicCheck s tid a (if wd then 8 else 4)
  ready := invsDone
  eff s tid a b c := atomicEff s tid 1 .swap (if wd then 8 else 4) sc ta a b c

/-- CAS2 at commit. -/
def formCas2 (sc : Option Scope) (ta : Target) : CForm where
  check s tid a _ _ := atomicCheck s tid a 16
  ready := invsDone
  eff s tid a b c := atomicEff s tid 2 .swap 16 sc ta a b c

/-- AMO: old := M; M := op(old, b). -/
def execAmo (p : Pred) (_m : Fin 32) (wd : Bool) (op : AOp) (sc : Option Scope) (ta : Target) (s : State) : Out :=
  commitForm p .n2 ta 1 (formAmo wd op sc ta) s
/-- CAS: M := c when M is b. -/
def execCas (p : Pred) (_m : Fin 32) (wd : Bool) (sc : Option Scope) (ta : Target) (s : State) : Out :=
  commitForm p .n3 ta 1 (formCas wd sc ta) s
/-- CAS2: writes b and the next version when the version is c. -/
def execCas2 (p : Pred) (_m : Fin 32) (sc : Option Scope) (ta : Target) (s : State) : Out :=
  commitForm p .n3 ta 1 (formCas2 sc ta) s

/-- op(old, b) at w bits (R223, R271). -/
def amoOp (op : AOp) (w old b : Nat) : Nat :=
  let o := old % 2 ^ w
  let x := b % 2 ^ w
  match op with
  | .add => (o + x) % 2 ^ w
  | .and => Nat.land o x
  | .or => Nat.lor o x
  | .xor => Nat.xor o x
  | .smin => if signedOf w x < signedOf w o then x else o
  | .smax => if signedOf w o < signedOf w x then x else o
  | .umin => if x < o then x else o
  | .umax => if o < x then x else o
  | .swap => x

/-- What an atomic leaves in memory and gives as its result (R271): new bytes, and the old value
extended. -/
def atomicDo (code : Nat) (op : AOp) (width : Nat) (m : List Byte) (b c : Word) : List Byte × Word :=
  let w := 8 * width
  let old := natOfBytes m
  match code with
  | 0 => (bytesOfNat width (amoOp op w old b.toNat), if width = 4 then sext 32 old else wordOf old)
  | 1 => (bytesOfNat width (if old = b.toNat % 2 ^ w then c.toNat % 2 ^ w else old), if width = 4 then sext 32 old else wordOf old)
  | _ =>
    let val := natOfBytes (m.take 8)
    let ver := natOfBytes (m.drop 8)
    if ver = c.toNat then (bytesOfNat 8 b.toNat ++ bytesOfNat 8 (c.toNat + 1), wordOf ver)
    else (bytesOfNat 8 val ++ bytesOfNat 8 ver, wordOf ver)

end Sys2Proof.Machine
end

