-- ==== Sys2Proof/Machine/FabricForms.lean ====
section
/-!
DEFINITION. The forms that load, arm and query the contexts of a region (spec/14_block_system.md R274-R276,
R288; spec/06 R128-R130, R348; R363, R364, R424, R426).
-/

namespace Sys2Proof.Machine

/-- The region that a cluster word and a REG field name. -/
def namedRegion (a : Word) (r : Nat) : Nat := r * 256 + a.toNat % 256

/-- The check of a cluster word (R266, R274, R424). -/
def clusterCheck (r : Nat) (s : State) (tid : Nat) (a : Word) : Option Flt0 := need (clusterWordOk s tid a r)

/-- Whether the task's ARMs have all reached a region, so that what a later form does to it comes after them. -/
def armsArrived (s : State) (tid rg : Nat) : Bool :=
  !(s.ops.any fun o => o.src == .task tid && match o.act with | .arm r .. => r == rg | _ => false)

/-! ### CFGL (R274, R275, R363) -/

/-- The words of an image as the issuing task reads them; none when reading one fails. -/
def imageWords (s : State) (tid : Nat) (va : Word) (n : Nat) : Option (List Word) :=
  match s.task? tid with
  | none => none
  | some t => let (ws, bad) := readBatch s tid t va n; if bad then none else some ws

/-- Element records and link records from the words after the header. -/
def recordsOf : Nat → List Word → List (Nat × Nat)
  | n + 1, h :: lo :: hi :: ws => (h.toNat, lo.toNat + 2 ^ 64 * hi.toNat) :: recordsOf n ws
  | _, _ => []

/-- The record counts of a context image header: elements and links; none when the header is wrong. -/
def ctxHeader (w0 w1 : Word) : Option (Nat × Nat) :=
  let ne := field w0.toNat 47 32
  let nl := field w0.toNat 63 48
  if w0.toNat % 2 ^ 32 = ctxMagic ∧ 1 ≤ ne ∧ ne ≤ 1024 ∧ nl ≤ 2048 ∧ w1 = 0 then some (ne, nl) else none

/-- A context image in memory, read by `rd` from a VA; none when its header is wrong or reading fails. -/
def readCtxImage (rd : Word → Nat → Option (List Word)) (va : Word) : Option CtxImage :=
  match rd va 2 with
  | some [w0, w1] =>
    match ctxHeader w0 w1 with
    | none => none
    | some (ne, nl) =>
      match rd (va + 16) (3 * ne + nl) with
      | some ws => some ⟨recordsOf ne ws, (ws.drop (3 * ne)).map (·.toNat)⟩
      | none => none
  | _ => none

/-- What cuts a declared circuit from the start, and the POISON that it gives: a tile on its way that the next one has
fenced, or its Novey port that is not ready, whose POISON comes at once (R379, R418). -/
def circuitCut (s : State) (x : CircuitPath) : Option (CircuitPath × Option Nat × Token) :=
  match x.via.findSome? fun v => (fencedStep s v.1 (v.2 / 4)).map fun n => (n, oppSide (v.2 / 4) * 4 + v.2 % 4) with
  | some q => some (x, none, (makerOf s q.1).poison 1 q.2)
  | none => if circuitOpen s x then none else some (x, some s.time, portPoison s x)

/-- What stands around a region of the state. -/
def State.outside (s : State) (r : Nat) (g : Region) : Outside :=
  let paths := (((mget s.launches g.launch).bind fun l => mget s.images l.image).map (·.circuits)).getD []
  ⟨r, s.fab.regions, paths, paths.filterMap (circuitCut s)⟩

/-- A slot that an accepted image has been written into: staged, its fetch still running (R37, R69). -/
def stagedCtx (l : Loaded) (va : Nat) : Ctx :=
  { Ctx.blank with
    status := .staged, fetching := true, elems := l.elems, routing := l.routing, relays := l.relays, image := va
    circs := l.circs, inlets := l.inlets
    es := l.pads.foldl (fun m p => mset m p.1 { ElemSt.init with regs := [p.2] }) [] }

/-- CFGL of an image into a slot: the region, and the status word (R363). -/
def loadContext (o : Outside) (g : Region) (k va : Nat) (im : Option CtxImage) : Region × Word :=
  match im with
  | none => (g, 0x0001)
  | some im =>
    if !(g.ctx k).isFree then (g, 0x000D)
    else match checkImage o g k im with
      | .error w => (g, w)
      | .ok l => (g.setCtx k (stagedCtx l va), 0)

/-- CFGL at commit. -/
def formCfgl (c r : Nat) (ta : Target) : CForm where
  check s tid a _ _ := clusterCheck r s tid a
  ready s tid a b cc := invsDone s tid a b cc && armsArrived s tid (namedRegion a r) &&
    (match s.task? tid with | some t => batchReady s tid t b 2 | none => true)
  eff s tid a b _ :=
    let rg := namedRegion a r
    match s.region? rg with
    | none => s
    | some g =>
      let (g', st) := loadContext (s.outside rg g) g c b.toNat (readCtxImage (imageWords s tid) b)
      landTask (s.setRegion rg g') tid ta [st]

/-- CFGL: loads the context image at b into the staged slot of a region. -/
def execCfgl (p : Pred) (ctx : Fin 4) (reg : Fin 8) (ta : Target) (s : State) : Out :=
  commitForm p .n2 ta 1 (formCfgl ctx.val reg.val ta) s

/-! ### CFGS (R276, R424) -/

/-- The fields of a switch word: region name, old and new context. -/
def switchFields (b : Word) : Nat × Nat × Nat := (field b.toNat 10 8 * 256 + b.toNat % 256, field b.toNat 12 11, field b.toNat 14 13)

/-- The payload of a switch-time word (R55). -/
def switchPayload (t old new : Nat) : Word := wordOf (t % 2 ^ 48 * 2 ^ 16 + new * 4 + old)

/-- CFGS at commit: sends the switch word to its region. -/
def formCfgs : CForm where
  check s tid a b _ :=
    match s.task? tid with
    | none => none
    | some t =>
      let (rg, old, new) := switchFields b
      need (field b.toNat 63 15 == 0 && regionDeclared s t (rg % 256) (regOf rg) && old != new &&
        decide (2048 ≤ s.cyclesTo a.toNat) && decide (s.cyclesTo a.toNat < 2 ^ 47))
  ready s tid a b c := invsDone s tid a b c && armsArrived s tid (switchFields b).1
  eff s tid a b _ :=
    match s.task? tid with
    | none => s
    | some t =>
      let (rg, old, new) := switchFields b
      sendCtrl s (.task tid) (.region rg) 4 (switchPayload a.toNat old new) t.ptn []

/-- CFGS: names a switch time for a region. -/
def execCfgs (p : Pred) (ta : Target) (s : State) : Out := commitForm p .n2 ta 0 formCfgs s

/-! ### ARM and DARM (R30, R32, R274, R424) -/

/-- ARM at commit: the count sets out to its region, with the channel route of its target. -/
def formArm (c r : Nat) (ta : Target) : CForm where
  check s tid a b _ :=
    match clusterCheck r s tid a with
    | some f => some f
    | none => need (b != 0 && decide (b.toNat < 2 ^ 32))
  ready := invsDone
  eff s tid a b _ :=
    match s.task? tid with
    | none => s
    | some t =>
      let rg := namedRegion a r
      let route := match ta with | .chan n => t.route tid n.val | _ => 0
      issue s (.task tid) t.ptn t.launch t.level (.region rg) .nowhere 0 [] (.arm rg c b.toNat route tid t.launch)

/-- ARM: adds a count to the arm count of a context. -/
def execArm (p : Pred) (ctx : Fin 4) (reg : Fin 8) (ta : Target) (s : State) : Out :=
  commitForm p .n2 ta 0 (formArm ctx.val reg.val ta) s

/-- Disarms a context: at the end of the phase that runs, or at once (R32). A section that is still pending is
taken from the pending list (log entry 97). -/
def disarm (s : State) (r k : Nat) (fre : Bool) : State :=
  match s.region? r with
  | none => s
  | some g =>
    let c := g.ctx k
    let s := s.setRegion r { g with pends := g.pends.filter fun p => p.ctx != k }
    if !c.resident then s
    else if g.phase ∧ g.cur = some k then s.modCtx r k fun c => { c with disarm := true, release := c.release || fre }
    else
      let s' := s.modCtx r k fun c => { c with arm := 0, release := c.release || fre }
      tryFree (if c.arm = 0 then s' else completeCtx s' r k) r k

/-- DARM at commit. -/
def formDarm (c r : Nat) (fre : Bool) : CForm where
  check s tid a _ _ := clusterCheck r s tid a
  ready s tid a b cc := invsDone s tid a b cc && armsArrived s tid (namedRegion a r)
  eff s _ a _ _ := disarm s (namedRegion a r) c fre

/-- DARM: sets the arm count of a context to zero at the end of its phase. -/
def execDarm (p : Pred) (ctx : Fin 4) (reg : Fin 8) (fre : Bool) (ta : Target) (s : State) : Out :=
  commitForm p .n1 ta 0 (formDarm ctx.val reg.val fre) s

/-! ### CTXM (R38) -/

/-- CTXM at commit: a new mode waits for the next phase end; the results are the context counter as it
stood at the last one. -/
def formCtxm (r : Nat) (mw mode : Bool) (ta : Target) : CForm where
  check s tid a _ _ := clusterCheck r s tid a
  ready := invsDone
  eff s tid a _ _ :=
    let rg := namedRegion a r
    match s.region? rg with
    | none => s
    | some g =>
      let s' := if mw then s.setRegion rg { g with nextCount := mode } else s
      landTask s' tid ta [g.snap0, g.snap1]

/-- CTXM: sets the selector mode and reads the context counter. -/
def execCtxm (p : Pred) (_ctx : Fin 4) (reg : Fin 8) (mw mode : Bool) (ta : Target) (s : State) : Out :=
  commitForm p .n1 ta 2 (formCtxm reg.val mw mode ta) s

/-! ### WGL, WGQ, WGU (R128-R130, R288, R348, R364) -/

/-- The placement entries in 64-bit words. -/
def placesOf (ws : List Word) (n : Nat) : List Word :=
  (ws.flatMap fun w => (splitBits 16 4 w.toNat).map wordOf).take n

/-- A Folio image in memory: header, nodes and placements; none when reading fails, or when its header
gives no node count to read by. -/
def readFolio (rd : Word → Nat → Option (List Word)) (va : Word) : Option (List Word × List Word × List Word) :=
  match rd va 4 with
  | none => none
  | some hdr =>
    let n := field (lget hdr 0 0).toNat 63 48
    if n = 0 ∨ 2048 < n then some (hdr, [], [])
    else match rd (va + 32) n, rd (va + wordOf (32 + 8 * n)) ((n + 3) / 4) with
      | some ns, some ps => some (hdr, ns, placesOf ps n)
      | _, _ => none

/-- Whether a slot may take a Folio: a free one, or one that holds a staged image and no Folio (R348). -/
def folioSlot (c : Ctx) : Bool := c.isFree || (c.status == .staged && c.folio.isNone)

/-- WGL of an image into a slot: the region, and the status word (R363). It loads no circuit, which CFGL does (R57, R65).
An image that cannot be read gives 0x0020 (R264 has the response report it, and R363 names no code of its own; log entry
123). -/
def loadFolio (g : Region) (k va : Nat) (im : Option (List Word × List Word × List Word)) : Region × Word :=
  let c := g.ctx k
  if !folioSlot c then (g, 0x000D)
  else match im with
  | none => (g, 0x0020)
  | some (hdr, ns, ps) =>
    match checkFolio g (if c.isFree then none else some c) hdr ns ps with
    | .error w => (g, w)
    | .ok f =>
      (g.setCtx k { (if c.isFree then { Ctx.blank with
            status := .staged, image := va } else c) with
          fetching := true, folio := some { f with va := va }, sat := false, satEnd := false }, 0)

/-- WGL at commit. -/
def formWgl (c r : Nat) (ta : Target) : CForm where
  check s tid a _ _ := clusterCheck r s tid a
  ready s tid a b cc := invsDone s tid a b cc && armsArrived s tid (namedRegion a r) &&
    (match s.task? tid with | some t => batchReady s tid t b 4 | none => true)
  eff s tid a b _ :=
    let rg := namedRegion a r
    match s.region? rg with
    | none => s
    | some g =>
      let (g', st) := loadFolio g c b.toNat (readFolio (imageWords s tid) b)
      landTask (s.setRegion rg g') tid ta [st]

/-- WGL: loads the Folio at b into the staged slot of a region. -/
def execWgl (p : Pred) (ctx : Fin 4) (reg : Fin 8) (ta : Target) (s : State) : Out :=
  commitForm p .n2 ta 1 (formWgl ctx.val reg.val ta) s

/-- The query word of a context (R129). SAT stands as at the last phase end; NUSED, NFREE and STG as they are now (DEDUCED,
log entry 46). -/
def queryWord (g : Region) (k : Nat) : Word :=
  let c := g.ctx k
  let used := match c.folio with | some f => f.nodes.length | none => 0
  wordOf ((64 * g.cTiles.length - used) * 2 ^ 32 + used * 2 ^ 16 + bnat c.satEnd * 8 +
    bnat (c.folio.isSome && c.status == .staged) * 4 + k % 4)

/-- WGQ at commit. -/
def formWgq (c r : Nat) (ta : Target) : CForm where
  check s tid a _ _ := clusterCheck r s tid a
  ready := invsDone
  eff s tid a _ _ :=
    let rg := namedRegion a r
    match s.region? rg with
    | none => s
    | some g => landTask (s.setRegion rg (g.modCtx c fun x => { x with satEnd := false })) tid ta [queryWord g c]

/-- WGQ: reads the query word of a context and clears SAT. -/
def execWgq (p : Pred) (ctx : Fin 4) (reg : Fin 8) (ta : Target) (s : State) : Out :=
  commitForm p .n1 ta 1 (formWgq ctx.val reg.val ta) s

/-- WGU at commit: marks a context that holds a Folio, and frees it at once when it can (R130, R364). -/
def formWgu (c r : Nat) : CForm where
  check s tid a _ _ := clusterCheck r s tid a
  ready s tid a b cc := invsDone s tid a b cc && armsArrived s tid (namedRegion a r)
  eff s _ a _ _ :=
    let rg := namedRegion a r
    tryFree (s.modCtx rg c fun x => if x.folio.isSome then { x with unload := true } else x) rg c

/-- WGU: frees a context that holds a Folio. -/
def execWgu (p : Pred) (ctx : Fin 4) (reg : Fin 8) (ta : Target) (s : State) : Out :=
  commitForm p .n1 ta 0 (formWgu ctx.val reg.val) s

end Sys2Proof.Machine
end

