-- ==== Sys2Proof/Machine/Alarm.lean ====
section
/-!
DEFINITION. The Catalogue's entries as they change, and the alarm's triggers as far as level A2 (spec/10_host_partitions.md
R195, R197, R198; spec/26_security_alarm.md R433-R436).
-/

namespace Sys2Proof.Machine

/-- Changes the STATE of a unit's entry: CGEN rises before and after, and TCHG is the time. -/
def setCat (s : State) (kind inst st : Nat) : State :=
  { s with cgen := s.cgen + 2, cat := madj s.cat (catIndex kind inst) fun e => { e with state := st, tchg := s.time } }

/-- The level that a trigger finds: of triggers of one cycle, each finds the level before all of them, so that none of
them counts as arriving at the level of another (R434). -/
def alarmBase (a : Alarm) (now : Nat) : Nat := if a.came = now then a.prior else a.level

/-- The level that a trigger calls for. -/
def alarmCall (a : Alarm) (now trig : Nat) : Nat :=
  match trig with
  | 2 => 3
  | 3 => if a.sigFails = 2 then 2 else 1
  | _ => if 2 ≤ alarmBase a now then 3 else 2

/-- The record of a trigger (R435). -/
def alarmRecord (lvl trig die det time : Nat) : AlarmRec :=
  ⟨[wordOf (lvl * 2 ^ 56 + trig * 2 ^ 48 + die * 2 ^ 32 + det), wordOf time]⟩

/-- What level A2 does (R436). -/
def enterA2 (s : State) : State :=
  let s := setCat s 6 0 3
  (mkeys s.parts).foldl (fun s p => raiseVector s p 2) s

/-- A trigger writes its record, and the level becomes what it calls for; at A2 the key store locks and the partitions are
told. -/
def noteTrigger (s : State) (trig die det : Nat) : State :=
  let a := s.alarm
  let lvl := Nat.max a.level (alarmCall a s.time trig)
  let full := decide (64 ≤ a.log.length)
  let s := { s with
    alarm := { a with
      level := lvl, came := s.time, prior := alarmBase a s.time, sigFails := if trig = 3 then a.sigFails + 1 else a.sigFails
      log := if full then a.log else a.log ++ [alarmRecord lvl trig die det s.time]
      dropped := if full then a.dropped + 1 else a.dropped }
    cgen := if full then s.cgen else s.cgen + 2 }
  if a.level < 2 ∧ 2 ≤ lvl then enterA2 s else s

/-- The detail of a signature failure: which signatures failed, and of what object. -/
def sigDetail (edOk mlOk : Bool) (obj : Nat) : Nat := bnat (!edOk) + 2 * bnat (!mlOk) + 16 * obj

/-- A verification: its failure is a trigger of type 3 (R195, R433). -/
def verify (s : State) (die : Nat) (edOk mlOk : Bool) (obj : Nat) : State :=
  if edOk && mlOk then s else noteTrigger s 3 die (sigDetail edOk mlOk obj)

end Sys2Proof.Machine
end

