-- ==== Sys2Proof/Machine/Control.lean ====
section
/-!
DEFINITION. The exits (spec/13_block_core.md R249-R253): their firing inside the block, and the
checks and the effect that the block's commit gives each of them (R237).
-/

namespace Sys2Proof.Machine

/-- BR fires as an exit of its block. -/
def execBr (p : Pred) (_e : Fin 8) (_off : BitVec 20) (s : State) : Out := exitForm p .n0 s
/-- BRX fires with the address a. -/
def execBrx (p : Pred) (_e : Fin 8) (s : State) : Out := exitForm p .n1 s
/-- CALL fires as an exit of its block. -/
def execCall (p : Pred) (_e : Fin 8) (_off : BitVec 20) (s : State) : Out := exitForm p .n0 s
/-- RET fires as an exit of its block. -/
def execRet (p : Pred) (_e : Fin 8) (s : State) : Out := exitForm p .n0 s
/-- WAIT fires with the mask a. -/
def execWait (p : Pred) (_e : Fin 8) (s : State) : Out := exitForm p .n1 s
/-- YLD fires as an exit of its block. -/
def execYld (p : Pred) (_e : Fin 8) (s : State) : Out := exitForm p .n0 s
/-- HALT fires with the code a. -/
def execHalt (p : Pred) (_e : Fin 8) (s : State) : Out := exitForm p .n1 s

/-- The sequential successor of a block (R239). -/
def Block.successor (b : Block) : Nat := b.head + 4 * (b.n + 1)

/-- The byte address BOFF words from a block's header (R215), as an integer. -/
def branchTo (head : Nat) (off : BitVec 20) : Int := (head : Int) + 4 * signedOf 20 off.toNat

/-- Whether a byte address lies in the instruction store and holds a block header there (R239, R249). -/
def isHeader (s : State) (se : Nat) (a : Int) : Bool :=
  decide (0 ≤ a) && decide (a ≤ 16380) && decide (a % 4 = 0) && field (s.iword se a.toNat) 31 28 == 0xB

/-- The exit number of an exit (R249). -/
def exitNumber : Instr → Nat
  | .br _ e _ => e.val | .brx _ e => e.val | .call _ e _ => e.val | .ret _ e => e.val
  | .wait _ e => e.val | .yld _ e => e.val | .halt _ e => e.val
  | _ => 0

/-- The next block an exit names; none for HALT, and for a RET on an empty stack (R249, R250). -/
def exitNext (t : Task) (b : Block) (i : Instr) (a : Word) : Option Int :=
  match i with
  | .br _ _ off => some (branchTo b.head off)
  | .call _ _ off => some (branchTo b.head off)
  | .brx _ _ => some (a.toNat : Int)
  | .ret _ _ => t.ret.getLast?.map fun x => (x : Int)
  | .wait _ _ => some (b.successor : Int)
  | .yld _ _ => some (b.successor : Int)
  | _ => none

/-- Whether a WAIT mask selects only channels bound to the task (R251). -/
def maskBound (s : State) (tid : Nat) (m : Word) : Bool :=
  (natRange 0 64).all fun n => !bitAt m.toNat n || (s.chan (chanAddr tid n)).slot == some (slotOf tid)

/-- The checks of an exit at commit, lowest code first (R250, R251, R420). -/
def exitCheck (s : State) (tid : Nat) (t : Task) (b : Block) (i : Instr) (a : Word) : Option Flt0 :=
  let target : Option Flt0 :=
    match exitNext t b i a with
    | some x => if isHeader s (seOf tid) x then none else some (exc 0x010B)
    | none => none
  match i with
  | .call .. =>
    match target with
    | some f => some f
    | none => if t.ret.length = 8 then some (exc 0x010C) else none
  | .ret .. =>
    match target with
    | some f => some f
    | none => if t.ret.isEmpty then some (exc 0x010C) else none
  | .wait .. =>
    match target with
    | some f => some f
    | none => if a = 0 || !maskBound s tid a then some (exc 0x010D) else none
  | .halt .. => none
  | _ => target

/-- Whether a channel that a mask selects holds a word (R251). -/
def maskReady (s : State) (tid : Nat) (m : Word) : Bool :=
  (natRange 0 64).any fun n => bitAt m.toNat n && !(s.chan (chanAddr tid n)).q.isEmpty

/-- The other tasks of an SE that are RUNNABLE (R252). -/
def runnableOthers (s : State) (tid : Nat) : List Nat :=
  (natRange 0 8).filter fun sl =>
    sl != slotOf tid &&
    (match s.task? (sl * 1024 + seOf tid) with
     | some t => decide (t.state = .runnable)
     | none => false)

/-- The end of a launch begins when its root halts (R26, R253): every other task of the launch stops
at its next block boundary. A launch that is being pre-empted ends once it goes on (R50). -/
def rootHalted (s : State) (l code : Nat) : State :=
  s.modLaunch l fun x =>
    if x.state = .running then { x with code := code % 2 ^ 32, state := .draining }
    else if x.state = .preempting then { x with code := code % 2 ^ 32, rootDone := true }
    else x

/-- The effect of an exit on its task at commit: program counter, return stack, state and last exit
number (R237, R249-R253). -/
def exitEffect (s : State) (tid : Nat) (i : Instr) (b : Block) (a : Word) : State :=
  match s.task? tid with
  | none => s
  | some t =>
    let nxt := ((exitNext t b i a).getD (t.pc : Int)).toNat
    let t := { t with lastExit := exitNumber i }
    match i with
    | .call .. => s.setTask tid { t with pc := nxt, ret := t.ret ++ [b.successor] }
    | .ret .. => s.setTask tid { t with pc := nxt, ret := t.ret.dropLast }
    | .wait .. =>
      if maskReady s tid a then s.setTask tid { t with pc := nxt }
      else s.setTask tid { t with pc := nxt, state := .blocked, waitOn := .mask a }
    | .yld .. => s.setTask tid { t with pc := nxt, yielded := runnableOthers s tid }
    | .halt .. =>
      let s := s.setTask tid { t with state := .halted }
      if t.root then rootHalted s t.launch a.toNat else s
    | _ => s.setTask tid { t with pc := nxt }

end Sys2Proof.Machine
end

