-- ==== Sys2Proof/Machine/Digest.lean ====
section
/-!
DEFINITION. SHA-384 (FIPS 180-4), by which R199 and R436 measure and verify; the spec names it and does not restate it
(log entry 8).
-/

namespace Sys2Proof.Machine

/-- Whether a number above 1 is prime. -/
def isPrime (n : Nat) : Bool := (natRange 2 (n - 2)).all fun d => n % d != 0

/-- The first 80 primes. -/
def shaPrimes : List Nat := (natRange 2 408).filter isPrime

/-- The first 64 bits of the fraction of the e-th root of a number. -/
def rootWord (e p : Nat) : Word :=
  wordOf ((natRange 0 72).foldl (fun x i => if (x + 2 ^ (71 - i)) ^ e ≤ p * 2 ^ (64 * e) then x + 2 ^ (71 - i) else x) 0)

/-- The constants of the rounds: of the cube roots of the primes. -/
def shaRounds : List Word := shaPrimes.map (rootWord 3)

/-- The initial value: of the square roots of the ninth to the sixteenth prime. -/
def shaInit : List Word := ((shaPrimes.drop 8).take 8).map (rootWord 2)

/-- The message with its padding, as 64-bit words of big-endian bytes. -/
def shaPadded (m : List Byte) : List Word :=
  let n := m.length
  let fill := (239 - n % 128) % 128
  let bs := m ++ 0x80#8 :: lrep (fill + 8) 0#8 ++ (bytesOfNat 8 (8 * n)).reverse
  (chunksOf 8 bs.length bs).map fun c => wordOf (natOfBytes c.reverse)

/-- The message schedule, latest word first, after n more words. -/
def shaSchedule : Nat → List Word → List Word
  | 0, ws => ws
  | n + 1, ws =>
    let w (k : Nat) : Word := lget ws (k - 1) 0
    let s0 (x : Word) : Word := x.rotateRight 1 ^^^ x.rotateRight 8 ^^^ (x >>> 7)
    let s1 (x : Word) : Word := x.rotateRight 19 ^^^ x.rotateRight 61 ^^^ (x >>> 6)
    shaSchedule n ((s1 (w 2) + w 7 + s0 (w 15) + w 16) :: ws)

/-- One round on the working variables a to h, with a constant and a word of the schedule. -/
def shaRound (v : List Word) (k : Word × Word) : List Word :=
  let x (i : Nat) : Word := lget v i 0
  let e := x 4
  let a := x 0
  let t1 := x 7 + (e.rotateRight 14 ^^^ e.rotateRight 18 ^^^ e.rotateRight 41) + ((e &&& x 5) ^^^ (~~~e &&& x 6)) + k.1 + k.2
  let t2 := (a.rotateRight 28 ^^^ a.rotateRight 34 ^^^ a.rotateRight 39) + ((a &&& x 1) ^^^ (a &&& x 2) ^^^ (x 1 &&& x 2))
  [t1 + t2, a, x 1, x 2, x 3 + t1, e, x 5, x 6]

/-- One block of 16 words. -/
def shaBlock (h : List Word) (b : List Word) : List Word :=
  let v := (shaRounds.zip (shaSchedule 64 b.reverse).reverse).foldl shaRound h
  (h.zip v).map fun x => x.1 + x.2

/-- SHA-384. -/
def sha384 (m : List Byte) : List Byte :=
  let ws := shaPadded m
  (((chunksOf 16 ws.length ws).foldl shaBlock shaInit).take 6).flatMap fun w => (bytesOfNat 8 w.toNat).reverse

end Sys2Proof.Machine
end

