-- ==== Sys2Proof/Machine/L2Forms.lean ====
section
/-!
DEFINITION. L2 control (spec/14_block_system.md R289, R290; R80-R83, R391, R424, R425).
-/

namespace Sys2Proof.Machine

/-! ### Retention (R83, R289) -/

/-- Register number, count and die of a register word (R289). -/
def retWord (c : Word) : Nat × Nat × Nat := (field c.toNat 1 0, field c.toNat 7 4, field c.toNat 9 8)

/-- The reserved bits of a register word are zero (R424). -/
def retWordOk (c : Word) : Bool := field c.toNat 63 10 == 0 && field c.toNat 3 2 == 0

/-- The reserved ways of a partition on a die, register j left out. -/
def retSum (p : Partition) (die j : Nat) : Nat :=
  ((natRange 0 4).map fun i => if i = j then 0 else ((mget p.rets (retKey die i)).map (·.count)).getD 0).foldr (· + ·) 0

/-- The least number of cache ways the partition has in a slice of a die. -/
def leastWays (s : State) (p : Partition) (die : Nat) : Nat :=
  ((natRange 0 256).map fun k => (cacheWaysDown p die (s.slice (die * 256 + k))).length).foldr Nat.min 16

/-- Whether reserving n more ways on a die keeps R83. -/
def retCountOk (s : State) (p : Partition) (die j n : Nat) : Bool :=
  decide (1 ≤ n) && decide (n ≤ 12) && decide (retSum p die j + n + 1 ≤ leastWays s p die)

/-- Where a RETS range lies (R289): its physical base, when it keeps inside the page of a. A
translation that fails has no status word of its own (log entry 21). -/
inductive RetRange where
  | at (pa : Nat)
  | bad
  | fault
  deriving DecidableEq, Repr

/-- The physical base of a range of length b at a. -/
def retRange (s : State) (tid : Nat) (t : Task) (p : Partition) (a b : Word) : RetRange :=
  if !isCanonical a then .fault
  else match lookup s (dieOf tid * 256 + seTlb (seOf tid)) t.ptn p a with
    | .bad _ => .fault
    | .ok e =>
      let pa := e.out + a.toNat % 65536
      if !inHbm pa then .fault
      else if b = 0 ∨ b.toNat % 128 ≠ 0 ∨ 2 ^ e.size < a.toNat % 2 ^ e.size + b.toNat then .bad
      else .at pa

/-- RETS at commit. -/
def formRets (ta : Target) : CForm where
  check _ _ _ _ c := need (retWordOk c)
  ready := invsDone
  eff s tid a b c :=
    match s.task? tid with
    | none => s
    | some t =>
      match s.part? t.ptn with
      | none => s
      | some p =>
        let (j, n, die) := retWord c
        if !retCountOk s p die j n then landTask s tid ta [1]
        else match retRange s tid t p a b with
          | .fault => landTask s.free.2 tid ta [s.free.1]
          | .bad => landTask s tid ta [2]
          | .at pa =>
            landTask (s.modPart t.ptn fun p => { p with rets := mset p.rets (retKey die j) ⟨pa, b.toNat, n⟩ }) tid ta [0]

/-- RETC at commit. -/
def formRetc (ta : Target) : CForm where
  check _ _ _ _ c := need (retWordOk c)
  ready := invsDone
  eff s tid _ _ c :=
    match s.task? tid with
    | none => s
    | some t =>
      let (j, _, die) := retWord c
      landTask (s.modPart t.ptn fun p => { p with rets := merase p.rets (retKey die j) }) tid ta [0]

/-- RETS: sets retention register j of a die to the range of b bytes at a. -/
def execRets (p : Pred) (ta : Target) (s : State) : Out := commitForm p .n3 ta 1 (formRets ta) s
/-- RETC: clears retention register j of a die. -/
def execRetc (p : Pred) (ta : Target) (s : State) : Out := commitForm p ⟨false, false, true⟩ ta 1 (formRetc ta) s

/-! ### Way masks (R290, R391) -/

/-- The slices a slice word names (R290). -/
def slicesOf (a : Word) : List Nat :=
  let die := field a.toNat 9 8
  if bitAt a.toNat 10 then natRange (die * 256) 256 else [die * 256 + field a.toNat 7 0]

/-- The reserved bits of a slice word and of a way mask are zero (R424). -/
def sliceWordOk (a b : Word) : Bool := field a.toNat 63 11 == 0 && field b.toNat 63 16 == 0

/-- The mask that b leaves in a slice: only the bits of owned ways change (R80, R290). -/
def newMask (owned : List Nat) (old b : Nat) : Nat :=
  ((natRange 0 16).map fun w => if bitAt (if owned.contains w then b else old) w then 2 ^ w else 0).foldr (· + ·) 0

/-- The ways of a mask that turn to scratch. -/
def turning (old new : Nat) : List Nat := (natRange 0 16).filter fun w => bitAt old w && !bitAt new w

/-- The memory key of byte 0 of a way of a slice (R74, R82). -/
def wayKey (n w : Nat) : Nat := 0x200000000000 + n / 256 * 2 ^ 27 + n % 256 * 2 ^ 19 + w * 32768

/-- Sets the mask of a slice: lines of the ways that turn go, and their bytes are zeroed; a way that
turns to cache loses its scratch contents (R81). -/
def applyMask (s : State) (n new : Nat) : State :=
  let sl := s.slice n
  let ways := (natRange 0 16).filter fun w => bitAt sl.mask w != bitAt new w
  let s := s.setSlice n { flushWays sl (turning sl.mask new) with mask := new }
  { s with mem := ways.foldl (fun m w => Memory.clear m (wayKey n w) 32768) s.mem }

/-- The status of a WMSK (R391). -/
def wmskStatus (s : State) (p : Partition) (a b : Word) : Nat :=
  let die := field a.toNat 9 8
  let owned := waysOn p die
  let ns := slicesOf a
  if ns.any (fun n => (turning (s.slice n).mask (newMask owned (s.slice n).mask b.toNat)).any (dirtyWay (s.slice n))) then 1
  else if retSum p die 4 ≠ 0 ∧ ns.any (fun n =>
      decide ((owned.filter fun w => bitAt (newMask owned (s.slice n).mask b.toNat) w).length < retSum p die 4 + 1)) then 2
  else 0

/-- WMSK at commit. -/
def formWmsk (ta : Target) : CForm where
  check _ _ a b _ := need (sliceWordOk a b)
  ready := invsDone
  eff s tid a b _ :=
    match (s.task? tid).bind fun t => s.part? t.ptn with
    | none => s
    | some p =>
      let st := wmskStatus s p a b
      let owned := waysOn p (field a.toNat 9 8)
      let s' := if st = 0 then (slicesOf a).foldl (fun s n => applyMask s n (newMask owned (s.slice n).mask b.toNat)) s else s
      landTask s' tid ta [wordOf st]

/-- Writes back the dirty lines of ways of a slice and invalidates them; a line that holds an
uncorrectable error leaves poison marks (R290, R404). -/
def flushSlice (s : State) (n : Nat) (ways : List Nat) : State :=
  let sl := s.slice n
  let bad := (sl.lines.filter fun l => ways.contains (l.1 % 16) && l.2.dirty && l.2.bad).flatMap fun l => granules (lineAddr n l.2.tag) 128
  ({ s with poison := s.poison ++ bad }).setSlice n (flushWays sl ways)

/-- L2FL at commit. -/
def formL2fl (ta : Target) : CForm where
  check _ _ a b _ := need (sliceWordOk a b)
  ready := invsDone
  eff s tid a b _ :=
    match (s.task? tid).bind fun t => s.part? t.ptn with
    | none => s
    | some p =>
      let ways := (waysOn p (field a.toNat 9 8)).filter fun w => bitAt b.toNat w
      landTask ((slicesOf a).foldl (fun s n => flushSlice s n ways) s) tid ta [0]

/-- WMSK: writes the way masks of the slices a and zeroes the ways that turn to scratch. -/
def execWmsk (p : Pred) (ta : Target) (s : State) : Out := commitForm p .n2 ta 1 (formWmsk ta) s
/-- L2FL: writes back and invalidates the ways b of the slices a. -/
def execL2fl (p : Pred) (ta : Target) (s : State) : Out := commitForm p .n2 ta 1 (formL2fl ta) s

/-! ### Near-memory forms (R291, R292) -/

/-- The near-bank unit a unit word names (R291): a number among the partition's units. -/
def unitOf (s : State) (tid : Nat) (a : Word) : Option Nat :=
  if 1024 ≤ a.toNat then none
  else match (s.task? tid).bind fun t => s.part? t.ptn with
    | none => none
    | some p => p.units[a.toNat]?

/-- The operations of a near-bank unit, as numbers in `Act.nearBank`. -/
def nLoad : Nat := 0
def nGo : Nat := 1
def nPost : Nat := 2
def nWake : Nat := 3

/-- A form of the near-bank path at commit: of what stands before the task's later accesses only a FNCX binds it (R172,
R175, R292). -/
def nearEff (s : State) (tid code k : Nat) (ta : Target) (a b : Word) : State :=
  match unitOf s tid a, s.task? tid with
  | some u, some t => issueTaskBare s tid (.unit u) false ta k t.afterX [] (.nearBank code u b [])
  | _, _ => s

/-- NMGO, NMBX and NMWK at commit. -/
def formNear (code k : Nat) (ta : Target) : CForm where
  check s tid a b _ := need ((unitOf s tid a).isSome && (code != nWake || field b.toNat 63 16 == 0))
  ready := invsDone
  eff s tid a b _ := nearEff s tid code k ta a b

/-- NMLD at commit: the 16 node words are read where it stands in the order of the task, and go to the unit (R291); when
reading fails nothing is loaded (R431; log entry 21). -/
def formNmld (ta : Target) : CForm where
  check s tid a _ _ := need (unitOf s tid a).isSome
  ready := invsDone
  eff s tid a b _ :=
    match s.task? tid, unitOf s tid a with
    | some t, some u =>
      let ps := batchPlaces s tid t b 16
      let nc := if ps.1.any fun p => decide (4 ≤ p.1) then ncIds s (.task tid) else []
      issueTaskSoft s tid (.unit u) false ta 0 (t.afterX ++ nc) [] (.nearLoad u ps.1 ps.2)
    | _, _ => s

/-- NMLD: loads the 16 node words at b into the unit a. -/
def execNmld (p : Pred) (_m : Fin 32) (ta : Target) (s : State) : Out := commitForm p .n2 ta 0 (formNmld ta) s
/-- NMGO: starts the graph of the unit a with operand b. -/
def execNmgo (p : Pred) (ta : Target) (s : State) : Out := commitForm p .n2 ta 1 (formNear nGo 1 ta) s
/-- NMBX: posts b to the mailbox of the unit a. -/
def execNmbx (p : Pred) (ta : Target) (s : State) : Out := commitForm p .n2 ta 0 (formNear nPost 0 ta) s
/-- NMWK: sets the wake register of the unit a. -/
def execNmwk (p : Pred) (ta : Target) (s : State) : Out := commitForm p .n2 ta 0 (formNear nWake 0 ta) s

end Sys2Proof.Machine
end

