-- ==== Sys2Proof/Machine/Sync.lean ====
section
/-!
DEFINITION. Fences and barriers (spec/14_block_system.md R272, R273; R168, R170, R175).
-/

namespace Sys2Proof.Machine

/-- FNC at commit: what later accesses of the task wait for (R168, R169). -/
def fenceEff (o : FenceOrd) (sc : Scope) (s : State) (tid : Nat) : State :=
  let src := Agent.task tid
  let rel := releaseIds s src sc
  let rmw := if sc = .elem then [] else rmwIds s src
  s.modTask tid fun t =>
    match o with
    | .acq => { t with after := t.after ++ rmw }
    | .rel =>
      if sc.narrow then { t with afterS := t.afterS ++ rel.map fun i => (i, sc.code) } else { t with afterW := t.afterW ++ rel }
    | .acqrel => { t with after := t.after ++ rmw ++ rel }

/-- FNC. -/
def formFnc (o : FenceOrd) (sc : Scope) : CForm where
  check := noCheck
  ready := invsDone
  eff s tid _ _ _ := fenceEff o sc s tid

/-- FNC: a fence at the end of its block (R272). -/
def execFnc (p : Pred) (o : FenceOrd) (sc : Scope) (ta : Target) (s : State) : Out :=
  commitForm p .n0 ta 0 (formFnc o sc) s

/-- FNCX at commit: every later access, those of the near-bank path among them, waits for every earlier one on either path,
a scan to its last step (R174, R175). -/
def formFncx : CForm where
  check := noCheck
  ready := invsDone
  eff s tid _ _ _ :=
    let ids := ((opsOf s (.task tid)).filter fun o => match o.act with | .engine .. => false | _ => true).map (·.id) ++
      scanIds s (.task tid)
    s.modTask tid fun t => { t with after := t.after ++ ids, afterX := t.afterX ++ ids }

/-- FNCX: the fence that joins the near-bank path and the ordinary one (R272, R175). -/
def execFncx (p : Pred) (ta : Target) (s : State) : Out := commitForm p .n0 ta 0 formFncx s

/-! ### Barriers -/

/-- Barrier b of a partition; after PCREATE and after reset n and phase are 0 (R273). -/
def Partition.bar (p : Partition) (b : Nat) : Barrier := mgetD p.bars b ⟨0, 0, 0, []⟩

/-- Whether a phase has passed p: (phase - p) as s64 above 0 (R273). -/
def phasePassed (phase p : Word) : Bool := decide (0 < signedOf 64 (phase - p).toNat)

/-- A BLOCKED task that waits on nothing any more is RUNNABLE (R39); all its waits must be over (log entry 100). -/
def Task.settle (t : Task) : Task :=
  if t.state = .blocked ∧ t.waitOn = .nothing ∧ t.barW.isEmpty then { t with state := .runnable } else t

/-- What a BARW of a scope acquires of what the parties of a phase have released: that of the parties with whom it shares
the scope of their BARA and its own (R167, R170). -/
def coverFor (s : State) (tid sc : Nat) (cover : List (Nat × Nat × Nat)) : List Nat :=
  (cover.filter fun c => shares s c.2.1 (.task c.2.2) (.task tid) && shares s sc (.task c.2.2) (.task tid)).map (·.1)

/-- A task that waits on a barrier phase now passed goes on, and acquires what the phase's parties released (R170,
R273). -/
def wakeAt (s : State) (ptn bid : Nat) (x : Barrier) (tid : Nat) (t : Task) : Task :=
  let ended := t.barW.filter fun w => w.1 == bid && phasePassed x.phase w.2.1
  if t.ptn = ptn ∧ ended ≠ [] then
    { t with barW := t.barW.filter (fun w => !(w.1 == bid && phasePassed x.phase w.2.1))
             after := t.after ++ ended.flatMap fun (w : Nat × Word × Nat) => coverFor s tid w.2.2 x.cover }.settle
  else t

/-- The tasks of a partition that wait on a barrier phase now passed. -/
def wakeBarrier (s : State) (ptn bid : Nat) (x : Barrier) : State :=
  { s with fab := { s.fab with tasks := s.fab.tasks.map fun (p : Nat × Task) => (p.1, wakeAt s ptn bid x p.1 p.2) } }

/-- BARI at commit. -/
def formBari (bid : Nat) : CForm where
  check s tid a _ _ :=
    match (s.task? tid).bind fun t => s.part? t.ptn with
    | none => none
    | some p => need (decide (1 ≤ a.toNat) && decide (a.toNat ≤ 65535) && (p.bar bid).arr == 0)
  ready := invsDone
  eff s tid a _ _ :=
    match s.task? tid with
    | none => s
    | some t => s.modPart t.ptn fun p => { p with bars := mset p.bars bid { p.bar bid with n := a.toNat, arr := 0 } }

/-- BARI: sets the party count and clears the arrivals; the phase is kept. -/
def execBari (p : Pred) (bid : Fin 64) (_sc : Scope) (ta : Target) (s : State) : Out :=
  commitForm p .n1 ta 0 (formBari bid.val) s

/-- The arrival of a BARA (R273). -/
def arrive (s : State) (tid bid : Nat) (sc : Scope) (ta : Target) : State :=
  match s.task? tid with
  | none => s
  | some t =>
    match s.part? t.ptn with
    | none => s
    | some p =>
      let x := p.bar bid
      let cover := x.cover ++ (releaseIds s (.task tid) sc ++ t.after).map fun i => (i, sc.code, tid)
      let y : Barrier :=
        if x.arr + 1 = x.n then { x with arr := 0, phase := x.phase + 1, cover := cover }
        else { x with arr := x.arr + 1, cover := cover }
      let s := s.modPart t.ptn fun p => { p with bars := mset p.bars bid y }
      landTask (wakeBarrier s t.ptn bid y) tid ta [x.phase]

/-- BARA at commit. -/
def formBara (bid : Nat) (sc : Scope) (ta : Target) : CForm where
  check s tid _ _ _ :=
    match (s.task? tid).bind fun t => s.part? t.ptn with
    | none => none
    | some p => need ((p.bar bid).n != 0)
  ready := invsDone
  eff s tid _ _ _ := arrive s tid bid sc ta

/-- BARA: a release that arrives at the barrier and gives the phase at this arrival. -/
def execBara (p : Pred) (bid : Fin 64) (sc : Scope) (ta : Target) (s : State) : Out :=
  commitForm p .n0 ta 1 (formBara bid.val sc ta) s

/-- BARW at commit. -/
def formBarw (bid : Nat) (sc : Scope) : CForm where
  check := noCheck
  ready := invsDone
  eff s tid a _ _ :=
    match s.task? tid with
    | none => s
    | some t =>
      match s.part? t.ptn with
      | none => s
      | some p =>
        let x := p.bar bid
        if phasePassed x.phase a then s.setTask tid { t with after := t.after ++ coverFor s tid sc.code x.cover }
        else s.setTask tid { t with state := .blocked, barW := t.barW ++ [(bid, a, sc.code)] }

/-- BARW: an acquire that blocks the task until the phase exceeds a. -/
def execBarw (p : Pred) (bid : Fin 64) (sc : Scope) (ta : Target) (s : State) : Out :=
  commitForm p .n1 ta 0 (formBarw bid.val sc) s

end Sys2Proof.Machine
end

