-- ==== Sys2Proof/Machine/Launches.lean ====
section
/-!
DEFINITION. The end of a launch, regular or by ABORT (spec/02_execution.md R26; R358, R360, R39).
-/

namespace Sys2Proof.Machine

/-- Whether a task word names a task of a launch. -/
def Fabric.taskOf (f : Fabric) (l tid : Nat) : Bool :=
  match mget f.tasks tid with
  | some t => t.launch == l
  | none => false

/-- The fabric without the tasks, the bound channels and the regions of a launch (R29, R39, R191). -/
def Fabric.dropLaunch (f : Fabric) (l : Nat) : Fabric :=
  let bound (c : Nat × Channel) : Bool :=
    match c.2.slot with
    | some sl => f.taskOf l (sl * 1024 + seOf c.1)
    | none => false
  { f with tasks := f.tasks.filter (fun t => t.2.launch != l)
           chans := f.chans.filter (fun c => !bound c)
           regions := f.regions.filter fun g => g.2.launch != l }

/-- Removes the records of a launch from every mailbox of its partition (R360). -/
def dropRecords (p : Partition) (l : Nat) : Partition :=
  let keep (rs : List Record) : List Record := rs.filter fun r => r.launch != l
  { p with mbox := mmapv keep p.mbox, waitrec := mmapv keep p.waitrec }

/-- Takes a launch out of the fabric and posts its completion (R26, R185). -/
def closeLaunch (s : State) (l stat code : Nat) : State :=
  match mget s.launches l with
  | none => s
  | some x =>
    let gone := (s.fab.regions ++ s.saved.flatMap fun v => v.2.fab.regions).filterMap fun g => if g.2.launch = l then some g.1 else none
    let quit (w : Walk) : Walk := { w with waiters := w.waiters.filter fun c => !gone.contains (c / 16384) }
    let s := { s with walks := s.walks.map quit, walkq := s.walkq.map quit }
    let s := { s with fab := s.fab.dropLaunch l, saved := mmapv (fun (v : Saved) => { v with fab := v.fab.dropLaunch l }) s.saved }
    complete { s with launches := merase s.launches l } (.part x.ptn x.ring) x.seq x.tag x.irqc stat code

/-- Ends a launch as ABORT does (R360): its tasks and sections stop, its tokens and records go, and
its completion is posted with a status. -/
def abortLaunch (s : State) (l stat code : Nat) : State :=
  match mget s.launches l with
  | none => s
  | some x => closeLaunch (s.modPart x.ptn fun p => dropRecords p l) l stat code

end Sys2Proof.Machine
end

