-- ==== Sys2Proof/Machine/System.lean ====
section
/-!
DEFINITION. The system forms (spec/14_block_system.md R293-R297; R225, R294, R295, R358-R361, R199,
R418). Their privilege levels are checked when their block issues (R227, R419).
-/

namespace Sys2Proof.Machine

/-! ### Traps and ERET -/

/-- TRP at commit: its block commits whole, then the task stops (R294; BLOCK_COMMIT sends the trap
record once every effect of the block has been made). -/
def formTrp (tnum : Nat) : CForm where
  check := noCheck
  ready := invsDone
  eff s tid _ _ _ := s.modTask tid fun t => { t with trap := t.trap ++ [tnum] }

/-- TRP: a software trap. -/
def execTrp (p : Pred) (tnum : BitVec 9) (ta : Target) (s : State) : Out := commitForm p .n0 ta 0 (formTrp tnum.toNat) s

/-- The address a stopped task's record gives: where RESUME and ERET with b[63] let it go on. -/
def Task.recordAddr (t : Task) : Nat := t.resumeAt.getD t.pc

/-- ERET at commit (R295, R420). -/
def formEret : CForm where
  check s tid a b _ :=
    let n := b.toNat
    if !bitAt n 63 && !isHeader s (seOf a.toNat) (field n 13 0 : Nat) then some (exc 0x010B)
    else match s.task? tid, s.task? a.toNat with
      | some t, some u => if u.ptn = t.ptn ∧ u.state = .stopped then none else some (exc 0x010F)
      | _, _ => some (exc 0x010F)
  ready := invsDone
  eff s _ a b _ :=
    match s.task? a.toNat with
    | none => s
    | some u => resumeTask s a.toNat (if bitAt b.toNat 63 then u.recordAddr else field b.toNat 13 0)

/-- ERET: restarts the stopped task a. -/
def execEret (p : Pred) (ta : Target) (s : State) : Out := commitForm p .n2 ta 0 formEret s

/-! ### System registers (R225, R293) -/

/-- The classes a partition has delegated on a die, and the channel of the lowest of them (R225). -/
def dlgtWord (p : Partition) (die : Nat) : Word :=
  let cs := (natRange 0 3).filter fun c => mhas p.dlgt (die * 4 + c)
  let ch := match cs with | c :: _ => mgetD p.dlgt (die * 4 + c) 0 | [] => 0
  wordOf ((cs.map fun c => 2 ^ (16 + c)).foldr (· + ·) 0 + ch)

/-- The record counts of the four mailboxes (R225). -/
def mbxnWord (p : Partition) : Word :=
  wordOf (((natRange 0 4).map fun d => (mgetD p.mbox d []).length * 2 ^ (8 * d)).foldr (· + ·) 0)

/-- What CSRR reads. -/
def csrRead (s : State) (tid : Nat) (t : Task) (c : Csr) : Word :=
  match c with
  | .time => wordOf s.time
  | .fsr => t.fsr
  | .fcost => t.fcost
  | .tid => wordOf (tid % 8192)
  | .ptn => wordOf (t.ptn % 16)
  | .prio => wordOf (t.prio % 4)
  | .plvl => wordOf (t.level % 4)
  | .alrm => wordOf (s.alarm.level % 4)
  | _ =>
    match s.part? t.ptn with
    | none => 0
    | some p =>
      match c with
      | .dlgt => dlgtWord p (dieOf tid)
      | .mbxn => mbxnWord p
      | .pepc => wordOf (p.epoch % 16)
      | .ssc0 => p.ssc0
      | .ssc1 => p.ssc1
      | .s1rt => wordOf (field (p.s1root.getD 0) 47 16 * 65536)
      | _ => 0

/-- CSRR: the register as it stands when the form fires. -/
def execCsrr (p : Pred) (c : Csr) (ta : Target) (s : State) : Out :=
  inBlock p .n0 [ta] s fun tid t _ _ _ _ => .val (csrRead s tid t c) 0

/-- What CSRW leaves. Flags that a completion word has ORed into fsr in the same cycle come after it (R152). -/
def csrWrite (s : State) (tid : Nat) (c : Csr) (v : Word) : State :=
  match s.task? tid with
  | none => s
  | some t =>
    match c with
    | .fsr => s.setTask tid { t with fsr := fsrOr (fsrWrite v) (if t.fsrIn.1 = s.time then t.fsrIn.2 else 0) }
    | .fcost => s.setTask tid { t with fcost := fcostWrite v }
    | .prio => s.setTask tid { t with prio := v.toNat % 4 }
    | .ssc0 => s.modPart t.ptn fun p => { p with ssc0 := v }
    | .ssc1 => s.modPart t.ptn fun p => { p with ssc1 := v }
    | .s1rt => s.modPart t.ptn fun p => { p with s1root := some (field v.toNat 47 16 * 65536) }
    | _ => s

/-- CSRW at commit; a register that R225 marks refused takes 0x010F (R420). -/
def formCsrw (c : Csr) : CForm where
  check _ _ _ _ _ := if c.writeLevel.isSome then none else some (exc 0x010F)
  ready := invsDone
  eff s tid a _ _ := csrWrite s tid c a

/-- CSRW: writes a to a system register. -/
def execCsrw (p : Pred) (c : Csr) (ta : Target) (s : State) : Out := commitForm p .n1 ta 0 (formCsrw c) s

/-! ### IDLE and IRQ -/

/-- IDLE at commit: the task issues nothing until a control word reaches its core (R293; log entry 22). -/
def formIdle : CForm where
  check := noCheck
  ready := invsDone
  eff s tid _ _ _ := s.modTask tid fun t => { t with asleep := true }

/-- IDLE: the issuing control core sleeps. -/
def execIdle (p : Pred) (ta : Target) (s : State) : Out := commitForm p .n0 ta 0 formIdle s

/-- IRQ at commit (R190). -/
def formIrq (v : Nat) : CForm where
  check := noCheck
  ready := invsDone
  eff s tid _ _ _ :=
    match s.task? tid with
    | none => s
    | some t => raiseVector s t.ptn v

/-- IRQ: raises an interrupt vector of the partition. -/
def execIrq (p : Pred) (v : Fin 64) (ta : Target) (s : State) : Out := commitForm p .n0 ta 0 (formIrq v.val) s

/-! ### Mailboxes (R293, R296, R355-R361) -/

/-- The mailbox of a die of the task's partition. -/
def mailbox (s : State) (tid die : Nat) : List Record :=
  match (s.task? tid).bind fun t => s.part? t.ptn with
  | some p => mgetD p.mbox die []
  | none => []

/-- MBXR at commit; a die above 3 or an index above 15 names no word, and its result is a free value
(log entry 5). -/
def formMbxr (ta : Target) : CForm where
  check := noCheck
  ready := invsDone
  eff s tid a b _ :=
    if 4 ≤ a.toNat ∨ 16 ≤ b.toNat then landTask s.free.2 tid ta [s.free.1]
    else landTask s tid ta [match mailbox s tid a.toNat with | r :: _ => lget r.words b.toNat 0 | [] => 0]

/-- MBXR: word b of the head record of the mailbox on die a. -/
def execMbxr (p : Pred) (ta : Target) (s : State) : Out := commitForm p .n2 ta 1 (formMbxr ta) s

/-- The commands of MBXW (R296). -/
def mResume : Nat := 0x01
def mAbort : Nat := 0x02
def mPop : Nat := 0x03
def mDelegate : Nat := 0x20

/-- Removes the head record of a mailbox. -/
def popRecord (s : State) (tid die : Nat) : State :=
  match s.task? tid with
  | none => s
  | some t => s.modPart t.ptn fun p => { p with mbox := mset p.mbox die ((mgetD p.mbox die []).drop 1) }

/-- The AG of an element resumes its walk (R352). -/
def resumeAg (s : State) (r ctx pos : Nat) : State :=
  let fix (c : Ctx) : Ctx := { c with es := madj c.es pos fun e => { e with ag := { e.ag with faulted := false } } }
  s.modRegion r fun g => { g with ctxs := match g.ctxs[ctx]? with | some c => lset g.ctxs ctx (fix c) | none => g.ctxs }

/-- The origin of a record resumes from it (R296, R352, R353): a task at the block its record names,
when it still stands stopped, or an AG at its failed access. -/
def resumeRecord (s : State) (r : Record) : State :=
  match r.origin with
  | .task tid =>
    match s.task? tid with
    | some t => if t.state = .stopped then resumeTask s tid (lget r.words 6 0).toNat else s
    | none => s
  | .elem rg ctx pos => resumeAg s rg ctx pos
  | _ => s

/-- The reserved bits of a command word, and its command (R296). -/
def commandOk (cmd : Nat) (a : Word) : Bool :=
  field a.toNat 7 0 == cmd && field a.toNat 63 24 == 0 && field a.toNat 15 10 == 0

/-- The channel address of a DELEGATE (R266, R424): 0, or a channel of a cluster of the partition. -/
def delegateOk (s : State) (tid : Nat) (b : Word) : Bool :=
  match s.task? tid with
  | none => false
  | some t => b == 0 || (decide (b.toNat < 65536) && ownsCluster s t (b.toNat % 256))

/-- DELEGATE: the classes of the mask go to a channel address, or back to the control core. -/
def delegate (s : State) (tid die mask : Nat) (b : Word) : State :=
  match s.task? tid with
  | none => s
  | some t =>
    s.modPart t.ptn fun p =>
      { p with dlgt := ((natRange 0 3).filter (bitAt mask)).foldl (fun m c =>
          if b = 0 then merase m (die * 4 + c) else mset m (die * 4 + c) b.toNat) p.dlgt }

/-- A MBXW form of one command at commit (R296): an unknown command, or reserved bits set, takes
0x010F (R420). -/
def formMbxw (cmd : Nat) (ta : Target) : CForm where
  check s tid a b _ :=
    if !commandOk cmd a then some (exc 0x010F)
    else if cmd = mDelegate ∧ ¬ delegateOk s tid b then some (exc 0x010E)
    else none
  ready := invsDone
  eff s tid a b _ :=
    let die := field a.toNat 9 8
    if cmd = mDelegate then landTask (delegate s tid die (field a.toNat 23 16) b) tid ta [0]
    else if cmd = mAbort then
      match s.task? tid with
      | some t => abortLaunch (landTask s tid ta [0]) t.launch 2 (b.toNat % 2 ^ 32)
      | none => s
    else match mailbox s tid die with
      | [] => landTask s tid ta [1]
      | r :: _ =>
        let s := popRecord s tid die
        landTask (if cmd = mResume then resumeRecord s r else s) tid ta [0]

/-- MBXW RESUME; a word whose command R296 does not name stands here as well and takes 0x010F. -/
def execMbxwResume (p : Pred) (ta : Target) (s : State) : Out := commitForm p .n2 ta 1 (formMbxw mResume ta) s
/-- MBXW ABORT: ends the launch of the issuing task. -/
def execMbxwAbort (p : Pred) (ta : Target) (s : State) : Out := commitForm p .n2 ta 1 (formMbxw mAbort ta) s
/-- MBXW POP: removes the head record. -/
def execMbxwPop (p : Pred) (ta : Target) (s : State) : Out := commitForm p .n2 ta 1 (formMbxw mPop ta) s
/-- MBXW DELEGATE: routes fault classes to a channel. -/
def execMbxwDelegate (p : Pred) (ta : Target) (s : State) : Out := commitForm p .n2 ta 1 (formMbxw mDelegate ta) s

/-! ### TLBI (R297) -/

/-- TLBI at commit: it starts once the task's earlier stores have been performed, and everything
later of the task waits for it. -/
def formTlbi (sc : Scope) : CForm where
  check _ _ _ b _ := need (decide (b.toNat < 2))
  ready := invsDone
  eff s tid a b _ :=
    let id := s.nextId
    let s' := issueTaskBare s tid (.task tid) false .none 0 (writeIds s (.task tid)) [] (.invalidate a (bitAt b.toNat 0) sc.code)
    s'.modTask tid fun t => { t with invs := t.invs ++ [id] }

/-- TLBI: invalidates translations within its scope. -/
def execTlbi (p : Pred) (sc : Scope) (ta : Target) (s : State) : Out := commitForm p .n2 ta 0 (formTlbi sc) s

/-! ### ATST (R199, R293, R418, R437) -/

/-- The attestation report for a nonce (R199): the public keys, the measurements of the firmware image and the
configuration record, the Catalogue generation and the nonce, and both signatures over them. The spec gives it no
layout; it fits its area of 8 KiB (log entry 8). -/
def attestation (s : State) (k : IdentityKeys) (nonce : List Byte) : List Byte :=
  let body := Config.reportLayout k.ed k.ml (sha384 s.firmware) (sha384 s.record.bytes) (s.cgen % 2 ^ 32) nonce
  (body ++ Config.signEd k.ed body ++ Config.signMl k.ml body).take 8192

/-- The places of n bytes at a VA of a task, as runs of consecutive addresses from the first on; none when one does not
pass. -/
def runsOf (s : State) (tid : Nat) (t : Task) (ask : Ask) (va : Word) : Nat → Option (List (Nat × Nat × Nat))
  | 0 => some []
  | n + 1 =>
    match runsOf s tid t ask va n, taskAccess s tid t ask (va + wordOf n) 1 with
    | some rs, .ok x =>
      some (match rs.getLast? with
        | some (sp, a, m) => if sp = x.place.space ∧ a + m = x.place.addr then rs.dropLast ++ [(sp, a, m + 1)] else rs ++ [(x.place.space, x.place.addr, 1)]
        | none => [(x.place.space, x.place.addr, 1)])
    | _, _ => none

/-- The bytes of runs of places. -/
def readRuns (s : State) (rs : List (Nat × Nat × Nat)) : List Byte := rs.flatMap fun r => s.readPlace (placeOf r.1 r.2.1) r.2.2

/-- Writes bytes into runs of places. -/
def writeRuns : List (Nat × Nat × Nat) → List Byte → State → State
  | [], _, s => s
  | (sp, a, n) :: rs, bs, s => writeRuns rs (bs.drop n) (s.writePlace (placeOf sp a) (bs.take n))

/-- ATST at commit: with no key store, or with its keys erased, the result is 0 and no report is written; otherwise the
report is made where the ATST stands in the order of the task, behind its earlier accesses to the nonce and the area and
before the later ones (R165, R199; log entry 8). -/
def formAtst (ta : Target) : CForm where
  check := noCheck
  ready := invsDone
  eff s tid a b _ :=
    match s.task? tid with
    | none => s
    | some t =>
      if !(s.ready 6 0) || s.alarm.erased || s.keys.isNone then landTask s tid ta [0]
      else match runsOf s tid t askLoad a 32, runsOf s tid t askStore b 8192 with
        | some ns, some rs => issueTask s tid (.task tid) false ta 1 t.afterW (.attest ns rs)
        | _, _ => landTask s.free.2 tid ta [s.free.1]

/-- An ATST of a task on a die is performed: it reads the nonce, writes the report and gives its length; 0 when the keys
have gone by then. The report's two signatures are checked, and how that ends is free; a failure is a trigger of type 3 with
object 3 (R433, R435; log entry 134). -/
def attest (s : State) (die : Nat) (ns rs : List (Nat × Nat × Nat)) : State × Word :=
  match (if s.ready 6 0 && !s.alarm.erased then s.keys else none) with
  | none => (s, 0)
  | some k =>
    let report := attestation s k (readRuns s ns)
    let (w, t) := (writeRuns rs report s).free
    (verify t die (bitAt w.toNat 0) (bitAt w.toNat 1) 3, wordOf report.length)

/-- ATST: writes an attestation report. -/
def execAtst (p : Pred) (ta : Target) (s : State) : Out := commitForm p .n2 ta 1 (formAtst ta) s

end Sys2Proof.Machine
end

