-- ==== Sys2Proof/Machine/Blocks.lean ====
section
/-!
DEFINITION. The issue and the commit of a block (spec/02_execution.md R39-R42; spec/13_block_core.md
R233-R240; spec/14_block_system.md R261-R265, R280, R284, R294; spec/25 R419-R422).
-/

namespace Sys2Proof.Machine

/-! ### Which row an operand selects -/

/-- The CHB row that b[63:62] selects (R278) and the MBXW row that a[7:0] selects (R296). -/
def refine (i : Instr) (a b : Word) : Instr :=
  match i with
  | .chbRouteDefault p ta =>
    match field b.toNat 63 62 with
    | 2 => .chbRoute p ta | 1 => .chbBind p ta | _ => i
  | .mbxwResume p ta =>
    match field a.toNat 7 0 with
    | 0x02 => .mbxwAbort p ta | 0x03 => .mbxwPop p ta | 0x20 => .mbxwDelegate p ta | _ => i
  | _ => i

/-! ### The header and the checks at issue -/

/-- A block header (R213). -/
structure Header where
  n : Nat
  w : Nat
  s : Nat
  priv : Bool
  yieldpt : Bool
  deriving DecidableEq, Repr

/-- Reads a header word; none when its own fields are wrong (0x0101, R420). -/
def headerOf (w pc : Nat) : Option Header :=
  let n := field w 27 22 + 1
  if field w 31 28 = 0xB ∧ field w 7 0 = 0 ∧ pc + 4 * (n + 1) ≤ 16384 then
    some ⟨n, field w 21 16, field w 15 10, bitAt w 9, bitAt w 8⟩
  else none

/-- What a word counts in W and in S (R213, R261, R269, R286). -/
def countsOf (i : Instr) : Nat × Nat :=
  match i.form with
  | none => (0, 0)
  | some f =>
    match f.commit with
    | some k => (if i.isFscn then 0 else (f.targets.map (regCount k)).foldr (· + ·) 0, 1)
    | none =>
      let regs := (f.targets.filter fun t => match t with | .reg _ => true | _ => false).length
      let outs := (f.targets.filter fun t => match t with | .chan _ => true | _ => false).length
      (if i.isLd128 then 2 * regs else regs, outs)

/-- The exceptions a word can raise at issue, lowest code first (R419-R421), with the LSIDs of the
slots before it. -/
def slotFault (h : Header) (level : Nat) (used : List (Fin 32)) (w : Nat) : Except Nat Instr :=
  match decodeLoose w with
  | .error r => .error r.fcode
  | .ok (i, good) =>
    match i.form with
    | none => .error 0x0103
    | some f =>
      if !i.targetsOk h.n then .error 0x0105
      else if !good then .error 0x0106
      else if f.level ≠ 0 ∧ (!h.priv ∨ level < f.level) then .error 0x0107
      else match f.lsid with
        | some m => if used.contains m then .error 0x0108 else .ok i
        | none => .ok i

/-- Checks the slots from k on, and then the counts W and S (R419). -/
def slotsFault (rd : Nat → Nat) (h : Header) (level : Nat) : Nat → Nat → List (Fin 32) → Nat → Nat → Option Nat
  | 0, _, _, w, o => if w = h.w ∧ o = h.s then none else some 0x0102
  | left + 1, k, used, w, o =>
    match slotFault h level used (rd k) with
    | .error c => some c
    | .ok i =>
      let used := match i.form.bind (·.lsid) with | some m => m :: used | none => used
      slotsFault rd h level left (k + 1) used (w + (countsOf i).1) (o + (countsOf i).2)

/-- The checks of a block at issue: its header, or the exception (R419). -/
def issueCheck (s : State) (se pc level : Nat) : Except Nat Header :=
  if s.imarked se pc 1 then .error 0x000A
  else match headerOf (s.iword se pc) pc with
  | none => .error 0x0101
  | some h =>
    if s.imarked se (pc + 4) h.n then .error 0x000A
    else match slotsFault (fun k => s.iword se (pc + 4 * (k + 1))) h level h.n 0 [] 0 0 with
    | some c => .error c
    | none => .ok h

/-- What the words of a block fix of its slots' firing (R216, R233). -/
def gatesOf (rd : Nat → Nat) (n : Nat) : List Gate :=
  (natRange 0 n).map fun k =>
    match decode (rd k) with
    | .ok i => (i.form.map fun f => ⟨f.pred, f.needs⟩).getD ⟨.always, .n0⟩
    | .error _ => ⟨.always, .n0⟩

/-- A block that has just issued; `rd` gives its words. -/
def newBlock (rd : Nat → Nat) (h : Header) (pc : Nat) : Block :=
  ⟨pc, h.n, h.w, h.s, h.priv, h.yieldpt, lrep h.n .blank, [], 0, [], [], 0, [], [], 0, gatesOf rd h.n, []⟩

/-! ### BLOCK_ISSUE -/

/-- The task in a slot of an SE. -/
def taskAt (s : State) (se slot : Nat) : Option Task := s.task? (slot * 1024 + se)

/-- Whether the task of a slot can issue (R39, R41, R252, R263, R297). -/
def canIssue (s : State) (se slot : Nat) : Bool :=
  match taskAt s se slot with
  | none => false
  | some t =>
    decide (t.state = .runnable) && t.pend.isEmpty && t.later.isEmpty && !t.held && !t.asleep && t.blk.isNone &&
    partRuns s t.ptn && launchIssues s t.launch &&
    t.yielded.all fun y => match taskAt s se y with | some u => decide (u.state ≠ .runnable) | none => true

/-- How far a slot stands after the slot that issued last (R41). -/
def afterLast (last : Option Nat) (slot : Nat) : Nat := match last with | some l => (slot + 7 - l) % 8 | none => slot

/-- The better of two slots: the higher priority, then the nearer one (R41). -/
def betterSlot (s : State) (se : Nat) (last : Option Nat) (x y : Nat) : Nat :=
  let pr (k : Nat) : Nat := ((taskAt s se k).map (·.prio)).getD 0
  if pr x < pr y then y
  else if pr y < pr x then x
  else if afterLast last y < afterLast last x then y else x

/-- The best slot of a list. -/
def bestSlot (s : State) (se : Nat) (last : Option Nat) : List Nat → Option Nat
  | [] => none
  | x :: xs => some (xs.foldl (betterSlot s se last) x)

/-- The SE's issue state. -/
def State.seState (s : State) (se : Nat) : SeState := mgetD s.fab.ses se ⟨none, []⟩

/-- The slot whose turn it is, and the slots served in its round before it (R41). -/
def turnOf (s : State) (se : Nat) : Option (Nat × List Nat) :=
  let st := s.seState se
  let able := (natRange 0 8).filter (canIssue s se)
  let left := able.filter fun k => !st.served.contains k
  match bestSlot s se st.last left with
  | some k => some (k, st.served)
  | none => (bestSlot s se st.last able).map fun k => (k, [])

/-- Notes an issue: the slot has been served, and no task waits for it after a YLD any more. -/
def noteIssue (s : State) (se slot : Nat) (served : List Nat) : State :=
  let f := s.fab
  let drop (p : Nat × Task) : Nat × Task :=
    if seOf p.1 = se then (p.1, { p.2 with yielded := p.2.yielded.filter fun y => y != slot }) else p
  s.setFab { f with ses := mset f.ses se ⟨some slot, served ++ [slot]⟩, tasks := f.tasks.map drop }

/-- BLOCK_ISSUE: the SE issues one block of the task whose turn it is, or that task takes the
exception its block raises at issue. -/
def execBlockIssue (se : Nat) (s : State) : Out :=
  if (natRange 0 8).any (fun k => match taskAt s se k with | some t => t.blk.isSome | none => false) then notEnabled
  else match turnOf s se with
    | none => notEnabled
    | some (slot, served) =>
      let tid := slot * 1024 + se
      match s.task? tid with
      | none => notEnabled
      | some t =>
        let s' := noteIssue s se slot served
        match issueCheck s se t.pc t.level with
        | .error c => .next (takeFault s' tid (exc c))
        | .ok h => .next (s'.modTask tid fun t => { t with blk := some (newBlock (fun k => s.iword se (t.pc + 4 * (k + 1))) h t.pc), yielded := [] })

/-! ### The commit forms of a block -/

/-- The commit form of an instruction. -/
def formOf : Instr → Option CForm
  | .st _ _ sz o off => some (formSt sz o off)
  | .stx _ _ sz o off => some (formStx sz o off)
  | .cln _ sc _ => some (formLine false sc)
  | .inv _ sc _ => some (formLine true sc)
  | .amo _ _ wd op sc ta => some (formAmo wd op sc ta)
  | .cas _ _ wd sc ta => some (formCas wd sc ta)
  | .cas2 _ _ sc ta => some (formCas2 sc ta)
  | .fnc _ o sc _ => some (formFnc o sc)
  | .fncx .. => some formFncx
  | .bari _ b _ _ => some (formBari b.val)
  | .bara _ b sc ta => some (formBara b.val sc ta)
  | .barw _ b sc _ => some (formBarw b.val sc)
  | .cfgl _ c r ta => some (formCfgl c.val r.val ta)
  | .cfgs .. => some formCfgs
  | .arm _ c r ta => some (formArm c.val r.val ta)
  | .darm _ c r fre _ => some (formDarm c.val r.val fre)
  | .ctxm _ _ r mw mode ta => some (formCtxm r.val mw mode ta)
  | .chbRouteDefault .. => some (formChb 0)
  | .chbRoute .. => some (formChb 2)
  | .chbBind .. => some (formChb 1)
  | .inj _ _ ta => some (formEngine 0x55 0 ta)
  | .cpy _ _ h ta => some (formEngine 0x56 h.code ta)
  | .mcst _ _ h ta => some (formEngine 0x57 h.code ta)
  | .gth _ _ h ta => some (formEngine 0x58 h.code ta)
  | .sct _ _ h ta => some (formEngine 0x59 h.code ta)
  | .ksel _ _ h ta => some (formEngine 0x5A h.code ta)
  | .kvpk _ _ h ta => some (formEngine 0x5B h.code ta)
  | .axrd _ _ h ta => some (formEngine 0x5C h.code ta)
  | .axwr _ _ h ta => some (formEngine 0x5D h.code ta)
  | .fnew _ _ ta => some (formFibre fNew true ta 1)
  | .fnewGrant _ _ ta => some (formFibre fGrant true ta 1)
  | .fdel _ _ ta => some (formFibre fDel true ta 0)
  | .fmrg _ _ mode dz ta => some (formFmrg mode dz ta)
  | .fscn _ _ l ta => some (formFscn l.val ta)
  | .fprb _ _ ta => some (formFibre fPrb false ta 2)
  | .flen _ _ ta => some (formFibre fLen false ta 1)
  | .snpf _ _ ta => some (formTree tFind ta 2)
  | .snpp _ _ ta => some (formTree tInsert ta 2)
  | .snpg _ _ ta => some (formTree tGet ta 3)
  | .snpr _ _ ta => some (formTree tRelease ta 0)
  | .wgl _ c r ta => some (formWgl c.val r.val ta)
  | .wgq _ c r ta => some (formWgq c.val r.val ta)
  | .wgu _ c r _ => some (formWgu c.val r.val)
  | .rets _ ta => some (formRets ta)
  | .retc _ ta => some (formRetc ta)
  | .wmsk _ ta => some (formWmsk ta)
  | .l2fl _ ta => some (formL2fl ta)
  | .nmld _ _ ta => some (formNmld ta)
  | .nmgo _ ta => some (formNear nGo 1 ta)
  | .nmbx _ ta => some (formNear nPost 0 ta)
  | .nmwk _ ta => some (formNear nWake 0 ta)
  | .trp _ n _ => some (formTrp n.toNat)
  | .eret .. => some formEret
  | .csrw _ c _ => some (formCsrw c)
  | .idle .. => some formIdle
  | .mbxr _ ta => some (formMbxr ta)
  | .mbxwResume _ ta => some (formMbxw mResume ta)
  | .mbxwAbort _ ta => some (formMbxw mAbort ta)
  | .mbxwPop _ ta => some (formMbxw mPop ta)
  | .mbxwDelegate _ ta => some (formMbxw mDelegate ta)
  | .irq _ v _ => some (formIrq v.val)
  | .tlbi _ sc _ => some (formTlbi sc)
  | .atst _ ta => some (formAtst ta)
  | _ => none

/-- The instruction of a captured slot, its row selected by its operands. -/
def captured (s : State) (tid : Nat) (b : Block) (c : Capture) : Option Instr :=
  (slotInstr s tid b c.slot).map fun i => refine i c.a c.b

/-- The check of slot k at commit, a load's as it was found when the slot fired (R264, R419, R420). -/
def slotCommitFault (s : State) (tid : Nat) (t : Task) (b : Block) (k : Nat) : Option Flt0 :=
  match b.caps.find? (fun c => c.slot == k), b.exits.find? (fun c => c.slot == k) with
  | some c, _ => ((captured s tid b c).bind formOf).bind fun f => f.check s tid c.a c.b c.c
  | none, some c => (slotInstr s tid b k).bind fun i => exitCheck s tid t b i c.a
  | none, none =>
    if (b.slot k).phase = .fired then
      match b.bad.find? fun x => x.1 == k with
      | some x => some x.2
      | none => match slotInstr s tid b k with
      | some (.recv _ ch _) => if boundTo s tid ch.val then none else some (exc 0x010D)
      | some (.peek _ _ ch _) => if boundTo s tid ch.val then none else some (exc 0x010D)
      | _ => none
    else none

/-- The first fault of the slots in slot order. -/
def commitFault (s : State) (tid : Nat) (t : Task) (b : Block) : List Nat → Option Flt0
  | [] => none
  | k :: ks =>
    match slotCommitFault s tid t b k with
    | some f => some f
    | none => commitFault s tid t b ks

/-- Whether an instruction sends its response to the response stream. -/
def toStream (i : Instr) : Bool :=
  i.isEngine && (match i.form with | some f => f.targets.all (fun t => match t with | .none => true | _ => false) | none => false)

/-- The RSPs of the block that have fired. -/
def rspSlots (s : State) (tid : Nat) (b : Block) : List Nat :=
  (natRange 0 b.n).filter fun k => isRspWord (slotWord s tid b k) && decide ((b.slot k).phase = .fired)

/-- Whether the response stream holds the block's requests once its RSPs have taken theirs (R280). -/
def roomForAll (s : State) (tid : Nat) (t : Task) (b : Block) : Bool :=
  let reqs := (b.caps.filter fun c => match captured s tid b c with | some i => toStream i | none => false).length
  decide (t.resp.length + reqs ≤ 16 + (rspSlots s tid b).length) || reqs == 0

/-- The VAs whose translations a commit form asks for at its commit (R264), a batch by its first and last word. -/
def formVas (i : Instr) (a b c : Word) : List Word :=
  let batch (va : Word) (n : Nat) : List Word := if n = 0 then [] else [va, va + wordOf (8 * (n - 1))]
  match i with
  | .st _ _ sz _ off => [stAddr sz off a]
  | .stx _ _ sz _ off => [stxAddr sz off a b]
  | .cln .. => [a]
  | .inv .. => [a]
  | .amo .. => [a]
  | .cas .. => [a]
  | .cas2 .. => [a]
  | .fnew .. => [a]
  | .fnewGrant .. => [a]
  | .fdel .. => [a]
  | .fmrg .. => a :: batch b (c.toNat % 128)
  | .fscn .. => [a]
  | .fprb .. => [a]
  | .flen .. => [a]
  | .nmld .. => batch b 16
  | .cfgs .. => batch b 2
  | .cfgl .. => batch b 4
  | .wgl .. => batch b 4
  | .rets .. => [a]
  | .atst .. => batch a 4 ++ batch b 1024
  | _ => []

/-- Whether none of a block's commit forms has to wait for a walk (R89). -/
def formsWalked (s : State) (tid : Nat) (t : Task) (b : Block) : Bool :=
  b.caps.all fun x =>
    match captured s tid b x with
    | some i => walksFree s (dieOf tid * 256 + seTlb (seOf tid)) t.ptn (formVas i x.a x.b x.c)
    | none => true

/-- Whether every commit form may act now. -/
def formsReady (s : State) (tid : Nat) (b : Block) : Bool :=
  b.caps.all fun c =>
    match captured s tid b c with
    | none => true
    | some i =>
      if toStream i then invsDone s tid c.a c.b c.c
      else match formOf i with
        | none => true
        | some f => f.ready s tid c.a c.b c.c

/-- The place of a commit form in the block's order: memory events by LSID, the forms without an
LSID, and the fences at the end (R261, R272). -/
def formRank (i : Instr) (slot : Nat) : Nat :=
  match i.form.bind (·.lsid) with
  | some m => m.val
  | none => match i with
    | .fnc .. => 200 + slot
    | .fncx .. => 200 + slot
    | _ => 100 + slot

/-- Inserts a capture by its rank. -/
def insertCap (r : Nat) (x : Capture × Instr) : List (Nat × (Capture × Instr)) → List (Nat × (Capture × Instr))
  | [] => [(r, x)]
  | y :: ys => if r < y.1 then (r, x) :: y :: ys else y :: insertCap r x ys

/-- The commit forms of a block in the order in which they act. -/
def orderedCaps (s : State) (tid : Nat) (b : Block) : List (Capture × Instr) :=
  (b.caps.foldl (fun acc c =>
    match captured s tid b c with
    | some i => insertCap (formRank i c.slot) (c, i) acc
    | none => acc) []).map (·.2)

/-- Whether a form is TLBI. -/
def isTlbi (i : Instr) : Bool := match i with | .tlbi .. => true | _ => false

/-- The effects of commit forms, one after another; what stands behind a TLBI waits in the task until its
invalidation is complete (R297). -/
def runForms (tid : Nat) : List Later → State → State
  | [], s => s
  | x :: xs, s =>
    let s' := match formOf x.ins with | some f => f.eff s tid x.a x.b x.c | none => s
    if isTlbi x.ins then s'.modTask tid fun t => { t with later := xs } else runForms tid xs s'

/-! ### The other effects of a commit (R237) -/

/-- Whether a channel word stands before another in slot order. -/
def chanBefore (x y : ChanOut) : Bool := decide (x.slot < y.slot) || (x.slot == y.slot && decide (x.tgt ≤ y.tgt))

/-- Inserts a channel word in slot order. -/
def insertOut (x : ChanOut) : List ChanOut → List ChanOut
  | [] => [x]
  | y :: ys => if chanBefore x y then x :: y :: ys else y :: insertOut x ys

/-- Sends the block's channel words in slot order through the task's routes. -/
def sendOuts (s : State) (tid : Nat) (t : Task) (b : Block) : State :=
  (b.chans.foldr insertOut []).foldl
    (fun s x => sendCtrl s (.task tid) (.chan (t.route tid x.ch)) 1 x.word t.ptn []) s

/-- What a channel word of a task that is sent now follows: the accesses of the task and of its block that a release
at dev follows, and what the task has acquired (R170, R172; log entry 16). -/
def wordIds (s : State) (tid : Nat) : List Nat :=
  releaseAfter s (.task tid) .dev ++ ((s.task? tid).map (·.after)).getD []

/-- The channel words that a block has sent from id n on, and those that its forms will send, arrive after the
accesses of the task and of the block itself. -/
def orderOuts (s : State) (tid n : Nat) : State :=
  let ids := wordIds s tid
  let chan (d : Dest) : Bool := match d with | .chan _ => true | _ => false
  { s with
    ctrl := s.ctrl.map fun w => if n ≤ w.id ∧ w.src = .task tid ∧ w.ckind = 1 then { w with after := ids } else w
    ops := s.ops.map fun o => if n ≤ o.id ∧ o.src = .task tid ∧ chan o.dest then { o with words := ids.filter (· != o.id) } else o }

/-- Removes the elements of a list at given indices. -/
def dropAt {α : Type} (xs : List α) (ks : List Nat) : List α :=
  (xs.zipIdx.filter fun p => !ks.contains p.2).map (·.1)

/-- The words that the fired RECVs of channel ch have taken. -/
def recvTaken (s : State) (tid : Nat) (b : Block) (ch : Nat) : List Nat :=
  ((natRange 0 b.n).filter fun k => isRecvOf ch (slotWord s tid b k) && decide ((b.slot k).phase = .fired)).map
    fun k => countBelow s tid b (isRecvOf ch) k

/-- Removes the words RECV has taken (R248). -/
def takeRecvs (s : State) (tid : Nat) (b : Block) : State :=
  (natRange 0 64).foldl (fun s ch =>
    let ks := recvTaken s tid b ch
    if ks.isEmpty then s
    else
      let c := s.chan (chanAddr tid ch)
      s.setChan (chanAddr tid ch) { c with q := dropAt c.q ks }) s

/-- Registers and responses of the task at commit (R237, R284). -/
def commitTask (s : State) (tid : Nat) (b : Block) (t : Task) : Task :=
  let t := b.regw.foldl (fun t r => t.setReg r.1 r.2) t
  let taken := (rspSlots s tid b).map fun k => countBelow s tid b isRspWord k
  { t with resp := dropAt t.resp taken }

/-- The two words of a trap record (R294). -/
def trapWords (tid tnum next : Nat) : List Word := [wordOf (0x01 * 2 ^ 56 + tnum * 2 ^ 40 + tid), wordOf next]

/-- The software traps of a block that has committed: the task stops, and each trap record goes to
the channel delegated for class 2, or the launch ends (R294, R296, R359). -/
def takeTraps (s : State) (tid : Nat) : State :=
  match s.task? tid with
  | none => s
  | some t =>
    if t.trap.isEmpty then s
    else
      let stopped : Task := { t with
        state := if t.state = .halted then .halted else .stopped
        waitOn := .nothing, barW := [], resumeAt := some t.pc, trap := [] }
      let s := s.setTask tid stopped
      match s.part? t.ptn with
      | none => s
      | some p =>
        match delegated s p (dieOf tid) 2 (.task tid) with
        | some ch => t.trap.foldl (fun s n => sendWords s (.task tid) ch t.ptn (wordIds s tid) false (trapWords tid n t.pc)) s
        | none => abortLaunch s t.launch 2 (0x100 + t.trap.headD 0)

/-- The end of a commit: the block is gone, and a YIELDPT block of a launch that is being pre-empted
stops its task (R50). -/
def finishBlock (s : State) (tid : Nat) (b : Block) : State :=
  s.modTask tid fun t =>
    let pre := match mget s.launches t.launch with | some x => decide (x.state = .preempting) | none => false
    { t with blk := none, held := t.held || (pre && (b.yieldpt || decide (t.state = .blocked))) }

/-- A CSRW of fsr that waits behind a TLBI of its block leaves the flags that the block has set (R152). -/
def Later.withFlags (x : Later) (f : Nat) : Later :=
  match x.ins with
  | .csrw _ .fsr _ => { x with a := fsrOr x.a f }
  | _ => x

/-- The flags of a block are ORed into the fsr of its task, behind its CSRW of fsr (R152). -/
def Task.addFlags (t : Task) (f : Nat) : Task := { t with fsr := fsrOr t.fsr f, later := t.later.map (·.withFlags f) }

/-- Everything a commit does (R237, R261); a CSRW of fsr acts before the block's flags are ORed into it (R152). -/
def commitBlock (s : State) (tid : Nat) (t : Task) (b : Block) : State :=
  let forms := (orderedCaps s tid b).map fun x => (⟨x.2, x.1.a, x.1.b, x.1.c⟩ : Later)
  let exits := b.exits.filterMap fun c => (slotInstr s tid b c.slot).map fun i => (i, c.a)
  let s1 := sendOuts ((takeRecvs s tid b).setTask tid (commitTask s tid b t)) tid t b
  let s2 := orderOuts ((runForms tid forms s1).modTask tid fun t => t.addFlags b.flags) tid s.nextId
  let s3 := match exits with | (i, a) :: _ => exitEffect s2 tid i b a | [] => s2
  takeTraps (finishBlock s3 tid b) tid

/-- Whether a load of the block that has its operands has not returned (R236). -/
def loadDue (s : State) (tid : Nat) (b : Block) : Bool :=
  (natRange 0 b.n).any fun k =>
    isLoadWord (slotWord s tid b k) &&
    (match slotForm s tid b k with
     | some f => (match fireOf f.pred f.needs (b.slot k) with | .go .. => true | _ => false)
     | none => false)

/-- Whether a block meets its counts and its exit has fired (R236). -/
def countsMet (b : Block) : Bool := b.exits.length == 1 && b.regn == b.w && b.outn == b.s

/-- Whether a slot of the block can still take a step (R422). -/
def anySlotCan (s : State) (tid : Nat) (b : Block) : Bool := (natRange 0 b.n).any (slotCan s tid b)

/-- BLOCK_COMMIT: the block in flight of a task commits, or takes the exception its operands raise; a block that can
never commit takes the fault of a load that has failed, or 0x010A. -/
def execBlockCommit (tid : Nat) (s : State) : Out :=
  match s.task? tid with
  | none => notEnabled
  | some t =>
    match t.blk with
    | none => notEnabled
    | some b =>
      if !taskActs s t then notEnabled
      else if !countsMet b then
        if anySlotCan s tid b then notEnabled
        else if b.bad.isEmpty then .next (takeFault s tid (exc 0x010A))
        else match commitFault s tid t b (natRange 0 b.n) with
          | some f => .next (takeFault s tid f)
          | none => .next (takeFault s tid (exc 0x010A))
      else if loadDue s tid b || !formsWalked s tid t b then notEnabled
      else match commitFault s tid t b (natRange 0 b.n) with
        | some f => .next (takeFault (faultInstall s tid t f) tid f)
        | none =>
          if formsReady s tid b && roomForAll s tid t b then .next (commitBlock s tid t b) else notEnabled

end Sys2Proof.Machine
end

