-- ==== Sys2Proof/Machine/EngineOps.lean ====
section
/-!
DEFINITION. What an engine does (spec/14_block_system.md R277, R281-R283; spec/04_memory.md R90-R95;
spec/23_failure_memory.md R385-R389; R354, R424): the whole of a request in one step (log entry 20).
-/

namespace Sys2Proof.Machine

/-! ### Access -/

/-- Who performs a request: its TLB, partition, level, write hint and die. -/
structure EngEnv where
  tlb   : Nat
  ptn   : Nat
  level : Nat
  hint  : Nat
  die   : Nat
  deriving DecidableEq, Repr

/-- The engine of an operation. -/
def engEnv (o : Op) (hint : Nat) : EngEnv :=
  match o.src with
  | .task tid => ⟨dieOf tid * 256 + seTlb (seOf tid), o.ptn, o.level, hint, dieOf tid⟩
  | .core c => ⟨c / 4 * 256 + seTlb (2048 + c), o.ptn, 1, hint, c / 4⟩
  | _ => ⟨0, o.ptn, o.level, hint, 0⟩

/-- Reads n bytes at a VA as one access. -/
def EngEnv.read (e : EngEnv) (s : State) (types : List Nat) (va : Word) (n : Nat) : Except Nat (List Byte) :=
  match access s e.tlb e.ptn e.level ⟨true, false, types⟩ va n with
  | .error f => .error f.code
  | .ok x => if s.placeMarked x.place n then .error 0x000A else .ok (s.readPlace x.place n)

/-- The TLB caches the entry that an access of n bytes meets (R384); an access that is not aligned meets none. -/
def EngEnv.meet (e : EngEnv) (s : State) (va : Word) (n : Nat) : State := if va.toNat % n = 0 then installTlb s e.tlb e.ptn va else s

/-- What a read of n bytes at a VA does to the TLB and to the lines of its home slice (R84): an engine's loads carry no
hint. -/
def EngEnv.seen (e : EngEnv) (s : State) (va : Word) (n : Nat) : State :=
  let s := e.meet s va n
  match access s e.tlb e.ptn e.level ⟨true, false, [0, 2, 4, 5, 6]⟩ va n with
  | .error _ => s
  | .ok x => touch s e.ptn x.pa x.typ 0 false

/-- The same for m accesses of n bytes, one behind another. -/
def EngEnv.seenAll (e : EngEnv) (va : Word) (n : Nat) : Nat → State → State
  | 0, s => s
  | m + 1, s => e.seen (e.seenAll va n m s) (va + wordOf (n * m)) n

/-- Writes bytes at a VA as one access. -/
def EngEnv.write (e : EngEnv) (s : State) (types : List Nat) (va : Word) (bs : List Byte) : Except Nat State :=
  match access s e.tlb e.ptn e.level ⟨false, true, types⟩ va bs.length with
  | .error f => .error f.code
  | .ok x => .ok (touch ((e.meet s va bs.length).writePlace x.place bs) e.ptn x.pa x.typ e.hint true)

/-- The same, with the state of a write that fails and its code. -/
def EngEnv.put (e : EngEnv) (types : List Nat) (va : Word) (bs : List Byte) (s : State) : State × Option Nat :=
  match e.write s types va bs with
  | .ok t => (t, none)
  | .error c => (e.meet s va bs.length, some c)

/-- A run of bytes that has been written from an address on: a write of all 64 B of a granule clears its poison mark
(R404). -/
def EngEnv.wrote (e : EngEnv) (va : Word) (n : Nat) (s : State) : State :=
  let first := (va.toNat + 63) / 64
  (natRange first ((va.toNat + n) / 64 - first)).foldl (fun s g =>
    match access s e.tlb e.ptn e.level ⟨false, true, [0, 2, 4, 5, 6]⟩ (wordOf (64 * g)) 1 with
    | .ok x => (match x.place with | .mem a => s.unmark a 64 | _ => s)
    | .error _ => s) s

/-- The page types of ordinary engine data (R281), and of the arguments of KSEL and KVPK (R283). -/
def tData : List Nat := [0, 2, 4, 5, 6]
def tKv : List Nat := [2]
def tNk : List Nat := [0, 2]

/-- Reads n elements of sz bytes one by one, each aligned to its size (R387): the bytes before the first that fails, and
the failure with its index. -/
def EngEnv.readAll (e : EngEnv) (s : State) (types : List Nat) (va : Word) (sz : Nat) : Nat → List Byte × Option (Nat × Nat)
  | 0 => ([], none)
  | n + 1 =>
    match e.readAll s types va sz n with
    | (bs, none) =>
      match e.read s types (va + wordOf (sz * n)) sz with
      | .ok b => (bs ++ b, none)
      | .error c => (bs, some (c, n))
    | r => r

/-- Reads n words of 8 bytes, aligned. -/
def EngEnv.words (e : EngEnv) (s : State) (types : List Nat) (va : Word) : Nat → Except Nat (List Word)
  | 0 => .ok []
  | n + 1 =>
    match e.words s types va n with
    | .error c => .error c
    | .ok ws => match e.read s types (va + wordOf (8 * n)) 8 with
      | .error c => .error c
      | .ok bs => .ok (ws ++ [wordOf (natOfBytes bs)])

/-- Writes elements of sz bytes one by one, each aligned to its size (R387): the state, and the failure with its index. -/
def EngEnv.writeEls (e : EngEnv) (types : List Nat) (va : Word) (sz : Nat) : List (List Byte) → Nat → State → State × Option (Nat × Nat)
  | [], _, s => (s, none)
  | b :: bs, i, s =>
    match e.put types (va + wordOf (sz * i)) b s with
    | (s, none) => e.writeEls types va sz bs (i + 1) s
    | (s, some c) => (s, some (c, i))

/-- Writes bytes one by one. -/
def EngEnv.writeAll (e : EngEnv) (types : List Nat) (va : Word) (bs : List Byte) (i : Nat) (s : State) : State × Option (Nat × Nat) :=
  let r := e.writeEls types va 1 (bs.map fun b => [b]) i s
  (e.wrote va (match r.2 with | some x => x.2 | none => bs.length) r.1, r.2)

/-! ### Elements in order (R387) -/

/-- Elements behind one that has failed: each is performed or not, as free values say (log entry 5). -/
def someElems (f : Nat → State → State × Option Nat) : Nat → Nat → State → State
  | 0, _, s => s
  | n + 1, i, s =>
    let (w, s) := s.free
    someElems f n (i + 1) (if bitAt w.toNat 0 then (f i s).1 else s)

/-- n elements from index i on, in order, up to the first that fails: the state, and the failure with its
index. -/
def runElems (f : Nat → State → State × Option Nat) : Nat → Nat → State → State × Option (Nat × Nat)
  | 0, _, s => (s, none)
  | n + 1, i, s =>
    match f i s with
    | (s, none) => runElems f n (i + 1) s
    | (s, some c) => (someElems f n (i + 1) s, some (c, i))

/-! ### Response words (R281, R354, R387) -/

/-- A response word. -/
def respWord (est opcode edet : Nat) : Word := wordOf (est * 2 ^ 56 + opcode * 2 ^ 48 + edet % 2 ^ 48)
/-- A request that faulted: code and index. -/
def respFault (opcode : Nat) (x : Nat × Nat) : Word := respWord 1 opcode (x.1 % 2 ^ 16 * 2 ^ 32 + x.2 % 2 ^ 32)
/-- A request refused with a code. -/
def respRefused (opcode code : Nat) : Word := respWord 3 opcode (code * 2 ^ 32)
/-- The word of a run of elements that has ended, done with EDET d or faulted. -/
def respOf (opcode d : Nat) (r : State × Option (Nat × Nat)) : State × Word :=
  (r.1, match r.2 with | some x => respFault opcode x | none => respWord 0 opcode d)

/-! ### CPY, GTH, SCT (R281, R282) -/

/-- Copies one element of sz bytes; sources are read from state src. -/
def EngEnv.copy (e : EngEnv) (src : Option State) (sz : Nat) (dst from' : Word) (s : State) : State × Option Nat :=
  let t := e.seen s from' sz
  match e.read (src.getD s) tData from' sz with
  | .error c => (t, some c)
  | .ok bs => e.put tData dst bs t

/-- A run of contiguous elements of sz bytes that has been written: those below the first that has failed. -/
def EngEnv.ran (e : EngEnv) (dst : Word) (sz n : Nat) (r : State × Option (Nat × Nat)) : State × Option (Nat × Nat) :=
  (e.wrote dst (sz * (match r.2 with | some x => x.2 | none => n)) r.1, r.2)

/-- CPY: the bytes of the source as they stood before the request. -/
def engCpy (e : EngEnv) (s : State) (a b c : Word) : State × Word :=
  respOf 0x56 c.toNat (e.ran a 1 c.toNat (runElems (fun i t => e.copy (some s) 1 (a + wordOf i) (b + wordOf i) t) c.toNat 0 s))

/-- Size in bytes of a size code (R218). -/
def sizeBytes (code : Nat) : Nat := (Size.ofCode code).bytes

/-- GTH and SCT by their descriptor; gather copies to the contiguous side. -/
def engIndexed (e : EngEnv) (opcode : Nat) (gather : Bool) (s : State) (a b : Word) : State × Word :=
  match e.words s tData b 4 with
    | .error c => (e.seenAll b 8 4 s, respFault opcode (c, 0))
    | .ok ws =>
      let s := e.seenAll b 8 4 s
      let w2 := (lget ws 2 0).toNat
      let n := w2 % 2 ^ 32
      if field w2 63 35 ≠ 0 ∨ lget ws 3 0 ≠ 0 ∨ n = 0 ∨ 2 ^ 24 < n then (s, respRefused opcode 0x20)
      else
        let sz := sizeBytes (field w2 34 32)
        let one (i : Nat) (s : State) : State × Option Nat :=
          let t := e.seen s (lget ws 1 0 + wordOf (4 * i)) 4
          match e.read s tData (lget ws 1 0 + wordOf (4 * i)) 4 with
          | .error c => (t, some c)
          | .ok ix =>
            let far := lget ws 0 0 + wordOf (natOfBytes ix * sz)
            let near := a + wordOf (i * sz)
            if gather then e.copy none sz near far t else e.copy none sz far near t
        let r := runElems one n 0 s
        respOf opcode n (if gather then e.ran a sz n r else r)

/-! ### MCST (R281, R388) -/

/-- The completion word of a multicast's destination (R79, R388). -/
def multicastWord (n : Nat) : Nat := 2 * 2 ^ 56 + 0x57 * 2 ^ 32 + n % 2 ^ 32

/-- One destination of a multicast: the state, and its fault code, 0 when it is written; a failed one may
hold any mix of old and source bytes. -/
def EngEnv.castTo (e : EngEnv) (src : List Byte) (va : Word) (s : State) : State × Nat :=
  let one (i : Nat) (t : State) : State × Option Nat := e.put tData (va + wordOf i) [lget src i 0] t
  match runElems one src.length 0 s with
  | (t, none) => (e.wrote va src.length t, 0)
  | (_, some (c, _)) => (someElems one src.length 0 s, c)

/-- The destinations of a multicast in turn: the state and the codes. -/
def EngEnv.castAll (e : EngEnv) (src : List Byte) : List Word → State → State × List Nat
  | [], s => (s, [])
  | va :: vs, s =>
    let (s, c) := e.castTo src va s
    let (s, cs) := e.castAll src vs s
    (s, c :: cs)

/-- Sets out the token of a notify form's destination. -/
def notifyTo (e : EngEnv) (n : Nat) (s : State) (x : Word × Nat) : State :=
  let (r, k) := entryRegion x.1
  let tok := if x.2 = 0 then dataTok 0x7F (multicastWord n) else unitPoison s.time 2 x.2 e.die
  { s with nextId := s.nextId + 1, transfers := s.transfers ++ [⟨s.nextId, tok, r, k, e.ptn⟩] }

/-- The set of destinations written, as bits. -/
def writtenMask : List Nat → Nat → Nat
  | [], _ => 0
  | c :: cs, b => (if c = 0 then b else 0) + writtenMask cs (2 * b)

/-- MCST: copies the source to each destination of the list. -/
def engMcst (e : EngEnv) (s : State) (a b c : Word) : State × Word :=
  let n := field b.toNat 31 0
  let m := field b.toNat 39 32
  let notify := bitAt b.toNat 40
  match e.words s tData c (if notify then 2 * m else m) with
  | .error f => (e.seenAll c 8 (if notify then 2 * m else m) s, respFault 0x57 (f, 0))
  | .ok ws =>
    let vas := (natRange 0 m).map fun i => lget ws (if notify then 2 * i else i) 0
    let (src, bad) := e.readAll s tData a 1 n
    let s := e.seenAll a 1 n (e.seenAll c 8 ws.length s)
    let (s, codes) := match bad with
      | some (f, _) => (s, vas.map fun _ => f)
      | none => e.castAll src vas s
    let s := if notify then ((codes.zipIdx).map fun x => (lget ws (2 * x.2 + 1) 0, x.1)).foldl (notifyTo e n) s else s
    let mask := writtenMask codes 1
    match codes.find? (· != 0) with
    | none => (s, respWord 0 0x57 mask)
    | some f => (s, if mask = 0 then respFault 0x57 (f, 0) else respWord 2 0x57 (f * 2 ^ 32 + mask))

/-! ### KSEL (R95, R283, R389) -/

/-- A value rounded to f32. -/
def rne32 (v : Val) : Val := Flt.f32.decode (Flt.f32.round (.mode .rne) 0 v).1

/-- The bound of a page: query values against minima and maxima, channel by channel. -/
def pageBound : List (Val × Val × Val) → Val → Val
  | [], acc => acc
  | (q, lo, hi) :: rest, acc =>
    pageBound rest (rne32 (Val.add false acc ((rne32 (Val.mul q lo).1).max (rne32 (Val.mul q hi).1))).1)

/-- A page as KSEL ranks it: its list position and its bound; none stands for the NaN bound. -/
abbrev Ranked := Nat × Val

/-- Whether page x ranks above page y: a NaN bound lies below every other, and the lower position wins a
tie. -/
def ranksAbove (x y : Ranked) : Bool :=
  if x.2.isNan then y.2.isNan && decide (x.1 < y.1)
  else y.2.isNan || y.2.lt x.2 || (!(x.2.lt y.2) && decide (x.1 < y.1))

/-- Inserts a page in its rank. -/
def insertRank (x : Ranked) : List Ranked → List Ranked
  | [] => [x]
  | y :: ys => if ranksAbove x y then x :: y :: ys else y :: insertRank x ys

/-- Values of n elements of a format in bytes. -/
def valuesOf (f : Flt) (size : Nat) (n : Nat) (bs : List Byte) : List Val :=
  (chunksOf size n bs).map fun c => f.decode (natOfBytes c)

/-- What KSEL makes of one page: excluded for its header, without tokens, or ranked. -/
inductive PageEnd where
  | excluded
  | empty
  | ranked (v : Val)
  deriving DecidableEq, Repr

/-- One page of KSEL. -/
def kselPage (e : EngEnv) (s : State) (d dc : Nat) (q : List Val) (sumt : Word) (valid : List Byte) (p : Nat) (va : Word) :
    Except Nat PageEnd :=
  match e.readAll s tKv va 1 4 with
  | (_, some (c, _)) => .error c
  | (h, none) =>
    if natOfBytes (h.take 2) ≠ 0x4B56 ∨ (lget h 3 0).toNat ≠ dc then .ok .excluded
    else if lget h 2 0 = 0 then .ok .empty
    else if !bitAt (lget valid (p / 8) 0).toNat (p % 8) then .ok (.ranked (.inf false))
    else match e.readAll s tKv (sumt + wordOf (4 * d * p)) 2 (2 * d) with
      | (_, some (c, _)) => .error c
      | (bs, none) =>
        let vs := valuesOf .bf16 2 (2 * d) bs
        .ok (.ranked (pageBound (q.zip ((vs.take d).zip (vs.drop d))) (.fin false 0 1)))

/-- The pages of KSEL from a position on: ranked pages and the number excluded, or the failure with its
position. -/
def kselPages (e : EngEnv) (s : State) (d dc : Nat) (q : List Val) (sumt : Word) (valid : List Byte) :
    Nat → List Word → Except (Nat × Nat) (List Ranked × Nat)
  | _, [] => .ok ([], 0)
  | p, va :: vs =>
    match kselPage e s d dc q sumt valid p va with
    | .error c => .error (c, p)
    | .ok fin =>
      match kselPages e s d dc q sumt valid (p + 1) vs with
      | .error x => .error x
      | .ok (rs, ex) =>
        match fin with
        | .excluded => .ok (rs, ex + 1)
        | .empty => .ok (rs, ex)
        | .ranked v => .ok (insertRank (p, v) rs, ex)

/-- What the reads of one page of KSEL do to the lines of their slices: its header, and its summary when it is
valid. -/
def EngEnv.kselSeen (e : EngEnv) (s : State) (d : Nat) (sumt : Word) (valid : List Byte) (x : Word × Nat) : State :=
  let s := e.seenAll x.1 1 4 s
  if bitAt (lget valid (x.2 / 8) 0).toNat (x.2 % 8) then e.seenAll (sumt + wordOf (4 * d * x.2)) 2 (2 * d) s else s

/-- KSEL by its descriptor; an element that is not aligned to its size ends it with 0x0004 (R387). -/
def engKsel (e : EngEnv) (s : State) (a : Word) : State × Word :=
  match e.words s tData a 6 with
    | .error c => (e.seenAll a 8 6 s, respFault 0x5A (c, 0))
    | .ok ws =>
      let s := e.seenAll a 8 6 s
      let w4 := (lget ws 4 0).toNat
      let dc := field w4 25 24
      let k := field w4 23 16
      let np := field w4 15 0
      if field w4 63 26 ≠ 0 ∨ dc = 3 ∨ k = 0 ∨ 64 < k ∨ np = 0 then (s, respRefused 0x5A 0x20)
      else
        let d := 32 * 2 ^ dc
        let read := e.seenAll (lget ws 0 0) 4 d (e.seenAll (lget ws 3 0) 8 np (e.seenAll (lget ws 2 0) 1 ((np + 7) / 8) s))
        match e.readAll s tNk (lget ws 0 0) 4 d, e.words s tKv (lget ws 3 0) np, e.readAll s tKv (lget ws 2 0) 1 ((np + 7) / 8) with
        | (qb, none), .ok pages, (valid, none) =>
          let seen := (pages.zipIdx).foldl (fun s x => e.kselSeen s d (lget ws 1 0) valid x) read
          match kselPages e s d dc (valuesOf .f32 4 d qb) (lget ws 1 0) valid 0 pages with
          | .error x => (seen, respFault 0x5A x)
          | .ok (rs, ex) =>
            let best := (rs.take k).map (·.1)
            match e.writeEls tNk (lget ws 5 0) 4 (best.map (bytesOfNat 4)) 0 seen with
            | (s, some (c, _)) => (s, respFault 0x5A (c, 0))
            | (s, none) =>
              (s, if ex = 0 then respWord 0 0x5A best.length
                else respWord 2 0x5A (Nat.min ex 0xFFFF * 2 ^ 32 + best.length))
        | (_, some (c, _)), _, _ => (read, respFault 0x5A (c, 0))
        | _, .error c, _ => (read, respFault 0x5A (c, 0))
        | _, _, (_, some (c, _)) => (read, respFault 0x5A (c, 0))

/-! ### KVPK (R92-R94, R283) -/

/-- The larger of two magnitudes, NaNs left out; none while there is no number. -/
def amaxOf : List Val → Option Val
  | [] => none
  | v :: vs =>
    match v.isNan, amaxOf vs with
    | true, r => r
    | false, none => some v.abs
    | false, some w => some (v.abs.max w)

/-- The e8m0 scale of a block (R93). -/
def blockScale (vs : List Val) : Nat :=
  match amaxOf vs with
  | some (.inf _) => 254
  | some (.fin _ a b) =>
    if a = 0 then 0x7F
    else (let x := floorLog2 a b - 8 + 127; if x < 0 then 0 else if 254 < x then 254 else x.toNat)
  | _ => 0x7F

/-- The codes of a block at a scale. -/
def blockCodes (sc : Nat) (vs : List Val) : List Byte :=
  vs.map fun v => BitVec.ofNat 8 (Flt.e4m3.round (.mode .rne) 1 (v.unscaled sc)).1

/-- The codes and the scales of tokens, in blocks of 32. -/
def packBlocks (vs : List Val) : List Byte × List Byte :=
  let blocks := chunksOf 32 vs.length vs
  (blocks.flatMap fun b => blockCodes (blockScale b) b, blocks.map fun b => BitVec.ofNat 8 (blockScale b))

/-- Pads a list of bytes with zeros to n. -/
def padTo (n : Nat) (bs : List Byte) : List Byte := bs ++ lrep (n - bs.length) 0

/-- The dequantised keys of a channel over the tokens. -/
def channelKeys (d tc : Nat) (codes scales : List Byte) (c : Nat) : List Val :=
  (natRange 0 tc).map fun t =>
    (Flt.e4m3.decode (lget codes (t * d + c) 0).toNat).scaled (lget scales (t * (d / 32) + c / 32) 0).toNat

/-- The extreme of the values that are numbers. -/
def extreme (f : Val → Val → Val) : List Val → Option Val
  | [] => none
  | v :: vs => if v.isNan then extreme f vs else some (match extreme f vs with | some w => f v w | none => v)

/-- A summary bound as bf16 bytes: rounded, or the canonical NaN (R94). -/
def boundBytes (r : Rnd) (v : Option Val) : List Byte :=
  bytesOfNat 2 (match v with | some v => (Flt.bf16.round (.mode r) 0 v).1 | none => 0x7FC0)

/-- KVPK by its descriptor; an element that is not aligned to its size ends it with 0x0004 (R387). -/
def engKvpk (e : EngEnv) (s : State) (a : Word) : State × Word :=
  let fault (s : State) (c : Nat) : State × Word := (s, respFault 0x5B (c, 0))
  match e.words s tData a 7 with
    | .error c => fault (e.seenAll a 8 7 s) c
    | .ok ws =>
      let s := e.seenAll a 8 7 s
      let w4 := (lget ws 4 0).toNat
      let w6 := (lget ws 6 0).toNat
      let sf := field w4 9 8
      let dc := field w4 6 5
      let tc := field w4 4 0
      let page := lget ws 2 0
      if field w4 63 10 ≠ 0 ∨ bitAt w4 7 ∨ sf = 3 ∨ dc = 3 ∨ tc = 0 ∨ 16 < tc ∨ 2 ^ 32 ≤ w6 ∨ page.toNat % 128 ≠ 0 then
        (s, respRefused 0x5B 0x20)
      else
        let d := 32 * 2 ^ dc
        let fmt : Flt := if sf = 0 then .f32 else if sf = 1 then .f16 else .bf16
        let size := if sf = 0 then 4 else 2
        let read := e.seenAll (lget ws 1 0) size (tc * d) (e.seenAll (lget ws 0 0) size (tc * d) s)
        match e.readAll s tNk (lget ws 0 0) size (tc * d), e.readAll s tNk (lget ws 1 0) size (tc * d) with
        | (_, some (c, _)), _ => fault read c
        | _, (_, some (c, _)) => fault read c
        | (kb, none), (vb, none) =>
          let s := read
          let (kc, ks) := packBlocks (valuesOf fmt size (tc * d) kb)
          let (vc, vsc) := packBlocks (valuesOf fmt size (tc * d) vb)
          let head := padTo 32 [0x56, 0x4B, BitVec.ofNat 8 tc, BitVec.ofNat 8 dc]
          let body := padTo (16 * d) kc ++ padTo (d / 2) ks ++ padTo (16 * d) vc ++ padTo (d / 2) vsc
          let chans := (natRange 0 d).map (channelKeys d tc kc ks)
          let summary := chans.flatMap (fun xs => boundBytes .rdn (extreme Val.min xs)) ++
            chans.flatMap (fun xs => boundBytes .rup (extreme Val.max xs))
          match e.writeAll tKv page (head ++ body) 0 s with
          | (s, some (c, _)) => fault s c
          | (s, none) =>
            match e.writeEls tKv (lget ws 3 0) 2 (chunksOf 2 (2 * d) summary) 0 s with
            | (s, some (c, _)) => fault s c
            | (s, none) =>
              let at' := lget ws 5 0 + wordOf (w6 / 8)
              match e.read s tKv at' 1 with
              | .error c => fault (e.seen s at' 1) c
              | .ok bs =>
                match e.put tKv at' [BitVec.ofNat 8 (Nat.lor (natOfBytes bs) (2 ^ (w6 % 8)))] (e.seen s at' 1) with
                | (s, some c) => fault s c
                | (s, none) => (s, respWord 0 0x5B 0)

/-! ### AXRD, AXWR (R90, R386, R418) -/

/-- A frame whose bytes are unspecified: each byte that can be written takes a free value (log entry 5). -/
def scramble (e : EngEnv) (va : Word) : Nat → Nat → State → State
  | 0, _, s => s
  | n + 1, i, s =>
    let (w, s) := s.free
    scramble e va n (i + 1) (match e.write s tData (va + wordOf i) [w.setWidth 8] with | .ok s => s | .error _ => s)

/-- AXRD: an Annex block to a frame. -/
def engAxrd (e : EngEnv) (s : State) (a b : Word) : State × Word :=
  if !s.ready 5 0 then (s, respRefused 0x5C 0x12)
  else
    let bad := Config.nandBad s.oracle
    let s := { s with oracle := s.oracle + 1 }
    let block := b.toNat % 2 ^ 29
    if bad then (scramble e a 65536 0 s, respFault 0x5C (0x11, 0))
    else match e.writeAll tData a (Memory.readN s.annex (block * 65536) 65536) 0 s with
      | (t, none) => (t, respWord 0 0x5C 65536)
      | (t, some (c, i)) => (scramble e (a + wordOf i) (65536 - i) 0 t, respFault 0x5C (c, i))

/-- AXWR: a frame to an Annex block, which holds all of its old contents or all of the new. -/
def engAxwr (e : EngEnv) (s : State) (a b : Word) : State × Word :=
  if !s.ready 5 0 then (s, respRefused 0x5D 0x12)
  else
    let bad := Config.nandBad s.oracle
    let s := { s with oracle := s.oracle + 1 }
    let read := e.seenAll a 1 65536 s
    match e.readAll s tData a 1 65536 with
    | (_, some x) => (read, respFault 0x5D x)
    | (bs, none) =>
      let s := read
      if bad then (s, respFault 0x5D (0x11, 0))
      else ({ s with annex := Memory.writeN s.annex (b.toNat % 2 ^ 29 * 65536) bs }, respWord 0 0x5D 65536)

/-! ### Entry queues and INJ (R32, R70, R277) -/

/-- Whether a context's entry queue takes a token: the slot holds a resident context, or the new one of a
switch, and the queue is not full. -/
def entryRoom (s : State) (r k : Nat) : Bool :=
  match s.region? r with
  | some g => partRuns s g.ptn && !g.frozen &&
    (let c := g.ctx (g.standsFor k); c.resident && decide (c.entry.length < 16))
  | none => false

/-- Puts a token into a context's entry queue. -/
def pushEntry (s : State) (r k : Nat) (t : Token) : State :=
  s.modRegion r fun (g : Region) => ({ g with stall := 0 }).modCtx (g.standsFor k) fun (c : Ctx) => { c with entry := c.entry ++ [(⟨t, false, 0⟩ : Stok)] }

/-- INJ: none while its token has to wait, or while the region is another partition's, whose turn on the clusters will end
(R413); a region that stands nowhere takes nothing. -/
def engInj (e : EngEnv) (s : State) (a b : Word) : Option (State × Word) :=
  match e.read s tData b 32 with
    | .error c => some (e.seen s b 32, respFault 0x55 (c, 0))
    | .ok bs =>
      let s := e.seen s b 32
      let (r, k) := entryRegion a
      if partRuns s e.ptn && (s.region? r).isNone then some (s, respWord 0 0x55 0)
      else if ((s.region? r).map (·.ptn)) == some e.ptn && entryRoom s r k then
        let tok : Token := ⟨BitVec.ofNat 4 (field a.toNat 19 16), BitVec.ofNat 8 (field a.toNat 27 20), BitVec.ofNat 256 (natOfBytes bs)⟩
        some (pushEntry s r k tok, respWord 0 0x55 0)
      else none

/-! ### The request -/

/-- The words that an engine's end sends: its response, and for AXRD and AXWR whose last byte has landed the
completion word of R79, of CKIND 0, to the channel that the instruction names (log entry 112). -/
def engineWords (opcode : Nat) (d : Dest) (w : Word) : List Word :=
  match d with
  | .chan _ =>
    if (opcode = 0x5C ∨ opcode = 0x5D) ∧ field w.toNat 63 56 = 0 then [w, wordOf (2 * 2 ^ 56 + opcode * 2 ^ 32 + 65536)] else [w]
  | _ => [w]

/-- An engine request as a whole: the state and the response word; none while it has to wait. -/
def engineDo (e : EngEnv) (opcode : Nat) (a b c : Word) (s : State) : Option (State × Word) :=
  match opcode with
  | 0x55 => engInj e s a b
  | 0x56 => some (engCpy e s a b c)
  | 0x57 => some (engMcst e s a b c)
  | 0x58 => some (engIndexed e 0x58 true s a b)
  | 0x59 => some (engIndexed e 0x59 false s a b)
  | 0x5A => some (engKsel e s a)
  | 0x5B => some (engKvpk e s a)
  | 0x5C => some (engAxrd e s a b)
  | _ => some (engAxwr e s a b)

/-- The VAs at which an engine begins to translate for a request: its operands that are addresses. -/
def engineVas (opcode : Nat) (a b c : Word) : List Word :=
  match opcode with
  | 0x55 => [b]
  | 0x57 => [a, c]
  | 0x56 => [a, b]
  | 0x58 => [a, b]
  | 0x59 => [a, b]
  | _ => [a]

/-- ENGINE_RESPONSE: an engine performs a request in its turn at the P-tile of its first access (R188), once no walk holds
it back (R89), and its response sets out. -/
def execEngineResponse (id : Nat) (s : State) : Out :=
  match s.op? id with
  | some o =>
    match o.act with
    | .engine opcode a b c h =>
      let e := engEnv o h
      if !performable s o || !walksFree s e.tlb e.ptn (engineVas opcode a b c) then notEnabled
      else match engineDo e opcode a b c (serve s o) with
        | some (t, w) => .next (toLanding t id (engineWords opcode o.dest w) 0 false)
        | none => notEnabled
    | _ => notEnabled
  | none => notEnabled

/-- TRANSFER_COMPLETE: the completion of a multicast's destination enters the entry queue it names. -/
def execTransferComplete (id : Nat) (s : State) : Out :=
  match s.transfers.find? fun t => t.id == id with
  | some t =>
    let s' := { s with transfers := s.transfers.filter fun x => x.id != id }
    if (s.region? t.r).isNone && partRuns s t.ptn then .next s'
    else if entryRoom s t.r t.ctx && ((s.region? t.r).map (·.ptn)) == some t.ptn then .next (pushEntry s' t.r t.ctx t.tok)
    else notEnabled
  | none => notEnabled

end Sys2Proof.Machine
end

