-- ==== Sys2Proof/Machine/NearBank.lean ====
section
/-!
DEFINITION. The near-bank units (spec/14_block_system.md R291, R292; spec/09_consistency.md R175; R400, R401,
R431): the loading of a graph, the start of a run, and the firing of its nodes.
-/

namespace Sys2Proof.Machine

/-- A near-bank unit; one that nothing has loaded holds no graph. -/
def State.unit (s : State) (u : Nat) : NbUnit := mgetD s.nb u ⟨none, [], [], [], none, [], 0⟩
/-- Writes a near-bank unit. -/
def State.setUnit (s : State) (u : Nat) (x : NbUnit) : State := { s with nb := mset s.nb u x }

/-- The first request of a code for a unit that may be performed (R400). -/
def nearRequest (s : State) (u code : Nat) : Option Op :=
  s.ops.find? fun o => performable s o &&
    (match o.act with
     | .nearBank c v _ _ => c == code && v == u
     | _ => false)

/-- Whether a node word is one that may be loaded (R431). -/
def nodeOk (w : Word) : Bool := decide (field w.toNat 63 60 ≤ 12) && field w.toNat 45 32 == 0

/-- NEAR_BANK_GRAPH_REPLACE: an idle unit takes the graph of the next NMLD (R291); one that may not be
loaded, or that could not be read, leaves no graph (R431). -/
def execNearBankGraphReplace (u : Nat) (s : State) : Out :=
  if (s.unit u).running.isSome then notEnabled
  else match nearRequest s u nLoad with
    | none => notEnabled
    | some o =>
      match o.act with
      | .nearBank _ _ _ ws =>
        let ok := ws.length == 16 && ws.all nodeOk
        .next (dropOp (s.setUnit u { s.unit u with graph := if ok then some ws else none, arcs := [], accs := [], cnts := [] }) o.id)
      | _ => notEnabled

/-- The notice of a run that has failed (R401). -/
def nearPoison (node cause : Nat) : Word := wordOf (6 * 2 ^ 56 + 0xFFFF * 2 ^ 16 + node * 2 ^ 12 + cause)

/-- NEAR_BANK_RUN_START: an idle unit starts the next NMGO: its operand stands at node 0, every
accumulator is 0. The request counts as performed from then on, and its notice is due at the end of the run
(R175, R292). Without a graph the request fails at once (R431). -/
def execNearBankRunStart (u : Nat) (s : State) : Out :=
  if (s.unit u).running.isSome then notEnabled
  else match nearRequest s u nGo with
    | none => notEnabled
    | some o =>
      match o.act with
      | .nearBank _ _ b _ =>
        if (s.unit u).graph.isNone then .next (toLanding s o.id [nearPoison 15 4] 0 true)
        else .next (toLanding (s.setUnit u { s.unit u with running := some ⟨o.id, o.ptn⟩, arcs := [(0, b)], accs := [], cnts := [] })
          o.id [] 0 false)
      | _ => notEnabled

/-! ### Nodes -/

/-- A node whose turn it is: its unit, number, the unit's state and the run. -/
structure NbTurn where
  u   : Nat
  k   : Nat
  x   : NbUnit
  run : NbStart
  deriving DecidableEq, Repr

/-- The node whose turn it is. -/
def nodeTurn (s : State) : Option NbTurn :=
  match s.cur with
  | .node u k => (s.unit u).running.map fun r => ⟨u, k, s.unit u, r⟩
  | _ => none

namespace NbTurn

/-- The token on the left or the right arc of the node. -/
def arc (e : NbTurn) (side : Nat) : Option Word := mget e.x.arcs (e.k * 2 + side)

/-- The arcs that a node feeds. -/
def outs (n : NbNode) : List Nat :=
  (if n.dav = 1 then [n.dan.toNat * 2 + n.dap.toNat] else []) ++ (if n.dbv = 1 then [n.dbn.toNat * 2 + n.dbp.toNat] else [])

/-- Whether every arc that the node feeds is empty. -/
def free (e : NbTurn) (n : NbNode) : Bool := (outs n).all fun a => !mhas e.x.arcs a

/-- The immediate as a signed constant or offset (log entry 31). -/
def imm (n : NbNode) : Word := sext 32 n.imm.toNat

/-- The operands of a node that are there: the left one, and the right one or the immediate. -/
def operands (e : NbTurn) (n : NbNode) : Option (Word × Word) :=
  match e.arc 0, (if n.ri = 1 then some (if n.nft = 1 then wordOf n.imm.toNat else imm n) else e.arc 1) with
  | some l, some r => some (l, r)
  | _, _ => none

/-- The unit once arcs have been emptied and a result stands on the arcs the node feeds. -/
def put (e : NbTurn) (n : NbNode) (taken : List Nat) (v : Option Word) : NbUnit :=
  let arcs := taken.foldl (fun m side => merase m (e.k * 2 + side)) e.x.arcs
  { e.x with arcs := match v with | some w => (outs n).foldl (fun m a => mset m a w) arcs | none => arcs }

/-- The run ends with a notice (R291, R401). -/
def finish (e : NbTurn) (s : State) (w : Word) (marked : Bool) : State :=
  toLanding (s.setUnit e.u { e.x with running := none, arcs := [], cnts := [] }) e.run.id [w] 0 marked

/-- The run fails at this node (R401). -/
def fail (e : NbTurn) (s : State) (cause : Nat) : State := e.finish s (nearPoison e.k cause) true

end NbTurn

/-- Whether an address lies in a unit's bank group, in a frame of the partition (R291), and in no node store, which is
mapped for its engine alone (R131). -/
def unitHolds (s : State) (u ptn pa : Nat) : Bool :=
  inHbm pa && shelverOf pa == u / 4 && Config.bankGroup (pa / 8) % 4 == u % 4 && !s.nodeStored pa 1 &&
  (match s.part? ptn with
   | some p => p.ranges.any fun r => decide (r.2.pa ≤ pa) && decide (pa < r.2.pa + r.2.len)
   | none => false)

/-- A node that computes from both of its operands. -/
def nbCompute (n : NbNode) (f : Word → Word → Word) (s : State) : Out :=
  match nodeTurn s with
  | none => notReady
  | some e =>
    match e.operands n with
    | none => notReady
    | some (l, r) => if e.free n then .next (s.setUnit e.u (e.put n [0, 1] (some (f l r)))) else notReady

/-- A node's number: its value by NFT. -/
def nbVal (n : NbNode) (w : Word) : Val := if n.nft = 1 then Flt.f32.decode (w.toNat % 2 ^ 32) else .ofInt (signedOf 64 w.toNat)

/-- A node's result from an exact value: s64 with wrap, or f32 with RNE. -/
def nbRound (n : NbNode) (v : Val) : Word :=
  if n.nft = 1 then wordOf (Flt.f32.round (.mode .rne) 0 v).1 else wordOfInt v.toInt

/-- RDW: the word at address L + IMM. -/
def execNbRdw (n : NbNode) (s : State) : Out :=
  match nodeTurn s with
  | none => notReady
  | some e =>
    match e.arc 0 with
    | none => notReady
    | some l =>
      let pa := (l + NbTurn.imm n).toNat
      if !e.free n then notReady
      else if !(unitHolds s e.u e.run.ptn pa && unitHolds s e.u e.run.ptn (pa + 7)) then .next (e.fail s 1)
      else if s.hbmMarked pa 8 then .next (e.fail s 2)
      else .next (s.setUnit e.u (e.put n [0] (some (wordOf (s.memWord pa)))))

/-- WRW: R to address L + IMM; the result is L. -/
def execNbWrw (n : NbNode) (s : State) : Out :=
  match nodeTurn s with
  | none => notReady
  | some e =>
    match e.operands n with
    | none => notReady
    | some (l, r) =>
      let pa := (l + NbTurn.imm n).toNat
      if !e.free n then notReady
      else if !(unitHolds s e.u e.run.ptn pa && unitHolds s e.u e.run.ptn (pa + 7)) then .next (e.fail s 1)
      else .next ((s.putMem pa (bytesOfNat 8 r.toNat)).setUnit e.u (e.put n [0, 1] (some l)))

/-- ADD: L + R. -/
def execNbAdd (n : NbNode) (s : State) : Out := nbCompute n (fun l r => nbRound n (Val.add false (nbVal n l) (nbVal n r)).1) s
/-- MUL: L × R. -/
def execNbMul (n : NbNode) (s : State) : Out := nbCompute n (fun l r => nbRound n (Val.mul (nbVal n l) (nbVal n r)).1) s
/-- MIN: the smaller. -/
def execNbMin (n : NbNode) (s : State) : Out := nbCompute n (fun l r => nbRound n (Val.min (nbVal n l) (nbVal n r))) s
/-- MAX: the larger. -/
def execNbMax (n : NbNode) (s : State) : Out := nbCompute n (fun l r => nbRound n (Val.max (nbVal n l) (nbVal n r))) s
/-- CMP: 1 when L < R, else 0. -/
def execNbCmp (n : NbNode) (s : State) : Out := nbCompute n (fun l r => wordOf (bnat (Val.lt (nbVal n l) (nbVal n r)))) s
/-- SEL: the right operand when bit 0 of L is 1, else 0. -/
def execNbSel (n : NbNode) (s : State) : Out := nbCompute n (fun l r => if bitAt l.toNat 0 then r else 0) s

/-- MAC: acc := acc + L × R, rounded once; the result is acc. -/
def execNbMac (n : NbNode) (s : State) : Out :=
  match nodeTurn s with
  | none => notReady
  | some e =>
    match e.operands n with
    | none => notReady
    | some (l, r) =>
      if !e.free n then notReady
      else
        let acc := nbRound n (Val.add false (nbVal n (mgetD e.x.accs e.k 0)) (Val.mul (nbVal n l) (nbVal n r)).1).1
        .next (s.setUnit e.u { e.put n [0, 1] (some acc) with accs := mset e.x.accs e.k acc })

/-- CNT: L, L + 1, …, L + IMM - 1, one per firing. -/
def execNbCnt (n : NbNode) (s : State) : Out :=
  match nodeTurn s with
  | none => notReady
  | some e =>
    if !e.free n then notReady
    else match mget e.x.cnts e.k with
      | some (v, left) =>
        let cnts := if left = 1 then merase e.x.cnts e.k else mset e.x.cnts e.k (v + 1, left - 1)
        .next (s.setUnit e.u { e.put n [] (some v) with cnts := cnts })
      | none =>
        match e.arc 0 with
        | none => notReady
        | some l =>
          let m := n.imm.toNat
          if m = 0 then .next (s.setUnit e.u (e.put n [0] none))
          else .next (s.setUnit e.u { e.put n [0] (some l) with cnts := if m = 1 then e.x.cnts else mset e.x.cnts e.k (l + 1, m - 1) })

/-- MBX: posts L to the mailbox of unit IMM; a node whose outputs are used then stalls until its wake bit is
set, and gives the unit's own mailbox word (R292; log entry 32). -/
def execNbMbx (n : NbNode) (s : State) : Out :=
  match nodeTurn s with
  | none => notReady
  | some e =>
    if mhas e.x.cnts e.k then
      match e.x.mbox with
      | w :: ws =>
        if bitAt e.x.wake e.k && e.free n then
          .next (s.setUnit e.u { e.put n [] (some w) with mbox := ws, cnts := merase e.x.cnts e.k })
        else notReady
      | [] => notReady
    else match e.arc 0 with
      | none => notReady
      | some l =>
        match (s.part? e.run.ptn).bind fun p => p.units[n.imm.toNat]? with
        | none => .next (e.fail s 3)
        | some v =>
          if 8 ≤ (s.unit v).mbox.length || !e.free n then notReady
          else
            let s := s.setUnit e.u { e.put n [0] none with
              cnts := if (NbTurn.outs n).isEmpty then e.x.cnts else mset e.x.cnts e.k (0, 1) }
            .next (s.setUnit v { s.unit v with mbox := (s.unit v).mbox ++ [l] })

/-- DONE: sends the completion notice and ends the run. -/
def execNbDone (_n : NbNode) (s : State) : Out :=
  match nodeTurn s with
  | none => notReady
  | some e =>
    match e.arc 0 with
    | none => notReady
    | some l => .next (e.finish s l false)

/-- A NMLD has read its 16 node words, or has met a page that does not pass or an uncorrectable error; the words go on to
the unit (R291, R431). -/
def nearRead (s : State) (o : Op) (u : Nat) (places : List (Nat × Nat)) (bad : Bool) : State :=
  let rd (p : Nat × Nat) : Word := wordOf (natOfBytes (s.readPlace (placeOf (p.1 % 4) p.2) 8))
  let words := if bad || places.any fun p => s.placeMarked (placeOf (p.1 % 4) p.2) 8 then [] else places.map rd
  { s with ops := s.ops.map fun x => if x.id = o.id then { x with act := .nearBank nLoad u 0 words } else x }

/-- A NMBX or NMWK that has reached its unit (R292): NMBX waits while the mailbox is full. -/
def nearDeliver (s : State) (o : Op) (code u : Nat) (b : Word) : Option State :=
  if code = nPost then
    if 8 ≤ (s.unit u).mbox.length then none
    else some (dropOp (s.setUnit u { s.unit u with mbox := (s.unit u).mbox ++ [b] }) o.id)
  else if code = nWake then some (dropOp (s.setUnit u { s.unit u with wake := b.toNat % 65536 }) o.id)
  else none

end Sys2Proof.Machine
end

