-- ==== Sys2Proof/Machine/RegionEvents.lean ====
section
/-!
DEFINITION. What a region does by itself: arming, phases and the selector (spec/02_execution.md R30-R38),
moving tokens (spec/03_fabric.md R56-R59), fetching and switching contexts (R37, R69-R71, R367, R368),
gating (R72, R372), the stall watchdog (R369) and pre-emption (R50-R52, R371, R416).
-/

namespace Sys2Proof.Machine

/-! ### ARM (R426) -/

/-- ARM_APPLY: an ARM reaches its region. -/
def execArmApply (id : Nat) (s : State) : Out :=
  match s.op? id with
  | some o =>
    match o.act with
    | .arm r k count route tid launch =>
      if performable s o && partRuns s o.ptn then
        let k := ((s.region? r).map (·.standsFor k)).getD k
        .next (dropOp (applyArm s r k count route tid launch) id)
      else notEnabled
    | _ => notEnabled
  | none => notEnabled

/-! ### The end of a phase (R33-R35, R31, R364) -/

/-- Whether every output of the work tile in progress has drained: of the running context, and of the old
context of a switch. -/
def phaseDrained (s : State) (r : Nat) (g : Region) (k : Nat) : Bool :=
  let quiet (j : Nat) : Bool := (g.ctx j).drained g .phase && (ctxOps s r j).isEmpty
  quiet k && (match g.oldCtx with | some j => quiet j | none => true)

/-- Whether the phase of context k ends now: its work tile is done, or its arm count is zero. -/
def phaseEnds (s : State) (r : Nat) (g : Region) (k : Nat) : Bool :=
  if g.phase then phaseDrained s r g k else decide ((g.ctx k).arm = 0)

/-- The banks of a context at the end of a work tile: FISX and FUNI may give their POISON again (R396). -/
def Ctx.tileEnd (c : Ctx) : Ctx :=
  { c with es := c.es.map fun (b : Nat × ElemSt) =>
      if eopOf (c.word b.1) = 0x6A ∨ eopOf (c.word b.1) = 0x6B then (b.1, { b.2 with regs := b.2.regs.set 5 0 }) else b }

/-- The running context at the end of its phase. -/
def Ctx.endPhase (c : Ctx) (ran : Bool) : Ctx :=
  { (if ran then c.tileEnd else c) with
    arm := if c.disarm then 0 else c.arm - bnat ran
    nph := c.nph + bnat ran
    disarm := false, satEnd := c.satEnd || c.sat, sat := false }

/-- The selection at a phase end, with the mode that CTXM has set, and the counter as it then stands. -/
def Region.nextPhase (g : Region) (k : Nat) : Region :=
  let g := ({ g with count := g.nextCount, phase := false }).select
  let (w0, w1) := g.counters k
  { g with snap0 := w0, snap1 := w1 }

/-- What the end of a phase of context k does. -/
def endPhase (s : State) (r : Nat) (g : Region) (k : Nat) : State :=
  let c := g.ctx k
  let c' := c.endPhase g.phase
  let ph := if g.phase then lset g.ph k ((lget g.ph k 0 + 1) % 2 ^ 16) else g.ph
  let s := s.setRegion r { g.setCtx k c' with ph := ph, phase := false }
  let s := if c.arm ≠ 0 ∧ c'.arm = 0 then completeCtx s r k else s
  (tryFreeAll s r).modRegion r fun g => g.nextPhase k

/-- PHASE_END: the phase of the running context ends and the selector chooses. -/
def execPhaseEnd (r : Nat) (s : State) : Out :=
  match s.region? r with
  | some g =>
    match g.cur with
    | some k => if regionRuns s g && !g.waiting && phaseEnds s r g k then .next (endPhase s r g k) else notEnabled
    | none => notEnabled
  | none => notEnabled

/-- Whether a waiting selector has something to select (R34, R350, R370). -/
def Region.mayWake (g : Region) : Bool :=
  if g.count then (natRange 0 4).any g.candidate
  else if g.named0 then (natRange 0 4).any fun k => (g.ctx k).resident && (g.ctx k).arm != 0
  else g.candidate g.named

/-- SELECTOR_WAKE: a waiting selector selects again. -/
def execSelectorWake (r : Nat) (s : State) : Out :=
  match s.region? r with
  | some g => if regionRuns s g && g.waiting && g.mayWake then .next (s.setRegion r g.select) else notEnabled
  | none => notEnabled

/-! ### Moving tokens (R32, R33, R56-R59, R67) -/

/-- The context whose latches take the entry queue's head: the old one of a switch for a token marked old. -/
def Region.entryTo (g : Region) (k : Nat) (t : Stok) : Nat :=
  match g.oldCtx with
  | some j => if t.old then j else k
  | none => k

/-- The head of the running context's entry queue goes to its readers, and the phase has its token. -/
def moveEntry (g : Region) (k : Nat) : Option Region :=
  if g.cur ≠ some k || g.waiting || g.phase || (g.ctx k).arm = 0 then none
  else match (g.ctx k).entry with
    | [] => none
    | t :: ts =>
      let j := g.entryTo k t
      if !(g.ctx j).wireRoom .entry then none
      else some (({ g with phase := true, stall := 0 }.modCtx k fun c => { c with entry := ts }).modCtx j fun c => c.toLatches .entry t)

/-- One move of a link: a token that waits behind the receiving join, the head of the slots, or the head
behind the sending join. -/
def moveLink (m : Maker) (g : Region) (k key : Nat) : Option Region :=
  let c := g.ctx k
  let l := c.link key
  let recv (f : Nat) : Option Region :=
    match mgetD l.split (2 * f + 1) [], c.linkWire g key f with
    | t :: ts, some x =>
      if c.wireRoom x then
        some (g.setCtx k (({ c with links := mset c.links key { l with split := mset l.split (2 * f + 1) ts } } : Ctx).toLatches x t))
      else none
    | _, _ => none
  let head : Option Region :=
    match l.slots with
    | t :: ts =>
      if c.laneReady g key && c.laneTurn g key then
        let l := { l with slots := ts, bad := tailBad l.bad }
        some (((g.servedLane key).setCtx k { c with links := mset c.links key l }).recvIn m k key t.fold (headSeen m (c.link key).bad t))
      else none
    | [] => none
  let send (f : Nat) : Option Region :=
    if !(mgetD l.split (2 * f) []).isEmpty && c.sendFree g key f then some (g.sendMove m k key f) else none
  ((((recv 0).or (recv 1)).or head).or (send 0)).or (send 1)

/-- What waits in an element's output goes on as far as it can. -/
def moveOut (m : Maker) (g : Region) (k pos : Nat) : Option Region :=
  let g' := g.flush m k pos
  if ((g'.ctx k).bank pos).outq.length < ((g.ctx k).bank pos).outq.length then some g' else none

/-- The context in which a token runs that comes to context k by a circuit: the old one of a switch for a token marked
old (R70). -/
def Region.epochOf (g : Region) (k : Nat) (t : Stok) : Nat :=
  match g.oldCtx with
  | some j => if t.old && k == g.heir then j else k
  | none => k

/-- A token that comes out of a circuit passes the join at its end (R61): the region, with the first token that comes
out in its latches, and the circuit, behind which the others wait. -/
def Region.circuitIn (g : Region) (m : Maker) (e : LaneEnd) (x : Circuit) (t : Stok) : Region × Circuit :=
  let w : Wire := .port e.ct e.side e.vl
  let (outs, held, fl) := joinAt (some (linkSide x.path.entry)) ((g.ctx e.ctx).wireSide w) m x.gather t.tok
  let stoks := outs.map fun q => ({ t with tok := q } : Stok)
  let c := { g.ctx e.ctx with flags := orF (g.ctx e.ctx).flags fl }
  (g.setCtx e.ctx (match stoks with | [] => c | q :: _ => c.toLatches w q), { x with gather := held, wait := stoks.drop 1 })

/-- The maker at the C-tile that feeds a circuit. -/
def circuitMaker (s : State) (r key : Nat) : Maker :=
  makerOf s ((((s.region? r).bind fun g => g.cTiles[key / 16]?).map (gridTile r)).getD 0)

/-- One move at the end of circuit `key` of context k: a token that waits behind its join, or the oldest in flight once
it has come to the end, goes to the lane where the circuit ends, or out by its Novey port. What the old context of a
switch sends, and what was on its way at the switch of the region where the circuit ends, is of the old epoch (R70). -/
def moveCircuit (s : State) (r k key : Nat) : Option State :=
  match (s.region? r).bind fun g => mget (g.ctx k).circs key with
  | none => none
  | some x =>
    let put (s : State) (x : Circuit) : State := s.modCtx r k fun c => { c with circs := mset c.circs key x }
    let arrived : Option (Stok × List (Stok × Nat)) :=
      match x.toks with
      | (t, at') :: ts => if at' ≤ s.time then some (t, ts) else none
      | [] => none
    match x.path.dest with
    | none => arrived.map fun q =>
      { put s { x with toks := q.2, bad := tailBad x.bad } with
        flits := s.flits ++ [(x.path.novey.getD 0, (headSeen (circuitMaker s r key) x.bad q.1).tok)] }
    | some e =>
      match s.region? e.r with
      | none => none
      | some g =>
        let w : Wire := .port e.ct e.side e.vl
        let m := makerOf s (((g.cTiles[e.ct]?).map (gridTile e.r)).getD 0)
        let fromOld := ((s.region? r).bind (·.oldCtx)) == some k
        let mark (t : Stok) : Stok := { t with old := t.old || fromOld }
        let room (t : Stok) : Bool := regionRuns s g && (g.ctx (g.epochOf e.ctx t)).wireRoom w
        match x.wait with
        | t :: ts =>
          let k' := g.epochOf e.ctx (mark t)
          if room (mark t) then
            some (put (s.setRegion e.r (g.setCtx k' ((g.ctx k').toLatches w t))) { x with wait := ts })
          else none
        | [] =>
          match arrived with
          | some q =>
            if room (mark q.1) then
              let (g', x') := g.circuitIn m { e with ctx := g.epochOf e.ctx (mark q.1) } x (headSeen m x.bad (mark q.1))
              some (put (s.setRegion e.r { g' with stall := 0 }) { x' with toks := q.2, bad := tailBad x.bad })
            else none
          | none => none

/-- ROUTER_FORWARD: a token moves: link below 512 a link of the context, 512 its entry queue, from 520 on a
folded lane of an M-tile's port, from 1024 on the output of the element at that position, from 8192 on a circuit of the context. -/
def execRouterForward (r ctx link : Nat) (s : State) : Out :=
  match s.region? r with
  | some g =>
    if 8192 ≤ link then
      if !regionRuns s g then notEnabled
      else match moveCircuit s r ctx (link - 8192) with
        | some t => .next t
        | none => notEnabled
    else if !regionRuns s g || !g.active ctx then notEnabled
    else
      let tile : Nat :=
        if link < 512 then ((g.cTiles[link / 16]?).map (gridTile r)).getD 0
        else if link < 1024 then ((g.cTiles[(link - 520) / 8]?).map (gridTile r)).getD 0
        else posTile r g ctx (link - 1024)
      let moved :=
        if link < 512 then moveLink (makerOf s tile) g ctx link
        else if link = 512 then moveEntry g ctx
        else if link < 1024 then (mLaneMove (makerOf s tile) g ctx link 0).or (mLaneMove (makerOf s tile) g ctx link 1)
        else moveOut (makerOf s tile) g ctx (link - 1024)
      match moved with
      | some g' => .next (s.setRegion r { g' with stall := 0 })
      | none => notEnabled
  | none => notEnabled

/-! ### Fetching configurations (R37, R69, R208) -/

/-- A word of a context's image as its region fetches it; none when the page does not pass. -/
def fetchWord (s : State) (r ptn : Nat) (va : Word) : Option Word :=
  match access s (dieOf r * 256 + seTlb (4096 + r)) ptn 1 askLoad va 8 with
  | .ok x => if s.placeMarked x.place 8 then none else some (wordOf (natOfBytes (s.readPlace x.place 8)))
  | .error _ => none

/-- Consecutive words of an image. -/
def fetchWords (s : State) (r ptn : Nat) (va : Word) : Nat → Option (List Word)
  | 0 => some []
  | n + 1 =>
    match fetchWords s r ptn va n, fetchWord s r ptn (va + wordOf (8 * n)) with
    | some ws, some w => some (ws ++ [w])
    | _, _ => none

/-- The record of a context image whose fetch fails: an element record's index, or 0xFFFF (R368). -/
def fetchFault (s : State) (r ptn va : Nat) : Option Nat :=
  match fetchWords s r ptn (wordOf va) 2 with
  | some [w0, _] =>
    let ne := field w0.toNat 47 32
    let nl := field w0.toNat 63 48
    match (natRange 0 ne).find? fun i => (fetchWords s r ptn (wordOf (va + 16 + 24 * i)) 3).isNone with
    | some i => some i
    | none => if (fetchWords s r ptn (wordOf (va + 16 + 24 * ne)) nl).isNone then some 0xFFFF else none
  | _ => some 0xFFFF

/-- The record whose fetch fails of what a slot holds: its image, or a Folio, of which every word is read. -/
def fetchedBad (s : State) (r ptn : Nat) (c : Ctx) : Option Nat :=
  let image := if c.elems.isEmpty then none else fetchFault s r ptn c.image
  match image, c.folio with
  | some i, _ => some i
  | none, some f => if (readFolio (fetchWords s r ptn) (wordOf f.va)).isNone then some 0xFFFF else none
  | none, none => none

/-- Whether the switch to a context is due at its time (R69). -/
def switchDue (s : State) (g : Region) (k : Nat) : Bool :=
  g.switches.any fun w => w.new == k && decide (w.t ≤ s.time)

/-- Whether a region's fetch of what a slot holds need not wait for a walk (R89). -/
def fetchWalks (s : State) (r : Nat) (g : Region) (c : Ctx) : Bool :=
  walksFree s (elemTlb r) g.ptn (wordOf c.image :: (c.folio.map fun f => wordOf f.va).toList)

/-- STAGED_FETCH_COMPLETE: the fetch into a staged slot has ended, before the cycle of its switch (R367). A slot
fetched for a pending section is then resident (R37); another waits for its switch. -/
def execStagedFetchComplete (r ctx : Nat) (s : State) : Out :=
  match s.region? r with
  | some g =>
    let c := g.ctx ctx
    if regionRuns s g && c.status == .staged && c.fetching && !switchDue s g ctx && fetchWalks s r g c then
      let bad := fetchedBad s r g.ptn c
      let c' := { c with fetching := false, fetchBad := bad }
      if bad.isNone ∧ c.arm ≠ 0 then
        .next (absorbPending (s.setRegion r ({ g with pass := lset g.pass ctx 0 }.setCtx ctx { c' with status := .resident })) r ctx)
      else .next (s.setRegion r (g.setCtx ctx c'))
    else notEnabled
  | none => notEnabled

/-- What an image has for a context of a region: an element image, a Folio, or both (R348). -/
def imageCtxs (s : State) (g : Region) (r k : Nat) : List ImgCtx :=
  (((mget s.launches g.launch).bind fun l => mget s.images l.image).map fun im => im.ctxs.filter fun x => x.r == r && x.ctx == k).getD []

/-- Loads what an image has for a context, in order; none when a part is refused. -/
def loadParts (o : Outside) (rd : Word → Nat → Option (List Word)) : List ImgCtx → Region → Option Region
  | [], g => some g
  | x :: xs, g =>
    let (g', st) := if x.folio then loadFolio g x.ctx x.va (readFolio rd (wordOf x.va)) else loadContext o g x.ctx x.va (readCtxImage rd (wordOf x.va))
    if st = 0 then loadParts o rd xs g' else none

/-- Whether an operation in flight puts a token into the entry queue of context k of region r: one with its destination
there, or an INJ (R277). -/
def Op.entersAt (o : Op) (r k : Nat) : Bool :=
  o.dest == .entry r k || (match o.act with | .engine 0x55 a _ _ _ => entryRegion a == (r, k) | _ => false)

/-- The entry tokens that wait for a context: in its entry queue, and in slots upstream of it (R32). -/
def entryWaiting (s : State) (r k : Nat) : Nat :=
  ((s.region? r).map fun g => (g.ctx k).entry.length).getD 0 +
  (s.ops.filter fun o => o.entersAt r k).length + (s.transfers.filter fun t => t.r == r && t.ctx == k).length

/-- Whether a pending section is the one to be fetched: of those whose slot is free the one with the most entry tokens
waiting, the earlier-armed one on a tie (R37). -/
def fetchesFirst (s : State) (r ctx : Nat) (g : Region) : Bool :=
  largest (entryWaiting s r) ((g.pends.filter fun p => (g.ctx p.ctx).isFree && p.image != 0).map (·.ctx)) == some ctx

/-- PENDING_SECTION_FETCH: the loader fetches a pending section into its slot, which has become free. -/
def execPendingSectionFetch (r ctx : Nat) (s : State) : Out :=
  match s.region? r with
  | some g =>
    if regionRuns s g && fetchesFirst s r ctx g then
      match imageCtxs s g r ctx with
      | [] => notEnabled
      | xs =>
        if !walksFree s (elemTlb r) g.ptn (xs.map fun x => wordOf x.va) then notEnabled
        else match loadParts (s.outside r g) (fetchWords s r g.ptn) xs g with
        | some g' => .next (absorbPending (s.setRegion r g') r ctx)
        | none => notEnabled
    else notEnabled
  | none => notEnabled

/-! ### Switching contexts (R69-R71, R276, R367, R368) -/

/-- The first device time after a word's arrival whose low 48 bits are given (R55). -/
def switchTime (now low : Nat) : Nat := now + ((low + 2 ^ 48 - 1 - now % 2 ^ 48) % 2 ^ 48 + 1)

/-- Whether an earlier word of the same source is on its way to the same place. -/
def wordAhead (s : State) (w : CtrlWord) : Bool :=
  s.ctrl.any fun v => v.id < w.id && v.src == w.src && v.dst == w.dst

/-- Whether a control word can arrive (R55, R170). -/
def wordArrives (s : State) (w : CtrlWord) : Bool := !wordAhead s w && allDone s w.after

/-- The control word with an id. -/
def State.word? (s : State) (id : Nat) : Option CtrlWord := s.ctrl.find? fun w => w.id == id
/-- Takes a control word off the network. -/
def State.dropWord (s : State) (id : Nat) : State := { s with ctrl := s.ctrl.filter fun w => w.id != id }

/-- SWITCH_TIME_WORD: a switch word reaches its region. -/
def execSwitchTimeWord (id : Nat) (s : State) : Out :=
  match s.word? id with
  | some w =>
    match w.dst with
    | .region r =>
      if w.ckind ≠ 4 || !wordArrives s w || !partRuns s w.ptn then notEnabled
      else match s.region? r with
        | none => .next (s.dropWord id)
        | some g =>
          let p := w.payload.toNat
          .next ((s.dropWord id).setRegion r
            { g with switches := g.switches ++ [⟨switchTime s.time (field p 63 16), field p 1 0, field p 3 2, false⟩] })
    | _ => notEnabled
  | none => notEnabled

/-- The switch report of a cancelled switch (R368). -/
def switchReport (r cause sidx old new : Nat) : Word :=
  wordOf (cause * 2 ^ 48 + sidx * 2 ^ 32 + 0xFE * 2 ^ 24 + r % 256 * 2 ^ 16 + regOf r * 2 ^ 13 + new * 4 + old)

/-- A switch is cancelled: the staged slot is free, and the old context's route takes the report. -/
def cancelSwitch (s : State) (r cause sidx old new : Nat) : State :=
  match s.region? r with
  | none => s
  | some g =>
    let n := g.ctx new
    let s := s.setRegion r (if n.status == .staged then g.setCtx new Ctx.blank else g)
    match (g.ctx old).route with
    | some a => sendCtrl s (.region r) (.chan a) 7 (switchReport r cause sidx old new) g.ptn []
    | none => s

/-- The cause that cancels a switch at its time, with the failed record. -/
def switchCause (s : State) (r : Nat) (g : Region) (new : Nat) : Option (Nat × Nat) :=
  let n := g.ctx new
  match n.fetchBad with
  | some i => some (2, i)
  | none =>
    if n.status ≠ .staged || n.fetching then some (1, 0xFFFF)
    else if g.spots.any fun x => tileFenced s (gridTile r x) then some (5, 0xFFFF)
    else none

/-- A switch takes place: the new context has the arm count, the route, the flag word and the entry queue of the old one,
whose tokens are marked old. -/
def Region.switchOver (g : Region) (old new : Nat) : Region :=
  let o := g.ctx old
  let n := g.ctx new
  if !o.resident then { g with pass := lset g.pass new 0 }.setCtx new { n with status := .resident }
  else
    let n' := { n with
      status := .resident, arm := o.arm, nph := o.nph, route := o.route, armTask := o.armTask, disarm := o.disarm
      flags := orF n.flags o.flags, entry := o.entry.map fun t => { t with old := true } }
    let o' := { o with arm := 0, entry := [], disarm := false, release := false, unload := false, flags := 0 }
    let g := { g with
      pass := lset g.pass new 0, cur := if g.cur = some old then some new else g.cur
      named := if g.named = old then new else g.named, oldCtx := some old, heir := new }
    (g.setCtx old o').setCtx new n'

/-- The circuits that end at a context of a switch end at the new one, and what they carry is marked old (R70). -/
def turnCircs (s : State) (r old new : Nat) : State :=
  { s with fab := s.fab.mapCircs fun x =>
      match x.path.dest with
      | some e =>
        if e.r = r ∧ e.ctx = old then
          { x with
            path := { x.path with dest := some { e with ctx := new } }
            toks := x.toks.map fun (q : Stok × Nat) => ({ q.1 with old := true }, q.2)
            wait := x.wait.map fun (t : Stok) => { t with old := true } }
        else x
      | none => x }

/-- A switch of a region takes place. The old context's flag word goes to a completion word of its own that is on its
way, and else to the new context (R152; log entry 122). -/
def takeSwitch (s : State) (r old new : Nat) : State :=
  absorbPending (turnCircs ((oweFlags s r old).modRegion r fun g => g.switchOver old new) r old new) r new

/-- Whether a circuit still brings tokens of the old epoch to the region of a switch: marked old, or of a context that is
itself the old one of a switch. -/
def oldOnCircuits (s : State) (r heir : Nat) : Bool :=
  s.fab.regions.any fun h => (natRange 0 4).any fun k => (h.2.ctx k).circs.any fun x =>
    (match x.2.path.dest with | some e => e.r == r && e.ctx == heir | none => false) &&
    (x.2.toks.any (·.1.old) || x.2.wait.any (·.old) || (h.2.oldCtx == some k && !x.2.empty))

/-- Whether no slot that is marked old remains in a region after a switch (R71). -/
def oldDone (s : State) (r : Nat) (g : Region) (old : Nat) : Bool :=
  (g.ctx old).drained g .none && (ctxOps s r old).isEmpty && !((g.ctx g.heir).entry.any (·.old)) && !oldOnCircuits s r g.heir

/-- The slot of the old context of a switch becomes free; flags that its elements have set meanwhile go to the new
context (R152; log entry 122). -/
def Region.freeOld (g : Region) (old : Nat) : Region :=
  let f := (g.ctx old).flags
  { (g.modCtx g.heir fun c => { c with flags := orF c.flags f }).setCtx old Ctx.blank with oldCtx := none }

/-- The first switch of a region whose time has come and that has not been judged. -/
def Region.dueSwitch (g : Region) (now : Nat) : Option Switch := g.switches.find? fun w => !w.passed && decide (w.t ≤ now)

/-- CONTEXT_SWITCH: at its time a switch is judged: it is cancelled, or it takes place, or, while the old context of an
earlier one still drains, waits for that slot, and nothing that comes later cancels it (R70 gives a slot one epoch
bit; log entry 122). Once the old context has no token, its slot is free. -/
def execContextSwitch (r : Nat) (s : State) : Out :=
  match s.region? r with
  | some g =>
    let without (w : Switch) : State := s.setRegion r { g with switches := g.switches.erase w }
    if !regionRuns s g then notEnabled
    else match g.dueSwitch s.time, g.oldCtx with
      | some w, o =>
        (match switchCause s r g w.new with
         | some (cause, sidx) => .next (cancelSwitch (without w) r cause sidx w.old w.new)
         | none =>
           if o.isNone then .next (takeSwitch (without w) r w.old w.new)
           else .next (s.setRegion r { g with switches := g.switches.erase w ++ [{ w with passed := true }] }))
      | none, some old => if oldDone s r g old then .next (s.setRegion r (g.freeOld old)) else notEnabled
      | none, none =>
        (match g.switches.find? (·.passed) with
         | some w => .next (takeSwitch (without w) r w.old w.new)
         | none => notEnabled)
  | none => notEnabled

/-! ### Gating (R72, R372) -/

/-- Whether an element has a token at an input, or work of its own. -/
def elemStirs (c : Ctx) (pos : Nat) : Bool :=
  let e := eopOf (c.word pos)
  let b := c.bank pos
  ((natRange 0 4).any fun i => mhas c.lat (pos * 4 + i)) || c.holds pos || b.ag.active || !b.ag.queue.isEmpty || e == 0x32

/-- The positions of a context's elements and nodes. -/
def Ctx.positions (c : Ctx) : List Nat :=
  mkeys c.elems ++ (match c.folio with | some f => natRange 2048 f.nodes.length | none => [])

/-- ELEMENT_CLOCK_GATE: an element that has not fired for 64 cycles is clock-gated. -/
def execElementClockGate (r ctx pos : Nat) (s : State) : Out :=
  match s.region? r with
  | some g =>
    let c := g.ctx ctx
    let b := c.bank pos
    if regionRuns s g && c.resident && c.positions.contains pos && !b.gated && decide (b.lastFire + 64 ≤ s.time) then
      .next (s.setRegion r (g.setCtx ctx (c.setBank pos { b with gated := true })))
    else notEnabled
  | none => notEnabled

/-- ELEMENT_WAKE: a clock-gated element with a token at an input, or with work of its own, wakes. -/
def execElementWake (r ctx pos : Nat) (s : State) : Out :=
  match s.region? r with
  | some g =>
    let c := g.ctx ctx
    let b := c.bank pos
    if regionRuns s g && b.gated && elemStirs c pos then
      .next (s.setRegion r (g.setCtx ctx (c.setBank pos { b with gated := false, lastFire := s.time })))
    else notEnabled
  | none => notEnabled

/-- The elements that resident contexts place on a lane of a C-tile: region, context, position. -/
def laneElems (s : State) (tile lane : Nat) : List (Nat × Nat × Nat) :=
  s.fab.regions.flatMap fun g => (natRange 0 4).flatMap fun k =>
    let c := g.2.ctx k
    if !c.resident then []
    else (c.positions.filter fun pos =>
      posTile g.1 g.2 k pos == tile &&
      (match posKind pos with
       | .lane _ l => l == lane
       | .node n => (c.folio.map fun f => field (lget f.places n 0).toNat 10 7) == some lane
       | _ => false)).map fun pos => (g.1, k, pos)

/-- Whether a token on a link, or at the output of another element, is bound for an input of a position. -/
def Ctx.bound (c : Ctx) (g : Region) (pos : Nat) : Bool :=
  let reads (w : Option Wire) : Bool := match w with | some x => (c.readers x).any fun q => q.1 == pos | none => false
  (c.links.any fun l =>
    (l.2.slots.any fun t => reads (c.linkWire g l.1 t.fold)) ||
    [0, 1].any fun f => reads (c.linkWire g l.1 f) && (!(mgetD l.2.split (2 * f) []).isEmpty || !(mgetD l.2.split (2 * f + 1) []).isEmpty)) ||
  (c.es.any fun e => e.2.outq.any fun o => match c.dest g e.1 o.1 with | .wire x => reads (some x) | _ => false)

/-- Whether a token is addressed to an element: in a latch, or on its way to one. -/
def elemFed (s : State) (x : Nat × Nat × Nat) : Bool :=
  match s.region? x.1 with
  | some g => ((natRange 0 4).any fun i => mhas (g.ctx x.2.1).lat (x.2.2 * 4 + i)) || (g.ctx x.2.1).bound g x.2.2
  | none => false

/-- Whether an element has not fired for 64 cycles. -/
def elemIdle (s : State) (x : Nat × Nat × Nat) : Bool :=
  match s.region? x.1 with
  | some g => decide (((g.ctx x.2.1).bank x.2.2).lastFire + 64 ≤ s.time)
  | none => true

/-- LANE_POWER_GATE: the control core's request; one that meets a token is kept until the lane's inputs are
empty and it has been idle for 64 cycles. -/
def execLanePowerGate (tile lane : Nat) (s : State) : Out :=
  let t := s.tile tile
  let es := laneElems s tile lane
  let gate := s.modTile tile fun t => { t with gated := mset t.gated lane none, askGate := t.askGate.filter (· != lane) }
  if 16 ≤ lane || mhas t.gated lane then notEnabled
  else if t.askGate.contains lane then
    if es.all fun x => !elemFed s x && elemIdle s x then .next gate else notEnabled
  else if es.isEmpty then .next gate
  else if es.any (elemFed s) then .next (s.modTile tile fun t => { t with askGate := t.askGate ++ [lane] })
  else notEnabled

/-- LANE_POWER_UP: a power-gated lane to which a token is addressed powers up. -/
def execLanePowerUp (tile lane : Nat) (s : State) : Out :=
  let t := s.tile tile
  if mhas t.gated lane && !t.wakeTest.contains lane && (laneElems s tile lane).any (elemFed s) then
    .next (s.modTile tile fun t => { t with gated := merase t.gated lane })
  else notEnabled

/-- LANE_WAKE_FAILURE: a lane has not powered up 3,600 cycles after the first token addressed to it: that is reported
to the control core, and its tile is to run its self-test. -/
def execLaneWakeFailure (tile lane : Nat) (s : State) : Out :=
  let t := s.tile tile
  match mget t.gated lane with
  | some (some since) =>
    if since + 3600 ≤ s.time ∧ ¬ t.wakeTest.contains lane then
      .next { s.modTile tile fun t => { t with wakeTest := t.wakeTest ++ [lane] } with wakeFails := s.wakeFails ++ [(tile, lane)] }
    else notEnabled
  | _ => notEnabled

/-! ### The stall watchdog (R369, R370) -/

/-- Whether a region's stall counter runs: an armed context runs, or in PRED mode the region waits for the context
that has been named, armed or not (R370). -/
def stallRuns (s : State) (g : Region) : Bool :=
  let armed (k : Nat) : Bool := (g.ctx k).resident && (g.ctx k).arm != 0
  ((match g.cur with | some k => armed k | none => false) || (!g.count && (armed g.named || (g.waiting && !g.named0)))) &&
  regionRuns s g &&
  (match mget s.launches g.launch with | some l => decide (l.state = .running ∨ l.state = .draining) | none => false)

/-- The payload of a stall notice: the CODE with which the launch is to end. -/
def stallCode (r k : Nat) : Nat := 0x00020000 + r % 256 * 32 + regOf r * 4 + k % 4

/-- STALL_WATCHDOG: the counter has reached 2^26, and the region tells the command processor. -/
def execStallWatchdog (r : Nat) (s : State) : Out :=
  match s.region? r with
  | some g =>
    if 2 ^ 26 ≤ g.stall ∧ stallRuns s g then
      let k := if g.count then g.cur.getD 0 else if g.waiting then g.named else g.cur.getD 0
      .next (sendCtrl (s.setRegion r { g with stall := 0 }) (.region r) (.core (s.coreOf g.ptn)) 6 (wordOf (stallCode r k)) g.ptn [])
    else notEnabled
  | none => notEnabled

/-- Device time goes on: the stall counters count, and the first token addressed to a power-gated lane is
timed. -/
def passTime (s : State) (d : Nat) : State :=
  let fab := { s.fab with regions := mmapv (fun (g : Region) => if stallRuns s g then { g with stall := g.stall + d } else g) s.fab.regions }
  let tiles := s.tiles.map fun (t : Nat × Tile) =>
    (t.1, { t.2 with gated := t.2.gated.map fun (l : Nat × Option Nat) =>
      (l.1, if l.2.isNone && (laneElems s t.1 l.1).any (elemFed s) then some s.time else l.2) })
  { s with time := s.time + d, fab := fab, tiles := tiles }

/-! ### Pre-emption (R50-R52, R367, R371, R416) -/

/-- The tasks of a launch. -/
def launchTasks (s : State) (l : Nat) : List (Nat × Task) := s.fab.tasks.filter fun t => t.2.launch == l
/-- The regions of a launch. -/
def launchRegions (s : State) (l : Nat) : List (Nat × Region) := s.fab.regions.filter fun g => g.2.launch == l

/-- Cancels the switches of a region that wait or are on their way. -/
def cancelAll (cause : Nat) (s : State) (r : Nat) : State :=
  let words := s.ctrl.filter fun w => w.ckind == 4 && w.dst == .region r
  let s := words.foldl (fun s w => cancelSwitch (s.dropWord w.id) r cause 0xFFFF (field w.payload.toNat 1 0) (field w.payload.toNat 3 2)) s
  match s.region? r with
  | some g =>
    (g.switches.filter fun w => !w.passed).foldl (fun s w => cancelSwitch s r cause 0xFFFF w.old w.new)
      (s.setRegion r { g with switches := g.switches.filter (·.passed) })
  | none => s

/-- Changes every task of a launch. -/
def mapTasks (s : State) (l : Nat) (f : Task → Task) : State :=
  { s with fab := { s.fab with tasks := mmapv (fun (t : Task) => if t.launch = l then f t else t) s.fab.tasks } }
/-- Changes every region of a launch. -/
def mapRegions (s : State) (l : Nat) (f : Region → Region) : State :=
  { s with fab := { s.fab with regions := mmapv (fun (g : Region) => if g.launch = l then f g else g) s.fab.regions } }

/-- PREEMPT: the control core pre-empts a launch: its switches are cancelled, its BLOCKED tasks stop, its AGs
go no further than their outer iteration, and its other tasks than their next YIELDPT block. -/
def execPreempt (launch : Nat) (s : State) : Out :=
  match mget s.launches launch with
  | some l =>
    if l.state = .running ∧ partRuns s l.ptn then
      let s := (mkeys (launchRegions s launch)).foldl (cancelAll 3) s
      let s := mapTasks s launch fun t => { t with held := t.held || (decide (t.state = .blocked) && t.blk.isNone) }
      .next (s.modLaunch launch fun l => { l with state := .preempting, since := s.time })
    else notEnabled
  | none => notEnabled

/-- Whether an AG has stopped between outer iterations, with nothing left to emit. -/
def agAtRest (w : Nat) (a : AgState) : Bool := a.queue.isEmpty && (!a.active || (!a.faulted && agBoundary (cfgOf w) a))

/-- Whether no token of a region remains, its AGs at rest (R50, R444). -/
def regionSaved (s : State) (r : Nat) (g : Region) : Bool :=
  (natRange 0 4).all fun k =>
    let c := g.ctx k
    let rested := { c with es := mmapv (fun (b : ElemSt) => { b with ag := { b.ag with active := false, queue := [] } }) c.es }
    c.entry.isEmpty && (ctxOps s r k).isEmpty && rested.drained g .preempt && c.es.all fun e => agAtRest (c.word e.1) e.2.ag

/-- Whether a task has stopped for a pre-emption. -/
def taskStopped (t : Task) : Bool := t.held || decide (t.state = .stopped) || decide (t.state = .halted)

/-- Whether a drain is complete (R50). -/
def drainDone (s : State) (l : Nat) : Bool :=
  ((launchTasks s l).all fun t => taskStopped t.2) && (launchRegions s l).all fun g => regionSaved s g.1 g.2

/-- A launch is saved: its regions and tasks stand still. A block in flight is discarded (R240). -/
def saveLaunch (s : State) (l : Nat) : State :=
  let s := mapTasks s l fun t => { t with held := true, pc := t.blockAddr, blk := none }
  (mapRegions s l fun g => { g with frozen := true }).modLaunch l fun x => { x with state := .saved }

/-- PREEMPT_DRAIN_COMPLETE: the drain has finished and the launch is saved. -/
def execPreemptDrainComplete (launch : Nat) (s : State) : Out :=
  match mget s.launches launch with
  | some l => if l.state = .preempting ∧ partRuns s l.ptn ∧ drainDone s launch then .next (saveLaunch s launch) else notEnabled
  | none => notEnabled

/-- PREEMPT_DRAIN_TIMEOUT: 24,000 cycles after the pre-emption began the drain has not finished, and the
launch is saved in place. -/
def execPreemptDrainTimeout (launch : Nat) (s : State) : Out :=
  match mget s.launches launch with
  | some l =>
    if l.state = .preempting ∧ l.since + 24000 ≤ s.time ∧ ¬ drainDone s launch ∧ partRuns s l.ptn then .next (saveLaunch s launch)
    else notEnabled
  | none => notEnabled

/-- PREEMPT_RESUME: a saved launch goes on as if it had never stopped; one whose root has halted meanwhile ends
(R26). -/
def execPreemptResume (launch : Nat) (s : State) : Out :=
  match mget s.launches launch with
  | some l =>
    if l.state = .saved ∧ partRuns s l.ptn then
      let s := mapTasks s launch fun t => { t with held := false }
      .next ((mapRegions s launch fun g => { g with frozen := false }).modLaunch launch fun x =>
        { x with state := if x.rootDone then .draining else .running })
    else notEnabled
  | none => notEnabled

/-! ### What a region may do next -/

/-- The events that a region's state may enable, for the step to choose from. -/
def regionEvents (r : Nat) (g : Region) : List Event :=
  [.phaseEnd r, .selectorWake r, .contextSwitch r, .stallWatchdog r] ++
  (natRange 0 4).flatMap fun k =>
    let c := g.ctx k
    [.pendingSectionFetch r k, .stagedFetchComplete r k, .routerForward r k 512] ++
    (mkeys c.links).map (fun key => .routerForward r k key) ++ (mkeys c.circs).map (fun key => .routerForward r k (8192 + key)) ++
    c.positions.flatMap fun pos => [.routerForward r k (1024 + pos), .elementClockGate r k pos, .elementWake r k pos]

/-- The elements of a region. -/
def regionActors (r : Nat) (g : Region) : List Actor :=
  (natRange 0 4).flatMap fun k => (g.ctx k).positions.map fun pos => .elem r k pos

/-- The gating events of a tile. -/
def tileEvents (t : Nat) (x : Tile) : List Event :=
  x.askGate.map (fun l => .lanePowerGate t l) ++ (mkeys x.gated).flatMap fun l => [.lanePowerUp t l, .laneWakeFailure t l]

end Sys2Proof.Machine
end

