-- ==== Sys2Proof/Machine/Landing.lean ====
section
/-!
DEFINITION. What is in flight and arrives: memory operations, results, channel words, notices, walks and
packets (R40, R55, R79, R110, R152, R165, R263, R297, R355, R358, R413; R89; R188, R189, R192).
-/

namespace Sys2Proof.Machine

/-! ### Memory operations (R165, R270, R271, R292, R327) -/

/-- Whether a partition's fabric is on its clusters (R187, R193). -/
def onFabric (s : State) (p : Nat) : Bool := ((s.part? p).map (·.resident)).getD false

/-- An access of an AG: the state, and the bytes a read gives. -/
def agMemory (s : State) (ptn place addr : Nat) (write : Bool) (bytes : List Byte) (len hint : Nat) : State × List Byte :=
  let pl := placeOf place addr
  if write then (touch (s.writePlace pl bytes) ptn addr (hint / 16) (hint % 16) true, [])
  else (touch s ptn addr (hint / 16) (hint % 16) false, s.readPlace pl len)

/-- Whether an operation's response returns to a fenced tile, where it is discarded (R379); responses that reach no
tile, those of command entries, and the words of channels, which the control network drops (R55), are not meant. -/
def offTile (s : State) (o : Op) : Bool :=
  match o.dest with
  | .command .. | .chan _ => false
  | _ => match o.src.tileOf s with
    | some t => tileFenced s t
    | none => false

/-- What a memory operation does when it is performed: none for one that waits, or that is no memory
operation. -/
def performMemory (s : State) (o : Op) : Option State :=
  match o.act with
  | .store space a bs h =>
    let t := touch (s.writePlace (placeOf space a) bs) o.ptn a (h / 16) (h % 16) true
    some (match o.dest with | .command .. => toLanding t o.id [] 0 false | _ => dropOp t o.id)
  | .clean a inv _ => some (dropOp (cleanLine s a inv) o.id)
  | .atomic code op space a w b c =>
    let pl := placeOf space a
    let (bs, old) := atomicDo code op w (s.readPlace pl w) b c
    some (toLanding (touch (s.writePlace pl bs) o.ptn a 0 0 true) o.id [old] 0 false)
  | .agAccess space a write bs len h acq =>
    match o.src with
    | .elem r k pos =>
      if !onFabric s o.ptn then none
      else
        let (t, got) := agMemory s o.ptn space a write bs len h
        some (dropOp (if offTile s o then t else agPerformed t r k pos o.id acq (if write then [] else markedNote s space a bs) got) o.id)
    | _ => none
  | .agReply note bs acq =>
    match o.src with
    | .elem r k pos =>
      if onFabric s o.ptn then some (dropOp (if offTile s o then s else agPerformed s r k pos o.id acq note bs) o.id) else none
    | _ => none
  | .nearBank code u b _ => nearDeliver s o code u b
  | .nearLoad u ps bad => some (nearRead s o u ps bad)
  | .attest ns rs =>
    let (t, w) := attest s (((s.agentTile o.src).map (· / 4096)).getD 0) ns rs
    some (toLanding t o.id [w] 0 false)
  | _ => none

/-- MEMORY_RESPONSE: an operation reaches memory and is performed, and what it gives returns. -/
def execMemoryResponse (id : Nat) (s : State) : Out :=
  match s.op? id with
  | some o =>
    if !performable s o then notEnabled
    else match performMemory (leaveVeil (serve s o) o) o with
      | some t => .next t
      | none => notEnabled
  | none => notEnabled

/-! ### Results (R262, R263, R110) -/

/-- Whether the task that an operation's results belong to still stands. -/
def taskOf? (s : State) (o : Op) : Option (Nat × Task) :=
  match o.src with
  | .task tid => match s.task? tid with
    | some t => if t.launch = o.launch then some (tid, t) else none
    | none => none
  | _ => none

/-- The status and the code of a command's completion by the results of its operation: a marked notice or a
response that is not done counts as faulted (R185). -/
def commandEnd (o : Op) (vals : List Word) (marked : Bool) : Nat :=
  match o.target, vals with
  | .engine _, w :: _ => if field w.toNat 63 56 = 0 then 0 else 2
  | _, _ => if marked then 2 else 0

/-- Results reach their destination: none when they have to wait. -/
def landResults (s : State) (o : Op) (vals : List Word) (cost : Word) (marked : Bool) : Option State :=
  let charged (s : State) : State :=
    match taskOf? s o with
    | some (tid, _) => s.modTask tid fun t => { t with fcost := addCost t.fcost cost }
    | none => s
  match o.dest with
  | .command q seq tag irqc => some (if isStarted s q seq then complete s q seq tag irqc (commandEnd o vals marked) 0 else s)
  | .nowhere => if onFabric s o.ptn then some (charged s) else none
  | .regs tid g =>
    if !onFabric s o.ptn then none
    else match taskOf? s o with
      | some _ => some (charged (s.modTask tid fun t =>
          { t.setRegs g vals with pend := t.pend.filter fun p => p.id != o.id }))
      | none => some s
  | .chan a =>
    if !onFabric s o.ptn then none
    else some (if vals.isEmpty then charged s
      else match o.target, vals with
        | .engine _, [w, done] => sendCtrl (sendCharged s o a o.words marked [w] cost) o.src (.chan a) 0 done o.ptn o.words
        | _, _ => sendCharged s o a o.words marked vals cost)
  | .stream tid =>
    if !onFabric s o.ptn then none
    else match taskOf? s o with
      | some _ => some (charged (s.modTask tid fun t =>
          { t with resp := t.resp.map fun (x : RespSlot) => if x.id = o.id then { x with word := vals.head? } else x }))
      | none => some s
  | .entry _ _ => if onFabric s o.ptn then some (charged s) else none
  | .elem r k pos => if onFabric s o.ptn then some (streamResult s r k pos vals cost) else none

/-- Whether a near-bank unit still runs for an operation (R292). -/
def unitRuns (s : State) (id : Nat) : Bool := s.nb.any fun x => match x.2.running with | some r => r.id == id | none => false

/-- Whether an operation is an engine request whose response goes to a channel. -/
def Op.answersTo (o : Op) (a : Nat) : Bool :=
  decide (o.dest = .chan a) && o.k == 1 && (match o.target with | .engine _ => true | .region _ => true | _ => false)

/-- Whether the results of an operation may arrive now: a task's register writes land in the order in which their
operations have completed (R263), and responses enter a response stream, or a channel, in the order of their requests
(R170, R280). -/
def landsNext (s : State) (o : Op) : Bool :=
  match o.dest with
  | .regs tid _ =>
    (s.ops.takeWhile fun x => x.id != o.id).all fun x =>
      !x.performed || stale s x || unitRuns s x.id || (match x.dest with | .regs u _ => u != tid | _ => true)
  | .stream tid =>
    (match s.task? tid with
     | some t => (t.resp.takeWhile fun x => x.id != o.id).all fun x => x.word.isSome
     | none => true)
  | .chan a => !o.answersTo a || s.ops.all fun x => o.id ≤ x.id || x.src != o.src || stale s x || !x.answersTo a
  | _ => true

/-- COMMIT_RESULT_LANDING: the results of an operation arrive; a packet of an old epoch is dropped, and a response to a
fenced tile is discarded (R379). -/
def execCommitResultLanding (id : Nat) (s : State) : Out :=
  match s.op? id with
  | some o =>
    if stale s o then .next (dropOp s id)
    else match o.act with
      | .land vals cost marked =>
        if scanning s id || unitRuns s id || !landsNext s o then notEnabled
        else if offTile s o then .next (dropOp s id)
        else match landResults s o vals cost marked with
          | some t => .next { t with ops := t.ops.filter fun x => x.id != id }
          | none => notEnabled
      | _ => notEnabled
  | none => notEnabled

/-! ### Control words (R40, R55, R152, R251, R432) -/

/-- The task bound to a channel. -/
def boundTask (s : State) (a : Nat) : Option Nat := (s.chan a).slot.map fun sl => sl * 1024 + seOf a

/-- A word in a channel wakes the task bound to it: a WAIT on that channel is over, and a sleeping core wakes
(R251, R293; log entry 22). -/
def wakeByWord (s : State) (a : Nat) : State :=
  match boundTask s a with
  | none => s
  | some tid => s.modTask tid fun t =>
    let t := { t with asleep := false }
    match t.waitOn with
    | .mask w => if bitAt w.toNat (a / 1024) then { t with waitOn := .nothing }.settle else t
    | .nothing => t

/-- Flags are ORed into the fsr of the task bound to a channel. -/
def flagTask (s : State) (a f : Nat) : State :=
  match boundTask s a with
  | some tid => s.modTask tid fun t =>
    { t with fsr := fsrOr t.fsr f, fsrIn := (s.time, Nat.lor (if t.fsrIn.1 = s.time then t.fsrIn.2 else 0) f) }
  | none => s

/-- A completion word in its channel ORs its context's flag word into the fsr of the task bound to it and clears the flag
word; one whose context has handed its flag word over brings that along (R152). -/
def placeFlags (s : State) (a : Nat) (w : CtrlWord) : State :=
  match w.src, w.ckind with
  | .region r, 0 =>
    (match w.charge, s.region? r with
     | some (_, f), _ => flagTask s a f.toNat
     | none, some g =>
       let k := w.payload.toNat % 4
       flagTask (s.setRegion r (g.modCtx k fun c => { c with flags := 0 })) a (g.ctx k).flags
     | none, none => s)
  | _, _ => s

/-- The last word of an operation's results is in its channel: its cost word joins the `fcost` of its task (R346). -/
def chargeWord (s : State) (w : CtrlWord) : State :=
  match w.src, w.charge with
  | .task tid, some (l, c) => s.modTask tid fun t => if t.launch = l then { t with fcost := addCost t.fcost c } else t
  | _, _ => s

/-- Number of the counter of a die's words of reserved CKIND among the error counters (R432). -/
def errCkind (die : Nat) : Nat := 32 + die

/-- One more in a 32-bit saturating counter (R403). -/
def satCount (c : Nat) : Nat := Nat.min (c + 1) (2 ^ 32 - 1)

/-- The die at which a control word arrives. -/
def CtrlDst.die : CtrlDst → Nat
  | .chan a => clOf a / 64
  | .region r => clOf r / 64
  | .tile t => t / 4096
  | .hops ts => ts.headD 0 / 4096
  | .core c => c / 4

/-- CHANNEL_WORD_ARRIVAL: a word enters its channel when there is room; a word of reserved CKIND is dropped
and counted, and a word to a channel on a fenced tile is dropped. -/
def execChannelWordArrival (id : Nat) (s : State) : Out :=
  match s.word? id with
  | some w =>
    if !wordArrives s w then notEnabled
    else if 8 ≤ w.ckind then .next { s.dropWord id with errs := mmod s.errs (errCkind w.dst.die) 0 satCount }
    else match w.dst with
      | .chan a =>
        let c := s.chan a
        if tileFenced s (seTile (seOf a)) then .next (s.dropWord id)
        else if (w.ckind = 0 ∨ w.ckind = 1 ∨ w.ckind = 7) ∧ onFabric s w.ptn ∧ c.q.length < 8 then
          let s := (s.dropWord id).setChan a { c with q := c.q ++ [(w.payload, decide (w.ckind = 7))] }
          .next (wakeByWord (placeFlags (chargeWord s w) a w) a)
        else notEnabled
      | _ => notEnabled
  | none => notEnabled

/-! ### Faults (R355, R358, R369) -/

/-- MAILBOX_RECORD_WRITE: a record that has waited enters its mailbox. -/
def execMailboxRecordWrite (ptn die : Nat) (s : State) : Out :=
  match s.part? ptn with
  | some p =>
    let box := mgetD p.mbox die []
    match mgetD p.waitrec die [] with
    | r :: rs =>
      if box.length < 64 then
        .next (tellRecord (s.modPart ptn fun p => { p with mbox := mset p.mbox die (box ++ [r]), waitrec := mset p.waitrec die rs }) ptn die r)
      else notEnabled
    | [] => notEnabled
  | none => notEnabled

/-- What the command processor does for the notice of a record: nothing when the record has left its
mailbox. -/
def noticeRecord (s : State) (ptn id : Nat) : State :=
  match (s.part? ptn).bind fun p => (p.mbox.flatMap (·.2)).find? fun r => r.id == id with
  | some r => abortLaunch (raiseVector s ptn 2) r.launch 2 (0x00010000 + r.fcode)
  | none => s

/-- What it does for the notice of a stalled region. -/
def noticeStall (s : State) (ptn r code : Nat) : State :=
  let s' := raiseVector s ptn 2
  match s.region? r with
  | some g => abortLaunch s' (ctxLaunch g (g.ctx (code % 4))) 2 code
  | none => s'

/-- FAULT_NOTICE: a fault notice reaches the command processor. -/
def execFaultNotice (id : Nat) (s : State) : Out :=
  match s.word? id with
  | some w =>
    if w.ckind ≠ 6 || !wordArrives s w then notEnabled
    else match w.src with
      | .tile _ => notEnabled
      | .region r => .next (noticeStall (s.dropWord id) w.ptn r w.payload.toNat)
      | _ => .next (noticeRecord (s.dropWord id) w.ptn w.id)
  | none => notEnabled

/-! ### The end of a launch (R26) -/

/-- Whether every section of a launch has come to rest with no arm count left. -/
def sectionsDone (s : State) (l : Nat) : Bool :=
  (launchRegions s l).all fun g =>
    g.2.pends.isEmpty && !g.2.phase &&
    (natRange 0 4).all fun k => let c := g.2.ctx k; decide (c.arm = 0) && c.drained g.2 .phase && (ctxOps s g.1 k).isEmpty

/-- LAUNCH_DRAIN_COMPLETE: the root has halted, the other tasks stand at a block boundary and every section is
done, the accesses of the launch performed (R171, R185). -/
def execLaunchDrainComplete (launch : Nat) (s : State) : Out :=
  match mget s.launches launch with
  | some l =>
    if l.state = .draining ∧ partRuns s l.ptn ∧ (launchTasks s launch).all (fun t => t.2.blk.isNone && t.2.later.isEmpty) ∧ sectionsDone s launch ∧
        ¬ s.ops.any (fun o => o.launch == launch && !o.performed && !stale s o && (!o.act.locs.isEmpty || o.act.isArm)) then
      .next (closeLaunch s launch l.stat l.code)
    else notEnabled
  | none => notEnabled

/-! ### Translations (R89, R297) -/

/-- Whether a TLBI of a scope code, issued by a task, reaches the TLB of a P-tile: those of its die at every scope within
the die, since an access within the scope may look up there (R89; log entry 104). -/
def tlbiReaches (sc tid ptile : Nat) : Bool := decide (6 ≤ sc) || dieOf tid == ptile / 256

/-- Whether it reaches the translation cache of an AG on a grid tile, which lies in its scope (R166, R297). -/
def tlbiReachesAg (sc tid tile : Nat) : Bool :=
  match sc with
  | 1 => false
  | 2 => seTile (seOf tid) == (if tile % 2 = 0 then tile + 1 else tile - 1)
  | 3 => false
  | 4 => clOf tid == tile / 4096 * 64 + tile / 64 % 64 / 8 * 8 + tile % 64 / 8
  | 5 => dieOf tid == tile / 4096
  | _ => true

/-- Whether an entry is of the partition and, unless all are meant, of the page that holds an address. -/
def tlbiHits (ptn : Nat) (all : Bool) (va : Word) (e : TlbEntry) : Bool :=
  e.ptn == ptn && (all || va.toNat % 2 ^ 56 / 2 ^ e.size == e.page * 65536 / 2 ^ e.size)

/-- The TLBs and AG caches once a TLBI has acted. -/
def invalidateTlbs (s : State) (ptn tid sc : Nat) (all : Bool) (va : Word) : State :=
  let drop (hit : Bool) (es : List TlbEntry) : List TlbEntry := if hit then es.filter fun e => !tlbiHits ptn all va e else es
  { s with
    tlbs := s.tlbs.map fun (x : Nat × List TlbEntry) => (x.1, drop (tlbiReaches sc tid x.1) x.2)
    agtlbs := s.agtlbs.map fun (x : Nat × List TlbEntry) =>
      (x.1, drop (tlbiReachesAg sc tid (x.1 / 2)) x.2) }

/-- Whether an access of a partition is under way on a translation it has looked up: an invalidation is not
complete before it has been performed (R89). -/
def accessUnderWay (s : State) (ptn : Nat) : Bool := s.ops.any fun o => o.ptn == ptn && !stale s o && !o.act.locs.isEmpty

/-- What stood behind a TLBI in its block acts, once the task's invalidations are complete (R297): none when one of
the forms cannot act yet. -/
def runLater (s : State) (tid : Nat) : Option State :=
  match s.task? tid with
  | none => some s
  | some t =>
    if !t.invs.isEmpty || t.later.isEmpty then some s
    else
      let s1 := s.setTask tid { t with later := [] }
      if t.later.all fun x => match formOf x.ins with | some f => f.ready s1 tid x.a x.b x.c | none => true then
        some (takeTraps (orderOuts (runForms tid t.later s1) tid s.nextId) tid)
      else none

/-- INVALIDATION_COMPLETE: the invalidation of a TLBI of a task is complete. -/
def execInvalidationComplete (tid : Nat) (s : State) : Out :=
  match s.ops.find? fun o => o.src == .task tid && (match o.act with | .invalidate .. => true | _ => false) with
  | some o =>
    match o.act with
    | .invalidate va all sc =>
      if performable s o && !accessUnderWay s o.ptn && onFabric s o.ptn then
        let s := dropOp (invalidateTlbs s o.ptn tid sc all va) o.id
        match runLater (s.modTask tid fun t => { t with invs := t.invs.filter (· != o.id) }) tid with
        | some t => .next t
        | none => notEnabled
      else notEnabled
    | _ => notEnabled
  | none => notEnabled

/-- Adds an entry to a TLB of n entries; when it is full, the one a free choice names leaves. -/
def addEntry (n pick : Nat) (es : List TlbEntry) (t : TlbEntry) : List TlbEntry :=
  match es.find? fun e => e.ptn == t.ptn && e.page == t.page with
  | some _ => es
  | none => if es.length < n then es ++ [t] else lset es (pick % n) t

/-- The AG that a waiter's number names. -/
def waiterAg (s : State) (code : Nat) : Option AgEnv :=
  let r := code / 4096 / 4
  let k := code / 4096 % 4
  let pos := code % 4096
  match s.region? r, posKind pos with
  | some g, .ag mt n =>
    let who := makerOf s (posTile r g k pos)
    let c := (g.ctx k).seen who pos
    some ⟨r, k, pos, mt, decide (n = 1), g, c, cfgOf (c.word pos), c.bank pos, posTile r g k pos, who⟩
  | _, _ => none

/-- What a walk's end gives one of the AGs that wait for it; one whose walk of its descriptor no longer stands there
waits for nothing. -/
def answerWaiter (ptn page : Nat) (fin : WalkEnd) (s : State) (code : Nat) : State :=
  match waiterAg s code with
  | none => s
  | some e =>
    if e.g.ptn ≠ ptn ∨ !e.a.active ∨ (agAddr e.w e.a).toNat % 2 ^ 56 / 65536 ≠ page then s
    else match fin with
      | .ok t =>
        { s with agtlbs := mset s.agtlbs e.cacheKey (addEntry 8 (Config.pick s.oracle) (mgetD s.agtlbs e.cacheKey []) t), oracle := s.oracle + 1 }
      | .bad pte => e.fault s [] ⟨0x0001, agAddr e.w e.a, pte⟩ 0

/-- PAGE_WALK: a walk completes, and its result goes to the P-tile's TLB and to the AGs that wait for it. -/
def execPageWalk (id : Nat) (s : State) : Out :=
  match s.walks.find? fun w => w.id == id with
  | some w =>
    let s0 := s.nextWalks fun x => x.id != id
    match s.part? w.ptn with
    | none => .next s0
    | some p =>
      if !onFabric s w.ptn then notEnabled
      else
        let fin := walk s w.ptn p (sext 56 (w.page * 65536))
        let s0 := trailTouch s0 w.ptn p (sext 56 (w.page * 65536))
        let s1 := match fin with
          | .ok t => { s0 with tlbs := mset s0.tlbs w.tlb (addEntry 256 (Config.pick s0.oracle) (mgetD s0.tlbs w.tlb []) t), oracle := s0.oracle + 1 }
          | .bad _ => s0
        .next (w.waiters.foldl (answerWaiter w.ptn w.page fin) s1)
  | none => notEnabled

/-! ### Packets (R188, R189) -/

/-- Changes a packet. -/
def modPacket (s : State) (id : Nat) (f : Packet → Packet) : State :=
  { s with ops := s.ops.map fun o => if o.id = id then { o with pkt := f o.pkt } else o }

/-- ARBITRATION_FRAME: an arbitration point starts a new frame of 1,024 cycles. -/
def execArbitrationFrame (point : Nat) (s : State) : Out :=
  match mget s.frames point with
  | some f => if f.start + 1024 ≤ s.time then .next { s with frames := mset s.frames point (s.frame point) } else notEnabled
  | none => notEnabled

/-- The packets that wait in the buffer of a point. -/
def waitingAt (s : State) (point : Nat) : List Op := s.ops.filter fun o => !o.performed && !o.pkt.evicted && o.pkt.point == point

/-- The packet that an urgent one evicts: of the lowest priority among those that may be evicted, the one
that arrived last. A partition that has not received its share is spared. -/
def victimOf (s : State) (point : Nat) : Option Op :=
  let ps := ((waitingAt s point).map (·.ptn)).eraseDups
  let able := (waitingAt s point).filter fun o => decide (o.pkt.prio < 3) && !o.pkt.prot && atShare s point ps o.ptn
  able.foldl (fun best o => match best with
    | none => some o
    | some b => if o.pkt.prio < b.pkt.prio ∨ (o.pkt.prio = b.pkt.prio ∧ b.pkt.arrived < o.pkt.arrived) then some o else some b) none

/-- PACKET_EVICTION: an urgent packet that finds its buffer full evicts another; how many packets a buffer
holds the spec leaves open. -/
def execPacketEviction (point urgent : Nat) (s : State) : Out :=
  match s.op? urgent with
  | some u =>
    if u.performed || u.pkt.evicted || u.pkt.prio ≠ 3 || u.pkt.point ≠ point then notEnabled
    else match victimOf s point with
      | some v => .next (modPacket s v.id fun k => { k with evicted := true, evictions := k.evictions + 1 })
      | none => notEnabled
  | none => notEnabled

/-- EVICTION_NOTICE: the source of an evicted packet has its notice and sends it again from its kept copy, which arrives
after all that wait; after its fourth eviction it is protected. -/
def execEvictionNotice (id : Nat) (s : State) : Out :=
  match s.op? id with
  | some o =>
    if !o.pkt.evicted then notEnabled
    else if stale s o then .next (dropOp s id)
    else .next { modPacket s id fun k => { k with evicted := false, prot := decide (4 ≤ k.evictions), arrived := s.nextId } with nextId := s.nextId + 1 }
  | none => notEnabled

/-- END_TO_END_ACK: a source releases its kept copy. -/
def execEndToEndAck (id : Nat) (s : State) : Out :=
  match s.copies.find? fun c => c.id == id with
  | some c => if c.acked then .next { s with copies := s.copies.filter fun x => x.id != id } else notEnabled
  | none => notEnabled

/-! ### Responses to a partition that is swapped out (R413) -/

/-- The operation as its response stands in the response log: an access of an AG has been made. -/
def loggedOp (s : State) (o : Op) : State × Op :=
  match o.act with
  | .agAccess space a write bs len h acq =>
    let (t, got) := agMemory s o.ptn space a write bs len h
    (t, { o with act := .agReply (if write then [] else markedNote s space a bs) got acq })
  | _ => (s, o)

/-- RESPONSE_LOG_APPEND: a response of a partition that is swapped out goes into its response log. -/
def execResponseLogAppend (id : Nat) (s : State) : Out :=
  match s.op? id with
  | some o =>
    let due := match o.act with
      | .agAccess .. => performable s o
      | .land .. => !stale s o && !scanning s id && (match o.dest with | .command .. => false | _ => true)
      | _ => false
    match mget s.saved o.ptn with
    | some v =>
      if due && !onFabric s o.ptn then
        let (t, o') := loggedOp s o
        .next { ackCopy t id with
          ops := t.ops.filter fun x => x.id != id, saved := mset t.saved o.ptn { v with log := v.log ++ [o'] } }
      else notEnabled
    | none => notEnabled
  | none => notEnabled

end Sys2Proof.Machine
end

