-- ==== Sys2Proof/Machine/Concordance.lean ====
section
/-!
DEFINITION. The Concordance engines (spec/07_concordance.md R131-R141; R398, R399, R425).
-/

namespace Sys2Proof.Machine

/-- A node word (R135). -/
def nodeWord (i gen depth : Nat) : Word := wordOf (i * 2 ^ 40 + gen * 2 ^ 24 + depth)

/-- The 64-byte record of a node (R134). -/
def TreeNode.record (x : TreeNode) : List Word :=
  [x.key, x.blob, x.chunk, wordOf x.stamp, wordOf (x.ref * 2 ^ 32 + x.size), wordOf (x.gen * 2 ^ 48 + x.parent * 2 ^ 24 + x.depth),
   wordOf x.kids, x.link]

/-- The node that a live node word names (R135); the root is live as a parent only. -/
def liveNode (t : Tree) (w : Word) : Option (Nat × TreeNode) :=
  let i := field w.toNat 63 40
  match mget t.nodes i with
  | some x => if x.gen = field w.toNat 39 24 then some (i, x) else none
  | none => none

/-- The child of a node with a key (R133). -/
def childOf (t : Tree) (parent : Nat) (key : Word) : Option (Nat × TreeNode) :=
  t.nodes.find? fun x => x.1 != 0 && x.2.parent == parent && x.2.key == key

/-- Words folded into a hash (R133). -/
def foldHash (h : Word) (ws : List Word) : Word := ws.foldl snph h

/-- A refused operation: its code and a false predicate (R399). -/
def treeRefused (code : Nat) : List Word := [wordOf code, 0]

/-- Counts a mismatch; the count saturates (R398). -/
def Tree.missed (t : Tree) : Tree := { t with mismatch := Nat.min (t.mismatch + 1) (2 ^ 32 - 1) }

/-- Words that an engine reads: none on a fault, an uncorrectable error or a misalignment (R399). -/
def chunkWords (e : EngEnv) (s : State) (va : Word) (n : Nat) : Option (List Word) :=
  match e.words s tData va n with
  | .ok ws => some ws
  | .error _ => none

/-- How a search ends: the path down to the deepest match, nearest first, and whether its last confirmation
failed; none when a read fails (R136). The stored chunk is read whole before it is compared, so that a read which fails
behind a word that already differs refuses with code 5 and counts no mismatch (DESIGN CHOICE, log entry 130). -/
def findPath (e : EngEnv) (s : State) (t : Tree) (a : Word) (n : Nat) :
    Nat → Nat → Nat → Word → List Nat → Option (List Nat × Bool)
  | 0, _, _, _, path => some (path, false)
  | fuel + 1, node, d, h, path =>
    if n < (d + 1) * t.g then some (path, false)
    else match chunkWords e s (a + wordOf (8 * d * t.g)) t.g with
      | none => none
      | some ws =>
        match childOf t node (foldHash h ws) with
        | none => some (path, false)
        | some (c, x) =>
          match chunkWords e s x.chunk t.g with
          | none => none
          | some vs => if vs = ws then findPath e s t a n fuel c (d + 1) (foldHash h ws) (c :: path) else some (path, true)

/-- The chunks that such a search reads: of the input and of the nodes it confirms. -/
def findReads (e : EngEnv) (s : State) (t : Tree) (a : Word) (n : Nat) : Nat → Nat → Nat → Word → List Word
  | 0, _, _, _ => []
  | fuel + 1, node, d, h =>
    let here := a + wordOf (8 * d * t.g)
    if n < (d + 1) * t.g then []
    else match chunkWords e s here t.g with
      | none => []
      | some ws =>
        match childOf t node (foldHash h ws) with
        | none => [here]
        | some (c, x) =>
          here :: x.chunk :: (if chunkWords e s x.chunk t.g = some ws then findReads e s t a n fuel c (d + 1) (foldHash h ws) else [])

/-- The chunks that an insertion reads: its own, and that of a child with the same key. -/
def insertReads (e : EngEnv) (s : State) (t : Tree) (desc : Word) : List Word :=
  match chunkWords e s desc 4 with
  | none => []
  | some ws =>
    match liveNode t (lget ws 0 0) with
    | none => []
    | some (p, px) =>
      match chunkWords e s (lget ws 1 0) t.g with
      | none => []
      | some cs =>
        match childOf t p (foldHash px.key cs) with
        | some (_, x) => [lget ws 1 0, x.chunk]
        | none => [lget ws 1 0]

/-- SNPF at the engine: the tree and the results (R136). -/
def treeFind (e : EngEnv) (s : State) (t : Tree) (a : Word) (n : Nat) : Tree × List Word :=
  if a.toNat % 8 ≠ 0 then (t, treeRefused 5)
  else match findPath e s t a n (t.nodes.length + 1) 0 0 t.seed [] with
    | none => (t, treeRefused 5)
    | some (path, miss) =>
      let t := if miss then t.missed else t
      let t := { t with nodes := t.nodes.map fun x => if path.contains x.1 then (x.1, { x.2 with stamp := s.deviceTime }) else x }
      let i := path.headD 0
      let gen := ((mget t.nodes i).map (·.gen)).getD 0
      (t, [nodeWord i gen path.length, wbit (!path.isEmpty)])

/-- SNPG at the engine (R135, R137). -/
def treeGet (t : Tree) (w : Word) : Tree × List Word :=
  match liveNode t w with
  | some (i, x) =>
    if i = 0 then (t, [0, 0, 0])
    else ({ t with nodes := mset t.nodes i { x with ref := (x.ref + 1) % 2 ^ 32 } }, [x.blob, wordOf x.size, 1])
  | none => (t, [0, 0, 0])

/-- SNPR at the engine (R138, R399). -/
def treeRelease (t : Tree) (w : Word) : Tree :=
  match liveNode t w with
  | some (i, x) => if i = 0 ∨ x.ref = 0 then t else { t with nodes := mset t.nodes i { x with ref := x.ref - 1 } }
  | none => t

/-- The lowest free slot of a tree. -/
def freeSlot (t : Tree) : Option Nat := (natRange 0 (t.nodes.length + 1)).find? fun i => decide (i < t.n) && !mhas t.nodes i

/-- The node that leaves for an insertion under a parent: of the leaves without references the one with the
smallest STAMP, the lower index first (R140). -/
def victimNode (t : Tree) (parent : Nat) : Option (Nat × TreeNode) :=
  let able := t.nodes.filter fun x => x.1 != 0 && x.1 != parent && x.2.kids == 0 && x.2.ref == 0
  able.foldl (fun best x => match best with
    | none => some x
    | some b => if x.2.stamp < b.2.stamp then some x else some b) none

/-- The tree when a node is evicted: its parent has a child less. -/
def evictNode (t : Tree) (x : TreeNode) : Tree :=
  { t with nodes := madj t.nodes x.parent fun y => { y with kids := y.kids - 1 } }

/-- The generation that a slot's next node has (R134). -/
def nextGen (t : Tree) (i : Nat) : Nat := (((mget t.nodes i).map (·.gen)).getD 0 + 1) % 2 ^ 16

/-- Puts a new node into a slot (R139). -/
def putNode (t : Tree) (time i p : Nat) (px : TreeNode) (key blob chunk : Word) (size : Nat) : Tree × List Word :=
  let gen := nextGen t i
  let d := px.depth + 1
  ({ t with nodes := madj (mset t.nodes i ⟨gen, p, key, d, blob, chunk, size, 1, time, 0, Config.nodeLink i time⟩) p fun y => { y with kids := y.kids + 1 } },
   [nodeWord i gen d, 1])

/-- SNPP at the engine: the tree, the results, and the words for the reclaim channel (R139, R140). -/
def treeInsert (e : EngEnv) (s : State) (t : Tree) (desc : Word) : Tree × List Word × List Word :=
  let no (c : Nat) : Tree × List Word × List Word := (t, treeRefused c, [])
  if desc.toNat % 32 ≠ 0 then no 5
  else match chunkWords e s desc 4 with
  | none => no 5
  | some ws =>
    let chk := lget ws 1 0
    let w3 := (lget ws 3 0).toNat
    if 2 ^ 32 ≤ w3 then no 6
    else match liveNode t (lget ws 0 0) with
    | none => no 3
    | some (p, px) =>
      if chk.toNat % 8 ≠ 0 then no 5
      else match chunkWords e s chk t.g with
      | none => no 5
      | some cs =>
        let key := foldHash px.key cs
        match childOf t p key with
        | some (c, x) =>
          (match chunkWords e s x.chunk t.g with
           | none => no 5
           | some vs =>
             if vs = cs then
               ({ t with nodes := mset t.nodes c { x with ref := (x.ref + 1) % 2 ^ 32 } }, [nodeWord c x.gen (px.depth + 1), 0], [])
             else (t.missed, treeRefused 1, []))
        | none =>
          match freeSlot t with
          | some i =>
            let (t, r) := putNode t s.deviceTime i p px key (lget ws 2 0) chk w3
            (t, r, [])
          | none =>
            match victimNode t p with
            | none => no 2
            | some (i, x) =>
              let (t, r) := putNode (evictNode t x) s.deviceTime i p px key (lget ws 2 0) chk w3
              (t, r, [x.blob, x.chunk])

/-- What an operation on the tree n comes to when the tree is missing or another partition's (R399). -/
def noTree (code : Nat) : List Word :=
  if code = tFind ∨ code = tInsert then treeRefused 4 else if code = tGet then [0, 0, 0] else []

/-- An operation of a Concordance engine, whole in one step (R141); `reads` gives the chunks it reads, which are
loads of their home slices (R84). -/
def treeStep (id code : Nat) (reads : State → EngEnv → Tree → Word → Word → List Word) (f : State → EngEnv → Tree → Word → Word → Tree × List Word × List Word) (s : State) : Out :=
  match s.op? id with
  | some o =>
    if !performable s o then notEnabled
    else match o.target, o.act with
      | .tree n, .tree k _ b c =>
        if k ≠ code || ((code == tFind || code == tInsert) && !walksFree s (engEnv o 0).tlb o.ptn [b]) then notEnabled
        else
          let s := serve s o
          (match mget s.trees n with
           | some t =>
             if t.ptn ≠ o.ptn then .next (toLanding s id (noTree code) 0 false)
             else
               let (t', vals, words) := f s (engEnv o 0) t b c
               let s := (reads s (engEnv o 0) t b c).foldl (fun s va => (engEnv o 0).seenAll va 8 t.g s) s
              let s := { s with trees := mset s.trees n t' }
               let s := match t.reclaim with | some a => sendWords s (.tree n) a t.ptn [] false words | none => s
               .next (toLanding s id vals 0 false)
           | none => .next (toLanding s id (noTree code) 0 false))
      | _, _ => notEnabled
  | none => notEnabled

/-- CONCORDANCE_FIND. -/
def execConcordanceFind (id : Nat) (s : State) : Out :=
  treeStep id tFind (fun s e t b c => if b.toNat % 8 ≠ 0 then [] else findReads e s t b c.toNat (t.nodes.length + 1) 0 0 t.seed) (fun s e t b c => let (t, v) := treeFind e s t b c.toNat; (t, v, [])) s
/-- CONCORDANCE_GET. -/
def execConcordanceGet (id : Nat) (s : State) : Out :=
  treeStep id tGet (fun _ _ _ _ _ => []) (fun _ _ t b _ => let (t, v) := treeGet t b; (t, v, [])) s
/-- CONCORDANCE_RELEASE. -/
def execConcordanceRelease (id : Nat) (s : State) : Out :=
  treeStep id tRelease (fun _ _ _ _ _ => []) (fun _ _ t b _ => (treeRelease t b, [], [])) s
/-- CONCORDANCE_INSERT. -/
def execConcordanceInsert (id : Nat) (s : State) : Out :=
  treeStep id tInsert (fun s e t b _ => insertReads e s t b) (fun s e t b _ => treeInsert e s t b) s

end Sys2Proof.Machine
end

