-- ==== Sys2Proof/Machine/Shelver.lean ====
section
/-!
DEFINITION. The shelvers (spec/05_fibres.md R96-R118; R392-R395, R404, R432): segments and pools, the
operations, and scans.
-/

namespace Sys2Proof.Machine

/-- A shelver. -/
def State.shelver (s : State) (n : Nat) : Shelver := mgetD s.shelvers n ⟨[], [], [], [], []⟩
/-- Writes a shelver. -/
def State.setShelver (s : State) (n : Nat) (x : Shelver) : State := { s with shelvers := mset s.shelvers n x }
/-- Changes a shelver. -/
def State.modShelver (s : State) (n : Nat) (f : Shelver → Shelver) : State := s.setShelver n (f (s.shelver n))

/-! ### Segments (R97, R99, R100) -/

/-- A segment: its pairs as coordinate and value. -/
structure Seg where
  ver   : Nat
  tail  : Bool
  vfmt  : Nat
  next  : Nat
  pairs : List (Nat × Nat)
  deriving DecidableEq, Repr

/-- The granted page that holds a VA. -/
def grantOf (p : Partition) (va : Nat) : Option Grant :=
  p.pages.find? fun g => decide (g.va ≤ va) && decide (va < g.va + 2 ^ g.log)

/-- The physical address of a segment, by the records of the granted pages (R97). -/
def segPa (p : Partition) (va : Nat) : Option Nat :=
  if va % 64 = 0 then (grantOf p va).map fun g => g.pa + (va - g.va) else none

/-- A pair of a pair word (R99). -/
def pairOf (w : Word) : Nat × Nat := (w.toNat % 2 ^ 32, w.toNat / 2 ^ 32)

/-- The segment at a physical address: none when it is damaged (R404, R432). -/
def readSeg (s : State) (pa : Nat) : Option Seg :=
  let w (i : Nat) : Nat := s.memWord (pa + 8 * i)
  if s.hbmMarked pa 64 || decide (6 < field (w 0) 7 0) || field (w 0) 31 17 != 0 || field (w 0) 15 12 != 0 then none
  else some ⟨field (w 0) 63 32, bitAt (w 0) 16, field (w 0) 15 8, w 1, (natRange 0 (field (w 0) 7 0)).map fun i => pairOf (wordOf (w (2 + i)))⟩

/-- The eight words of a segment; unused pair slots hold zero. -/
def Seg.words (g : Seg) : List Nat :=
  let ps := g.pairs.map fun (x : Nat × Nat) => x.1 + x.2 * 2 ^ 32
  [g.ver % 2 ^ 32 * 2 ^ 32 + bnat g.tail * 65536 + g.vfmt * 256 + g.pairs.length, g.next] ++ ps ++ lrep (6 - ps.length) 0

/-- Marks the scans whose segment has been written or freed (R113). -/
def Shelver.touched (x : Shelver) (ptn va : Nat) : Shelver :=
  { x with scans := x.scans.map fun e => if e.ptn = ptn ∧ e.seg = some va then { e with dst := true } else e }

/-- Writes a segment (R99, R113). -/
def writeSeg (s : State) (n ptn va : Nat) (g : Seg) : State :=
  match (s.part? ptn).bind fun p => segPa p va with
  | none => s
  | some pa => (s.putMem pa (g.words.flatMap (bytesOfNat 8))).modShelver n fun x => x.touched ptn va

/-- The free segments of a partition in a shelver's pool, lowest VA first (R98). -/
def Shelver.pool (x : Shelver) (ptn : Nat) : List Nat := mgetD x.free ptn []

/-- Puts a VA in its place in a rising list. -/
def insertVa (v : Nat) : List Nat → List Nat
  | [] => [v]
  | u :: us => if v < u then v :: u :: us else if v = u then u :: us else u :: insertVa v us

/-- Frees a segment into its pool (R98, R118). -/
def freeSeg (s : State) (n ptn va : Nat) : State :=
  s.modShelver n fun x =>
    ({ x with free := mset x.free ptn (insertVa va (x.pool ptn)), heads := x.heads.filter (· != (ptn, va)) } : Shelver).touched ptn va

/-- The segments read from one on, until the tail or one whose first coordinate lies above `top`; whether all
were sound; and how many were read (R108, R117). -/
def walkSegs (s : State) (p : Partition) (top : Option Nat) : Nat → Nat → List (Nat × Seg) × Bool × Nat
  | 0, _ => ([], false, 0)
  | fuel + 1, va =>
    match segPa p va with
    | none => ([], false, 0)
    | some pa =>
      match readSeg s pa with
      | none => ([], false, 1)
      | some g =>
        let past := match top, g.pairs with
          | some m, (x, _) :: _ => decide (m < x)
          | _, _ => false
        if g.tail || past then ([(va, g)], true, 1)
        else
          let (l, ok, r) := walkSegs s p top fuel g.next
          ((va, g) :: l, ok, r + 1)

/-- How many segments the granted pages hold. -/
def segCount (p : Partition) : Nat := (p.pages.map fun g => 2 ^ (g.log - 6)).foldr (· + ·) 1

/-! ### Costs and results (R111, R392) -/

/-- Reads, writes, splits and frees of an operation. -/
structure Cost where
  r : Nat
  w : Nat
  sp : Nat
  fr : Nat
  deriving DecidableEq, Repr

/-- The cost word; each field holds at its maximum. -/
def Cost.word (c : Cost) : Word := costWord c.r c.w c.sp c.fr

/-- What an operation comes to: the state it leaves, its results and its cost; or a refusal code and the reads
made before it. -/
inductive FEnd where
  | done (s : State) (vals : List Word) (c : Cost)
  | refused (code reads : Nat)

/-- A request to a shelver. -/
structure FReq where
  n    : Nat
  ptn  : Nat
  va   : Nat
  pa   : Nat
  typ  : Nat
  b    : Word
  c    : Word
  mode : Nat
  stpl : Nat
  batch : List Word
  places : List (Nat × Nat)
  bad  : Bool
  deriving DecidableEq, Repr

/-- The request of an operation in flight, when its code is the one asked for. -/
def reqOf (o : Op) (code : Nat) : Option FReq :=
  match o.target, o.act with
  | .shelver n, .fibre k va pa typ b c mode stpl batch places bad =>
    if k = code then some ⟨n, o.ptn, va.toNat, pa, typ, b, c, mode, stpl, batch, places, bad⟩ else none
  | _, _ => none

/-- An operation that is performed in one step: it changes nothing when it is refused (R103, R392). -/
def fibreStep (id code : Nat) (refusal : Word → List Word) (f : State → Partition → FReq → FEnd) (s : State) : Out :=
  match s.op? id with
  | some o =>
    if !performable s o then notEnabled
    else match reqOf o code, s.part? o.ptn with
      | some q, some p =>
        let t := serve s o
        (match f t p q with
         | .done t vals c => .next (toLanding t id vals c.word false)
         | .refused k r =>
           let t := if k = 9 then t.modShelver q.n fun x => { x with damaged := (q.ptn, q.va) :: x.damaged.filter (· != (q.ptn, q.va)) } else t
           .next (toLanding t id (refusal (refusalWord k)) (Cost.word ⟨r, 0, 0, 0⟩) false))
      | _, _ => notEnabled
  | none => notEnabled

/-- The checks of an operation that names a fibre, in the order of R393: 0x0006, 0x0004, 0x0009. -/
def headRefusal (s : State) (q : FReq) : Option Nat :=
  let x := s.shelver q.n
  if q.bad then some 6
  else if !x.heads.contains (q.ptn, q.va) then some 4
  else if x.damaged.contains (q.ptn, q.va) then some 9
  else none

/-- The chain of a live fibre as far as it must be read, or the refusal. -/
def chain (s : State) (p : Partition) (q : FReq) (top : Option Nat) (k : List (Nat × Seg) → Nat → FEnd) : FEnd :=
  match headRefusal s q with
  | some c => .refused c 0
  | none =>
    match walkSegs s p top (segCount p) q.va with
    | (l, true, r) => k l r
    | (_, false, r) => .refused 9 r

/-- The value format that a chain's head has. -/
def chainFmt (l : List (Nat × Seg)) : Nat := (l.head?.map (·.2.vfmt)).getD 0

/-! ### GRANT and NEW (R96, R98, R101, R393, R394) -/

/-- The segments of a granted page that one shelver gains. -/
def pageSegs (g : Grant) (n : Nat) : List Nat :=
  ((natRange 0 (2 ^ (g.log - 6))).filter fun i => shelverOf (g.pa + 64 * i) == n).map fun i => g.va + 64 * i

/-- Adds the segments of a granted page to the pools of its stack's 64 shelvers. -/
def grantPage (s : State) (ptn : Nat) (g : Grant) : State :=
  let s := s.modPart ptn fun p => { p with pages := p.pages ++ [g] }
  (natRange 0 64).foldl (fun s i =>
    let n := stackOf g.pa * 64 + i
    s.modShelver n fun x => { x with free := mset x.free ptn ((pageSegs g n).foldl (fun l v => insertVa v l) (x.pool ptn)) }) s

/-- Whether a page meets one that has been granted. -/
def alreadyGranted (p : Partition) (g : Grant) : Bool :=
  p.pages.any fun h =>
    (decide (h.va < g.va + 2 ^ g.log) && decide (g.va < h.va + 2 ^ h.log)) ||
    (decide (h.pa < g.pa + 2 ^ g.log) && decide (g.pa < h.pa + 2 ^ h.log))

/-- GRANT. -/
def fibreGrant (s : State) (p : Partition) (q : FReq) : FEnd :=
  let g : Grant := ⟨q.va, q.pa, q.stpl⟩
  if q.typ ≠ 1 || q.va % 2 ^ g.log ≠ 0 || alreadyGranted p g then .refused 5 0
  else .done (grantPage s q.ptn g) [wordOf (2 ^ (g.log - 6))] ⟨0, 0, 0, 0⟩

/-- The value formats of R101. -/
def vfmtKnown (v : Nat) : Bool := v == 2 || v == 6 || v == 7 || v == 8 || v == 15

/-- NEW. -/
def fibreNew (s : State) (p : Partition) (q : FReq) : FEnd :=
  if q.typ ≠ 1 || (grantOf p q.va).isNone then .refused 5 0
  else if !vfmtKnown (q.b.toNat % 256) then .refused 3 0
  else match (s.shelver q.n).pool q.ptn with
    | [] => .refused 1 0
    | h :: rest =>
      let s := s.modShelver q.n fun x =>
        { x with free := mset x.free q.ptn rest, heads := x.heads ++ [(q.ptn, h)], damaged := x.damaged.filter (· != (q.ptn, h)) }
      .done (writeSeg s q.n q.ptn h ⟨1, true, q.b.toNat % 256, 0, []⟩) [wordOf h] ⟨0, 1, 0, 0⟩

/-- SHELVER_GRANT. -/
def execShelverGrant (id : Nat) (s : State) : Out := fibreStep id fGrant (fun w => [w]) fibreGrant s
/-- SHELVER_NEW. -/
def execShelverNew (id : Nat) (s : State) : Out := fibreStep id fNew (fun w => [w]) fibreNew s

/-! ### MRG (R102, R105-R109, R394) -/

/-- Whether R101 permits a mode for a value format. -/
def mergeModeOk (vfmt mode : Nat) : Bool :=
  match vfmt with
  | 2 => decide (mode < 6)
  | 6 | 7 | 8 => decide (mode < 5)
  | 15 => mode == 0 || mode == 1 || mode == 5
  | _ => false

/-- The float format of a VFMT, if it is one. -/
def vfmtFloat : Nat → Option FTy
  | 6 => some .f32 | 7 => some .bf16 | 8 => some .f16 | _ => none

/-- Whether a batch keeps R105. -/
def batchOk (vfmt : Nat) (ps : List (Nat × Nat)) : Bool :=
  let rising := (ps.zip (ps.drop 1)).all fun x => decide (x.1.1 < x.2.1)
  decide (1 ≤ ps.length) && decide (ps.length ≤ 64) && rising && ps.all fun x =>
    x.1 != padCoord && (if vfmt = 7 ∨ vfmt = 8 then decide (x.2 < 65536) else true)

/-- The value of a pair that is present after a batch pair of a mode: RPL 1, ADD 2, MIN 3, MAX 4, ORB 5
(R106, R107). -/
def combine (vfmt mode u v : Nat) : Nat :=
  if mode = 1 then v
  else match vfmtFloat vfmt with
    | some ft =>
      let x := fval ft (wordOf u)
      let y := fval ft (wordOf v)
      (exactOut ft (if mode = 2 then (Val.add false x y).1 else if mode = 3 then Val.min x y else Val.max x y)).toNat
    | none =>
      if mode = 2 then (u + v) % 2 ^ 32
      else if mode = 5 then Nat.lor u v
      else if decide ((sext 32 u).toInt ≤ (sext 32 v).toInt) == decide (mode = 3) then u else v

/-- Whether a value is zero: +0, -0 or integer 0 (R106). -/
def zeroVal (vfmt v : Nat) : Bool :=
  match vfmt with
  | 6 => v % 2 ^ 31 == 0
  | 7 | 8 => v % 2 ^ 15 == 0
  | _ => v == 0

/-- The counts of a merge (R109). -/
structure Merged where
  ins  : Nat
  cmb  : Nat
  kept : Nat
  del  : Nat
  deriving DecidableEq, Repr

/-- One batch pair in the pairs of its segment (R106). A pair that RPL puts in the place of a value counts as combined with
it (DESIGN CHOICE, log entry 129: R109 counts what was `combined with an existing value`). -/
def applyPair (vfmt mode : Nat) (dz : Bool) (m : Merged) (x v : Nat) : List (Nat × Nat) → List (Nat × Nat) × Merged
  | [] => put [] m
  | (y, u) :: ps =>
    if y < x then
      let (qs, m) := applyPair vfmt mode dz m x v ps
      ((y, u) :: qs, m)
    else if y = x then
      if mode = 0 then ((y, u) :: ps, { m with kept := m.kept + 1 })
      else
        let w := combine vfmt mode u v
        if dz && zeroVal vfmt w then (ps, { m with cmb := m.cmb + 1, del := m.del + 1 })
        else ((y, w) :: ps, { m with cmb := m.cmb + 1 })
    else put ((y, u) :: ps) m
where
  /-- Inserts the pair before those that lie above it. -/
  put (rest : List (Nat × Nat)) (m : Merged) : List (Nat × Nat) × Merged :=
    if dz && zeroVal vfmt v then (rest, { m with del := m.del + 1 }) else ((x, v) :: rest, { m with ins := m.ins + 1 })

/-- The batch pairs in the pairs of one segment. -/
def applyPairs (vfmt mode : Nat) (dz : Bool) : List (Nat × Nat) → List (Nat × Nat) → Merged → List (Nat × Nat) × Merged
  | [], ps, m => (ps, m)
  | (x, v) :: bs, ps, m =>
    let (ps, m) := applyPair vfmt mode dz m x v ps
    applyPairs vfmt mode dz bs ps m

/-- The place in the chain of the segment that a coordinate belongs to (R102). -/
def segFor (l : List (Nat × Seg)) (x : Nat) : Nat :=
  ((l.zipIdx.filter fun e => match e.1.2.pairs with | (y, _) :: _ => decide (y ≤ x) | [] => false).getLast?.map (·.2)).getD 0

/-- The pairs each segment is left with, and the counts. -/
def placeBatch (vfmt mode : Nat) (dz : Bool) (l : List (Nat × Seg)) (batch : List (Nat × Nat)) :
    List (List (Nat × Nat)) × Merged :=
  l.zipIdx.foldl (fun acc e =>
    let mine := batch.filter fun b => segFor l b.1 == e.2
    let (ps, m) := applyPairs vfmt mode dz mine e.1.2.pairs acc.2
    (acc.1 ++ [ps], m)) ([], ⟨0, 0, 0, 0⟩)

/-- Deals n > 6 pairs over ⌈n/6⌉ segments, the earlier ones one more (R108). -/
def dealPairs : Nat → List (Nat × Nat) → List (List (Nat × Nat))
  | 0, _ => []
  | k + 1, ps =>
    let n := (ps.length + k) / (k + 1)
    ps.take n :: dealPairs k (ps.drop n)

/-- How many segments n pairs need, one at least. -/
def partsOf (n : Nat) : Nat := Nat.max 1 ((n + 5) / 6)

/-- The chain a merge leaves: addresses, pairs, and the segment as it stood (none for a new one); and the
segments it frees. The lowest free addresses go to the segments that split first (log entry 105). -/
def newChain (first : Bool) : List (Nat × Seg) → List (List (Nat × Nat)) → List Nat →
    List (Nat × List (Nat × Nat) × Option Seg) × List Nat
  | (va, g) :: l, ps :: pss, pool =>
    if ps.isEmpty && !first then
      let (out, fr) := newChain false l pss pool
      (out, va :: fr)
    else
      let k := partsOf ps.length
      let parts := dealPairs k ps
      let (out, fr) := newChain false l pss (pool.drop (k - 1))
      (((va, parts.headD [], some g) :: ((pool.take (k - 1)).zip (parts.drop 1)).map fun x => (x.1, x.2, none)) ++ out, fr)
  | _, _, _ => ([], [])

/-- Writes the segments of a new chain whose content has changed, the last of them linked on to what followed
(R108). -/
def writeChain (n ptn vfmt next : Nat) (tail : Bool) :
    List (Nat × List (Nat × Nat) × Option Seg) → State → State × Nat
  | [], s => (s, 0)
  | (va, ps, old) :: rest, s =>
    let (nx, tl) := match rest with
      | [] => (next, tail)
      | x :: _ => (x.1, false)
    let (s, k) := writeChain n ptn vfmt next tail rest s
    match old with
    | none => (writeSeg s n ptn va ⟨1, tl, vfmt, nx, ps⟩, k + 1)
    | some g =>
      if g.tail = tl ∧ g.next = nx ∧ g.pairs = ps then (s, k)
      else (writeSeg s n ptn va ⟨(g.ver + 1) % 2 ^ 32, tl, vfmt, nx, ps⟩, k + 1)

/-- A request whose batch stands in memory, the batch read as part of the merge (R285, R342). -/
def FReq.load (q : FReq) (s : State) : FReq :=
  { q with
    batch := q.batch ++ q.places.map fun p => wordOf (natOfBytes (s.readPlace (placeOf (p.1 % 4) p.2) 8))
    bad := q.bad || q.places.any fun p => s.placeMarked (placeOf (p.1 % 4) p.2) 8 }

/-- MRG. A refusal counts the reads of the chain up to the batch's largest coordinate (log entry 106). -/
def fibreMerge (s : State) (p : Partition) (q : FReq) : FEnd :=
  let q := q.load s
  let batch := q.batch.map pairOf
  let top := batch.foldr (fun x m => Nat.max x.1 m) 0
  let mode := q.mode % 8
  chain s p q (some top) fun l reads =>
    let vfmt := chainFmt l
    if 16 ≤ q.mode ∧ q.mode / 16 ≠ vfmt + 1 then .refused 7 reads
    else if !mergeModeOk vfmt mode then .refused 3 reads
    else if q.c.toNat ≠ batch.length || !batchOk vfmt batch then .refused 2 reads
    else
      let (left, m) := placeBatch vfmt mode (bitAt q.mode 3) l batch
      let need := (left.map fun ps => partsOf ps.length - 1).foldr (· + ·) 0
      let pool := (s.shelver q.n).pool q.ptn
      if pool.length < need then .refused 1 reads
      else
        let (out, fr) := newChain true l left pool
        let last := (l.getLast?.map (·.2)).getD ⟨0, true, 0, 0, []⟩
        let s := s.modShelver q.n fun x => { x with free := mset x.free q.ptn (pool.drop need) }
        let (s, writes) := writeChain q.n q.ptn vfmt last.next last.tail out s
        let s := fr.foldl (fun s va => freeSeg s q.n q.ptn va) s
        .done s [wordOf (m.del * 2 ^ 48 + m.kept * 2 ^ 32 + m.cmb * 2 ^ 16 + m.ins)] ⟨reads, writes, need, fr.length⟩

/-- SHELVER_MERGE. -/
def execShelverMerge (id : Nat) (s : State) : Out := fibreStep id fMrg (fun w => [w]) fibreMerge s

/-! ### PRB, LEN, DEL (R116-R118) -/

/-- PRB. -/
def fibreProbe (s : State) (p : Partition) (q : FReq) : FEnd :=
  let x := q.b.toNat % 2 ^ 32
  chain s p q (some x) fun l reads =>
    match (l.flatMap (·.2.pairs)).find? fun e => e.1 == x with
    | some e => .done s [wordOf e.2, 1] ⟨reads, 0, 0, 0⟩
    | none => .done s [0, 0] ⟨reads, 0, 0, 0⟩

/-- SHELVER_PROBE. -/
def execShelverProbe (id : Nat) (s : State) : Out := fibreStep id fPrb (fun w => [w, 0]) fibreProbe s

/-- LEN. -/
def fibreLength (s : State) (p : Partition) (q : FReq) : FEnd :=
  chain s p q none fun l reads =>
    .done s [wordOf (l.length * 2 ^ 32 + (l.flatMap (·.2.pairs)).length)] ⟨reads, 0, 0, 0⟩

/-- SHELVER_LENGTH. -/
def execShelverLength (id : Nat) (s : State) : Out := fibreStep id fLen (fun w => [w]) fibreLength s

/-- The segments of a chain that DEL can reach; a damaged one ends it. -/
def reachable (s : State) (p : Partition) : Nat → List Nat → Nat → List Nat
  | 0, seen, _ => seen
  | fuel + 1, seen, va =>
    match segPa p va with
    | none => seen
    | some pa =>
      if seen.contains va then seen
      else match readSeg s pa with
        | none => seen ++ [va]
        | some g => if g.tail then seen ++ [va] else reachable s p fuel (seen ++ [va]) g.next

/-- DEL: what a damaged fibre still reaches is freed too (R404). -/
def fibreDelete (s : State) (p : Partition) (q : FReq) : FEnd :=
  if !(s.shelver q.n).heads.contains (q.ptn, q.va) then .refused 4 0
  else
    let vas := reachable s p (segCount p) [] q.va
    let s := vas.foldl (fun s va => freeSeg s q.n q.ptn va) s
    let mark (e : Scan) : Scan := if e.ptn = q.ptn ∧ e.head = q.va then { e with dst := true } else e
    .done (s.modShelver q.n fun x => { x with scans := x.scans.map mark, damaged := x.damaged.filter (· != (q.ptn, q.va)) })
      [] ⟨vas.length, 0, 0, vas.length⟩

/-- SHELVER_DELETE. -/
def execShelverDelete (id : Nat) (s : State) : Out := fibreStep id fDel (fun _ => []) fibreDelete s

/-! ### Scans (R112-R115, R286, R395) -/

/-- A scan as its request asks for it. -/
def FReq.scan (q : FReq) (id : Nat) : Scan :=
  ⟨id, q.ptn, q.va, none, 0, none, 0, 0, false, Nat.max 1 q.stpl, q.mode / 16,
   if q.c = 0 then none else some (q.c.toNat - 65536), [], [], false⟩

/-- A scan takes an entry: its operation counts as applied from now on. -/
def enterScan (s : State) (n : Nat) (e : Scan) : State :=
  (toLanding s e.opid [] 0 false).modShelver n fun x => { x with scans := x.scans ++ [e] }

/-- SCAN_START: a scan takes one of the 32 entries, or waits for one in order of arrival. -/
def execScanStart (id : Nat) (s : State) : Out :=
  match s.op? id with
  | some o =>
    if !performable s o then notEnabled
    else match reqOf o fScn with
      | some q =>
        let x := s.shelver q.n
        if scanning s id then notEnabled
        else if x.scans.length < 32 ∧ x.waiting.isEmpty then .next (enterScan (serve s o) q.n (q.scan id))
        else .next ((serve s o).modShelver q.n fun x => { x with waiting := x.waiting ++ [q.scan id] })
      | none => notEnabled
  | none => notEnabled

/-- Free scan entries of a shelver go to the scans that have waited longest, at most as many as `fuel` says (R115). -/
def fillScans : Nat → Nat → State → State
  | 0, _, s => s
  | fuel + 1, n, s =>
    match (s.shelver n).waiting with
    | w :: ws =>
      if (s.shelver n).scans.length < 32 then fillScans fuel n (enterScan (s.modShelver n fun x => { x with waiting := ws }) n w) else s
    | [] => s

/-- A scan gives its entry back, which the scan that has waited longest takes (R115). -/
def releaseScan (s : State) (n id : Nat) : State :=
  fillScans 32 n (s.modShelver n fun x => { x with scans := x.scans.filter fun e => e.opid != id })

/-- What a step of a scan finds: pairs of a segment with its VA and NEXT, the end, or a refusal; and the reads
made. -/
inductive ScanFind where
  | pairs (ps : List (Nat × Nat)) (seg next : Nat)
  | finish
  | refused (code : Nat)
  deriving DecidableEq, Repr

/-- The walk of a step from a segment on (R113). -/
def scanWalk (s : State) (p : Partition) (want : Nat) (cursor : Option Nat) : Nat → Nat → ScanFind × Nat
  | 0, _ => (.refused 9, 0)
  | fuel + 1, va =>
    if va = 0 then (.finish, 0)
    else match segPa p va with
      | none => (.refused 9, 0)
      | some pa =>
        match readSeg s pa with
        | none => (.refused 9, 1)
        | some g =>
          if want ≠ 0 ∧ want ≠ g.vfmt + 1 then (.refused 7, 1)
          else
            let ps := g.pairs.filter fun e => match cursor with | some c => decide (c < e.1) | none => true
            if ps.isEmpty then
              let (f, r) := scanWalk s p want cursor fuel g.next
              (f, r + 1)
            else (.pairs ps va g.next, 1)

/-- A step of a scan as R113 gives it. -/
def scanFind (s : State) (p : Partition) (n : Nat) (e : Scan) : ScanFind × Nat :=
  let x := s.shelver n
  if !x.heads.contains (e.ptn, e.head) then (.refused 4, 0)
  else if x.damaged.contains (e.ptn, e.head) then (.refused 9, 0)
  else scanWalk s p e.want e.cursor (segCount p + 1) (match e.seg with | some _ => if e.dst then e.head else e.next | none => e.head)

/-- Whether what a scan delivers still has somewhere to go (R360). -/
def scanAlive (s : State) (o : Op) : Bool :=
  match o.dest with
  | .elem r k pos => (match s.region? r with | some g => g.ptn == o.ptn && ((g.ctx k).bank pos).reg 0 == 1 | none => false)
  | .entry r _ => (taskOf? s o).isSome && (s.region? r).isSome
  | _ => (taskOf? s o).isSome

/-- The pairs of a step as tokens (R114). -/
def stepTokens (ps : List (Nat × Nat)) : List Token :=
  (chunksOf 4 ps.length (ps.map fun x => x.1 + x.2 * 2 ^ 32)).map pairToken

/-- Changes a scan entry. -/
def modScan (s : State) (n : Nat) (e : Scan) : State :=
  s.modShelver n fun x => { x with scans := x.scans.map fun y => if y.opid = e.opid then e else y }

/-- The end of a scan: its results and its cost word set out, and its entry is free. -/
def endScan (s : State) (n : Nat) (e : Scan) (o : Op) (vals : List Word) : State :=
  let cost := Cost.word ⟨e.reads, 0, 0, 0⟩
  match e.route with
  | some a => releaseScan (toLanding (sendCharged s o a [] false [cost] cost) e.opid vals 0 false) n e.opid
  | none => releaseScan (toLanding s e.opid vals cost false) n e.opid

/-- Delivers the tokens of a step. -/
def scanDeliver (s : State) (n : Nat) (e : Scan) (o : Op) (ts : List Token) (last : Bool) : State :=
  match o.dest with
  | .elem r k pos =>
    let s := scanTokens s r k pos ts
    if last then endScan s n e o [] else modScan s n e
  | _ => modScan s n { e with emit := ts, ended := last }

/-- One step of a scan that has delivered what came before (R113, R114, R392). -/
def scanApply (s : State) (p : Partition) (n : Nat) (e : Scan) (o : Op) : State :=
  let (f, r) := scanFind s p n e
  let e := { e with reads := e.reads + r, dst := false }
  let cost := Cost.word ⟨e.reads, 0, 0, 0⟩
  let stop := stopTok e.stpl
  let toChan := match o.dest with | .chan _ => true | _ => false
  match f with
  | .pairs ps seg next =>
    let e := { e with seg := some seg, next := next, count := e.count + ps.length, cursor := (ps.getLast?.map (·.1)) }
    (match o.dest with
     | .chan a =>
       let s' := sendWords s o.src a o.ptn [] false (ps.map fun x => wordOf (x.1 + x.2 * 2 ^ 32))
       modScan s' n { e with sent := natRange s.nextId ps.length }
     | _ => scanDeliver s n e o (stepTokens ps) false)
  | .finish =>
    if toChan then endScan s n e o [wordOf (padCoord + e.count * 2 ^ 32), cost]
    else scanDeliver s n e o [stop] true
  | .refused k =>
    let s := if k = 9 then s.modShelver n fun x => { x with damaged := (e.ptn, e.head) :: x.damaged.filter (· != (e.ptn, e.head)) } else s
    if toChan then endScan s n e o [wordOf (2 ^ 64 - 1), refusalWord k, cost]
    else scanDeliver s n e o [unitPoison s.time 5 k (n / 64 / 3), stop] true

/-- The next token of a step goes into its entry queue: none while there is no room. -/
def scanEmit (s : State) (n : Nat) (e : Scan) (o : Op) (t : Token) (ts : List Token) : Option State :=
  let e' := { e with emit := ts }
  let fin (s : State) : State := if e.ended && ts.isEmpty then endScan s n e' o [] else modScan s n e'
  match o.dest with
  | .entry r k =>
    if !scanAlive s o then some (fin s)
    else if entryRoom s r k then some (fin (pushEntry s r k t)) else none
  | _ => some (fin s)

/-- Whether what a scan sent last has been emitted. -/
def scanEmitted (s : State) (e : Scan) (o : Op) : Bool :=
  !scanAlive s o ||
  (match o.dest with
   | .elem r k pos => (match s.region? r with | some g => ((g.ctx k).bank pos).outq.isEmpty | none => true)
   | _ => e.sent.all fun i => (s.word? i).isNone)

/-- SCAN_STEP: a scan's next step, or the next token of its last one; the scan of a reset partition ends. -/
def execScanStep (id : Nat) (s : State) : Out :=
  match s.shelvers.find? fun x => x.2.scans.any fun e => e.opid == id with
  | some (n, x) =>
    match x.scans.find? (fun e => e.opid == id), s.op? id with
    | some e, some o =>
      if stale s o then .next (releaseScan s n id)
      else if !onFabric s o.ptn then notEnabled
      else match e.emit with
        | t :: ts =>
          (match scanEmit s n e o t ts with
           | some t => .next t
           | none => notEnabled)
        | [] =>
          if !scanEmitted s e o then notEnabled
          else (match s.part? o.ptn with
            | some p => .next (scanApply s p n e o)
            | none => notEnabled)
    | _, _ => .next (releaseScan s n id)
  | none => notEnabled

end Sys2Proof.Machine
end

