-- ==== Sys2Proof/Machine/Partitions.lean ====
section
/-!
DEFINITION. Partitions as wholes: their part of the fabric, resets and swaps (spec/10_host_partitions.md R187,
R191-R194; spec/24 R408-R417; R363 on switches that a swap meets, R405-R407 on rings).
-/

namespace Sys2Proof.Machine

/-! ### The fabric state of clusters -/

/-- Cluster of a grid tile. -/
def tileCluster (t : Nat) : Nat := t / 4096 * 64 + t / 64 % 64 / 8 * 8 + t % 64 / 8

/-- The fabric state of the clusters that pass a test. -/
def Fabric.restrict (f : Fabric) (ok : Nat → Bool) : Fabric where
  tasks := f.tasks.filter fun x => ok (clOf x.1)
  ses := f.ses.filter fun x => ok (clOf x.1)
  chans := f.chans.filter fun x => ok (clOf x.1)
  istore := f.istore.filter fun x => ok (clOf (x.1 / 16384))
  imarks := f.imarks.filter fun x => ok (clOf (x / 4096))
  regions := f.regions.filter fun x => ok (clOf x.1)
  sram := f.sram.filter fun x => ok (tileCluster (x.1 / 32768))
  smarks := f.smarks.filter fun x => ok (tileCluster (x / 4096))

/-- Puts the entries of one map into another. -/
def mjoin {α : Type} (m n : Map α) : Map α := n.foldl (fun acc x => mset acc x.1 x.2) m

/-- Puts the fabric state of clusters in its place. -/
def Fabric.join (f g : Fabric) : Fabric where
  tasks := mjoin f.tasks g.tasks
  ses := mjoin f.ses g.ses
  chans := mjoin f.chans g.chans
  istore := mjoin f.istore g.istore
  imarks := f.imarks ++ g.imarks
  regions := mjoin f.regions g.regions
  sram := mjoin f.sram g.sram
  smarks := f.smarks ++ g.smarks

/-- A fabric whose blocks in flight have been discarded (R240). -/
def Fabric.still (f : Fabric) : Fabric :=
  { f with tasks := mmapv (fun (t : Task) => { t with pc := t.blockAddr, blk := none }) f.tasks }

/-- Whether a cell of the scratch aperture lies in a scratch way of a partition (R82). -/
def scratchCell (s : State) (p : Partition) (a : Nat) : Bool :=
  inScratch a &&
  (let x := a - 0x200000000000
   let die := x / 2 ^ 27
   let n := die * 256 + x / 2 ^ 19 % 256
   let w := x % 2 ^ 19 / 32768
   (waysOn p die).contains w && !cacheWay (s.slice n) w)

/-- The dies on which a partition holds clusters. -/
def diesOf (p : Partition) : List Nat := (natRange 0 4).filter fun d => p.clusters.any fun c => c / 64 == d

/-- Writes back and invalidates the cache ways of a partition (R193). -/
def flushPartition (s : State) (p : Partition) : State :=
  ((mkeys s.slices).filter fun n => (diesOf p).contains (n / 256)).foldl
    (fun s n => flushSlice s n ((waysOn p (n / 256)).filter fun w => cacheWay (s.slice n) w)) s

/-! ### Command entries that end with their partition's state -/

/-- The reference to a started entry. -/
def Started.ref (x : Started) (q : QueueRef) : CmdRef :=
  let w0 := (lget x.words 0 0).toNat
  ⟨q, x.seq, lget x.words 7 0, bitAt w0 16⟩

/-- Completes every started entry of a ring with a status. -/
def finishAll (s : State) (q : QueueRef) (stat : Nat) (but : Option CmdRef) : State :=
  match ringOf s q with
  | some r => (r.started.filter fun x => but != some (x.ref q)).foldl (fun s x => finishCmd s (x.ref q) stat 0) s
  | none => s

/-! ### Rings (R181, R405-R407) -/

/-- Who reads and writes for a partition's command processor. -/
def coreEnv (s : State) (p : Nat) : EngEnv :=
  let c := s.coreOf p
  ⟨c / 4 * 256 + seTlb (2048 + c), p, 1, 0, c / 4⟩

/-- Entries of a ring. -/
def Ring.size (r : Ring) : Nat := 2 ^ r.log

/-- The distance from one 32-bit count to another. -/
def count32 (i j : Nat) : Nat := (j + 2 ^ 32 - i % 2 ^ 32) % 2 ^ 32

/-- Changes the ring of a queue. -/
def modRing (s : State) (q : QueueRef) (f : Ring → Ring) : State :=
  match q with
  | .part p r => s.modPart p fun x => { x with rings := madj x.rings r f }
  | .module => { s with modq := f s.modq }

/-- The words of the entry in slot i mod size of a queue's ring: none when they cannot be read. -/
def entryWords (s : State) (q : QueueRef) (r : Ring) (i : Nat) : Option (List Word) :=
  let off := i % r.size * 64
  match q with
  | .part p _ =>
    match (coreEnv s p).words s tData (wordOf (r.va + off)) 8 with
    | .ok ws => some ws
    | .error _ => none
  | .module => some ((natRange 0 8).map fun k => wordOf (Memory.num s.owner (0x10000 + off + 8 * k) 8))

/-- The module writes a ring's read-pointer word. -/
def storePointer (s : State) (q : QueueRef) (off v : Nat) : State :=
  match q, ringOf s q with
  | .part p _, some r =>
    (match (coreEnv s p).write s tData (wordOf (r.ptrs + off)) (bytesOfNat 8 v) with
     | .ok t => t
     | .error _ => s)
  | _, _ => s

/-- Sets the read pointer of a command ring. -/
def setReadPointer (s : State) (q : QueueRef) (v : Nat) : State :=
  storePointer (modRing s q fun r => { r with rp := v % 2 ^ 32 }) q 8 (v % 2 ^ 32)

/-- Where a stopped ring goes on: the later of the entry behind the one that stopped it and the oldest that its
write pointer leaves in the ring (R407). -/
def restartAt (r : Ring) : Nat :=
  let lap := count32 r.rp (r.wp + 2 ^ 32 - r.size % 2 ^ 32)
  if 1 < lap ∧ lap < 2 ^ 31 then (r.rp + lap) % 2 ^ 32 else (r.rp + 1) % 2 ^ 32

/-- A stopped ring runs again; the entries left out never start. -/
def restartRing (s : State) (q : QueueRef) : State :=
  match ringOf s q with
  | some r =>
    let j := restartAt r
    setReadPointer (modRing s q fun r => { r with stopped := false, restart := false, skips := r.skips ++ [(r.rp, j)] }) q j
  | none => s

/-! ### PRESET (R191, R192, R408-R412) -/

/-- Steps 1 and 2: the tasks and sections of a partition stop, and its tokens and words go. -/
def stopPartition (s : State) (p : Nat) (x : Partition) : State :=
  let f := s.fab
  let mine (c : Nat) : Bool := x.resident && x.clusters.contains c
  { s with
    fab := { f with
      tasks := f.tasks.filter (fun t => t.2.ptn != p)
      chans := f.chans.filter (fun c => !mine (clOf c.1))
      ses := f.ses.filter (fun c => !mine (clOf c.1))
      regions := f.regions.filter fun g => g.2.ptn != p }
    ctrl := s.ctrl.filter (fun w => w.ptn != p)
    transfers := s.transfers.filter (fun t => t.ptn != p)
    launches := s.launches.filter (fun l => l.2.ptn != p)
    saved := merase s.saved p }

/-- Step 3 begins: kept copies go and the epoch rises. -/
def raiseEpoch (s : State) (p : Nat) : State :=
  { s.modPart p fun x => { x with epoch := (x.epoch + 1) % 16 } with copies := s.copies.filter fun c => c.ptn != p }

/-- A partition's reset begins (steps 1 to 3 of R191). -/
def beginReset (s : State) (p : Nat) (cmd : Option CmdRef) : State :=
  match s.part? p with
  | some x => raiseEpoch ((stopPartition s p x).modPart p fun y => { y with reset := some ⟨cmd, false⟩ }) p
  | none => s

/-- Step 4: M-tiles and L2 scratch of a resident partition are written with zeros (R410, R411). -/
def scrubPartition (s : State) (x : Partition) : State :=
  if !x.resident then s
  else { s with
    fab := { s.fab with
      sram := s.fab.sram.filter (fun c => !x.clusters.contains (tileCluster (c.1 / 32768)))
      smarks := s.fab.smarks.filter fun c => !x.clusters.contains (tileCluster (c / 4096)) }
    mem := s.mem.filter fun c => !scratchCell s x c.1 }

/-- Step 5: every translation tagged with the partition goes. -/
def dropTranslations (s : State) (p : Nat) : State :=
  let keep (es : List TlbEntry) : List TlbEntry := es.filter fun e => e.ptn != p
  { s.nextWalks fun w => w.ptn != p with tlbs := mmapv keep s.tlbs, agtlbs := mmapv keep s.agtlbs }

/-- A near-bank unit that runs for a partition stops. -/
def NbUnit.stop (x : NbUnit) (p : Nat) : NbUnit :=
  if x.running.map (·.ptn) = some p then { x with running := none, arcs := [], cnts := [] } else x

/-- A partition's pools of segments, fibres, scans and trees are destroyed (R192), and its near-bank runs end; the scan
entries that become free go to the scans of other partitions that wait for them (R115). -/
def dropFibres (s : State) (p : Nat) : State :=
  let shelver (x : Shelver) : Shelver :=
    { x with free := merase x.free p, heads := x.heads.filter (fun h => h.1 != p), damaged := x.damaged.filter (fun h => h.1 != p)
             scans := x.scans.filter (fun e => e.ptn != p), waiting := x.waiting.filter (fun e => e.ptn != p) }
  let t : State :=
    { s.modPart p fun x => { x with pages := [] } with
      shelvers := mmapv shelver s.shelvers, trees := s.trees.filter (fun t => t.2.ptn != p)
      nb := mmapv (fun x => NbUnit.stop x p) s.nb }
  (s.shelvers.map (·.1)).foldl (fun t n => fillScans 32 n t) t

/-- The entry i of a ring is cancelled, when it is one. -/
def cancelEntry (q : QueueRef) (s : State) (i : Nat) : State :=
  match (ringOf s q).bind fun r => entryWords s q r i with
  | some ws =>
    if (lget ws 0 0).toNat / 2 ^ 32 = i then complete s q i (lget ws 7 0) (bitAt (lget ws 0 0).toNat 16) 3 0 else s
  | none => s

/-- The entries of a ring that wait to start are cancelled, and a stopped ring runs again (R191 step 6, R407). -/
def cancelRing (p : Nat) (cmd : Option CmdRef) (s : State) (k : Nat) : State :=
  let q : QueueRef := .part p k
  let s := finishAll s q 3 cmd
  match ringOf s q with
  | none => s
  | some r =>
    let s := if r.stopped then restartRing s q else s
    match ringOf s q with
    | none => s
    | some r =>
      let n := count32 r.rp r.wp
      if r.size < n then s
      else setReadPointer ((natRange r.rp n).foldl (fun s i => cancelEntry q s (i % 2 ^ 32)) s) q r.wp

/-- Step 6: pending vectors and delegations go, and queued command entries are cancelled. -/
def withdrawPending (s : State) (p : Nat) (cmd : Option CmdRef) : State :=
  let s := s.modPart p fun x =>
    { x with vectors := mmapv (fun (v : Vector64) => { v with pending := false }) x.vectors, dlgt := [], mbox := [], waitrec := [], bars := [] }
  match s.part? p with
  | some x => (mkeys x.rings).foldl (fun s k => if k < 21 then cancelRing p cmd s k else s) s
  | none => s

/-- Steps 4 to 6 of a partition's reset. -/
def endReset (s : State) (p : Nat) (x : Partition) (cmd : Option CmdRef) : State :=
  withdrawPending (dropFibres (dropTranslations (scrubPartition s x) p) p) p cmd

/-- Whether completions of a partition wait for room in its completion ring, if it has one. -/
def postsLeft (s : State) (p : Nat) : Bool :=
  match s.part? p with
  | some x => !x.compl.isEmpty && mhas x.rings 21
  | none => false

/-- RESET_EPOCH_DRAINED: no packet of the old epoch remains, and the reset goes on to its end; step 7 comes after the
completions of step 6 have been posted. -/
def execResetEpochDrained (ptn : Nat) (s : State) : Out :=
  match s.part? ptn with
  | some x =>
    match x.reset with
    | some r =>
      if r.posting || s.ops.any (fun o => o.ptn == ptn && stale s o) then notEnabled
      else
        let t := endReset s ptn x r.cmd
        .next (if postsLeft t ptn then t.modPart ptn fun y => { y with reset := some { r with posting := true } } else finishReset t ptn r.cmd)
    | none => notEnabled
  | none => notEnabled

/-! ### PSWAP (R193, R194, R413-R415) -/

/-- Whether every request of a partition's tasks and elements has been answered. -/
def allAnswered (s : State) (p : Nat) : Bool :=
  !(s.ops.any fun o => o.ptn == p && (match o.dest with | .command .. => false | _ => true))

/-- The state of the outgoing member leaves the fabric and that of the incoming one takes its place. -/
def exchange (s : State) (out inn : Nat) (x : Partition) : State :=
  let mine (c : Nat) : Bool := x.clusters.contains c
  let s := flushPartition s x
  let inner := mgetD s.saved inn Saved.empty
  let outer : Saved := ⟨(s.fab.restrict mine).still, s.mem.filter fun c => scratchCell s x c.1, [], []⟩
  let mem := inner.scratch.foldl (fun m (c : Host.Cell) => Memory.write m c.1 c.2) (s.mem.filter fun c => !scratchCell s x c.1)
  { s with
    fab := (s.fab.restrict fun c => !mine c).join inner.fab
    mem := mem
    saved := mset (mset s.saved out outer) inn { inner with fab := Fabric.empty, scratch := [] } }

/-- SWAP_EXCHANGE: the responses have come, or 10 µs have passed, and the two states change places. -/
def execSwapExchange (ptn : Nat) (s : State) : Out :=
  match s.part? ptn with
  | some x =>
    match x.swap with
    | some w =>
      if w.out && !w.exchanged && (allAnswered s ptn || decide (w.since + 12000 ≤ s.time)) then
        let s := exchange s ptn w.other x
        .next (s.modPart ptn fun x => { x with swap := some { w with exchanged := true }, resident := false })
      else notEnabled
    | none => notEnabled
  | none => notEnabled

/-- A member of a swap whose copy was damaged: its launches end as ABORT ends them, `CODE` naming the lowest damaged
cluster, and the clusters that hold its state are reset as PRESET step 4 gives (R415). -/
def endDamaged (bad : List Nat) (s : State) (p : Nat) : State :=
  if bad = [] then s
  else
    let ls := mkeys (s.launches.filter fun l => l.2.ptn == p)
    let s := ls.foldl (fun s l => abortLaunch s l 2 (0x00040000 + bad.foldl min 0xFF)) s
    let blank (v : Saved) : Saved := { v with fab := { v.fab with sram := [], smarks := [] }, scratch := [], bad := [] }
    { (match s.part? p with | some x => scrubPartition s x | none => s) with saved := madj s.saved p blank }

/-- Whether the time of a switch-time word has gone by: the last device time with its low 48 bits lies nearer than
the next one. -/
def timePassed (now low : Nat) : Bool := decide ((now + 2 ^ 48 - low % 2 ^ 48) % 2 ^ 48 < 2 ^ 47)

/-- The switches of a region whose time has passed while its partition was out are cancelled (R368). -/
def cancelPassed (s : State) (r : Nat) : State :=
  let late := s.ctrl.filter fun w => w.ckind == 4 && w.dst == .region r && timePassed s.time (field w.payload.toNat 63 16)
  let s := late.foldl (fun s w => cancelSwitch (s.dropWord w.id) r 4 0xFFFF (field w.payload.toNat 1 0) (field w.payload.toNat 3 2)) s
  match s.region? r with
  | some g =>
    let late (w : Switch) : Bool := !w.passed && decide (w.t ≤ s.time)
    (g.switches.filter late).foldl (fun s w => cancelSwitch s r 4 0xFFFF w.old w.new)
      (s.setRegion r { g with switches := g.switches.filter fun w => !late w })
  | none => s

/-- A logged response reaches the cluster; one whose turn has not come stays in flight. -/
def replayOne (s : State) (id : Nat) : State :=
  match execMemoryResponse id s, execCommitResultLanding id s with
  | .next t, _ => t
  | _, .next t => t
  | _, _ => s

/-- A response log is replayed, in its order (R413). -/
def replay (s : State) (log : List Op) : State :=
  (log.map (·.id)).foldl replayOne { s with ops := log ++ s.ops }

/-- SWAP_COMPLETE: translation turns to the incoming member, whose response log is replayed. -/
def execSwapComplete (ptn : Nat) (s : State) : Out :=
  match s.part? ptn with
  | some x =>
    match x.swap with
    | some w =>
      if w.out && w.exchanged then
        let inn := mgetD s.saved w.other Saved.empty
        let bad := (mgetD s.saved ptn Saved.empty).bad
        let s := { s with saved := merase s.saved w.other }
        let s := s.modPart ptn fun x => { x with swap := none }
        let s := s.modPart w.other fun x => { x with swap := none, resident := true }
        let s := replay s inn.log
        let s := endDamaged inn.bad (endDamaged bad s ptn) w.other
        let s := (mkeys (s.fab.regions.filter fun g => g.2.ptn == w.other)).foldl cancelPassed s
        .next (finishCmd (raiseVector (raiseVector s ptn 4) w.other 4) w.cmd 0 0)
      else notEnabled
    | none => notEnabled
  | none => notEnabled

/-- A swap in progress ends where it stands (R437): the member on the fabric stays there. -/
def endSwap (s : State) (p : Nat) : State :=
  match (s.part? p).bind (·.swap) with
  | some w =>
    if !w.out then s
    else
      let s := s.modPart p fun x => { x with swap := none }
      let s := s.modPart w.other fun x => { x with swap := none, resident := x.resident || w.exchanged }
      finishCmd s w.cmd 3 0
  | none => s

end Sys2Proof.Machine
end

