-- ==== Sys2Proof/Machine/Loader.lean ====
section
/-!
DEFINITION. The loader and LAUNCH (spec/02_execution.md R25; spec/10_host_partitions.md R182-R184; R208, R211, R212,
R334, R340, R348, R363, R418, R436, R440-R442).
-/

namespace Sys2Proof.Machine

/-! ### Where an image goes -/

/-- The task word of a task of an image. -/
def ImgTask.tid (t : ImgTask) : Nat := t.slot * 1024 + t.se

/-- The clusters an image names. -/
def Image.clusters (im : Image) : List Nat := im.tasks.map (fun t => clOf t.se) ++ im.regions.map fun g => g.r % 256

/-- The task of an image that is its root: the one in slot 0 of the lowest SE of the lowest cluster (R25) that has
a task (log entry 101). -/
def Image.root (im : Image) : Option ImgTask :=
  let key (t : ImgTask) : Nat := clOf t.se * 4 + t.se / 256
  let low := (im.tasks.map key).foldl Nat.min (2 ^ 16)
  im.tasks.find? fun t => key t == low && t.slot == 0

/-- A region as an image declares it, with nothing loaded; its selector waits (R33-R38). -/
def ImgRegion.init (g : ImgRegion) (ptn launch : Nat) : Region where
  ptn := ptn
  launch := launch
  col0 := g.col0
  row0 := g.row0
  wid := g.wid
  hei := g.hei
  count := g.count
  nextCount := g.count
  cur := none
  named := 0
  named0 := true
  waiting := true
  phase := false
  pass := [0, 0, 0, 0]
  ph := [0, 0, 0, 0]
  snap0 := 0
  snap1 := 0
  switches := []
  oldCtx := none
  heir := 0
  pends := []
  stall := 0
  frozen := false
  rr := []
  cuts := []
  cutLanes := []
  ctxs := [Ctx.blank, Ctx.blank, Ctx.blank, Ctx.blank]

/-- The sides of a region's tiles whose link is isolated (R379). -/
def cutsAt (s : State) (r : Nat) (spots : List Spot) : List Nat :=
  spots.flatMap fun x => ((natRange 0 4).filter fun d => ((s.neigh (gridTile r x) d).map (·.fenced)).getD false).map fun d =>
    (x.2 * 8 + x.1) * 4 + d

/-- Whether the regions and task slots of an image are free (R184). -/
def imageFits (s : State) (im : Image) : Bool :=
  (im.regions.all fun g =>
    s.fab.regions.all fun h => h.1 % 256 != g.r % 256 ||
      (h.1 != g.r && !((g.init 0 0).spots.any fun x => h.2.spots.contains x))) &&
  im.tasks.all fun t => !mhas s.fab.tasks t.tid

/-! ### Data (R208, R212, R339, R442) -/

/-- The alignment of a data construct: 64 KiB at least in FIBRE and KVPG pages (R209). -/
def ImgData.start (d : ImgData) : Nat := Nat.max (Nat.max 1 d.align) (if d.typ = 0 then 1 else 65536)
/-- The bytes that it takes: whole 64 KiB pages there (R209). -/
def ImgData.size (d : ImgData) : Nat := if d.typ = 0 then d.bytes.length else (d.bytes.length + 65535) / 65536 * 65536

/-- The VAs of data constructs from an address up. -/
def placeData : Nat → List ImgData → List Nat
  | _, [] => []
  | a, d :: ds =>
    let va := (a + d.start - 1) / d.start * d.start
    va :: placeData (va + d.size) ds

/-- Writes bytes of a construct of a page type for the loader: none when a page does not pass, or is of another type
(R208). -/
def loadBytes (e : EngEnv) (typ : Nat) (s : State) (va : Nat) (bs : List Byte) : Option State :=
  match e.writeAll [typ] (wordOf va) bs 0 s with
  | (t, none) => some t
  | _ => none

/-- Writes the data constructs at their VAs. -/
def loadDatas (e : EngEnv) : List (ImgData × Nat) → State → Option State
  | [], s => some s
  | (d, va) :: ds, s =>
    match loadBytes e d.typ s va d.bytes with
    | some t => loadDatas e ds t
    | none => none

/-- Writes the symbols that data constructs hold. -/
def loadSyms (e : EngEnv) (syms : List Nat) : List (ImgData × Nat × Reloc) → State → Option State
  | [], s => some s
  | (d, va, r) :: rs, s =>
    match loadBytes e d.typ s (va + r.off) (bytesOfNat 8 (wordOf (lget syms r.sym 0) + r.add).toNat) with
    | some t => loadSyms e syms rs t
    | none => none

/-! ### Fibres (R211) -/

/-- A request of the loader to the home shelver of a VA: none when its page does not pass. -/
def loaderReq (e : EngEnv) (s : State) (va : Nat) (b : Word) (batch : List Word) : Option FReq :=
  match s.part? e.ptn, access s e.tlb e.ptn 1 (askHead false) (wordOf va) 1 with
  | some p, .ok x =>
    let log := match lookup s e.tlb e.ptn p (wordOf va) with | .ok t => t.size | .bad _ => 16
    if inHbm x.pa then some ⟨shelverOf x.pa, e.ptn, va, x.pa, x.typ, b, wordOf batch.length, 0, log, batch, [], false⟩ else none
  | _, _ => none

/-- What one operation of the loader leaves: its first result. -/
def loaderFibre (e : EngEnv) (f : State → Partition → FReq → FEnd) (s : State) (va : Nat) (b : Word) (batch : List Word) :
    Option (State × Word) :=
  match s.part? e.ptn, loaderReq e s va b batch with
  | some p, some q =>
    match f s p q with
    | .done t vals _ => some (t, vals.headD 0)
    | .refused _ _ => none
  | _, _ => none

/-- Grants the pages of a construct that have not been granted. -/
def grantPages (e : EngEnv) : Nat → Nat → State → Option State
  | 0, _, s => some s
  | n + 1, va, s =>
    match s.part? e.ptn with
    | none => none
    | some p =>
      if (grantOf p va).isSome then grantPages e n (va + 65536) s
      else match loaderFibre e fibreGrant s va 0 [] with
        | some (t, _) => grantPages e n (va + 65536) t
        | none => none

/-- Merges batches of pairs into a fibre, mode INS. -/
def mergeBatches (e : EngEnv) (head : Nat) : List (List Word) → State → Option State
  | [], s => some s
  | b :: bs, s =>
    match loaderFibre e fibreMerge s head 0 b with
    | some (t, _) => mergeBatches e head bs t
    | none => none

/-- Makes the fibres of an image: the state and their heads. -/
def loadFibres (e : EngEnv) (datas : List (ImgData × Nat)) : List ImgFibre → State → Option (State × List Nat)
  | [], s => some (s, [])
  | f :: fs, s =>
    match datas[f.data]? with
    | none => none
    | some (d, va) =>
      (grantPages e (d.size / 65536) va s).bind fun s =>
      (loaderFibre e fibreNew s (va + f.off) (wordOf f.vfmt) []).bind fun (x : State × Word) =>
      (mergeBatches e x.2.toNat (chunksOf 64 f.pairs.length f.pairs) x.1).bind fun s =>
      (loadFibres e datas fs s).map fun (y : State × List Nat) => (y.1, x.2.toNat :: y.2)

/-! ### Regions and tasks -/

/-- Loads one context of an image: the region, and the status word of R363. -/
def loadImgCtx (s : State) (g : Region) (c : ImgCtx) : Region × Word :=
  let rd (va : Word) (n : Nat) : Option (List Word) := fetchWords s c.r g.ptn va n
  if c.folio then loadFolio g c.ctx c.va (readFolio rd (wordOf c.va))
  else loadContext (s.outside c.r g) g c.ctx c.va (readCtxImage rd (wordOf c.va))

/-- Loads the contexts of an image in order: the state, or the status word of the first that is refused. -/
def loadCtxs : List ImgCtx → State → Except Word State
  | [], s => .ok s
  | c :: cs, s =>
    match s.region? c.r with
    | none => .error 0x000C
    | some g =>
      let (g', st) := loadImgCtx s g c
      if st = 0 then loadCtxs cs (s.setRegion c.r { g' with pass := lset g'.pass c.ctx c.pass }) else .error st

/-- The contexts of a region become resident (R334). -/
def Region.resideAll (g : Region) : Region :=
  { g with ctxs := g.ctxs.map fun c => if c.status == .staged then { c with status := .resident, fetching := false } else c }

/-- A task as the loader starts it (R25, R344, R440): the root is RUNNABLE, another waits for its channels. -/
def ImgTask.start (t : ImgTask) (ptn launch : Nat) (root : Bool) (regs : List Word) : Task where
  ptn := ptn
  launch := launch
  root := root
  state := if root then .runnable else .blocked
  pc := t.pc
  regs := regs
  fsr := 0
  fcost := 0
  prio := t.prio
  level := t.level
  ret := []
  lastExit := 0
  routes := []
  pend := []
  waitOn := if root then .nothing else .mask (wordOf ((t.wait.map fun n => 2 ^ n).foldr Nat.lor 0))
  barW := []
  yielded := []
  resp := []
  invs := []
  after := []
  afterW := []
  resumeAt := none
  held := false
  asleep := false
  trap := []
  blk := none

/-- The registers of the root task (R25, R340, R441). -/
def rootRegs (im : Image) (vas : List Nat) (argVa argLen : Word) : List Word :=
  match im.args.bind fun i => (im.datas[i]?).map fun d => (lget vas i 0, d.bytes.length) with
  | some (va, n) =>
    if argVa = 0 then [wordOf va, wordOf n] ++ lrep 62 0 else [argVa, argLen, wordOf va] ++ lrep 61 0
  | none => [argVa, argLen] ++ lrep 62 0

/-- Binds the channels of a task of an image (R40). -/
def bindChans (t : ImgTask) (s : State) : State :=
  (t.chans ++ t.wait).foldl (fun s n => s.setChan (chanAddr t.se n) ⟨some t.slot, []⟩) s

/-- Puts a task of an image into its slot. -/
def placeTask (im : Image) (ptn l : Nat) (regs : List Word) (s : State) (t : ImgTask) : State :=
  let root := im.root == some t
  (bindChans t s).setTask t.tid (t.start ptn l root (if root then regs else lrep 64 0))

/-- What loading comes to. -/
inductive Loading where
  | done (s : State)
  | refused (stat code : Nat)

/-- Loads an image for launch l of a partition. -/
def loadImage (s : State) (e : EngEnv) (im : Image) (l : Nat) (base : Nat) (argVa argLen : Word) : Loading :=
  let vas := placeData (if base = 0 then im.base else base) im.datas
  let datas := im.datas.zip vas
  match (loadDatas e datas s).bind fun s => (loadFibres e datas im.fibres s).bind fun (x : State × List Nat) =>
      loadSyms e (vas ++ x.2) (datas.flatMap fun d => d.1.relocs.map fun r => (d.1, d.2, r)) x.1 with
  | none => .refused 2 0
  | some s =>
    let s := im.regions.foldl (fun s g => s.setRegion g.r { g.init e.ptn l with cuts := cutsAt s g.r (g.init e.ptn l).spots }) s
    match loadCtxs im.ctxs s with
    | .error w => .refused 1 (w.toNat % 2 ^ 32)
    | .ok s =>
      let s := im.regions.foldl (fun s g => s.modRegion g.r Region.resideAll) s
      let s := { s with fab := { s.fab with istore := im.tasks.foldl (fun m t => Memory.writeN m (t.se * 16384 + t.pc) t.blocks.flatten) s.fab.istore } }
      .done (im.tasks.foldl (placeTask im e.ptn l (rootRegs im vas argVa argLen)) s)

/-! ### LAUNCH -/

/-- The code with which the alarm refuses a command (R436). -/
def alarmCode (s : State) : Option Nat :=
  if 3 ≤ s.alarm.level then some 0x00060003 else if s.alarm.level = 2 then some 0x00060002 else none

/-- The grid tiles of an image's regions, and those of the SEs of its tasks (R15, R380). -/
def Image.tiles (im : Image) : List Nat :=
  (im.regions.flatMap fun g => (g.init 0 0).spots.map (gridTile g.r)) ++ im.tasks.map fun t => seTile t.se

/-- Why a LAUNCH ends at once: its status and code; none when it may start (R183, R380, R418, R436). -/
def launchRefused (s : State) (p : Nat) (image : Nat) : Option (Nat × Nat) :=
  match alarmCode s, s.part? p, mget s.images image with
  | some c, _, _ => some (1, c)
  | _, some x, some im =>
    if x.s1root.isNone || x.ranges.isEmpty || !mhas x.inwin 0 || !mhas x.rings 21 then some (1, 0)
    else if im.root.isNone || !im.clusters.all fun c => x.clusters.contains c then some (1, 0)
    else match im.clusters.find? fun c => !s.ready 3 c, im.tiles.find? fun t => s.placement.contains t with
      | some c, _ => some (2, 0x00050000 + c)
      | _, some t => some (2, 0x00030000 + t)
      | _, _ => none
  | _, _, _ => some (1, 0)

/-- Whether a LAUNCH that is not refused can start now (R184, R187). -/
def launchStarts (s : State) (p : Nat) (image : Nat) : Bool :=
  partRuns s p && (match mget s.images image with | some im => imageFits s im | none => true)

/-- LAUNCH: loads an image and starts its root task, or completes refused. -/
def execLaunch (q : QueueRef) (e : CmdEntry) (s : State) : Out :=
  let fin (stat code : Nat) : Out := .next (complete s q e.seq.toNat e.tag (e.irqc == 1) stat code)
  match q with
  | .module => fin 1 0
  | .part p r =>
    match launchRefused s p e.w1.toNat, mget s.images e.w1.toNat with
    | some (stat, code), _ => fin stat code
    | none, none => fin 1 0
    | none, some im =>
      if e.w4.toNat % 65536 ≠ 0 then fin 1 0
      else if !walksFree s (coreEnv s p).tlb p [e.w4] then notEnabled
      else
      let l := s.nextId
      let root := (im.root.map (·.tid)).getD 0
      let x : Launch := ⟨p, r, e.seq.toNat, e.tag, e.irqc == 1, root, e.w1.toNat, 0, 0, .running, 0, false⟩
      match loadImage { s with nextId := l + 1, launches := mset s.launches l x } (coreEnv s p) im l e.w4.toNat e.w2
          (wordOf (e.w3.toNat % 2 ^ 32)) with
      | .done t => .next t
      | .refused stat code => fin stat code

end Sys2Proof.Machine
end

