-- ==== Sys2Proof/Machine/Queues.lean ====
section
/-!
DEFINITION. Command rings, completions, the owner window and the host's accesses (spec/10_host_partitions.md
R177-R186, R190, R197, R198; spec/24 R405-R407; R435).
-/

namespace Sys2Proof.Machine

/-! ### Entries (R180, R182, R186) -/

/-- The queue type of a ring: 0 compute, 1 copy, 2 near-memory, 3 partition control. -/
def ringType (k : Nat) : Nat := if k < 8 then 0 else if k < 16 then 1 else if k < 20 then 2 else 3

/-- The priority level of a ring; the control ring and the module queue have 0. -/
def ringPri (k : Nat) : Nat := if k < 16 then k % 8 else if k < 20 then k - 16 else 0

/-- Whether a queue accepts a command. -/
def accepts (q : QueueRef) (opc : Nat) : Bool :=
  match q with
  | .module => opc == 0 || (decide (0x40 ≤ opc) && decide (opc ≤ 0x44))
  | .part _ k =>
    opc == 0 || (match ringType k with
      | 0 => opc == 1 || opc == 2 || opc == 3
      | 1 => opc == 2 || opc == 3 || opc == 0x10
      | 2 => opc == 2 || opc == 3 || opc == 0x20
      | _ => (decide (0x30 ≤ opc) && decide (opc ≤ 0x33)) || opc == 0x42)

/-- OPC of an entry. -/
def opcOf (ws : List Word) : Nat := field (lget ws 0 0).toNat 31 24

/-- The priority that an entry of a queue must name. -/
def queuePri : QueueRef → Nat
  | .part _ k => ringPri k
  | .module => 0

/-- Whether an entry is one that its queue may start: reserved bits zero, its ring's PRI, a command the queue
accepts (R182, R432). -/
def entryOk (q : QueueRef) (ws : List Word) : Bool :=
  let w0 := (lget ws 0 0).toNat
  field w0 23 18 == 0 && w0 % 256 == 0 && field w0 15 8 == queuePri q && accepts q (opcOf ws) &&
  (decodeCmd q (joinBits 64 (ws.map (·.toNat)))).isSome

/-- Whether a command may have to wait after it has started: WAITQ, RINGRESET, PRESET. -/
def waitsFor (ws : List Word) : Bool := opcOf ws == 0x02 || opcOf ws == 0x30 || opcOf ws == 0x42

/-! ### COMMAND_ENTRY_FETCH (R180, R181, R184, R405, R406) -/

/-- Whether a queue has a control core that serves it. -/
def served (s : State) : QueueRef → Bool
  | .part p k => decide (k < 21) && (match s.part? p with | some x => s.ready 7 x.core && x.reset.isNone | none => false)
  | .module => (natRange 0 16).any fun c => s.ready 7 c

/-- The words in the slot of the entry a ring expects, when it has one. -/
def headWords (s : State) (q : QueueRef) : Option (Ring × List Word) :=
  match ringOf s q with
  | some r => if r.stopped || r.wp == r.rp then none else (entryWords s q r r.rp).map fun ws => (r, ws)
  | none => none

/-- SEQ of an entry. -/
def seqOf (ws : List Word) : Nat := (lget ws 0 0).toNat / 2 ^ 32

/-- Whether an entry can start now: its SER condition, and what a LAUNCH needs (R182, R184). -/
def canStart (s : State) (q : QueueRef) (r : Ring) (ws : List Word) : Bool :=
  (!bitAt (lget ws 0 0).toNat 17 || r.started.isEmpty) &&
  (match q with
   | .part p _ =>
     !(entryOk q ws && opcOf ws == 1) || (launchRefused s p (lget ws 1 0).toNat).isSome || launchStarts s p (lget ws 1 0).toNat
   | .module => true)

/-- Whether the head entry of a queue is the expected one and can start. -/
def headStarts (s : State) (q : QueueRef) : Bool :=
  match headWords s q with
  | some (r, ws) => seqOf ws == r.rp && canStart s q r ws
  | none => false

/-- Whether it is a queue's turn: the control ring goes first, and of one queue type the ring of the highest
priority whose head entry can start (R180, R184). -/
def queueTurn (s : State) : QueueRef → Bool
  | .part p k =>
    (k == 20 || !headStarts s (.part p 20)) &&
    (natRange 0 20).all fun j => ringType j != ringType k || ringPri j ≤ ringPri k || !headStarts s (.part p j)
  | .module => true

/-- Raises the owner vector: one message write unless it is masked (R186). -/
def raiseOwner (s : State) : State :=
  if s.ownerVec.mask then s else { s with msgs := s.msgs ++ [(s.ownerVec.addr, s.ownerVec.data)] }

/-! ### COMPLETION_ENTRY_POST (R183, R185, R186) -/

/-- A completion entry with its CSEQ. -/
def withCseq (ws : List Word) (n : Nat) : List Word := lset ws 0 (wordOf ((lget ws 0 0).toNat % 2 ^ 32 + n % 2 ^ 32 * 2 ^ 32))

/-- Writes an entry and the pointer behind it into a partition's completion ring. -/
def postEntry (s : State) (p : Nat) (r : Ring) (ws : List Word) : Option State :=
  let e := coreEnv s p
  match e.writeAll tData (wordOf (r.va + r.wp % r.size * 64)) ((withCseq ws r.wp).flatMap fun w => bytesOfNat 8 w.toNat) 0 s with
  | (t, none) =>
    (match e.write t tData (wordOf r.ptrs) (bytesOfNat 8 ((r.wp + 1) % 2 ^ 32)) with
     | .ok t => some t
     | .error _ => none)
  | _ => none

/-- Whether an entry is an overrun entry: STAT 4 (R406). -/
def isOverrun (ws : List Word) : Bool := field (lget ws 0 0).toNat 23 16 == 4

/-- The completion that has waited longest is posted, when its ring has room: vector 0 where the command asked for it, and
vector 1 behind an overrun entry (R183, R186, R406). A reset that has waited for the last of them ends (R191). -/
def postNext (q : QueueRef) (s : State) : Option State :=
  match q with
  | .part p _ =>
    match s.part? p with
    | some x =>
      (match x.compl, mget x.rings 21 with
       | (ws, irqc) :: rest, some r =>
         if r.size ≤ count32 r.rp r.wp || !walksFree s (coreEnv s p).tlb p [wordOf (r.va + r.wp % r.size * 64)] then none
         else match postEntry s p r ws with
           | none => none
           | some t =>
             let t := t.modPart p fun x =>
               { x with compl := rest, rings := madj x.rings 21 fun r => { r with wp := (r.wp + 1) % 2 ^ 32 } }
             let t := if irqc then raiseVector t p 0 else t
             let t := if isOverrun ws then raiseVector t p 1 else t
             some (match x.reset with
               | some r => if r.posting && rest.isEmpty then finishReset t p r.cmd else t
               | none => t)
       | _, _ => none)
    | none => none
  | .module =>
    match s.modCompl with
    | (ws, irqc) :: rest =>
      if 1024 ≤ count32 s.modCrp s.modCwp then none
      else
        let bs := (withCseq ws s.modCwp).flatMap fun w => bytesOfNat 8 w.toNat
        let t := { s with
          owner := Memory.writeN s.owner (0x20000 + s.modCwp % 1024 * 64) bs
          modCompl := rest, modCwp := (s.modCwp + 1) % 2 ^ 32 }
        some (if irqc || isOverrun ws then raiseOwner t else t)
    | [] => none

/-- Posts n completions of a queue, as far as there is room. -/
def postAll (q : QueueRef) : Nat → State → State
  | 0, s => s
  | n + 1, s =>
    match postNext q s with
    | some t => postAll q n t
    | none => s

/-- COMPLETION_ENTRY_POST: the module posts a completion. -/
def execCompletionEntryPost (q : QueueRef) (s : State) : Out :=
  match postNext q s with
  | some t => .next t
  | none => notEnabled

/-! ### COMMAND_ENTRY_FETCH (R182, R184, R405-R407) -/

/-- A ring stops at an entry with another sequence number: the overrun entry is posted in that cycle behind what waits,
and vector 1 is raised (R405, R406). -/
def stopRing (s : State) (q : QueueRef) (r : Ring) (seq : Nat) : State :=
  let ws := complWords (ringCode q) 4 r.rp seq s.time 0
  let s := modRing s q fun r => { r with stopped := true }
  match q with
  | .part p _ =>
    let s := s.modPart p fun x => { x with compl := x.compl ++ [(ws, false)] }
    postAll q (((s.part? p).map (·.compl.length)).getD 0) s
  | .module =>
    let s := { s with modCompl := s.modCompl ++ [(ws, false)] }
    postAll q s.modCompl.length s

/-- An entry starts: its command acts next, waits, or is refused. -/
def startEntry (s : State) (q : QueueRef) (r : Ring) (ws : List Word) : State :=
  let s := setReadPointer (modRing s q fun r => { r with started := r.started ++ [⟨seqOf ws, ws⟩] }) q (r.rp + 1)
  if !entryOk q ws then complete s q (seqOf ws) (lget ws 7 0) (bitAt (lget ws 0 0).toNat 16) 1 0
  else if waitsFor ws then s
  else { s with agenda := s.agenda ++ [.event (.command q ws)] }

/-- Whether the command processor need not wait for a walk to read the next entry of a ring (R89). -/
def queueWalks (s : State) (q : QueueRef) (r : Ring) : Bool :=
  match q with
  | .part p _ => walksFree s (coreEnv s p).tlb p [wordOf (r.va + r.rp % r.size * 64)]
  | .module => true

/-- COMMAND_ENTRY_FETCH: the command processor examines the next entry of a ring; a stopped module queue whose
restart the owner has asked for runs again. -/
def execCommandEntryFetch (q : QueueRef) (s : State) : Out :=
  match ringOf s q with
  | none => notEnabled
  | some r =>
    if !served s q then notEnabled
    else if r.stopped then (if r.restart ∧ r.started.isEmpty then .next (restartRing s q) else notEnabled)
    else match headWords s q with
      | none => notEnabled
      | some (r, ws) =>
        if !queueWalks s q r then notEnabled
        else if seqOf ws ≠ r.rp then .next (stopRing s q r (seqOf ws))
        else if canStart s q r ws && queueTurn s q then .next (startEntry s q r ws)
        else notEnabled

/-! ### The host's stores and reads (R177-R179, R181, R183, R407) -/

/-- The rings of a partition take up the pointer words that a store of n bytes at a VA has written. -/
def syncPointers (s : State) (p va n : Nat) : State :=
  let meets (a : Nat) : Bool := decide (a < va + n) && decide (va < a + 8)
  let word (a : Nat) : Option Nat := match (coreEnv s p).read s tData (wordOf a) 8 with
    | .ok bs => some (natOfBytes bs % 2 ^ 32)
    | .error _ => none
  let sync (k : Nat) (r : Ring) : Ring :=
    if k < 21 then (if meets r.ptrs then { r with wp := (word r.ptrs).getD r.wp } else r)
    else if meets (r.ptrs + 8) then { r with rp := (word (r.ptrs + 8)).getD r.rp } else r
  s.modPart p fun x => { x with rings := x.rings.map fun (y : Nat × Ring) => (y.1, sync y.1 y.2) }

/-- A store of the host at a VA of a partition; one whose pages do not pass has no effect. -/
def hostStore (s : State) (p va : Nat) (bs : List Byte) : State :=
  match (coreEnv s p).writeAll tData (wordOf va) bs 0 s with
  | (t, none) => syncPointers t p va bs.length
  | _ => s

/-- Whether a host's accesses reach the module, which takes a Novey port that is ready (R18, R418). -/
def hostReaches (s : State) : Bool := (natRange 0 24).any fun p => s.ready 4 p

/-- The host that makes the next access. -/
def State.speaker (s : State) : Nat := s.speakers.headD s.record.owner

/-- The state once the access of a host has been taken up. -/
def State.heard (s : State) : State := { s with speakers := s.speakers.drop 1 }

/-- Whether the next access is the owner's (R178). -/
def byOwner (s : State) : Bool := s.speaker == s.record.owner

/-- A store of a ring's write pointer; on a stopped module queue the value of the read pointer asks for its restart
(R407). -/
def ringStore (q : QueueRef) (v : BitVec 32) (s : State) : State :=
  match q with
  | .part p k =>
    match ringOf s q with
    | some r => if k < 21 then hostStore s p r.ptrs (bytesOfNat 8 v.toNat) else s
    | none => s
  | .module =>
    if s.modq.stopped ∧ v.toNat = s.modq.rp then { s with modq := { s.modq with restart := true } }
    else { s with modq := { s.modq with wp := v.toNat } }

/-- Whether the next access reaches a queue: the module's is the owner's alone (R178). -/
def mayReach (s : State) (q : QueueRef) : Bool := match q with | .module => byOwner s | .part .. => true

/-- RING_WRITE_POINTER_STORE: a host advances a ring's write pointer, or restarts a stopped module queue. -/
def execRingWritePointerStore (q : QueueRef) (v : BitVec 32) (s : State) : Out :=
  if !hostReaches s then notEnabled else .next (if mayReach s q then ringStore q v s.heard else s.heard)

/-- COMPLETION_READ_POINTER_STORE: a host records how many completions it has consumed. -/
def execCompletionReadPointerStore (q : QueueRef) (v : BitVec 32) (s : State) : Out :=
  if !hostReaches s then notEnabled
  else match q with
  | .part p _ =>
    match ringOf s (.part p 21) with
    | some r => .next (hostStore s.heard p (r.ptrs + 8) (bytesOfNat 8 v.toNat))
    | none => .next s.heard
  | .module => .next (if mayReach s q then { s.heard with modCrp := v.toNat } else s.heard)

/-- Kind and instance of a Catalogue entry by its index (R197, R448). -/
def catKind (i : Nat) : Nat × Nat :=
  if i < 12 then (1, i) else if i < 1036 then (2, i - 12) else if i < 1292 then (3, i - 1036)
  else if i < 1316 then (4, i - 1292) else if i = 1316 then (5, 0) else if i = 1317 then (6, 0) else (7, i - 1318)

/-- Word w of the Catalogue (R197). -/
def catWord (s : State) (w : Nat) : Nat :=
  if w = 0 then s.cgen % 2 ^ 32 * 2 ^ 32 + 1334 * 2 ^ 16 + 1
  else if w = 1 then 0xB7C14C4E00050600
  else
    let e := (mget s.cat (w / 2 - 1)).getD ⟨0, 0, 0⟩
    if w % 2 = 1 then e.tchg
    else
      let (k, i) := catKind (w / 2 - 1)
      k * 2 ^ 56 + i * 2 ^ 40 + e.state * 2 ^ 32 + e.detail

/-- Word w of the alarm log; entry 63 holds the count of records lost (R435). -/
def alarmWord (s : State) (w : Nat) : Nat :=
  match s.alarm.log[w / 2]? with
  | some r => (lget r.words (w % 2) 0).toNat + (if w = 126 then Nat.min s.alarm.dropped 255 * 2 ^ 40 else 0)
  | none => 0

/-- A byte of a word. -/
def byteOf (w i : Nat) : Byte := BitVec.ofNat 8 (w / 2 ^ (8 * i))

/-- A byte of the owner window (R178). -/
def ownerByte (s : State) (off : Nat) : Byte :=
  if off < 0x5370 then byteOf (catWord s (off / 8)) (off % 8)
  else if off < 0x5B70 then
    BitVec.ofNat 8 (((natRange 0 8).map fun b => if s.placement.contains ((off - 0x5370) * 8 + b) then 2 ^ b else 0).foldr (· + ·) 0)
  else if off < 0x5F70 then byteOf (alarmWord s ((off - 0x5B70) / 8)) ((off - 0x5B70) % 8)
  else
    let word : Nat := match off / 8 * 8 with
      | 0x8000 => s.modq.wp
      | 0x8008 => s.modq.rp
      | 0x8010 => s.modCwp
      | 0x8018 => s.modCrp
      | 0x8020 => s.ownerVec.addr
      | 0x8028 => s.ownerVec.data + bnat s.ownerVec.mask * 2 ^ 32
      | _ => 0
    if 0x8000 ≤ off ∧ off < 0x8030 then byteOf word (off % 8) else Memory.read s.owner off

/-- Answers a read of the host: its bytes, or the status unmapped. -/
def answerHost (s : State) (bs : Option (List Byte)) : State :=
  { s with answers := s.answers ++ [match bs with | some b => (b, true) | none => ([], false)] }

/-- Offsets of the owner window that hold what the owner writes: the recovery doorbell word, the module control
queue and the recovery area (R178). -/
def ownerArea (off : Nat) : Bool := off == 0x6000 || (decide (0x10000 ≤ off) && decide (off < 0x20000)) || (decide (0x80000 ≤ off) && decide (off < 0x100000))

/-- The owner writes the aligned word at an offset of its window; offsets that hold nothing of the owner's ignore
it. The recovery doorbell rings next: how its two verifications end is free (R438; log entry 87). -/
def ownerWord (off : Nat) (v : Word) (s : State) : State :=
  if off = 0x8000 then ringStore .module (v.setWidth 32) s
  else if off = 0x8018 then { s with modCrp := v.toNat % 2 ^ 32 }
  else if off = 0x8020 then { s with ownerVec := { s.ownerVec with addr := v.toNat } }
  else if off = 0x8028 then { s with ownerVec := { s.ownerVec with data := v.toNat % 2 ^ 32, mask := bitAt v.toNat 32 } }
  else if off = 0x6000 then
    let (w, s) := s.free
    { s with agenda := s.agenda ++ [.event (.recoveryDoorbell v (bitAt w.toNat 0) (bitAt w.toNat 1))] }
  else if ownerArea off then { s with owner := Memory.writeN s.owner off (bytesOfNat 8 v.toNat) }
  else s

/-- The owner writes bytes into its window: each aligned word they meet takes them and keeps its other bytes. -/
def ownerStore (off : Nat) (bs : List Byte) (s : State) : State :=
  (natRange (off / 8) ((off + bs.length + 7) / 8 - off / 8)).foldl (fun t w =>
    ownerWord (8 * w) (wordOf (natOfBytes ((natRange (8 * w) 8).map fun a =>
      if off ≤ a ∧ a < off + bs.length then lget bs (a - off) 0 else ownerByte t a))) t) s

/-- OWNER_WINDOW_WRITE: the owner writes a word of its window; no other host reaches it (R178). -/
def execOwnerWindowWrite (off : Nat) (v : Word) (s : State) : Out :=
  if !hostReaches s then notEnabled
  else .next (if byOwner s ∧ off + 8 ≤ 0x100000 then ownerStore off (bytesOfNat 8 v.toNat) s.heard else s.heard)

/-- The partition and VA that an inbound window maps n bytes at a Novey address to (R177). -/
def windowAt (s : State) (addr n : Nat) : Option (Nat × Nat) :=
  s.parts.findSome? fun (p : Nat × Partition) => p.2.inwin.findSome? fun (w : Nat × Window) =>
    if w.2.base ≤ addr ∧ addr + n ≤ w.2.base + w.2.size then some (p.1, w.2.va + (addr - w.2.base)) else none

/-- HOST_POSTED_WRITE: a posted write of a host; outside every window that the host may reach it has no effect. -/
def execHostPostedWrite (addr : Nat) (bytes : List Byte) (s : State) : Out :=
  if !hostReaches s then notEnabled
  else if addr + bytes.length ≤ 0x100000 then .next (if byOwner s then ownerStore addr bytes s.heard else s.heard)
  else match windowAt s addr bytes.length with
    | some (p, va) => .next (hostStore s.heard p va bytes)
    | none => .next s.heard

/-- HOST_READ: a read of a host in the owner window, for the owner, or in an inbound window. -/
def execHostRead (addr n : Nat) (s : State) : Out :=
  if !hostReaches s then notEnabled
  else if addr + n ≤ 0x100000 then
    .next (answerHost s.heard (if byOwner s then some ((natRange addr n).map (ownerByte s)) else none))
  else match windowAt s addr n with
    | some (p, va) =>
      (match (coreEnv s p).readAll s tData (wordOf va) 1 n with
       | (bs, none) => .next (answerHost s.heard (some bs))
       | _ => .next (answerHost s.heard none))
    | none => .next (answerHost s.heard none)

end Sys2Proof.Machine
end

