-- ==== Sys2Proof/Machine/Commands.lean ====
section
/-!
DEFINITION. The commands (spec/10_host_partitions.md R182, R183, R187; R91, R131, R191, R193, R398, R407, R411,
R414, R436).
-/

namespace Sys2Proof.Machine

/-- The entry that a command's row carries, as a reference for its completion. -/
def cmdRef (e : CmdEntry) (q : QueueRef) : CmdRef := ⟨q, e.seq.toNat, e.tag, e.irqc == 1⟩

/-- A command completes with a status and a code. -/
def cmdEnd (q : QueueRef) (e : CmdEntry) (s : State) (stat code : Nat) : Out :=
  .next (complete s q e.seq.toNat e.tag (e.irqc == 1) stat code)

/-- The partition of a queue. -/
def queuePart : QueueRef → Option Nat
  | .part p _ => some p
  | .module => none

/-- NOP. -/
def execNop (q : QueueRef) (e : CmdEntry) (s : State) : Out := cmdEnd q e s 0 0

/-! ### WAITQ, SIGNAL, COPY, NMRUN (R182) -/

/-- What has become of entry i of a ring: a status once it is known. -/
def entryFate (r : Ring) (i : Nat) : Option Nat :=
  if r.skips.any fun x => count32 x.1 i < count32 x.1 x.2 then some 3
  else
    let d := count32 i r.rp
    if 1 ≤ d ∧ d < 2 ^ 31 ∧ ¬ r.started.any (fun x => x.seq == i) then some 0 else none

/-- WAITQ: completes once an entry of a ring of the partition has completed. -/
def execWaitq (q : QueueRef) (e : CmdEntry) (s : State) : Out :=
  match queuePart q with
  | none => cmdEnd q e s 1 0
  | some p =>
    let k := e.w1.toNat % 256
    match ringOf s (.part p k) with
    | none => cmdEnd q e s 1 0
    | some r =>
      if 20 < k then cmdEnd q e s 1 0
      else match entryFate r (e.w2.toNat % 2 ^ 32) with
        | some st => cmdEnd q e s st 0
        | none => notEnabled

/-- The control core that runs a command, as the source of its operations. -/
def cmdSource (s : State) (p : Nat) : Agent := .core (s.coreOf p)

/-- Issues the operation of a command, whose end completes the entry. -/
def cmdIssue (s : State) (p : Nat) (q : QueueRef) (e : CmdEntry) (target : Agent) (act : Act) : State :=
  issue s (cmdSource s p) p s.nextId 1 target (.command q e.seq.toNat e.tag (e.irqc == 1)) 1 (pendingIds s (cmdSource s p)) act

/-- SIGNAL: stores a value with rel at `host`. -/
def execSignal (q : QueueRef) (e : CmdEntry) (s : State) : Out :=
  match queuePart q with
  | none => cmdEnd q e s 1 0
  | some p =>
    if !walksFree s (coreEnv s p).tlb p [e.w1] then notEnabled
    else
    let s := installTlb s (coreEnv s p).tlb p e.w1
    match access s (coreEnv s p).tlb p 1 askStore e.w1 8 with
    | .error _ => cmdEnd q e s 2 0
    | .ok x =>
      .next (cmdIssue s p q e (cmdSource s p) (.store x.place.space x.place.addr (bytesOfNat 8 e.w2.toNat) (16 * x.typ)))

/-- COPY: copies bytes between two VAs. -/
def execCopy (q : QueueRef) (e : CmdEntry) (s : State) : Out :=
  match queuePart q with
  | none => cmdEnd q e s 1 0
  | some p =>
    if 2 ^ 40 < e.w3.toNat then cmdEnd q e s 1 0
    else .next (cmdIssue s p q e (.engine (65536 + s.coreOf p)) (.engine 0x56 e.w1 e.w2 e.w3 0))

/-- NMRUN: loads graph words into a near-bank unit of the partition and runs them. -/
def execNmrun (q : QueueRef) (e : CmdEntry) (s : State) : Out :=
  match queuePart q with
  | none => cmdEnd q e s 1 0
  | some p =>
    match (s.part? p).bind fun x => x.units[e.w2.toNat % 1024]? with
    | none => cmdEnd q e s 1 0
    | some u =>
      if !walksFree s (coreEnv s p).tlb p [e.w1, e.w1 + 120] then notEnabled
      else
      match (coreEnv s p).words s tData e.w1 16 with
      | .error _ => cmdEnd q e s 2 0
      | .ok ws =>
        let s := issue s (cmdSource s p) p s.nextId 1 (.unit u) .nowhere 0 [] (.nearBank nLoad u e.w3 ws)
        .next (cmdIssue s p q e (.unit u) (.nearBank nGo u e.w3 []))

/-! ### RINGRESET, TCREATE, TDESTROY, WINSET -/

/-- RINGRESET: restarts a stopped ring once every started entry of it has completed. -/
def execRingreset (q : QueueRef) (e : CmdEntry) (s : State) : Out :=
  match queuePart q with
  | none => cmdEnd q e s 1 0
  | some p =>
    let r : QueueRef := .part p (e.w1.toNat % 256)
    match ringOf s r with
    | none => cmdEnd q e s 1 0
    | some x =>
      if !x.stopped || 20 < e.w1.toNat % 256 then cmdEnd q e s 1 0
      else if !x.started.isEmpty then notEnabled
      else cmdEnd q e (restartRing s r) 0 (restartAt x)

/-- The tree that word 1 of TCREATE and TDESTROY names. -/
def treeIx (w1 : Word) : Nat := w1.toNat % 4 * 16 + field w1.toNat 7 4

/-- A tree that holds its root alone (R131, R133). -/
def newTree (p : Nat) (seed : Word) (g n : Nat) (reclaim : Option Nat) (store : Nat) : Tree :=
  ⟨p, seed, g, n, reclaim, 0, [(0, ⟨0, 0, seed, 0, 0, 0, 0, 0, 0, 0, Config.nodeLink 0 0⟩)], store⟩

/-- The address of the node store of a new tree: 64 N bytes of the partition's HBM frames apart from every other store
(R131), where a control core puts it (log entry 113); none when the core's place is taken and no range and no end of
another store leaves room. -/
def State.storeAt (s : State) (p : Partition) (n : Nat) : Option Nat :=
  (Config.treeStore s.oracle :: (p.ranges.map (·.2.pa) ++ s.trees.map fun x => x.2.store + x.2.storeBytes)).find? fun a =>
    a % 64 == 0 && inHbm a && p.ranges.any (fun r => decide (r.2.pa ≤ a) && decide (a + 64 * n ≤ r.2.pa + r.2.len)) &&
      !s.nodeStored a (64 * n)

/-- TCREATE. A partition whose frames hold no 64 N bytes in one piece is refused (log entry 113). -/
def execTcreate (q : QueueRef) (e : CmdEntry) (s : State) : Out :=
  match queuePart q with
  | none => cmdEnd q e s 1 0
  | some p =>
    let lg := e.w3.toNat % 8192
    let n := e.w4.toNat % 2 ^ 25
    let se := e.w5.toNat / 256
    let none' : Bool := bitAt e.w4.toNat 63
    let mine : Bool := match s.part? p with | some x => decide (se < 1024) && x.clusters.contains (se % 256) | none => false
    if decide (12 < lg) || decide (n < 2) || decide (2 ^ 24 < n) || mhas s.trees (treeIx e.w1) || (!none' && !mine) then cmdEnd q e s 1 0
    else
      match (s.part? p).bind fun x => s.storeAt x n with
      | none => cmdEnd q e s 1 0
      | some a =>
        let t := newTree p e.w2 (2 ^ lg) n (if none' then none else some (e.w5.toNat % 64 * 1024 + se)) a
        cmdEnd q e { s with oracle := s.oracle + 1, trees := mset s.trees (treeIx e.w1) t } 0 0

/-- TDESTROY: its completion carries the mismatch count. -/
def execTdestroy (q : QueueRef) (e : CmdEntry) (s : State) : Out :=
  match queuePart q, mget s.trees (treeIx e.w1) with
  | some p, some t =>
    if t.ptn ≠ p then cmdEnd q e s 1 0
    else cmdEnd q e { s with trees := merase s.trees (treeIx e.w1) } 0 t.mismatch
  | _, _ => cmdEnd q e s 1 0

/-- WINSET: sets an outbound host window (R91). -/
def execWinset (q : QueueRef) (e : CmdEntry) (s : State) : Out :=
  match queuePart q with
  | none => cmdEnd q e s 1 0
  | some p =>
    if e.w3.toNat % 65536 ≠ 0 then cmdEnd q e s 1 0
    else cmdEnd q e (s.modPart p fun x => { x with outwin := mset x.outwin (e.w1.toNat % 16) ⟨e.w2.toNat, e.w3.toNat, 0⟩ }) 0 0

/-! ### PCREATE and PDESTROY (R182, R187) -/

/-- The clusters that four mask words name. -/
def maskClusters (e : CmdEntry) : List Nat :=
  (natRange 0 256).filter fun c => bitAt (match c / 64 with | 0 => e.w1 | 1 => e.w2 | 2 => e.w3 | _ => e.w4).toNat (c % 64)

/-- The free L2 ways of a die. -/
def freeWays (s : State) (die : Nat) : List Nat :=
  (natRange 0 16).filter fun w => !(s.parts.any fun x => (waysOn x.2 die).contains w)

/-- The ways a new partition gets on each die it spans: the lowest free ones (log entry 34); none when a die
has too few. -/
def chooseWays (s : State) (clusters : List Nat) (n : Nat) : Option (Map (List Nat)) :=
  (natRange 0 4).foldr (fun d acc =>
    match acc with
    | none => none
    | some m =>
      if clusters.any fun c => c / 64 == d then
        let free := freeWays s d
        if free.length < n then none else some ((d, free.take n) :: m)
      else some m) (some [])

/-- The near-bank units that go with clusters: twelve of its die for each (log entry 35). -/
def unitsFor (clusters : List Nat) : List Nat := clusters.flatMap fun c => natRange (c / 64 * 768 + c % 64 * 12) 12

/-- The lowest-numbered ready control core of a die. -/
def readyCore (s : State) (die : Nat) : Option Nat := (natRange (die * 4) 4).find? fun c => s.ready 7 c

/-- A partition as PCREATE makes it (R187, R192, R273). Its 64 vectors start masked (DESIGN CHOICE, log entry 2). -/
def newPartition (s : State) (clusters : List Nat) (ways : Map (List Nat)) (prio weight : Nat) (partner : Option Nat) :
    Partition where
  clusters := clusters
  ways := ways
  prio := prio
  weight := weight
  partner := partner
  resident := partner.isNone
  core := (readyCore s (clusters.headD 0 / 64)).getD (clusters.headD 0 / 64 * 4)
  s1root := none
  ranges := []
  inwin := []
  outwin := []
  rings := []
  vectors := (natRange 0 64).map fun v => (v, ⟨0, 0, true, false⟩)
  epoch := 0
  ssc0 := 0
  ssc1 := 0
  bars := []
  dlgt := []
  mbox := []
  waitrec := []
  rets := []
  pages := []
  units := unitsFor clusters
  reset := none
  swap := none
  compl := []

/-- The ways that a swap partner owns, when it is one for these clusters and ways (R182, R187). -/
def partnerWays (x : Partition) (clusters : List Nat) (n : Nat) : Option (Map (List Nat)) :=
  if x.partner.isNone ∧ x.clusters = clusters ∧ x.ways.all (fun w => w.2.length == n) then some x.ways else none

/-- The partition a PCREATE makes: none when it is refused. -/
def createPartition (s : State) (e : CmdEntry) : Option (Partition × Option Nat) :=
  let clusters := maskClusters e
  let n := e.w5.toNat % 256
  let prio := field e.w5.toNat 9 8
  let weight := field e.w5.toNat 23 16
  let mate := field e.w6.toNat 11 8
  if mhas s.parts (e.w6.toNat % 16) then none
  else if bitAt e.w6.toNat 4 then
    match s.part? mate with
    | some x => (partnerWays x clusters n).map fun w => (newPartition s clusters w prio weight (some mate), some mate)
    | none => none
  else if s.parts.any fun x => x.2.clusters.any fun c => clusters.contains c then none
  else (chooseWays s clusters n).map fun w => (newPartition s clusters w prio weight none, none)

/-- PCREATE. -/
def execPcreate (q : QueueRef) (e : CmdEntry) (s : State) : Out :=
  match alarmCode s, createPartition s e with
  | some c, _ => cmdEnd q e s 1 c
  | none, none => cmdEnd q e s 1 0
  | none, some (x, mate) =>
    let num := e.w6.toNat % 16
    let s := { s with parts := mset s.parts num x }
    let s := match mate with | some m => s.modPart m fun y => { y with partner := some num } | none => s
    cmdEnd q e s 0 num

/-- A partition is taken out of the module; its swap partner has the clusters to itself (log entry 36). -/
def removePartition (s : State) (p : Nat) (x : Partition) : State :=
  let s := stopPartition s p x
  let s := dropFibres (dropTranslations (scrubPartition (flushPartition s x) x) p) p
  let s := { s with
    parts := merase s.parts p, ops := s.ops.filter (fun o => o.ptn != p), copies := s.copies.filter fun c => c.ptn != p }
  match x.partner with
  | none => s
  | some m =>
    let v := mgetD s.saved m Saved.empty
    let s := s.modPart m fun y => { y with partner := none, resident := true }
    if x.resident then
      replay { s with
        fab := s.fab.join v.fab, saved := merase s.saved m
        mem := v.scratch.foldl (fun mm (c : Host.Cell) => Memory.write mm c.1 c.2) s.mem } v.log
    else s

/-- PDESTROY. -/
def execPdestroy (q : QueueRef) (e : CmdEntry) (s : State) : Out :=
  let p := e.w1.toNat % 16
  match s.part? p with
  | none => cmdEnd q e s 1 0
  | some x => if x.reset.isSome || x.swap.isSome then cmdEnd q e s 1 0 else cmdEnd q e (removePartition s p x) 0 0

/-! ### PRESET and PSWAP (R191, R193, R411, R414) -/

/-- Whether a queue may reset a partition. -/
def mayReset (q : QueueRef) (p : Nat) : Bool := match q with | .part o _ => o == p | .module => true

/-- PRESET: the reset begins, once a swap of the partition or an earlier reset is over. -/
def execPreset (q : QueueRef) (e : CmdEntry) (s : State) : Out :=
  let p := e.w1.toNat % 16
  match s.part? p with
  | none => cmdEnd q e s 1 0
  | some x =>
    if !mayReset q p then cmdEnd q e s 1 0
    else if x.swap.isSome || x.reset.isSome then notEnabled
    else .next (beginReset s p (some (cmdRef e q)))

/-- Whether two partitions can be swapped. -/
def swapOk (x y : Partition) (inn : Nat) : Bool :=
  x.partner == some inn && x.resident && !y.resident && x.clusters == y.clusters && x.reset.isNone && y.reset.isNone &&
  x.swap.isNone && y.swap.isNone

/-- PSWAP: the outgoing partition stops issuing, and its responses are waited for. -/
def execPswap (q : QueueRef) (e : CmdEntry) (s : State) : Out :=
  let out := e.w1.toNat % 16
  let inn := e.w2.toNat % 16
  match s.part? out, s.part? inn with
  | some x, some y =>
    if swapOk x y inn then
      let s := s.modPart out fun x => { x with swap := some ⟨inn, true, s.time, false, cmdRef e q⟩ }
      .next (s.modPart inn fun y => { y with swap := some ⟨out, false, s.time, false, cmdRef e q⟩ })
    else cmdEnd q e s 1 0
  | _, _ => cmdEnd q e s 1 0

/-! ### PSET (R183) -/

/-- Whether a launch of a partition runs. -/
def launchRuns (s : State) (p : Nat) : Bool := s.launches.any fun l => l.2.ptn == p

/-- A PSET of one item: the partition, its number and IX; none when word 1 is not as R183 asks. -/
def psetOf (s : State) (e : CmdEntry) (quiet : Bool) (maxIx : Nat) : Option (Nat × Partition × Nat) :=
  let w := e.w1.toNat
  let p := w % 16
  if field w 7 4 ≠ 0 ∨ field w 63 24 ≠ 0 ∨ maxIx < field w 23 16 then none
  else match s.part? p with
    | none => none
    | some x => if quiet && launchRuns s p then none else some (p, x, field w 23 16)

/-- PSET item 0: the stage-1 root. -/
def execPsetStage1Root (q : QueueRef) (e : CmdEntry) (s : State) : Out :=
  match psetOf s e true 0 with
  | none => cmdEnd q e s 1 0
  | some (p, _, _) =>
    if e.w2.toNat % 65536 ≠ 0 ∨ 2 ^ 48 ≤ e.w2.toNat ∨ e.w3 ≠ 0 ∨ e.w4 ≠ 0 then cmdEnd q e s 1 0
    else cmdEnd q e (dropTranslations (s.modPart p fun x => { x with s1root := some e.w2.toNat }) p) 0 0

/-- Whether two spans meet. -/
def spansMeet (a n b m : Nat) : Bool := decide (a < b + m) && decide (b < a + n)

/-- Whether a stage-2 range may be set for a partition (R183). -/
def rangeOk (s : State) (p : Nat) (r : Range) : Bool :=
  r.ia % 2 ^ 21 == 0 && r.pa % 2 ^ 21 == 0 && r.len % 2 ^ 21 == 0 && decide (r.ia + r.len ≤ 2 ^ 48) &&
  decide (r.pa + r.len ≤ 0x18000000000) &&
  (r.len == 0 ||
    (!spansMeet r.ia r.len 0x200000000000 0x20000000 && !spansMeet r.ia r.len 0x300000000000 0x100000000 &&
     s.parts.all fun x => x.1 == p || x.2.ranges.all fun y => !spansMeet r.pa r.len y.2.pa y.2.len))

/-- PSET item 1: a stage-2 range. -/
def execPsetStage2Range (q : QueueRef) (e : CmdEntry) (s : State) : Out :=
  match psetOf s e true 63 with
  | none => cmdEnd q e s 1 0
  | some (p, _, ix) =>
    let r : Range := ⟨e.w2.toNat, e.w3.toNat, e.w4.toNat⟩
    if !rangeOk s p r then cmdEnd q e s 1 0
    else cmdEnd q e (dropTranslations (s.modPart p fun x =>
      { x with ranges := if r.len = 0 then merase x.ranges ix else mset x.ranges ix r }) p) 0 0

/-- PSET item 2: an inbound window. -/
def execPsetInboundWindow (q : QueueRef) (e : CmdEntry) (s : State) : Out :=
  match psetOf s e false 15 with
  | none => cmdEnd q e s 1 0
  | some (p, _, ix) =>
    if e.w2.toNat % 65536 ≠ 0 ∨ e.w3.toNat % 65536 ≠ 0 then cmdEnd q e s 1 0
    else cmdEnd q e (s.modPart p fun x =>
      { x with inwin := if e.w3 = 0 then merase x.inwin ix else mset x.inwin ix ⟨e.w2.toNat, e.w3.toNat, e.w4.toNat⟩ }) 0 0

/-- Whether a ring and its pointer pair lie in window 0. -/
def inWindow0 (x : Partition) (va n : Nat) : Bool :=
  match mget x.inwin 0 with
  | some w => decide (w.va ≤ va) && decide (va + n ≤ w.va + w.size)
  | none => false

/-- PSET item 3: a ring, which starts with both pointers at 0. -/
def execPsetRing (q : QueueRef) (e : CmdEntry) (s : State) : Out :=
  match psetOf s e true 21 with
  | none => cmdEnd q e s 1 0
  | some (p, x, ix) =>
    let lg := e.w3.toNat
    if lg < 6 ∨ 16 < lg then cmdEnd q e s 1 0
    else
      let n := 64 * 2 ^ lg
      if e.w2.toNat % n ≠ 0 ∨ e.w4.toNat % 16 ≠ 0 ∨ ¬ inWindow0 x e.w2.toNat n ∨ ¬ inWindow0 x e.w4.toNat 16 then cmdEnd q e s 1 0
      else cmdEnd q e (s.modPart p fun x =>
        { x with rings := mset x.rings ix ⟨e.w2.toNat, lg, e.w4.toNat, 0, 0, false, false, [], []⟩ }) 0 0

/-- PSET item 4: an interrupt vector; clearing its mask sends the write that is pending (R190). -/
def execPsetInterruptVector (q : QueueRef) (e : CmdEntry) (s : State) : Out :=
  match psetOf s e false 63 with
  | none => cmdEnd q e s 1 0
  | some (p, x, ix) =>
    if 2 ^ 32 ≤ e.w3.toNat ∨ 2 ≤ e.w4.toNat then cmdEnd q e s 1 0
    else
      let old := mgetD x.vectors ix ⟨0, 0, true, false⟩
      let mask := e.w4 == 1
      let s := s.modPart p fun x => { x with vectors := mset x.vectors ix ⟨e.w2.toNat, e.w3.toNat, mask, old.pending && mask⟩ }
      cmdEnd q e (if old.pending && !mask then raiseVector s p ix else s) 0 0

end Sys2Proof.Machine
end

