-- ==== Sys2Proof/Machine/Fencing.lean ====
section
/-!
DEFINITION. Heartbeats, votes, the fence, the appeal and reinstatement of grid tiles (spec/22_fencing.md R373-R383;
R55, R197, R198, R372).
-/

namespace Sys2Proof.Machine

/-! ### Tiles and what they hold of their neighbours -/

/-- What a tile holds of a neighbour of which it has heard nothing. -/
def Neigh.init : Neigh := ⟨0, none, [], 0, 0, 0, false, 0, 0⟩
/-- What tile t holds of its neighbour on side d; it judges from the first period after power-on. -/
def State.neighOf (s : State) (t d : Nat) : Neigh := mgetD (s.tile t).neigh d { Neigh.init with period := s.bootPeriod }
/-- Changes what tile t holds of its neighbour on side d. -/
def State.modNeigh (s : State) (t d : Nat) (f : Neigh → Neigh) : State :=
  s.modTile t fun x => { x with neigh := mset x.neigh d (f (s.neighOf t d)) }

/-- The neighbours of a tile with their sides (R373). -/
def neighbours (t : Nat) : List (Nat × Nat) := (natRange 0 4).filterMap fun d => (gridNeigh t d).map fun n => (d, n)
/-- The side on which a neighbour of a tile lies. -/
def sideTo (t n : Nat) : Option Nat := ((neighbours t).find? fun x => x.2 == n).map (·.1)
/-- The placement map as a tile has last received it (R373). -/
def mapAt (s : State) (t : Nat) : List Nat := (s.tile t).oldMap.getD s.placement
/-- The neighbours of a tile that are present by a placement map (R373). -/
def present (map : List Nat) (t : Nat) : List Nat := ((neighbours t).map (·.2)).filter fun n => !map.contains n

/-- Whether the module runs: its units stand in the Catalogue. -/
def powered (s : State) : Bool := !s.cat.isEmpty

/-- The `HSEQ` of a tile in a period: it rises by one for each period, whether a heartbeat is sent or not (R374). -/
def Tile.hseqAt (x : Tile) (p : Nat) : Nat := (x.hseq + (p - x.beat)) % 2 ^ 32

/-- The packets that a tile has sent so far (R375; log entry 84). -/
def packetsOf (s : State) (t : Nat) : Nat := mgetD s.packets t 0

/-- A tile's heartbeats begin again with the next period, and it judges from there; what it holds of its neighbours
otherwise stays, a fence among it (R382). -/
def resumeTile (s : State) (t : Nat) (x : Tile) : Tile :=
  let p := s.time / 65536 + 1
  let heard (d : Nat) : Neigh := { s.neighOf t d with hseq := none, beats := [], period := p, packets := ((gridNeigh t d).map (packetsOf s)).getD 0 }
  { x with silent := false, off := false, beat := p, hseq := x.hseqAt p, neigh := (natRange 0 4).map fun d => (d, heard d) }

/-! ### Heartbeats (R374) -/

/-- The heartbeat word of a tile for a period. -/
def heartbeat (t : Nat) (x : Tile) (p : Nat) : Word :=
  wordOf (x.hseqAt p * 2 ^ 32 + t / 4096 * 2 ^ 30 + t % 64 * 2 ^ 24 + t / 64 % 64 * 2 ^ 18 + x.hst * 2 ^ 16)

/-- Whether a tile sends heartbeats. -/
def Tile.beats (x : Tile) : Bool := !x.silent && !x.off

/-- Whether the heartbeat of the present period is due at a tile: it has not been sent, and the tile's neighbours have
judged the period before. -/
def beatDue (s : State) (t : Nat) : Bool :=
  let x := s.tile t
  let p := s.time / 65536
  powered s && decide (t < 16384) && x.beats && decide (x.beat ≤ p) && decide (s.bootPeriod ≤ p) &&
  (neighbours t).all fun n => !(s.tile n.2).beats || decide (p ≤ (s.neighOf n.2 (oppSide n.1)).period)

/-- HEARTBEAT_SEND: a tile sends a heartbeat word for the present period to each neighbour. -/
def execHeartbeatSend (tile : Nat) (s : State) : Out :=
  if beatDue s tile then
    let x := s.tile tile
    let p := s.time / 65536
    let t := (neighbours tile).foldl (fun s n => sendCtrl s (.tile tile) (.tile n.2) 2 (heartbeat tile x p) 16 []) s
    .next (t.modTile tile fun x => { x with beat := p + 1, hseq := x.hseqAt (p + 1) })
  else notEnabled

/-- HEARTBEAT_RECEIVE: a tile notes a neighbour's heartbeat for the period. -/
def execHeartbeatReceive (id : Nat) (s : State) : Out :=
  match s.word? id with
  | some w =>
    match w.src, w.dst with
    | .tile n, .tile t =>
      if w.ckind ≠ 2 || !wordArrives s w then notEnabled
      else
        let p := w.payload.toNat
        (match sideTo t n with
         | some d =>
           let note := (s.dropWord id).modNeigh t d fun y => { y with beats := y.beats ++ [(field p 63 32, field p 17 16)] }
           .next (if (s.tile t).beats then note else s.dropWord id)
         | none => notEnabled)
    | _, _ => notEnabled
  | none => notEnabled

/-! ### Fence-vote words (R376, R377) -/

/-- A fence-vote word: kind, subject, voter and cause. -/
def fenceVote (kind subject voter cause : Nat) : Word :=
  wordOf (kind * 2 ^ 62 + subject % 64 * 2 ^ 42 + subject / 64 % 64 * 2 ^ 36 + voter % 64 * 2 ^ 30 +
    voter / 64 % 64 * 2 ^ 24 + cause * 2 ^ 22)

/-- The subject, the voter and the cause that a word names, on a die. -/
def voteSubject (die : Nat) (w : Word) : Nat := die * 4096 + field w.toNat 41 36 * 64 + field w.toNat 47 42
def voteVoter (die : Nat) (w : Word) : Nat := die * 4096 + field w.toNat 29 24 * 64 + field w.toNat 35 30
def voteCause (w : Word) : Nat := field w.toNat 23 22
/-- VKIND. -/
def voteKind (w : Word) : Nat := field w.toNat 63 62

/-- Whether tile t holds a state other than ok for tile u, a neighbour of it. -/
def distrusts (s : State) (t u : Nat) : Bool :=
  match sideTo t u with
  | some d => (s.neighOf t d).state != 0
  | none => false

/-- The distances of tiles to a tile, in rings of rising distance, until the ring that holds the start: fuel
bounds their number. -/
def rings (bad : Nat → Bool) (start : Nat) : Nat → List Nat → List Nat → List (List Nat)
  | 0, _, _ => []
  | n + 1, seen, ring =>
    if ring.contains start || ring.isEmpty then [ring]
    else
      let next := ((ring.flatMap fun t => (neighbours t).map (·.2)).filter fun u => !bad u && !seen.contains u && !ring.contains u).eraseDups
      ring :: rings bad start n (seen ++ ring) next

/-- The steps down the rings, at each the neighbour of the lowest direction code. -/
def stepsDown : Nat → List (List Nat) → List Nat
  | _, [] => []
  | t, r :: rs =>
    match (neighbours t).find? fun n => r.contains n.2 with
    | some n => n.2 :: stepsDown n.2 rs
    | none => []

/-- The shortest route from one tile to another that avoids the subject and the tiles the first one distrusts, or
finds marked withdrawn when it re-routes: the tiles to be reached, in order. -/
def fenceRoute (s : State) (a b subject : Nat) (again : Bool) : List Nat :=
  let bad (u : Nat) : Bool := u == subject || distrusts s a u || (again && (sideTo a u).isSome && (mapAt s a).contains u)
  match (rings bad a 4096 [] [b]).reverse with
  | top :: below => if top.contains a && !bad b then stepsDown a below else []
  | [] => []

/-- The corner tile between two neighbours of a subject that lie across a corner. -/
def cornerOf (a b subject : Nat) : Option Nat :=
  (neighbours a).findSome? fun c =>
    if c.2 ≠ subject ∧ c.2 ≠ b ∧ (sideTo c.2 b).isSome ∧ (sideTo a b).isNone then some c.2 else none

/-- Sends a fence-vote word to every other neighbour of the subject. -/
def sendFenceWords (s : State) (voter subject : Nat) (w : Word) : State :=
  (((neighbours subject).map (·.2)).filter (· != voter)).foldl (fun s b =>
    let path := match cornerOf voter b subject with
      | some c => [c, b]
      | none => fenceRoute s voter b subject false
    if path.isEmpty then s else sendCtrl s (.tile voter) (.hops path) 5 w 16 []) s

/-- Whether a tile has a babbling vote standing against a voter. -/
def babbles (s : State) (t voter : Nat) : Bool := (mgetD (s.tile t).votes voter []).any fun v => v.2 != 0

/-- What becomes of a fence-vote word at the tile it has reached. -/
inductive Hop where
  /-- the word goes on -/
  | relayed (s : State)
  /-- it has come to its end, at a tile -/
  | here (t : Nat)
  /-- it cannot move -/
  | stuck

/-- Moves a fence-vote word to the tile its route names next (R377). -/
def hop (s : State) (w : CtrlWord) : Hop :=
  match w.dst with
  | .hops [t] => .here t
  | .hops (t :: u :: us) =>
    if voteKind w.payload = 0 ∧ babbles s t (voteVoter (t / 4096) w.payload) then .relayed (s.dropWord w.id)
    else
      let path := if distrusts s t u || (mapAt s t).contains u then
          fenceRoute s t ((u :: us).getLast?.getD u) (voteSubject (t / 4096) w.payload) true
        else u :: us
      if path.isEmpty then .stuck
      else .relayed { s with ctrl := s.ctrl.map fun x => if x.id = w.id then { x with dst := .hops path } else x }
  | _ => .stuck

/-- A fence-vote word of a kind: where it has come to, when it can arrive there. -/
def fenceWordAt (s : State) (id kind : Nat) : Option (CtrlWord × Hop) :=
  match s.word? id with
  | some w => if w.ckind = 5 ∧ voteKind w.payload = kind ∧ wordArrives s w then some (w, hop s w) else none
  | none => none

/-! ### The fence (R378, R379) -/

/-- The spot of a grid tile in its cluster. -/
def tileSpot (t : Nat) : Spot := (t % 64 % 8, t / 64 % 64 % 8)
/-- Whether a region covers a grid tile. -/
def coversTile (t : Nat) (r : Nat) (g : Region) : Bool := r % 256 == tileCluster t && g.spots.contains (tileSpot t)

/-- Changes the regions that cover a grid tile. -/
def Fabric.atTile (f : Fabric) (t : Nat) (h : Nat → Region → Region) : Fabric :=
  { f with regions := f.regions.map fun x => (x.1, if coversTile t x.1 x.2 then h x.1 x.2 else x.2) }

/-- Changes the regions that cover a grid tile, saved ones as well. -/
def atTile (s : State) (t : Nat) (h : Nat → Region → Region) : State :=
  { s with fab := s.fab.atTile t h, saved := mmapv (fun (v : Saved) => { v with fab := v.fab.atTile t h }) s.saved }

/-- The number of a tile's side in a region's list of cuts. -/
def cutCode (t d : Nat) : Nat := ((tileSpot t).2 * 8 + (tileSpot t).1) * 4 + d

/-- The control core of the quadrant of a grid tile (R16). -/
def coreOfTile (t : Nat) : Nat := t / 4096 * 4 + t / 64 % 64 / 32 * 2 + t % 64 / 32

/-- A tile isolates its link to the neighbour on side d, and tells the control core of the subject's quadrant
(R378, R380); the subject, fenced, tests itself (R381). -/
def isolate (s : State) (t d subject : Nat) : State :=
  let s := s.modNeigh t d fun y => { y with fenced := true, clean := 0 }
  let s := atTile s t fun _ g => { g with cuts := g.cuts ++ [cutCode t d] }
  let s := s.mapCircs fun x => match x.path.comesBy subject d with
    | some i => x.sever (x.past s.time i) none ((makerOf s t).poison 1 (d * 4 + (lget x.path.via i (0, 0)).2 % 4))
    | none => x
  let s := s.modTile subject fun x =>
    if x.off then x
    else if x.silent then { resumeTile s subject x with hst := 1, passes := 0 }
    else if x.hst = 0 then { x with hst := 1, passes := 0 } else x
  sendCtrl s (.tile t) (.core (coreOfTile subject)) 6 (wordOf subject) 16 []

/-- Whether a tile has isolated its link to a neighbour. -/
def hasFenced (s : State) (t subject : Nat) : Bool :=
  match sideTo t subject with
  | some d => (s.neighOf t d).fenced
  | none => false

/-- The votes that count against a subject at a tile: those of its neighbours that the tile's map has as present. -/
def votesAgainst (s : State) (t subject : Nat) : List (Nat × Nat) :=
  (mgetD (s.tile t).votes subject []).filter fun v => (present (mapAt s t) subject).contains v.1

/-- Whether a number of neighbours is the majority of those present by a map. -/
def isMajority (map : List Nat) (subject n : Nat) : Bool :=
  let m := (present map subject).length
  m != 0 && decide (m / 2 + 1 ≤ n)

/-- FENCE: when a neighbour's count has reached the majority, the fence falls there. -/
def countVotes (s : State) (t subject : Nat) : State :=
  match sideTo t subject with
  | some d =>
    if !(s.neighOf t d).fenced && isMajority (mapAt s t) subject (votesAgainst s t subject).length then
      sendFenceWords (isolate s t d subject) t subject (fenceVote 2 subject t 0)
    else s
  | none => s

/-- Counts again at a tile, after its placement map has changed (R373). -/
def recountAt (s : State) (t : Nat) : State :=
  (mkeys (s.tile t).votes).foldl (fun s subject => countVotes s t subject) s

/-- The placement map changes; each tile keeps the one it has until the new one reaches it (R373). -/
def changeMap (s : State) (map : List Nat) : State :=
  { s with placement := map, tiles := mmapv (fun (x : Tile) => { x with oldMap := some (x.oldMap.getD s.placement) }) s.tiles }

/-- The new map reaches a tile, which counts again. -/
def receiveMap (s : State) (t : Nat) : State := recountAt (s.modTile t fun x => { x with oldMap := none }) t

/-- The map reaches the next n tiles that have an older one (log entry 116). -/
def spreadMap (s : State) (n : Nat) : State :=
  (((s.tiles.filter fun x => x.2.oldMap.isSome).map (·.1)).take n).foldl receiveMap s

/-- A vote of a voter stands at a tile. -/
def addVote (s : State) (t subject voter cause : Nat) : State :=
  s.modTile t fun x =>
    { x with votes := mset x.votes subject (((mgetD x.votes subject []).filter fun v => v.1 != voter) ++ [(voter, cause)]) }

/-- A vote of a voter stands no longer at a tile. -/
def dropVote (s : State) (t subject voter : Nat) : State :=
  s.modTile t fun x => { x with votes := mset x.votes subject ((mgetD x.votes subject []).filter fun v => v.1 != voter) }

/-- VOTE_WORD: a vote is relayed or counted, or dropped where a babbling vote stands against its voter. -/
def execVoteWord (id : Nat) (s : State) : Out :=
  match fenceWordAt s id 0 with
  | some (_, .relayed t) => .next t
  | some (w, .here t) =>
    let voter := voteVoter (t / 4096) w.payload
    let subject := voteSubject (t / 4096) w.payload
    let s := s.dropWord id
    .next (if babbles s t voter then s else countVotes (addVote s t subject voter (voteCause w.payload)) t subject)
  | _ => notEnabled

/-- The withdrawals that have arrived in a cycle take their voters' votes away once the cycle is over, where the fence
has not fallen (R378). -/
def applyWithdrawals (s : State) : State :=
  s.tiles.foldl (fun s x => (x.2.withdrawn.foldl (fun s w =>
    if hasFenced s x.1 w.1 then s else dropVote s x.1 w.1 w.2) s).modTile x.1 fun y => { y with withdrawn := [] })
    s

/-- WITHDRAWAL_WORD: a withdrawal is relayed, or noted for the end of the cycle, unless the fence has fallen. -/
def execWithdrawalWord (id : Nat) (s : State) : Out :=
  match fenceWordAt s id 1 with
  | some (_, .relayed t) => .next t
  | some (w, .here t) =>
    let subject := voteSubject (t / 4096) w.payload
    let s := s.dropWord id
    .next (if hasFenced s t subject then s
      else s.modTile t fun x => { x with withdrawn := x.withdrawn ++ [(subject, voteVoter (t / 4096) w.payload)] })
  | _ => notEnabled

/-- FENCE_WORD: a fence word is relayed, or its receiver isolates its own link. -/
def execFenceWord (id : Nat) (s : State) : Out :=
  match fenceWordAt s id 2 with
  | some (_, .relayed t) => .next t
  | some (w, .here t) =>
    let subject := voteSubject (t / 4096) w.payload
    let s := s.dropWord id
    .next (match sideTo t subject with
      | some d => if (s.neighOf t d).fenced then s else isolate s t d subject
      | none => s)
  | _ => notEnabled

/-! ### NEIGHBOUR_JUDGEMENT (R375, R381, R383) -/

/-- What a tile finds for a period. -/
inductive Verdict where
  | clean
  | missing
  | babbling (cause : Nat)
  deriving DecidableEq, Repr

/-- Whether HSEQ values run on from the last one. -/
def runOn : Option Nat → List (Nat × Nat) → Bool
  | _, [] => true
  | some l, b :: bs => b.1 == (l + 1) % 2 ^ 32 && runOn (some b.1) bs
  | none, b :: bs => runOn (some b.1) bs

/-- The finding for the period just ended, with the packets of the neighbour in it. -/
def Neigh.finding (y : Neigh) (packets : Nat) : Verdict :=
  if y.beats.isEmpty then .missing
  else if 2 < y.beats.length then .babbling 1
  else if y.beats.any (fun b => b.2 == 3) || !runOn y.hseq y.beats then .babbling 2
  else if 131072 < packets - y.packets then .babbling 3
  else .clean

/-- An appeal fails; the third within an hour is the last (R381, R383). -/
def failAppeal (s : State) (subject : Nat) : State :=
  s.modTile subject fun x =>
    let failed := (x.failed.filter fun f => decide (s.time < f + 4320000000000)) ++ [s.time]
    { x with hst := 1, passes := 0, failed := failed, off := decide (3 ≤ failed.length) }

/-- A tile casts its vote against a neighbour. -/
def castVote (s : State) (t subject cause : Nat) : State :=
  if (present (mapAt s t) subject).isEmpty then s
  else countVotes (sendFenceWords (addVote s t subject t cause) t subject (fenceVote 0 subject t cause)) t subject

/-- What a tile sends with a judgement. -/
inductive Say where
  | nothing
  | vote (cause : Nat)
  | withdrawal
  deriving DecidableEq, Repr

/-- The table of R375: what a tile holds of a neighbour after a finding, and what it sends. -/
def Neigh.judge (y : Neigh) : Verdict → Neigh × Say
  | .clean =>
    if y.state ≠ 2 then ({ y with state := 0, misses := 0, clean := 0 }, .nothing)
    else if y.clean + 1 < 2 then ({ y with misses := 0, clean := y.clean + 1 }, .nothing)
    else ({ y with state := 0, misses := 0, clean := 0 }, .withdrawal)
  | .missing =>
    if y.state = 2 then ({ y with clean := 0 }, .nothing)
    else if y.misses + 1 < 3 then ({ y with state := 1, misses := y.misses + 1, clean := 0 }, .nothing)
    else ({ y with state := 2, misses := 0, clean := 0 }, .vote 0)
  | .babbling cause =>
    if y.state = 2 then ({ y with clean := 0 }, .nothing) else ({ y with state := 2, misses := 0, clean := 0 }, .vote cause)

/-- Whether the control core has cleared the mark of a tile and its words are on their way (R382). -/
def reinstated (s : State) (subject : Nat) : Bool :=
  s.ctrl.any fun w => w.ckind == 5 && voteKind w.payload == 3 && voteSubject (subject / 4096) w.payload == subject &&
    (match w.src with | .core _ => true | _ => false)

/-- What a tile says with a judgement: neither one that has isolated its link, nor any while the neighbour appeals, casts
votes (R381). -/
def heardSay (fenced appealing : Bool) : Say → Say
  | .nothing => .nothing
  | .vote cause => if fenced || appealing then .nothing else .vote cause
  | .withdrawal => if fenced then .nothing else .withdrawal

/-- The judgement on a neighbour by the table of R375. The clean periods of an appeal count to 16, and a period that is not
clean ends it (R381). -/
def judgeNeigh (s : State) (t d subject : Nat) (y : Neigh) (f : Verdict) : State :=
  let appealing := (s.tile subject).hst == 2
  let (z, say) := y.judge f
  let clean := f = .clean ∧ y.beats.any fun b => b.2 == 2
  let s := s.modNeigh t d fun _ => { z with appeal := if clean then Nat.max y.appeal (Nat.min 16 (y.appeal + 1)) else 0 }
  let s := if f ≠ .clean ∧ appealing ∧ ¬ reinstated s subject then failAppeal s subject else s
  match heardSay y.fenced appealing say with
  | .nothing => s
  | .vote cause => castVote s t subject cause
  | .withdrawal => sendFenceWords (dropVote s t subject t) t subject (fenceVote 1 subject t 0)

/-- NEIGHBOUR_JUDGEMENT: at the end of a period a tile judges the neighbour on a side. -/
def execNeighbourJudgement (tile dir : Nat) (s : State) : Out :=
  match gridNeigh tile dir with
  | none => notEnabled
  | some n =>
    let y := s.neighOf tile dir
    let sub := s.tile n
    if powered s && decide (tile < 16384) && (s.tile tile).beats && decide (y.period < s.time / 65536) &&
        (!sub.beats || decide (y.period < sub.beat)) then
      let count := packetsOf s n
      let f := y.finding count
      let last := match y.beats.getLast? with | some b => some b.1 | none => y.hseq
      let s := judgeNeigh s tile dir n y f
      .next (s.modNeigh tile dir fun z => { z with beats := [], hseq := last, period := y.period + 1, packets := count })
    else notEnabled

/-! ### Withdrawal (R380) -/

/-- Changes the DETAIL of a cluster's Catalogue entry. -/
def modDetail (s : State) (cl : Nat) (f : Nat → Nat) : State :=
  { s with cgen := s.cgen + 2, cat := madj s.cat (catIndex 3 cl) fun e => { e with detail := f e.detail } }

/-- The launches with a region or a task on a grid tile; a task stands on the tile of its SE (R15). -/
def launchesOn (s : State) (t : Nat) : List Nat :=
  let own (f : Fabric) : List Nat :=
    (f.regions.filter fun g => coversTile t g.1 g.2).map (fun g => g.2.launch) ++
      (f.tasks.filter fun x => seTile (seOf x.1) == t).map fun x => x.2.launch
  (own s.fab ++ s.saved.flatMap fun v => own v.2.fab).eraseDups

/-- A grid tile is withdrawn: the placement map, the Catalogue, and the launches on it. -/
def withdrawTile (s : State) (t : Nat) : State :=
  let ls := launchesOn s t
  let s := modDetail (changeMap s (s.placement ++ [t])) (tileCluster t) (· + 1)
  ls.foldl (fun s l => abortLaunch s l 2 (0x00030000 + t)) s

/-- FENCE_WITHDRAWAL: a neighbour's notice reaches the control core of the subject's quadrant. -/
def execFenceWithdrawal (id : Nat) (s : State) : Out :=
  match s.word? id with
  | some w =>
    match w.src with
    | .tile _ =>
      if w.ckind ≠ 6 || !wordArrives s w then notEnabled
      else
        let t := w.payload.toNat
        let s := s.dropWord id
        .next (if s.placement.contains t then s else withdrawTile s t)
    | _ => notEnabled
  | none => notEnabled

/-! ### Self-test, appeal and reinstatement (R372, R381-R383) -/

/-- A context without what its elements on a grid tile hold. -/
def Ctx.scrub (c : Ctx) (r : Nat) (g : Region) (k t : Nat) : Ctx :=
  let here (pos : Nat) : Bool := posTile r g k pos == t
  let ct (key : Nat) : Bool := ((g.cTiles[key / 16]?).map (gridTile r)) == some t
  let mt (key : Nat) : Bool := ((g.mTiles[key / 16]?).map (gridTile r)) == some t
  { c with
    folio := c.folio.map fun f => { f with nodes := f.nodes.zipIdx.map fun n => if here (nodePos n.2) then 0 else n.1 }
    circs := c.circs.filter (fun x => 512 ≤ x.1 || !ct x.1), inlets := c.inlets.filter (fun x => !ct x.1)
    lat := c.lat.filter (fun x => !here (x.1 / 4)), spoilt := c.spoilt.filter (fun x => !here (x / 4)), es := c.es.filter (fun x => !here x.1)
    elems := c.elems.filter (fun x => !here x.1), links := c.links.filter (fun x => !ct x.1)
    routing := c.routing.filter (fun x => !ct x.1), relays := c.relays.filter fun x => !mt x.1 }

/-- The self-test scrubs every bank, latch, slot and context of a tile. -/
def scrubTile (s : State) (t : Nat) : State :=
  let s := { s with fab := { s.fab with sram := s.fab.sram.filter (fun c => c.1 / 32768 != t), smarks := s.fab.smarks.filter fun x => x / 4096 != t } }
  { s with fab := s.fab.atTile t fun r g => { g with ctxs := (natRange 0 4).map fun k => (g.ctx k).scrub r g k t } }

/-- SELF_TEST_RUN: a fenced tile completes a run of its self-test, and appeals after two passes; a tile with a
lane that did not wake powers it up, or stops its heartbeats. -/
def execSelfTestRun (tile : Nat) (pass : Bool) (s : State) : Out :=
  let x := s.tile tile
  if x.off || x.silent then notEnabled
  else if x.hst = 1 then
    let s := scrubTile s tile
    .next (s.modTile tile fun x =>
      if pass then
        if 2 ≤ x.passes + 1 then { x with hst := 2, passes := 0, gated := [], wakeTest := [] } else { x with passes := x.passes + 1 }
      else { x with passes := 0 })
  else if x.hst = 0 && !x.wakeTest.isEmpty then
    .next (s.modTile tile fun x =>
      if pass then { x with gated := x.gated.filter (fun l => !x.wakeTest.contains l.1), wakeTest := [] }
      else { x with silent := true })
  else notEnabled

/-- The present neighbours of a tile that have seen 16 clean periods and have not said so. -/
def appealed (s : State) (t : Nat) : List (Nat × Nat) :=
  (neighbours t).filter fun n =>
    let y := s.neighOf n.2 (oppSide n.1)
    y.appeal == 16 && !(s.tile t).off && (present (mapAt s n.2) t).contains n.2

/-- PROBATION_COMPLETE: after 16 clean periods a tile's present neighbours send their reinstate words. -/
def execProbationComplete (tile : Nat) (s : State) : Out :=
  match appealed s tile with
  | [] => notEnabled
  | ns => .next (ns.foldl (fun s n =>
      sendCtrl (s.modNeigh n.2 (oppSide n.1) fun y => { y with appeal := 17 }) (.tile n.2) (.core (coreOfTile tile)) 5
        (fenceVote 3 tile n.2 0) 16 []) s)

/-- The reinstate words for a tile that have reached its control core. -/
def reinstateWords (s : State) (t : Nat) : List CtrlWord :=
  s.ctrl.filter fun w =>
    w.ckind == 5 && voteKind w.payload == 3 && w.dst == .core (coreOfTile t) && voteSubject (t / 4096) w.payload == t && wordArrives s w

/-- REINSTATE: with the words of a majority of the present neighbours the control core clears the mark; words for
a tile that is not withdrawn, or that is withdrawn for good (R383), have no effect. -/
def execReinstate (tile : Nat) (s : State) : Out :=
  let ws := reinstateWords s tile
  let s' := ws.foldl (fun s w => s.dropWord w.id) s
  if ws.isEmpty then notEnabled
  else if !s.placement.contains tile || (s.tile tile).off then .next s'
  else if isMajority s.placement tile
      (((ws.map fun w => voteVoter (tile / 4096) w.payload).filter fun v => (present s.placement tile).contains v).eraseDups).length then
    let s := modDetail (changeMap s' (s'.placement.filter (· != tile))) (tileCluster tile) (· - 1)
    .next ((neighbours tile).foldl (fun s n => sendCtrl s (.core (coreOfTile tile)) (.tile n.2) 5 (fenceVote 3 tile n.2 0) 16 []) s)
  else notEnabled

/-- REINSTATE_WORD: a neighbour reopens its link; when all have, the tile is normal again. -/
def execReinstateWord (id : Nat) (s : State) : Out :=
  match s.word? id with
  | some w =>
    match w.dst with
    | .tile t =>
      if w.ckind ≠ 5 || !wordArrives s w then notEnabled
      else
        let subject := voteSubject (t / 4096) w.payload
        let s := s.dropWord id
        (match sideTo t subject with
         | some d =>
           let s := s.modNeigh t d fun y => { y with state := 0, misses := 0, clean := 0, fenced := false, appeal := 0 }
           let s := s.modTile t fun x => { x with votes := merase x.votes subject }
           let s := (atTile s t fun _ g => { g with
             cuts := g.cuts.filter (· != cutCode t d), cutLanes := g.cutLanes.filter fun l => l / 4 != cutCode t d }).reopenCircs
           .next (if tileFenced s subject then s else s.modTile subject fun x => { x with hst := 0, passes := 0 })
         | none => .next s)
    | _ => notEnabled
  | none => notEnabled

/-! ### What a tile may do next -/

/-- The fencing events of a tile; whether a self-test run passes is an event from outside. -/
def fenceEvents (s : State) (t : Nat) : List Event :=
  .heartbeatSend t :: (natRange 0 4).map (fun d => .neighbourJudgement t d) ++
  (if (s.tile t).hst = 2 then [.probationComplete t] else []) ++ (if (reinstateWords s t).isEmpty then [] else [.reinstate t])

end Sys2Proof.Machine
end

