-- ==== Sys2Proof/Machine/FolioNodes.lean ====
section
/-!
DEFINITION. The firing of a Folio's nodes on the state (spec/06_weight_graphs.md R121-R124, R126). The value
of a node stands in its register bank; the latches of its readers hold the kind of the token. A node's
output register is free when every reader has taken its value.
-/

namespace Sys2Proof.Machine

/-- The inputs that read node n of a Folio: position and input. -/
def nodeReaders (f : Folio) (n : Nat) : List (Nat × Nat) :=
  (f.nodes.zipIdx).flatMap fun e =>
    ((entrySources e.1.toNat).filter fun r => !bitAt r.2 11 && r.2 == n).map fun r => (nodePos e.2, r.1)

/-- The exact elements at an input that reads a reference: a port's token, or a node's value (R121). -/
def Ctx.sourceVals (c : Ctx) (f : Folio) (pos i ref : Nat) : List Int :=
  if bitAt ref 11 then
    match c.latch pos i with
    | some t => (splitBits (folioBits f.mode) (folioElems f.mode) t.data.toNat).map (signedOf (folioBits f.mode))
    | none => []
  else ((c.bank (nodePos ref)).regs.take (folioElems f.mode)).map (signedOf 40)

/-- What an element sees, with another token in place of the value at an input. -/
def ElemIn.setTok (x : ElemIn) (i : Nat) (t : Token) : ElemIn :=
  match i with
  | 0 => { x with a := x.a.map fun u => if u.isData then t else u }
  | 1 => { x with b := x.b.map fun u => if u.isData then t else u }
  | 2 => { x with cc := x.cc.map fun u => if u.isData then t else u }
  | _ => { x with p := x.p.map fun u => if u.isData then t else u }

/-- What node m of a Folio sees. A POISON stands in place of the value of a node, and of the line of a TAP, whose output
register or line holds an uncorrectable error; the TAP then starts its line anew (R404; log entry 62). -/
def nodeInput (s : State) (r : Nat) (g : Region) (k m : Nat) (f : Folio) (n : FolioNode) : NodeIn :=
  let c := g.ctx k
  let pos := nodePos m
  let e := (lget f.nodes m 0).toNat
  let srcs := entrySources e
  let x := elemInput s r g k pos (cfgOf 0)
  let spoilt := srcs.filter fun q =>
    (!bitAt q.2 11 && (c.bank (nodePos q.2)).upset) || (field e 63 60 == 2 && q.1 == 0 && (c.bank pos).upset)
  let x := spoilt.foldl (fun (x : ElemIn) q => x.setTok q.1 x.who.upset) x
  let x := if field e 63 60 = 2 ∧ (c.bank pos).upset then { x with st := { x.st with regs := [] } } else x
  let carried := (srcs.filter fun q =>
    match (refPort q.2).bind (folioPortWire f) with
    | some w => c.bodyFeeds g w
    | none => false).map (·.1)
  { n := n, x := { x with carried := carried }, ins := srcs.map (·.1), mode := f.mode
    vals := (natRange 0 4).map fun i => match srcs.find? (fun q => q.1 == i) with
      | some q => (c.seen x.who pos).sourceVals f pos i q.2
      | none => []
    room := (nodeReaders f m).all (fun q => !mhas c.lat (q.1 * 4 + q.2)) && c.destFree g pos 0 }

/-- The token of a node stands at every reader of its output register. -/
def Ctx.toReaders (c : Ctx) (f : Folio) (m : Nat) (t : Stok) : Ctx :=
  { c with lat := (nodeReaders f m).foldl (fun l q => mset l (q.1 * 4 + q.2) t) c.lat }

/-- The firing of a node: its token goes to its readers and, for NRW, to its output port. -/
def nodeForm (n : FolioNode) (op : NodeFn) (s : State) : Out :=
  match s.cur with
  | .elem r k pos =>
    match s.region? r with
    | none => notReady
    | some g =>
      match (g.ctx k).folio with
      | none => notReady
      | some f =>
        if pos < 2048 || f.nodes.length ≤ pos - 2048 || !elemRuns s r g k pos || !((g.ctx k).bank pos).outq.isEmpty then notReady
        else match op (nodeInput s r g k (pos - 2048) f n) with
          | none => notReady
          | some fd =>
            let t : Stok := match fd.outs with | (_, t) :: _ => ⟨t, false, 0⟩ | [] => ⟨nullTok, false, 0⟩
            let g' := ({ g with stall := 0 }).modCtx k fun c => (c.fired (makerOf s (posTile r g k pos)) pos fd).toReaders f (pos - 2048) t
            .next (s.setRegion r (g'.flush (makerOf s (posTile r g k pos)) k pos))
  | _ => notReady

/-- SHA: the sum of two shifted and signed sources. -/
def execSha (n : FolioNode) (s : State) : Out := nodeForm n nodeSha s
/-- SUM4: the sum of up to four sources. -/
def execSum4 (n : FolioNode) (s : State) : Out := nodeForm n nodeSum4 s
/-- TAP: the element d stream positions back. -/
def execTap (n : FolioNode) (s : State) : Out := nodeForm n nodeTap s
/-- NRW: rounds and narrows to the output format. -/
def execNrw (n : FolioNode) (s : State) : Out := nodeForm n nodeNrw s

end Sys2Proof.Machine
end

