-- ==== Sys2Proof/Machine/Immediate.lean ====
section
/-!
DEFINITION. The immediate family (spec/13_block_core.md R243): 64 bits with wrap, no flag.
-/

namespace Sys2Proof.Machine

/-- The immediate sign-extended to 64 bits (R215). -/
def immS (k : BitVec 14) : Word := sext 14 k.toNat

/-- ADDI: a + k. -/
def execAddi (p : Pred) (k : BitVec 14) (ta : Target) (s : State) : Out :=
  compute p .n1 [ta] s fun a _ _ => (a + immS k, 0)

/-- ANDI: a AND k. -/
def execAndi (p : Pred) (k : BitVec 14) (ta : Target) (s : State) : Out :=
  compute p .n1 [ta] s fun a _ _ => (a &&& immS k, 0)

/-- ORI: a OR k. -/
def execOri (p : Pred) (k : BitVec 14) (ta : Target) (s : State) : Out :=
  compute p .n1 [ta] s fun a _ _ => (a ||| immS k, 0)

/-- XORI: a XOR k. -/
def execXori (p : Pred) (k : BitVec 14) (ta : Target) (s : State) : Out :=
  compute p .n1 [ta] s fun a _ _ => (a ^^^ immS k, 0)

/-- SHLI: a shifted left by u. -/
def execShli (p : Pred) (u : Fin 64) (ta : Target) (s : State) : Out :=
  compute p .n1 [ta] s fun a _ _ => (wordOf (a.toNat * 2 ^ u.val), 0)

/-- SHRI: a shifted right logically by u. -/
def execShri (p : Pred) (u : Fin 64) (ta : Target) (s : State) : Out :=
  compute p .n1 [ta] s fun a _ _ => (wordOf (a.toNat / 2 ^ u.val), 0)

/-- SARI: a shifted right arithmetically by u. -/
def execSari (p : Pred) (u : Fin 64) (ta : Target) (s : State) : Out :=
  compute p .n1 [ta] s fun a _ _ => (wordOfInt (signedOf 64 a.toNat / 2 ^ u.val), 0)

/-- MULI: the low 64 bits of a × k. -/
def execMuli (p : Pred) (k : BitVec 14) (ta : Target) (s : State) : Out :=
  compute p .n1 [ta] s fun a _ _ => (a * immS k, 0)

/-- CST: k. -/
def execCst (p : Pred) (k : BitVec 14) (ta : Target) (s : State) : Out :=
  compute p .n0 [ta] s fun _ _ _ => (immS k, 0)

/-- CSTH: (a shifted left by 14) OR u. -/
def execCsth (p : Pred) (k : BitVec 14) (ta : Target) (s : State) : Out :=
  compute p .n1 [ta] s fun a _ _ => (wordOf (a.toNat * 2 ^ 14 + k.toNat), 0)

end Sys2Proof.Machine
end

