-- ==== Sys2Proof/Machine/Module.lean ====
section
/-!
DEFINITION. The module as a whole: power-on and loss of power, the Catalogue, the security alarm, recovery and the
patrol scrub (spec/10_host_partitions.md R195-R198; spec/24 R418, R448; spec/26_security_alarm.md R433-R438; R403).
-/

namespace Sys2Proof.Machine

/-! ### The Catalogue (R197, R198, R448) -/

/-- The number of units of a kind. -/
def kindCount (kind : Nat) : Nat :=
  match kind with
  | 1 => 12 | 2 => 1024 | 3 => 256 | 4 => 24 | 5 => 1 | 6 => 1 | 7 => 16
  | _ => 0

/-! ### UNIT_READINESS_LOST, FUNCTION_SELF_TEST_DONE (R196, R418) -/

/-- The launches with a region or a task on a cluster. -/
def launchesAt (s : State) (cl : Nat) : List Nat :=
  let own (f : Fabric) : List Nat :=
    (f.regions.filter fun g => clOf g.1 == cl).map (fun g => g.2.launch) ++ (f.tasks.filter fun t => clOf t.1 == cl).map fun t => t.2.launch
  (own s.fab ++ s.saved.flatMap fun v => own v.2.fab).eraseDups

/-- A started LAUNCH ends with its entry; other started entries complete (R418). -/
def cancelStarted (s : State) (q : QueueRef) : State :=
  let mine (l : Nat × Launch) : Bool := QueueRef.part l.2.ptn l.2.ring == q
  finishAll ((mkeys (s.launches.filter mine)).foldl (fun s l => abortLaunch s l 3 0) s) q 3 none

/-- The control core that serves the module control queue: the lowest-numbered ready one. -/
def moduleCore (s : State) : Option Nat := (natRange 0 16).find? fun c => s.ready 7 c

/-- The lowest-numbered ready control core of its die takes over what a control core served. -/
def takeOver (s : State) (c : Nat) : State :=
  let heirs := (s.parts.filter fun x => x.2.core == c).map (·.1)
  heirs.foldl (fun s p =>
    let s := s.modPart p fun x => { x with core := (readyCore s (c / 4)).getD x.core }
    match s.part? p with
    | some x => ((mkeys x.rings).filter fun k => decide (k < 21)).foldl (fun s k => cancelStarted s (.part p k)) s
    | none => s) s

/-- The circuits through a Novey port deliver POISON; what has come in by the port goes on (R418, R379). -/
def cutPort (s : State) (port : Nat) : State :=
  s.mapCircs fun x =>
    if x.path.novey = some port then x.sever (if x.path.link.isNone then x.toks.length else 0) (some s.time) (portPoison s x.path)
    else x

/-- UNIT_READINESS_LOST: a unit's entry leaves the ready state, and what depends on it responds. -/
def execUnitReadinessLost (kind inst state : Nat) (s : State) : Out :=
  if kindCount kind ≤ inst || !s.ready kind inst || state = 2 || 5 ≤ state then notEnabled
  else
    let t := setCat s kind inst state
    .next (match kind with
      | 3 => (launchesAt t inst).foldl (fun s l => abortLaunch s l 2 (0x00050000 + inst)) t
      | 4 => cutPort t inst
      | 7 => takeOver (if moduleCore s = some inst then finishAll t .module 3 none else t) inst
      | _ => t)

/-- Whether the alarm keeps a unit from becoming ready (R436). -/
def locked (s : State) (kind : Nat) : Bool := kind == 6 && decide (2 ≤ s.alarm.level)

/-- A control core that becomes ready takes over the partitions of its die whose core is lost and has no heir yet
(R418). -/
def adopt (s : State) (c : Nat) : State :=
  { s with parts := mmapv (fun (x : Partition) => if x.core / 4 = c / 4 ∧ !s.ready 7 x.core then { x with core := c } else x) s.parts }

/-- FUNCTION_SELF_TEST_DONE: a function that is not ready has tested itself and writes its entry. -/
def execFunctionSelfTestDone (kind inst : Nat) (pass : Bool) (s : State) : Out :=
  if kindCount kind ≤ inst || !mhas s.cat (catIndex kind inst) || s.ready kind inst || locked s kind then notEnabled
  else
    let t := setCat s kind inst (if pass then 2 else 4)
    .next (if kind = 4 then t.reopenCircs else if kind = 7 && pass then adopt t inst else t)

/-! ### The alarm (R433-R437) -/

/-- What level A3 does beyond A2 (R436, R437). -/
def enterA3 (s : State) : State :=
  let s := setCat { s with alarm := { s.alarm with latchA3 := true, erased := true }, keys := none } 6 0 4
  let s := (mkeys s.launches).foldl (fun s l => abortLaunch s l 2 0x00060003) s
  let s := (mkeys s.parts).foldl endSwap { s with saved := [] }
  (mkeys s.parts).foldl (fun s p => if ((s.part? p).bind (·.reset)).isSome then s else beginReset s p none) s

/-- A trigger acts: at level A3 also what A3 does. -/
def raiseAlarm (s : State) (trig die det : Nat) : State :=
  let t := noteTrigger s trig die det
  if s.alarm.level < 3 ∧ t.alarm.level = 3 then enterA3 t else t

/-- ALARM_GUARD_BAND: the supply voltage or the clock of a die leaves its guard band. -/
def execAlarmGuardBand (die : Fin 4) (clock : Bool) (s : State) : Out :=
  if powered s then .next (raiseAlarm s 1 die.val (bnat clock)) else notEnabled

/-- ALARM_LINK_TAMPER: a facing P-tile pair loses its link authentication (R13). -/
def execAlarmLinkTamper (die : Fin 4) (ptile : Fin 256) (s : State) : Out :=
  if powered s && (facingPtile (die.val * 256 + ptile.val)).isSome then .next (raiseAlarm s 2 die.val ptile.val) else notEnabled

/-- DEBUG_PORT_ACCESS: an access without a verified grant, or while a partition exists, is misuse. -/
def execDebugPortAccess (die : Fin 4) (port : BitVec 32) (grant : Bool) (s : State) : Out :=
  if !powered s then notEnabled
  else .next (if !grant || !s.parts.isEmpty then raiseAlarm s 4 die.val port.toNat else s)

/-! ### Power and reset (R195, R196, R437, R438) -/

/-- The boot ROM of control core 0 of a die derives the identity keys, unless an A3 latch keeps it from that, and starts
the die's other control cores, whose self-tests begin (R195, R437). -/
def bootDie (s : State) (die : Nat) : State :=
  let start (m : Map CatEntry) (q : Nat) : Map CatEntry := mset m (catIndex 7 (4 * die + q)) ⟨1, 0, s.time⟩
  { s with
    keys := if s.alarm.latchA3 then none else some ⟨Config.edKey, Config.mlKey⟩
    cat := (natRange 0 4).foldl start s.cat }

/-- Power-on: on each die the boot ROM of control core 0 derives the keys, and verifies the firmware and the configuration
record, which every die reads from the same flash; every function begins its self-test; an A3 latch keeps the module at
A3. -/
def powerUp (fwEd fwMl cfgEd cfgMl : Bool) (s : State) : State :=
    let s := { s with
      cat := (natRange 0 1334).map fun i => (i, (⟨1, 0, s.time⟩ : CatEntry)), cgen := s.cgen + 2
      bootPeriod := s.time / 65536 + 1
      alarm := { s.alarm with
        sigFails := 0, level := if s.alarm.latchA3 then 3 else s.alarm.level
        prior := if s.alarm.latchA3 then 3 else s.alarm.prior, erased := s.alarm.erased || s.alarm.latchA3 } }
    let s := (natRange 0 4).foldl bootDie s
    let s := if s.alarm.latchA3 then setCat s 6 0 4 else s
    verify (verify s 0 fwEd fwMl 0) 0 cfgEd cfgMl 1

/-- POWER_ON. -/
def execPowerOn (fwEd fwMl cfgEd cfgMl : Bool) (s : State) : Out :=
  if powered s then notEnabled else .next (powerUp fwEd fwMl cfgEd cfgMl s)

/-- MODULE_RESET: levels A1 and A2 clear, and tiles that were power-gated for their failed appeals may appeal
again (R383, R438). -/
def execModuleReset (s : State) : Out :=
  if !powered s then notEnabled
  else
    let back (t : Nat) (x : Tile) : Tile := if x.off then { resumeTile s t x with hst := 1, passes := 0, failed := [] } else x
    let s : State := { s with tiles := s.tiles.map fun x => (x.1, back x.1 x.2) }
    if s.alarm.level = 3 then .next s
    else
      let s : State := { s with alarm := { s.alarm with level := 0, prior := 0 } }
      .next (if s.catState 6 0 = 3 then setCat s 6 0 1 else s)

/-- What a restart leaves of a state: memories, flash, and what is outside the module. -/
def restarted (s : State) : State :=
  { State.reset with
    time := s.time, oracle := s.oracle, nextId := s.nextId, inputs := s.inputs, speakers := s.speakers, images := s.images, firmware := s.firmware, record := s.record, flits := s.flits
    mem := s.mem, poison := s.poison, annex := s.annex, hostMem := s.hostMem, msgs := s.msgs, answers := s.answers
    alarm := { s.alarm with level := 0, prior := 0, sigFails := 0, latchA3 := false, erased := false } }

/-- The module restarts as at power-on; how the verifications end is free (R438; log entry 87). -/
def restart (s : State) : State :=
  let (w, t) := (restarted s).free
  powerUp (bitAt w.toNat 0) (bitAt w.toNat 1) (bitAt w.toNat 2) (bitAt w.toNat 3) t

/-- RECOVERY_DOORBELL: the owner has stored the length of a recovery image; when both of its signatures verify
the latch is erased and the module restarts. -/
def execRecoveryDoorbell (length : Word) (edOk mlOk : Bool) (s : State) : Out :=
  if !powered s || !hostReaches s then notEnabled
  else
    let s := { s with owner := Memory.writeN s.owner 0x6000 (bytesOfNat 8 length.toNat) }
    .next (if edOk && mlOk then restart s else verify s 0 edOk mlOk 2)

/-- LOSS_OF_POWER: volatile state is gone; flash, the Annex and what is outside the module stay. -/
def execLossOfPower (s : State) : Out :=
  .next { State.reset with
    oracle := s.oracle, nextId := s.nextId, inputs := s.inputs, speakers := s.speakers, images := s.images, firmware := s.firmware, record := s.record, flits := s.flits
    annex := s.annex, hostMem := s.hostMem, msgs := s.msgs, answers := s.answers
    alarm := { s.alarm with level := 0, prior := 0, sigFails := 0, erased := false } }

/-! ### The patrol scrub (R402, R403) -/

/-- The number of the counter of corrected errors of a die and a kind of storage: 0 fabric, 1 L2 and sequencers,
2 HBM, 3 Annex. -/
def errIndex (die kind : Nat) : Nat := 16 + die * 4 + kind

/-- HBM_PATROL_SCRUB: a controller has read through its stack; what it has corrected is counted, saturating. -/
def execHbmPatrolScrub (stack : Nat) (s : State) : Out :=
  if stack < 12 ∧ powered s ∧ (mgetD s.scrubs stack 0) + 2 ^ 46 ≤ s.time then
    let (n, t) := s.free
    .next { t with
      scrubs := mset t.scrubs stack s.time
      errs := mmod t.errs (errIndex (stack / 3) 2) 0 fun c => Nat.min (c + n.toNat) (2 ^ 32 - 1) }
  else notEnabled

end Sys2Proof.Machine
end

