-- ==== Sys2Proof/Machine/Slices.lean ====
section
/-!
DEFINITION. The misses and write-backs of the L2 slices (spec/04_memory.md R83, R84; R171, R390, R404).
-/

namespace Sys2Proof.Machine

/-- A slice after a miss has been served: its entry is free unless its victim stands in its buffer (R390). -/
def Slice.served (sl : Slice) (m : Miss) : Slice := ({ sl with misses := sl.misses.erase m } : Slice).settled

/-- The arbitration point of the HBM controller of a line's pseudo-channel (R75, R188). -/
def hbmPoint (pa : Nat) : Nat := 8 * shelverOf pa + 7

/-- The partitions whose misses and write-backs wait at an HBM controller. -/
def missesAt (s : State) (point : Nat) : Waiting :=
  (s.slices.flatMap fun x => ((x.2.misses.filter fun m => hbmPoint m.pa == point).map (·.ptn)) ++
    (x.2.wbs.filter fun w => hbmPoint w.pa == point).map (·.ptn)).eraseDups

/-- Whether an HBM controller serves a partition now for a line (R188). -/
def hbmServes (s : State) (pa ptn : Nat) : Bool := inTurn s (hbmPoint pa) (missesAt s (hbmPoint pa)) ptn

/-- It has served it. -/
def hbmServed (s : State) (pa ptn : Nat) : State := serveAt s (hbmPoint pa) (missesAt s (hbmPoint pa)) ptn

/-- L2_MISS_FILL: a line comes from HBM and takes the place of its victim. The controller serves the partitions in
their turn (R188); which of the misses that it may serve is first the spec leaves open. -/
def execL2MissFill (slice : Nat) (s : State) : Out :=
  let sl := s.slice slice
  let able := sl.misses.filter fun m => hbmServes s m.pa m.ptn
  match able[Config.pick s.oracle % able.length]? with
  | some m =>
    let s := hbmServed s m.pa m.ptn
    let t := fillLine { s with oracle := s.oracle + 1 } slice m
    .next (t.setSlice slice ((t.slice slice).served m))
  | none => notEnabled

/-- L2_WRITE_BACK: a line reaches HBM, with its poison mark where it had one; of those in the entries the oldest that the
controller serves now (R188, R390). -/
def execL2WriteBack (slice : Nat) (s : State) : Out :=
  let sl := s.slice slice
  match sl.wbs.find? fun w => hbmServes s w.pa w.ptn with
  | some w =>
    let t := (hbmServed s w.pa w.ptn).setSlice slice ({ sl with wbs := sl.wbs.erase w } : Slice).settled
    .next (if w.bad then { t with poison := t.poison ++ granules w.pa 128 } else t)
  | none => notEnabled

end Sys2Proof.Machine
end

