-- ==== Sys2Proof/Machine/Dispatch.lean ====
section
/-!
DEFINITION. The dispatcher: one arm per constructor of `Instr`, in the table's order.
-/

namespace Sys2Proof.Machine

/-- The meaning of one step. -/
def exec (i : Instr) (s : State) : Host.Outcome State Fault Refusal :=
  match i with
  | .add p ty sat ta tb => Sys2Proof.Machine.execAdd p ty sat ta tb s
  | .sub p ty sat ta tb => Sys2Proof.Machine.execSub p ty sat ta tb s
  | .mul p ty sat ta tb => Sys2Proof.Machine.execMul p ty sat ta tb s
  | .mulh p ty ta tb => Sys2Proof.Machine.execMulh p ty ta tb s
  | .div p ty sat ta tb => Sys2Proof.Machine.execDiv p ty sat ta tb s
  | .rem p ty ta tb => Sys2Proof.Machine.execRem p ty ta tb s
  | .and p ty ta tb => Sys2Proof.Machine.execAnd p ty ta tb s
  | .or p ty ta tb => Sys2Proof.Machine.execOr p ty ta tb s
  | .xor p ty ta tb => Sys2Proof.Machine.execXor p ty ta tb s
  | .andn p ty ta tb => Sys2Proof.Machine.execAndn p ty ta tb s
  | .shl p ty sat ta tb => Sys2Proof.Machine.execShl p ty sat ta tb s
  | .shr p ty ta tb => Sys2Proof.Machine.execShr p ty ta tb s
  | .sar p ty ta tb => Sys2Proof.Machine.execSar p ty ta tb s
  | .rol p ty ta tb => Sys2Proof.Machine.execRol p ty ta tb s
  | .min p ty ta tb => Sys2Proof.Machine.execMin p ty ta tb s
  | .max p ty ta tb => Sys2Proof.Machine.execMax p ty ta tb s
  | .clz p ty ta tb => Sys2Proof.Machine.execClz p ty ta tb s
  | .ctz p ty ta tb => Sys2Proof.Machine.execCtz p ty ta tb s
  | .popc p ty ta tb => Sys2Proof.Machine.execPopc p ty ta tb s
  | .ext p ty ta tb => Sys2Proof.Machine.execExt p ty ta tb s
  | .bswap p ty ta tb => Sys2Proof.Machine.execBswap p ty ta tb s
  | .addi p k ta => Sys2Proof.Machine.execAddi p k ta s
  | .andi p k ta => Sys2Proof.Machine.execAndi p k ta s
  | .ori p k ta => Sys2Proof.Machine.execOri p k ta s
  | .xori p k ta => Sys2Proof.Machine.execXori p k ta s
  | .shli p u ta => Sys2Proof.Machine.execShli p u ta s
  | .shri p u ta => Sys2Proof.Machine.execShri p u ta s
  | .sari p u ta => Sys2Proof.Machine.execSari p u ta s
  | .muli p k ta => Sys2Proof.Machine.execMuli p k ta s
  | .cst p k ta => Sys2Proof.Machine.execCst p k ta s
  | .csth p k ta => Sys2Proof.Machine.execCsth p k ta s
  | .cmp p ty cc ta => Sys2Proof.Machine.execCmp p ty cc ta s
  | .tst p ty cc ta => Sys2Proof.Machine.execTst p ty cc ta s
  | .sel p ty ta tb => Sys2Proof.Machine.execSel p ty ta tb s
  | .lea p k ta => Sys2Proof.Machine.execLea p k ta s
  | .addp p ta tb => Sys2Proof.Machine.execAddp p ta tb s
  | .algn p dn m ta => Sys2Proof.Machine.execAlgn p dn m ta s
  | .rd p g ta => Sys2Proof.Machine.execRd p g ta s
  | .mov p ta tb => Sys2Proof.Machine.execMov p ta tb s
  | .recv p ch ta => Sys2Proof.Machine.execRecv p ch ta s
  | .peek p mk ch ta => Sys2Proof.Machine.execPeek p mk ch ta s
  | .nul p ta tb => Sys2Proof.Machine.execNul p ta tb s
  | .br p e off => Sys2Proof.Machine.execBr p e off s
  | .brx p e => Sys2Proof.Machine.execBrx p e s
  | .call p e off => Sys2Proof.Machine.execCall p e off s
  | .ret p e => Sys2Proof.Machine.execRet p e s
  | .wait p e => Sys2Proof.Machine.execWait p e s
  | .yld p e => Sys2Proof.Machine.execYld p e s
  | .halt p e => Sys2Proof.Machine.execHalt p e s
  | .fadd p ft r sm ta => Sys2Proof.Machine.execFadd p ft r sm ta s
  | .fsub p ft r sm ta => Sys2Proof.Machine.execFsub p ft r sm ta s
  | .fmul p ft r sm ta => Sys2Proof.Machine.execFmul p ft r sm ta s
  | .fma p ft r sm ta => Sys2Proof.Machine.execFma p ft r sm ta s
  | .fdiv p ft r sm ta => Sys2Proof.Machine.execFdiv p ft r sm ta s
  | .fsqrt p ft r sm ta => Sys2Proof.Machine.execFsqrt p ft r sm ta s
  | .fmin p ft ta => Sys2Proof.Machine.execFmin p ft ta s
  | .fmax p ft ta => Sys2Proof.Machine.execFmax p ft ta s
  | .fcmp p ft cc ta => Sys2Proof.Machine.execFcmp p ft cc ta s
  | .fcvt p ft r sm other dir ta => Sys2Proof.Machine.execFcvt p ft r sm other dir ta s
  | .fcls p ft ta => Sys2Proof.Machine.execFcls p ft ta s
  | .ld p m sz o ta => Sys2Proof.Machine.execLd p m sz o ta s
  | .st p m sz o off => Sys2Proof.Machine.execSt p m sz o off s
  | .ldx p m sz o ta => Sys2Proof.Machine.execLdx p m sz o ta s
  | .stx p m sz o off => Sys2Proof.Machine.execStx p m sz o off s
  | .prf p m sz h => Sys2Proof.Machine.execPrf p m sz h s
  | .cln p sc ta => Sys2Proof.Machine.execCln p sc ta s
  | .inv p sc ta => Sys2Proof.Machine.execInv p sc ta s
  | .amo p m wd op sc ta => Sys2Proof.Machine.execAmo p m wd op sc ta s
  | .cas p m wd sc ta => Sys2Proof.Machine.execCas p m wd sc ta s
  | .cas2 p m sc ta => Sys2Proof.Machine.execCas2 p m sc ta s
  | .fnc p o sc ta => Sys2Proof.Machine.execFnc p o sc ta s
  | .fncx p ta => Sys2Proof.Machine.execFncx p ta s
  | .bari p bid sc ta => Sys2Proof.Machine.execBari p bid sc ta s
  | .bara p bid sc ta => Sys2Proof.Machine.execBara p bid sc ta s
  | .barw p bid sc ta => Sys2Proof.Machine.execBarw p bid sc ta s
  | .cfgl p ctx reg ta => Sys2Proof.Machine.execCfgl p ctx reg ta s
  | .cfgs p ta => Sys2Proof.Machine.execCfgs p ta s
  | .arm p ctx reg ta => Sys2Proof.Machine.execArm p ctx reg ta s
  | .darm p ctx reg fre ta => Sys2Proof.Machine.execDarm p ctx reg fre ta s
  | .ctxm p ctx reg mw mode ta => Sys2Proof.Machine.execCtxm p ctx reg mw mode ta s
  | .chbRouteDefault p ta => Sys2Proof.Machine.execChbRouteDefault p ta s
  | .chbRoute p ta => Sys2Proof.Machine.execChbRoute p ta s
  | .chbBind p ta => Sys2Proof.Machine.execChbBind p ta s
  | .inj p m ta => Sys2Proof.Machine.execInj p m ta s
  | .cpy p m h ta => Sys2Proof.Machine.execCpy p m h ta s
  | .mcst p m h ta => Sys2Proof.Machine.execMcst p m h ta s
  | .gth p m h ta => Sys2Proof.Machine.execGth p m h ta s
  | .sct p m h ta => Sys2Proof.Machine.execSct p m h ta s
  | .ksel p m h ta => Sys2Proof.Machine.execKsel p m h ta s
  | .kvpk p m h ta => Sys2Proof.Machine.execKvpk p m h ta s
  | .axrd p m h ta => Sys2Proof.Machine.execAxrd p m h ta s
  | .axwr p m h ta => Sys2Proof.Machine.execAxwr p m h ta s
  | .rsp p ta => Sys2Proof.Machine.execRsp p ta s
  | .fnew p m ta => Sys2Proof.Machine.execFnew p m ta s
  | .fnewGrant p m ta => Sys2Proof.Machine.execFnewGrant p m ta s
  | .fdel p m ta => Sys2Proof.Machine.execFdel p m ta s
  | .fmrg p m mode dz ta => Sys2Proof.Machine.execFmrg p m mode dz ta s
  | .fscn p m stpl ta => Sys2Proof.Machine.execFscn p m stpl ta s
  | .fprb p m ta => Sys2Proof.Machine.execFprb p m ta s
  | .flen p m ta => Sys2Proof.Machine.execFlen p m ta s
  | .snph p ta => Sys2Proof.Machine.execSnph p ta s
  | .snpf p m ta => Sys2Proof.Machine.execSnpf p m ta s
  | .snpp p m ta => Sys2Proof.Machine.execSnpp p m ta s
  | .snpg p m ta => Sys2Proof.Machine.execSnpg p m ta s
  | .snpr p m ta => Sys2Proof.Machine.execSnpr p m ta s
  | .wgl p ctx reg ta => Sys2Proof.Machine.execWgl p ctx reg ta s
  | .wgq p ctx reg ta => Sys2Proof.Machine.execWgq p ctx reg ta s
  | .wgu p ctx reg ta => Sys2Proof.Machine.execWgu p ctx reg ta s
  | .rets p ta => Sys2Proof.Machine.execRets p ta s
  | .retc p ta => Sys2Proof.Machine.execRetc p ta s
  | .wmsk p ta => Sys2Proof.Machine.execWmsk p ta s
  | .l2fl p ta => Sys2Proof.Machine.execL2fl p ta s
  | .nmld p m ta => Sys2Proof.Machine.execNmld p m ta s
  | .nmgo p ta => Sys2Proof.Machine.execNmgo p ta s
  | .nmbx p ta => Sys2Proof.Machine.execNmbx p ta s
  | .nmwk p ta => Sys2Proof.Machine.execNmwk p ta s
  | .trp p tnum ta => Sys2Proof.Machine.execTrp p tnum ta s
  | .eret p ta => Sys2Proof.Machine.execEret p ta s
  | .csrr p csr ta => Sys2Proof.Machine.execCsrr p csr ta s
  | .csrw p csr ta => Sys2Proof.Machine.execCsrw p csr ta s
  | .idle p ta => Sys2Proof.Machine.execIdle p ta s
  | .mbxr p ta => Sys2Proof.Machine.execMbxr p ta s
  | .mbxwResume p ta => Sys2Proof.Machine.execMbxwResume p ta s
  | .mbxwAbort p ta => Sys2Proof.Machine.execMbxwAbort p ta s
  | .mbxwPop p ta => Sys2Proof.Machine.execMbxwPop p ta s
  | .mbxwDelegate p ta => Sys2Proof.Machine.execMbxwDelegate p ta s
  | .irq p vec ta => Sys2Proof.Machine.execIrq p vec ta s
  | .tlbi p sc ta => Sys2Proof.Machine.execTlbi p sc ta s
  | .atst p ta => Sys2Proof.Machine.execAtst p ta s
  | .vadd c => Sys2Proof.Machine.execVadd c s
  | .vsub c => Sys2Proof.Machine.execVsub c s
  | .vmul c => Sys2Proof.Machine.execVmul c s
  | .vfma c => Sys2Proof.Machine.execVfma c s
  | .vmin c => Sys2Proof.Machine.execVmin c s
  | .vmax c => Sys2Proof.Machine.execVmax c s
  | .vabs c => Sys2Proof.Machine.execVabs c s
  | .vneg c => Sys2Proof.Machine.execVneg c s
  | .vand c => Sys2Proof.Machine.execVand c s
  | .vor c => Sys2Proof.Machine.execVor c s
  | .vxor c => Sys2Proof.Machine.execVxor c s
  | .vshl c => Sys2Proof.Machine.execVshl c s
  | .vshr c => Sys2Proof.Machine.execVshr c s
  | .vsar c => Sys2Proof.Machine.execVsar c s
  | .vcmp c => Sys2Proof.Machine.execVcmp c s
  | .vclp c => Sys2Proof.Machine.execVclp c s
  | .vscl c => Sys2Proof.Machine.execVscl c s
  | .vred c => Sys2Proof.Machine.execVred c s
  | .vacc c => Sys2Proof.Machine.execVacc c s
  | .vex2 c => Sys2Proof.Machine.execVex2 c s
  | .vrcp c => Sys2Proof.Machine.execVrcp c s
  | .vsel c => Sys2Proof.Machine.execVsel c s
  | .vprm c => Sys2Proof.Machine.execVprm c s
  | .cvt c => Sys2Proof.Machine.execCvt c s
  | .cvts c => Sys2Proof.Machine.execCvts c s
  | .rng c => Sys2Proof.Machine.execRng c s
  | .oadd c => Sys2Proof.Machine.execOadd c s
  | .omlc c => Sys2Proof.Machine.execOmlc c s
  | .ocmp c => Sys2Proof.Machine.execOcmp c s
  | .sde c => Sys2Proof.Machine.execSde c s
  | .sdd c => Sys2Proof.Machine.execSdd c s
  | .str c => Sys2Proof.Machine.execStr c s
  | .mrg c => Sys2Proof.Machine.execMrg c s
  | .cmrg c => Sys2Proof.Machine.execCmrg c s
  | .cry c => Sys2Proof.Machine.execCry c s
  | .ivr c => Sys2Proof.Machine.execIvr c s
  | .rsel c => Sys2Proof.Machine.execRsel c s
  | .flt c => Sys2Proof.Machine.execFlt c s
  | .stpg c => Sys2Proof.Machine.execStpg c s
  | .stpc c => Sys2Proof.Machine.execStpc c s
  | .rpt c => Sys2Proof.Machine.execRpt c s
  | .jn c => Sys2Proof.Machine.execJn c s
  | .pad c => Sys2Proof.Machine.execPad c s
  | .ngen c => Sys2Proof.Machine.execNgen c s
  | .mma c => Sys2Proof.Machine.execMma c s
  | .mmaw c => Sys2Proof.Machine.execMmaw c s
  | .wpl c => Sys2Proof.Machine.execWpl c s
  | .dly c => Sys2Proof.Machine.execDly c s
  | .lrec c => Sys2Proof.Machine.execLrec c s
  | .adrn c => Sys2Proof.Machine.execAdrn c s
  | .sha n => Sys2Proof.Machine.execSha n s
  | .sum4 n => Sys2Proof.Machine.execSum4 n s
  | .tap n => Sys2Proof.Machine.execTap n s
  | .nrw n => Sys2Proof.Machine.execNrw n s
  | .agr c => Sys2Proof.Machine.execAgr c s
  | .agw c => Sys2Proof.Machine.execAgw c s
  | .tfifo c => Sys2Proof.Machine.execTfifo c s
  | .fin c => Sys2Proof.Machine.execFin c s
  | .fout c => Sys2Proof.Machine.execFout c s
  | .fisx c => Sys2Proof.Machine.execFisx c s
  | .funi c => Sys2Proof.Machine.execFuni c s
  | .nbRdw n => Sys2Proof.Machine.execNbRdw n s
  | .nbWrw n => Sys2Proof.Machine.execNbWrw n s
  | .nbAdd n => Sys2Proof.Machine.execNbAdd n s
  | .nbMul n => Sys2Proof.Machine.execNbMul n s
  | .nbMac n => Sys2Proof.Machine.execNbMac n s
  | .nbMin n => Sys2Proof.Machine.execNbMin n s
  | .nbMax n => Sys2Proof.Machine.execNbMax n s
  | .nbCmp n => Sys2Proof.Machine.execNbCmp n s
  | .nbSel n => Sys2Proof.Machine.execNbSel n s
  | .nbCnt n => Sys2Proof.Machine.execNbCnt n s
  | .nbMbx n => Sys2Proof.Machine.execNbMbx n s
  | .nbDone n => Sys2Proof.Machine.execNbDone n s
  | .nearBankRunStart unit => Sys2Proof.Machine.execNearBankRunStart unit s
  | .nearBankGraphReplace unit => Sys2Proof.Machine.execNearBankGraphReplace unit s
  | .nop q e => Sys2Proof.Machine.execNop q e s
  | .launch q e => Sys2Proof.Machine.execLaunch q e s
  | .waitq q e => Sys2Proof.Machine.execWaitq q e s
  | .signal q e => Sys2Proof.Machine.execSignal q e s
  | .copy q e => Sys2Proof.Machine.execCopy q e s
  | .nmrun q e => Sys2Proof.Machine.execNmrun q e s
  | .ringreset q e => Sys2Proof.Machine.execRingreset q e s
  | .tcreate q e => Sys2Proof.Machine.execTcreate q e s
  | .tdestroy q e => Sys2Proof.Machine.execTdestroy q e s
  | .winset q e => Sys2Proof.Machine.execWinset q e s
  | .pcreate q e => Sys2Proof.Machine.execPcreate q e s
  | .pdestroy q e => Sys2Proof.Machine.execPdestroy q e s
  | .preset q e => Sys2Proof.Machine.execPreset q e s
  | .pswap q e => Sys2Proof.Machine.execPswap q e s
  | .psetStage1Root q e => Sys2Proof.Machine.execPsetStage1Root q e s
  | .psetStage2Range q e => Sys2Proof.Machine.execPsetStage2Range q e s
  | .psetInboundWindow q e => Sys2Proof.Machine.execPsetInboundWindow q e s
  | .psetRing q e => Sys2Proof.Machine.execPsetRing q e s
  | .psetInterruptVector q e => Sys2Proof.Machine.execPsetInterruptVector q e s
  | .commandEntryFetch q => Sys2Proof.Machine.execCommandEntryFetch q s
  | .completionEntryPost q => Sys2Proof.Machine.execCompletionEntryPost q s
  | .ringWritePointerStore q v => Sys2Proof.Machine.execRingWritePointerStore q v s
  | .completionReadPointerStore q v => Sys2Proof.Machine.execCompletionReadPointerStore q v s
  | .ownerWindowWrite off v => Sys2Proof.Machine.execOwnerWindowWrite off v s
  | .hostPostedWrite addr bytes => Sys2Proof.Machine.execHostPostedWrite addr bytes s
  | .hostRead addr n => Sys2Proof.Machine.execHostRead addr n s
  | .launchDrainComplete launch => Sys2Proof.Machine.execLaunchDrainComplete launch s
  | .blockIssue se => Sys2Proof.Machine.execBlockIssue se s
  | .blockCommit tid => Sys2Proof.Machine.execBlockCommit tid s
  | .commitResultLanding id => Sys2Proof.Machine.execCommitResultLanding id s
  | .channelWordArrival id => Sys2Proof.Machine.execChannelWordArrival id s
  | .engineResponse id => Sys2Proof.Machine.execEngineResponse id s
  | .transferComplete id => Sys2Proof.Machine.execTransferComplete id s
  | .armApply id => Sys2Proof.Machine.execArmApply id s
  | .phaseEnd r => Sys2Proof.Machine.execPhaseEnd r s
  | .selectorWake r => Sys2Proof.Machine.execSelectorWake r s
  | .pendingSectionFetch r ctx => Sys2Proof.Machine.execPendingSectionFetch r ctx s
  | .stagedFetchComplete r ctx => Sys2Proof.Machine.execStagedFetchComplete r ctx s
  | .switchTimeWord id => Sys2Proof.Machine.execSwitchTimeWord id s
  | .contextSwitch r => Sys2Proof.Machine.execContextSwitch r s
  | .routerForward r ctx link => Sys2Proof.Machine.execRouterForward r ctx link s
  | .elementClockGate r ctx pos => Sys2Proof.Machine.execElementClockGate r ctx pos s
  | .elementWake r ctx pos => Sys2Proof.Machine.execElementWake r ctx pos s
  | .lanePowerGate tile lane => Sys2Proof.Machine.execLanePowerGate tile lane s
  | .lanePowerUp tile lane => Sys2Proof.Machine.execLanePowerUp tile lane s
  | .laneWakeFailure tile lane => Sys2Proof.Machine.execLaneWakeFailure tile lane s
  | .stallWatchdog r => Sys2Proof.Machine.execStallWatchdog r s
  | .preempt launch => Sys2Proof.Machine.execPreempt launch s
  | .preemptDrainTimeout launch => Sys2Proof.Machine.execPreemptDrainTimeout launch s
  | .preemptResume launch => Sys2Proof.Machine.execPreemptResume launch s
  | .mailboxRecordWrite ptn die => Sys2Proof.Machine.execMailboxRecordWrite ptn die s
  | .faultNotice id => Sys2Proof.Machine.execFaultNotice id s
  | .pageWalk id => Sys2Proof.Machine.execPageWalk id s
  | .l2MissFill slice => Sys2Proof.Machine.execL2MissFill slice s
  | .l2WriteBack slice => Sys2Proof.Machine.execL2WriteBack slice s
  | .arbitrationFrame point => Sys2Proof.Machine.execArbitrationFrame point s
  | .packetEviction point urgent => Sys2Proof.Machine.execPacketEviction point urgent s
  | .evictionNotice id => Sys2Proof.Machine.execEvictionNotice id s
  | .endToEndAck id => Sys2Proof.Machine.execEndToEndAck id s
  | .shelverGrant id => Sys2Proof.Machine.execShelverGrant id s
  | .shelverNew id => Sys2Proof.Machine.execShelverNew id s
  | .shelverMerge id => Sys2Proof.Machine.execShelverMerge id s
  | .scanStart id => Sys2Proof.Machine.execScanStart id s
  | .scanStep id => Sys2Proof.Machine.execScanStep id s
  | .shelverProbe id => Sys2Proof.Machine.execShelverProbe id s
  | .shelverLength id => Sys2Proof.Machine.execShelverLength id s
  | .shelverDelete id => Sys2Proof.Machine.execShelverDelete id s
  | .concordanceFind id => Sys2Proof.Machine.execConcordanceFind id s
  | .concordanceGet id => Sys2Proof.Machine.execConcordanceGet id s
  | .concordanceRelease id => Sys2Proof.Machine.execConcordanceRelease id s
  | .concordanceInsert id => Sys2Proof.Machine.execConcordanceInsert id s
  | .heartbeatSend tile => Sys2Proof.Machine.execHeartbeatSend tile s
  | .heartbeatReceive id => Sys2Proof.Machine.execHeartbeatReceive id s
  | .neighbourJudgement tile dir => Sys2Proof.Machine.execNeighbourJudgement tile dir s
  | .voteWord id => Sys2Proof.Machine.execVoteWord id s
  | .withdrawalWord id => Sys2Proof.Machine.execWithdrawalWord id s
  | .fenceWord id => Sys2Proof.Machine.execFenceWord id s
  | .fenceWithdrawal id => Sys2Proof.Machine.execFenceWithdrawal id s
  | .selfTestRun tile pass => Sys2Proof.Machine.execSelfTestRun tile pass s
  | .probationComplete tile => Sys2Proof.Machine.execProbationComplete tile s
  | .reinstate tile => Sys2Proof.Machine.execReinstate tile s
  | .reinstateWord id => Sys2Proof.Machine.execReinstateWord id s
  | .swapExchange ptn => Sys2Proof.Machine.execSwapExchange ptn s
  | .swapComplete ptn => Sys2Proof.Machine.execSwapComplete ptn s
  | .responseLogAppend id => Sys2Proof.Machine.execResponseLogAppend id s
  | .resetEpochDrained ptn => Sys2Proof.Machine.execResetEpochDrained ptn s
  | .powerOn fwEd fwMl cfgEd cfgMl => Sys2Proof.Machine.execPowerOn fwEd fwMl cfgEd cfgMl s
  | .moduleReset => Sys2Proof.Machine.execModuleReset s
  | .functionSelfTestDone kind inst pass => Sys2Proof.Machine.execFunctionSelfTestDone kind inst pass s
  | .unitReadinessLost kind inst state => Sys2Proof.Machine.execUnitReadinessLost kind inst state s
  | .alarmGuardBand die clock => Sys2Proof.Machine.execAlarmGuardBand die clock s
  | .alarmLinkTamper die ptile => Sys2Proof.Machine.execAlarmLinkTamper die ptile s
  | .debugPortAccess die port grant => Sys2Proof.Machine.execDebugPortAccess die port grant s
  | .recoveryDoorbell length edOk mlOk => Sys2Proof.Machine.execRecoveryDoorbell length edOk mlOk s
  | .hbmPatrolScrub stack => Sys2Proof.Machine.execHbmPatrolScrub stack s
  | .memoryResponse id => Sys2Proof.Machine.execMemoryResponse id s
  | .preemptDrainComplete launch => Sys2Proof.Machine.execPreemptDrainComplete launch s
  | .invalidationComplete tid => Sys2Proof.Machine.execInvalidationComplete tid s
  | .lossOfPower => Sys2Proof.Machine.execLossOfPower s

end Sys2Proof.Machine
end

