-- ==== Sys2Proof/Machine/Events.lean ====
section
/-!
DEFINITION. The meaning of each event by its name in `Event`, which is that of its row, and the events
that a state may enable.
-/

namespace Sys2Proof.Machine

/-- A command that starts, read from its eight words (R182). -/
def runCommand (q : QueueRef) (ws : List Word) (s : State) : Out :=
  match decodeCmd q (joinBits 64 (ws.map (·.toNat))) with
  | some i => exec i s
  | none => notEnabled

/-- What an event does: the meaning of the row it names. -/
def runEvent (e : Event) (s : State) : Out :=
  match e with
  -- ARMS
  | .nearBankRunStart unit => execNearBankRunStart unit s
  | .nearBankGraphReplace unit => execNearBankGraphReplace unit s
  | .commandEntryFetch q => execCommandEntryFetch q s
  | .completionEntryPost q => execCompletionEntryPost q s
  | .ringWritePointerStore q v => execRingWritePointerStore q v s
  | .completionReadPointerStore q v => execCompletionReadPointerStore q v s
  | .ownerWindowWrite off v => execOwnerWindowWrite off v s
  | .hostPostedWrite addr bytes => execHostPostedWrite addr bytes s
  | .hostRead addr n => execHostRead addr n s
  | .launchDrainComplete launch => execLaunchDrainComplete launch s
  | .blockIssue se => execBlockIssue se s
  | .blockCommit tid => execBlockCommit tid s
  | .commitResultLanding id => execCommitResultLanding id s
  | .channelWordArrival id => execChannelWordArrival id s
  | .engineResponse id => execEngineResponse id s
  | .transferComplete id => execTransferComplete id s
  | .armApply id => execArmApply id s
  | .phaseEnd r => execPhaseEnd r s
  | .selectorWake r => execSelectorWake r s
  | .pendingSectionFetch r ctx => execPendingSectionFetch r ctx s
  | .stagedFetchComplete r ctx => execStagedFetchComplete r ctx s
  | .switchTimeWord id => execSwitchTimeWord id s
  | .contextSwitch r => execContextSwitch r s
  | .routerForward r ctx link => execRouterForward r ctx link s
  | .elementClockGate r ctx pos => execElementClockGate r ctx pos s
  | .elementWake r ctx pos => execElementWake r ctx pos s
  | .lanePowerGate tile lane => execLanePowerGate tile lane s
  | .lanePowerUp tile lane => execLanePowerUp tile lane s
  | .laneWakeFailure tile lane => execLaneWakeFailure tile lane s
  | .stallWatchdog r => execStallWatchdog r s
  | .preempt launch => execPreempt launch s
  | .preemptDrainTimeout launch => execPreemptDrainTimeout launch s
  | .preemptResume launch => execPreemptResume launch s
  | .mailboxRecordWrite ptn die => execMailboxRecordWrite ptn die s
  | .faultNotice id => execFaultNotice id s
  | .pageWalk id => execPageWalk id s
  | .l2MissFill slice => execL2MissFill slice s
  | .l2WriteBack slice => execL2WriteBack slice s
  | .arbitrationFrame point => execArbitrationFrame point s
  | .packetEviction point urgent => execPacketEviction point urgent s
  | .evictionNotice id => execEvictionNotice id s
  | .endToEndAck id => execEndToEndAck id s
  | .shelverGrant id => execShelverGrant id s
  | .shelverNew id => execShelverNew id s
  | .shelverMerge id => execShelverMerge id s
  | .scanStart id => execScanStart id s
  | .scanStep id => execScanStep id s
  | .shelverProbe id => execShelverProbe id s
  | .shelverLength id => execShelverLength id s
  | .shelverDelete id => execShelverDelete id s
  | .concordanceFind id => execConcordanceFind id s
  | .concordanceGet id => execConcordanceGet id s
  | .concordanceRelease id => execConcordanceRelease id s
  | .concordanceInsert id => execConcordanceInsert id s
  | .heartbeatSend tile => execHeartbeatSend tile s
  | .heartbeatReceive id => execHeartbeatReceive id s
  | .neighbourJudgement tile dir => execNeighbourJudgement tile dir s
  | .voteWord id => execVoteWord id s
  | .withdrawalWord id => execWithdrawalWord id s
  | .fenceWord id => execFenceWord id s
  | .fenceWithdrawal id => execFenceWithdrawal id s
  | .selfTestRun tile pass => execSelfTestRun tile pass s
  | .probationComplete tile => execProbationComplete tile s
  | .reinstate tile => execReinstate tile s
  | .reinstateWord id => execReinstateWord id s
  | .swapExchange ptn => execSwapExchange ptn s
  | .swapComplete ptn => execSwapComplete ptn s
  | .responseLogAppend id => execResponseLogAppend id s
  | .resetEpochDrained ptn => execResetEpochDrained ptn s
  | .powerOn fwEd fwMl cfgEd cfgMl => execPowerOn fwEd fwMl cfgEd cfgMl s
  | .moduleReset => execModuleReset s
  | .functionSelfTestDone kind inst pass => execFunctionSelfTestDone kind inst pass s
  | .unitReadinessLost kind inst state => execUnitReadinessLost kind inst state s
  | .alarmGuardBand die clock => execAlarmGuardBand die clock s
  | .alarmLinkTamper die ptile => execAlarmLinkTamper die ptile s
  | .debugPortAccess die port grant => execDebugPortAccess die port grant s
  | .recoveryDoorbell length edOk mlOk => execRecoveryDoorbell length edOk mlOk s
  | .hbmPatrolScrub stack => execHbmPatrolScrub stack s
  | .memoryResponse id => execMemoryResponse id s
  | .preemptDrainComplete launch => execPreemptDrainComplete launch s
  | .invalidationComplete tid => execInvalidationComplete tid s
  | .lossOfPower => execLossOfPower s
  | .command q ws => runCommand q ws s
  -- END

/-- The events that operations in flight may enable. -/
def opEvents (o : Op) : List Event :=
  [.commitResultLanding o.id, .engineResponse o.id, .armApply o.id, .memoryResponse o.id, .shelverGrant o.id,
   .shelverNew o.id, .shelverMerge o.id, .scanStart o.id, .scanStep o.id, .shelverProbe o.id, .shelverLength o.id,
   .shelverDelete o.id, .concordanceFind o.id, .concordanceGet o.id, .concordanceRelease o.id, .concordanceInsert o.id,
   .packetEviction o.pkt.point o.id, .evictionNotice o.id, .responseLogAppend o.id]

/-- The events that words on the control network may enable. -/
def wordEvents (w : CtrlWord) : List Event :=
  [.channelWordArrival w.id, .switchTimeWord w.id, .faultNotice w.id, .heartbeatReceive w.id, .voteWord w.id,
   .withdrawalWord w.id, .fenceWord w.id, .fenceWithdrawal w.id, .reinstateWord w.id]

/-- The commands of a queue that have started and may have had to wait. -/
def waitingCommands (q : QueueRef) (r : Ring) : List Event :=
  (r.started.filter fun y => entryOk q y.words && waitsFor y.words).map fun (y : Started) => Event.command q y.words

/-- The events of a partition. -/
def partEvents (p : Nat) (x : Partition) : List Event :=
  x.rings.flatMap (fun (r : Nat × Ring) => Event.commandEntryFetch (.part p r.1) :: waitingCommands (.part p r.1) r.2) ++
  [.completionEntryPost (.part p 21), .swapExchange p, .swapComplete p, .resetEpochDrained p] ++
  (mkeys x.waitrec).map fun d => .mailboxRecordWrite p d

/-- The actors of the tasks. -/
def taskActors (s : State) (tid : Nat) (t : Task) : List Actor :=
  Actor.event (.invalidationComplete tid) ::
  (match t.blk with
   | none => [.event (.blockIssue (seOf tid))]
   | some b => if taskActs s t then .event (.blockCommit tid) :: (natRange 0 b.n).map fun k => .slot tid k else [])

/-- The actors of the near-bank units. -/
def unitActors (u : Nat) (x : NbUnit) : List Actor :=
  match x.graph with
  | some ws => (natRange 0 ws.length).map fun k => .node u k
  | none => []

/-- The events of the module's other units. -/
def moduleEvents (s : State) : List Event :=
  let units := mkeys s.nb ++ s.ops.filterMap fun (o : Op) => match o.target with | .unit u => some u | _ => none
  s.ops.flatMap opEvents ++ s.ctrl.flatMap wordEvents ++
  s.parts.flatMap (fun (p : Nat × Partition) => partEvents p.1 p.2) ++
  (mkeys s.launches).flatMap (fun l => [Event.launchDrainComplete l, .preemptDrainComplete l, .preemptDrainTimeout l]) ++
  s.copies.map (fun (c : Copy) => Event.endToEndAck c.id) ++
  s.transfers.map (fun (t : Transfer) => Event.transferComplete t.id) ++
  s.walks.map (fun (w : Walk) => Event.pageWalk w.id) ++
  (mkeys s.slices).flatMap (fun n => [Event.l2MissFill n, .l2WriteBack n]) ++
  (mkeys s.frames).map (fun p => Event.arbitrationFrame p) ++
  units.flatMap (fun u => [Event.nearBankRunStart u, .nearBankGraphReplace u]) ++
  s.tiles.flatMap (fun (t : Nat × Tile) => tileEvents t.1 t.2) ++
  [Event.commandEntryFetch .module, .completionEntryPost .module] ++
  waitingCommands .module s.modq ++
  (if powered s then (natRange 0 16384).flatMap (fenceEvents s) ++ (natRange 0 12).map (fun n => Event.hbmPatrolScrub n) else [])

/-- Everything that may act in a state; what cannot is refused by its own meaning. -/
def actors (s : State) : List Actor :=
  s.fab.tasks.flatMap (fun (t : Nat × Task) => taskActors s t.1 t.2) ++
  s.fab.regions.flatMap (fun (g : Nat × Region) => regionActors g.1 g.2 ++ (regionEvents g.1 g.2).map Actor.event) ++
  s.nb.flatMap (fun (u : Nat × NbUnit) => unitActors u.1 u.2) ++
  (moduleEvents s).map Actor.event ++ [Actor.input]

end Sys2Proof.Machine
end

