-- ==== Sys2Proof/Machine/Fetch.lean ====
section
/-!
DEFINITION. What an actor's step runs: the fetch of a slot's, an element's or a node's word, its decoding
(spec/12_encodings.md), and the choice of the next actor (R446; log entries 1, 6 and 7).
-/

namespace Sys2Proof.Machine

/-- The row that slot k of a task's block in flight stands for: its word decoded, and the row that its
operands select. -/
def slotRow (s : State) (tid k : Nat) : Option Instr :=
  match (s.task? tid).bind (·.blk) with
  | some b => (slotInstr s tid b k).map fun i => refine i (b.slot k).a.word (b.slot k).b.word
  | none => none

/-- The row of the element or Folio node at a position. -/
def elemRow (s : State) (r k pos : Nat) : Option Instr :=
  match s.region? r with
  | some g =>
    match posKind pos with
    | .node n => (g.ctx k).folio.bind fun f => (f.nodes[n]?).bind fun w => decodeFolio w.toNat
    | _ => decodeElem ((g.ctx k).word pos)
  | none => none

/-- The row of a node of a near-bank unit's graph. -/
def nodeRow (s : State) (u k : Nat) : Option Instr :=
  (s.unit u).graph.bind fun ws => (ws[k]?).bind fun w => decodeNode w.toNat

/-- A row that has been fetched is run. -/
def runRow (i : Option Instr) (s : State) : Out :=
  match i with
  | some i => exec i s
  | none => notReady

/-- One actor's step. -/
def act (a : Actor) (s : State) : Out :=
  match a with
  | .slot tid k => runRow (slotRow s tid k) { s with cur := .firing tid k }
  | .elem r k pos => runRow (elemRow s r k pos) { s with cur := .elem r k pos }
  | .node u k => runRow (nodeRow s u k) { s with cur := .node u k }
  | .event e => runEvent e s
  | .input =>
    match s.inputs with
    | e :: es => runEvent e { s with inputs := es }
    | [] => notEnabled

/-- Whether an actor can take its step. -/
def canAct (s : State) (a : Actor) : Bool :=
  match act a s with
  | .next _ => true
  | _ => false

/-- What comes first in a cycle: a switch at its time (R69), and at the start of a heartbeat period the judgements on
the period before and then the heartbeats (R374, R375). -/
def dueActors (s : State) : List Actor :=
  (s.fab.regions.filter fun g => (g.2.dueSwitch s.time).isSome).map (fun g => Actor.event (.contextSwitch g.1)) ++
  (if powered s then
    (natRange 0 16384).flatMap (fun t => (natRange 0 4).map fun d => Actor.event (.neighbourJudgement t d)) ++
      (natRange 0 16384).map fun t => Actor.event (.heartbeatSend t)
   else [])

/-- What comes last in a cycle, so that what becomes a candidate in it takes part in the selection: the end of a phase
and the waking of a selector (R35, R350). -/
def lastActors (s : State) : List Actor :=
  s.fab.regions.flatMap fun g => [Actor.event (.phaseEnd g.1), .event (.selectorWake g.1)]

/-- Whether an actor acts last in its cycle. -/
def Actor.isLast : Actor → Bool
  | .event (.phaseEnd _) => true
  | .event (.selectorWake _) => true
  | _ => false

/-- The times at which something comes first. -/
def dueTimes (s : State) : List Nat :=
  (s.fab.regions.flatMap fun g => (g.2.switches.map (·.t)).filter fun t => decide (s.time < t)) ++
  (if powered s then [(s.time / 65536 + 1) * 65536] else [])

/-- The errors that are corrected in flight in the cycles that pass, whose numbers the spec leaves open, are counted by die
and kind of storage (R403; log entry 62). -/
def countErrors (s : State) : State :=
  if !powered s then s
  else ((natRange 0 4).flatMap fun die => (natRange 0 4).map (errIndex die)).foldl (fun s i =>
    let (n, t) := s.free
    { t with errs := mmod t.errs i 0 fun c => Nat.min (c + n.toNat) (2 ^ 32 - 1) }) s

/-- A cycle ends: corrected errors are counted, withdrawals noted in it act (R378), the placement map reaches some tiles (R373), and time goes on by
d cycles, at most to the next time at which something comes first. -/
def tick (s : State) (d : Nat) : State :=
  let t := spreadMap (applyWithdrawals (countErrors s)) (Config.pick s.oracle % (s.tiles.length + 1))
  passTime { t with oracle := t.oracle + 1 } ((dueTimes s).foldl (fun n x => Nat.min n (x - s.time)) d)

/-- What comes last in a cycle happens, each region in turn, and then every slot that can be freed is (R35, R130, R350,
R364): a selection is the last of its cycle, so that every token and ARM of the cycle takes part in it. -/
def endCycle (s : State) : State :=
  let s := (lastActors s).foldl (fun s a => match act a s with | .next t => t | _ => s) s
  (s.fab.regions.filter fun g => regionRuns s g.2).foldl (fun s g => tryFreeAll s g.1) s

/-- The actor that is chosen among those that can act, but for what acts last in its cycle: none when none can. -/
def choice (s : State) : Option Actor :=
  let able := (actors s).filter fun a => canAct s a && !a.isLast
  able[Config.pick s.oracle % able.length]?

/-- The step that is chosen: what comes first in the cycle; within a cycle, an actor; at its end, what comes last, and
time goes on. -/
def actChosen (s : State) : Out :=
  match (dueActors s).find? (canAct s) with
  | some a => act a s
  | none =>
    let d := Config.cycles s.oracle
    let t := { s with oracle := s.oracle + 1 }
    if d = 0 then
      match choice t with
      | some a => act a { t with oracle := t.oracle + 1 }
      | none => .next t
    else .next (tick (endCycle t) d)

/-- The block in flight that `withFetchWord` places: one slot, its buffers full of zeros, its predicate
buffer matching the word's predicate (R216). -/
def probeBlock (w : Nat) : Block :=
  ⟨0, 1, 0, 0, true, false, [⟨.val 0, .val 0, .val 0, .val (if field w 24 23 = 1 then 1 else 0), .waiting⟩], [], 0, [], [], 0, [], [], 0, gatesOf (fun _ => w) 1, []⟩

/-- The task that `withFetchWord` places: RUNNABLE at level 1 in slot 0 of SE 0, all registers zero. -/
def probeTask (w : Nat) : Task where
  ptn := 0
  launch := 0
  root := true
  state := .runnable
  pc := 0
  regs := lrep 64 0
  fsr := 0
  fcost := 0
  prio := 1
  level := 1
  ret := []
  lastExit := 0
  routes := []
  pend := []
  waitOn := .nothing
  barW := []
  yielded := []
  resp := [⟨0, some 0⟩]
  invs := []
  after := []
  afterW := []
  resumeAt := none
  held := false
  asleep := false
  trap := []
  blk := some (probeBlock w)

end Sys2Proof.Machine
end

