-- ==== Sys2Proof/Machine/Step.lean ====
section
/-!
DEFINITION. One step of the machine: the actor that stands next, or, when none stands next, the one that is
chosen; and the state in which a given word is the next one fetched.
-/

namespace Sys2Proof.Machine

/-- One step. -/
def step (s : State) : Host.Outcome State Fault Refusal :=
  match s.agenda with
  | a :: as => act a { s with agenda := as }
  | [] => actChosen s

/-- The state with an instruction word in slot 0 of a block in flight of task 0, whose turn it is: the word
stands behind its header in the instruction store of SE 0. -/
def State.withFetchWord (s : State) (nbits w : Nat) : State :=
  { s with
    agenda := [.slot 0 0]
    fab := { s.fab with
      istore := Memory.writeN s.fab.istore 0 (bytesOfNat 4 0xB0000000 ++ bytesOfNat 4 (w % 2 ^ nbits))
      tasks := mset s.fab.tasks 0 (probeTask w) } }

end Sys2Proof.Machine
end

