-- ==== Sys2Proof/Safety.lean ====
section
/-!
DEFINITION. The terms that statements use: the form of the state that every step keeps, when a slot fires and
what it then leaves, when a commit form acts, when an element fires, and what a step leaves unchanged.
-/

namespace Sys2Proof.Machine

/-! ### The form of the state -/

/-- HBM, host memory, the Annex and the owner window are held in canonical form. -/
def State.memoriesOk (s : State) : Bool :=
  Memory.wf s.mem && Memory.wf s.hostMem && Memory.wf s.annex && Memory.wf s.owner

/-! ### Slots -/

/-- Slot k of the block b in flight of task t fires, in predicate mode p and with the operands x, y and z that
its opcode requires (R233-R235). -/
def Fires (s : State) (p : Pred) (n : Needs) (tid k : Nat) (t : Task) (b : Block) (x y z : Word) : Prop :=
  s.cur = .firing tid k ∧ s.task? tid = some t ∧ t.blk = some b ∧ fireOf p n (b.slot k) = .go x y z

/-- The block once slot k has fired with a value and flags: none when a buffer or a register has one already. -/
def afterFire (b : Block) (k : Nat) (ts : List Target) (v : Word) (fl : Nat) : Option Block :=
  ({ b.mark k .fired with flags := Nat.lor b.flags fl }).deliverAll k 0 v ts

/-- What the firing of slot k with a value and flags leaves: the value at its targets and nothing else changed, or,
where one of them has a value already, the task with exception 0x0109 (R233, R236, R420). -/
def firedWith (s : State) (tid k : Nat) (t : Task) (b : Block) (ts : List Target) (v : Word) (fl : Nat) : State :=
  match afterFire b k ts v fl with
  | some b' => putBlock s tid t b'
  | none => takeFault s tid (exc 0x0109)

/-- An instruction fires with a value and flags. -/
def GivesValue (i : Instr) (s : State) (tid k : Nat) (t : Task) (b : Block) (ts : List Target) (v : Word) (fl : Nat) : Prop :=
  exec i s = .next (firedWith s tid k t b ts v fl)

/-- The low bits of a word at the width of a type, extended to 64 bits by the type (R241). -/
def extendBits (ty : Ty) (v : Word) : Word :=
  if ty.signed then (v.setWidth ty.width).signExtend 64 else (v.setWidth ty.width).setWidth 64

/-- The end of the range of a type that is nearest an integer, or the integer itself (R241). -/
def clampInt (ty : Ty) (e : Int) : Int := if e < tyMin ty then tyMin ty else if tyMax ty < e then tyMax ty else e

/-- The flags of a saturating result (R241). -/
def clampFlags (ty : Ty) (e : Int) : Nat := if e < tyMin ty ∨ tyMax ty < e then Nat.lor fSAT fNX else 0

/-! ### Commit forms -/

/-- The commit form of slot k of task tid acts with its operands, at its block's commit (R261). -/
def Commits (s : State) (tid k : Nat) (a b c : Word) : Prop := s.cur = .commit tid k a b c

/-! ### Frames -/

/-- No byte of HBM, of a scratch way, of host memory, of the Annex or of the owner window has changed. -/
def SameMemory (s s' : State) : Prop :=
  s'.mem = s.mem ∧ s'.hostMem = s.hostMem ∧ s'.annex = s.annex ∧ s'.owner = s.owner

/-- Every task but one is as it was. -/
def OthersKept (s s' : State) (tid : Nat) : Prop := ∀ u, u ≠ tid → s'.task? u = s.task? u

/-- A task that has changed in nothing but the registers and responses it awaits and the requests that its later
accesses wait for. -/
def Task.OrderOnly (t t' : Task) : Prop :=
  t' = { t with pend := t'.pend, resp := t'.resp, after := t'.after, afterW := t'.afterW, afterS := t'.afterS, afterX := t'.afterX }

/-- A commit form of task tid has sent one operation, which waits for the operations `wait`, and has changed
neither a memory nor another task. -/
def Sends (s s' : State) (tid : Nat) (t : Task) (target : Agent) (k : Nat) (dest : Dest) (wait : List Nat) (act : Act) : Prop :=
  SameMemory s s' ∧ OthersKept s s' tid ∧ (∃ t', s'.task? tid = some t' ∧ t.OrderOnly t') ∧
  ∃ o, s'.ops = s.ops ++ [o] ∧ o.id = s.nextId ∧ o.src = .task tid ∧ o.ptn = t.ptn ∧ o.target = target ∧ o.dest = dest ∧
    o.k = k ∧ o.act = act ∧ ∀ i ∈ wait, i ∈ o.after

/-- As `Sends`, and partitions, channels and regions are as they were. -/
def SendsOnly (s s' : State) (tid : Nat) (t : Task) (target : Agent) (k : Nat) (dest : Dest) (wait : List Nat) (act : Act) : Prop :=
  Sends s s' tid t target k dest wait act ∧ s'.parts = s.parts ∧ s'.fab.chans = s.fab.chans ∧ s'.fab.regions = s.fab.regions

/-- A commit form of task tid gives its results at once: they are on their way to its target (R262). -/
def Gives (s s' : State) (tid : Nat) (t : Task) (ta : Target) (vals : List Word) : Prop :=
  Sends s s' tid t (.task tid) vals.length (destOf t tid false ta) [] (.land vals 0 false)

/-- As `Gives`, and partitions, channels and regions are as they were. -/
def GivesOnly (s s' : State) (tid : Nat) (t : Task) (ta : Target) (vals : List Word) : Prop :=
  SendsOnly s s' tid t (.task tid) vals.length (destOf t tid false ta) [] (.land vals 0 false)

/-- The commit form i, whose turn it is in task tid, completes in a state of which P holds. -/
def Completes (i : Instr) (s : State) (P : State → Prop) : Prop := ∃ s', exec i s = .next s' ∧ P s'

/-- A commit form of task t acts now: its turn has come with its operands, no translation invalidation of its
task is under way, and no form of it waits behind one (R297). -/
def Turn (s : State) (tid k : Nat) (t : Task) (a b c : Word) : Prop :=
  Commits s tid k a b c ∧ s.task? tid = some t ∧ t.invs = [] ∧ t.later = []

/-- The last operation that has set out waits for the requests `wait`, at the scopes that stand with them, only where
an agent of that scope could see it (R167). -/
def WaitsNarrowly (s' : State) (wait : List (Nat × Nat)) : Prop := ∃ o, s'.ops.getLast? = some o ∧ ∀ i ∈ wait, i ∈ o.soft

/-- The later accesses of task tid wait for request id, where a scope is given that is wider than elem (R168). -/
def Acquires (s' : State) (tid id : Nat) (sc : Option Scope) : Prop :=
  ∀ q, sc = some q → q ≠ .elem → ∃ t', s'.task? tid = some t' ∧ id ∈ t'.after

/-- A task at the end of a block's commit, before its exit acts: the block's register writes and flags are in it
(R237). -/
def Task.committed (t : Task) (b : Block) : Task :=
  { b.regw.foldl (fun t r => t.setReg r.1 r.2) t with
    fsr := fsrOr t.fsr b.flags, blk := none, later := t.later.map (·.withFlags b.flags) }

/-- Whether an instruction takes a word from a channel or looks at one. -/
def readsChannel : Instr → Bool
  | .recv .. => true | .peek .. => true | _ => false

/-- Slot j of a block takes no word from a channel and no response: it has not fired, or it is no RECV, PEEK or
RSP. -/
def TakesNothing (s : State) (tid : Nat) (b : Block) (j : Nat) : Prop :=
  (b.slot j).phase = .fired → isRspWord (slotWord s tid b j) = false ∧ (∀ ch, isRecvOf ch (slotWord s tid b j) = false) ∧
    ∀ i, slotInstr s tid b j = some i → readsChannel i = false

/-- The block of a task can commit with the exit of slot k, whose operand is a, and nothing but register writes: its
counts are met, its loads have returned without a fault, no commit form, channel word, RECV, PEEK or RSP of it has
fired, and its launch runs (R236). -/
def ReadyToCommit (s : State) (tid k : Nat) (t : Task) (b : Block) (i : Instr) (a : Word) : Prop :=
  s.task? tid = some t ∧ t.blk = some b ∧ taskActs s t = true ∧ (mget s.launches t.launch).map (·.state) = some .running ∧
  t.trap = [] ∧ (∃ y z, b.exits = [⟨k, a, y, z⟩]) ∧ slotInstr s tid b k = some i ∧ b.regn = b.w ∧ b.outn = b.s ∧
  b.caps = [] ∧ b.chans = [] ∧ b.bad = [] ∧ loadDue s tid b = false ∧ k < b.n ∧ ∀ j < b.n, TakesNothing s tid b j

/-- The block b in flight of task t commits now: its counts are met, its loads have returned, its forms wait neither for a
walk nor for anything else, no check finds a fault, and the response stream has room (R236, R264, R280). -/
def MayCommit (s : State) (tid : Nat) (t : Task) (b : Block) : Prop :=
  s.task? tid = some t ∧ t.blk = some b ∧ taskActs s t = true ∧ countsMet b = true ∧ loadDue s tid b = false ∧
  formsWalked s tid t b = true ∧ commitFault s tid t b (natRange 0 b.n) = none ∧ formsReady s tid b = true ∧ roomForAll s tid t b = true

/-- The commit of a task's block leaves the task t' and changes nothing else but its launch. -/
def CommitsTo (s : State) (tid : Nat) (t' : Task) : Prop :=
  Completes (.blockCommit tid) s fun s' => s'.task? tid = some t' ∧ OthersKept s s' tid ∧ SameMemory s s' ∧
    s'.parts = s.parts ∧ s'.fab.chans = s.fab.chans ∧ ((∀ o ∈ s.ops, o.id < s.nextId) → s'.ops = s.ops) ∧
    ((∀ w ∈ s.ctrl, w.id < s.nextId) → s'.ctrl = s.ctrl)

/-! ### Places -/

/-- The n bytes of two places do not meet. -/
def Place.Apart (n : Nat) (p q : Place) : Prop := p.space ≠ q.space ∨ p.addr + n ≤ q.addr ∨ q.addr + n ≤ p.addr

/-- Writes of sz bytes at the places g 0, g 1, … g (n - 1), one behind another, have put `val` there, where no later one
of them meets the place, and have changed nothing else of any memory. -/
def Puts (s s' : State) (n sz : Nat) (g : Nat → Place) (val : Nat → List Byte) : Prop :=
  (∀ i < n, (∀ j < n, i < j → (g i).Apart sz (g j)) → s'.readPlace (g i) sz = val i) ∧
  (∀ x, (∀ i < n, ∀ a, g i = .mem a → x < a ∨ a + sz ≤ x) → Memory.read s'.mem x = Memory.read s.mem x) ∧
  (∀ x, (∀ i < n, ∀ a, g i = .host a → x < a ∨ a + sz ≤ x) → Memory.read s'.hostMem x = Memory.read s.hostMem x) ∧
  s'.annex = s.annex ∧ s'.owner = s.owner

/-- The TLB of an engine holds the page of a VA. -/
def EngEnv.Holds (e : EngEnv) (s : State) (va : Word) : Prop := (tlbFind (mgetD s.tlbs e.tlb []) e.ptn va).isSome = true

/-- An engine may read, or write, the n bytes at a VA, which lie at the place p; what it reads carries no poison mark, and
its TLB holds the page, so that no access of its own request replaces the entry. -/
def EngEnv.At (e : EngEnv) (s : State) (write : Bool) (types : List Nat) (va : Word) (n : Nat) (p : Place) : Prop :=
  e.Holds s va ∧ (∃ x, access s e.tlb e.ptn e.level ⟨!write, write, types⟩ va n = .ok x ∧ x.place = p) ∧
  (write = false → s.placeMarked p n = false)

/-- An engine reads elements of sz bytes from a VA on. -/
def EngEnv.HasBytes (e : EngEnv) (s : State) (types : List Nat) (va : Word) (sz : Nat) (bs : List (List Byte)) : Prop :=
  ∀ i < bs.length, ∃ p, e.At s false types (va + wordOf (sz * i)) sz p ∧ s.readPlace p sz = lget bs i []

/-- An engine reads words from a VA on. -/
def EngEnv.HasWords (e : EngEnv) (s : State) (types : List Nat) (va : Word) (ws : List Word) : Prop :=
  ∀ i < ws.length, ∃ p, e.At s false types (va + wordOf (8 * i)) 8 p ∧ wordOf (natOfBytes (s.readPlace p 8)) = lget ws i 0

/-! ### Segments -/

/-- The segment at a physical address holds these pairs, of coordinate and value (R99). -/
def State.HoldsPairs (s : State) (pa : Nat) (ps : List (Nat × Nat)) : Prop :=
  s.memWord pa % 256 = ps.length ∧
  ∀ j < ps.length, s.memWord (pa + 16 + 8 * j) = ((lget ps j (0, 0)).1 + (lget ps j (0, 0)).2 * 2 ^ 32) % 2 ^ 64

/-- The segment at a physical address is the tail or not, and names the next one (R99). -/
def State.LinksTo (s : State) (pa : Nat) (tail : Bool) (next : Nat) : Prop :=
  s.memWord pa / 2 ^ 16 % 2 = bnat tail ∧ s.memWord (pa + 8) = next % 2 ^ 64

/-- No byte of HBM has changed outside the segments at these addresses. -/
def OnlySegments (s s' : State) (pas : List Nat) : Prop :=
  ∀ a, (∀ pa ∈ pas, a < pa ∨ pa + 64 ≤ a) → Memory.read s'.mem a = Memory.read s.mem a

/-- The value at a coordinate among pairs. -/
def valueAt (ps : List (Nat × Nat)) (x : Nat) : Option Nat := (ps.find? fun e => e.1 == x).map (·.2)

/-- Coordinates rise. -/
def Rising (ps : List (Nat × Nat)) : Prop := ps.Pairwise fun a b => a.1 < b.1

/-! ### Elements -/

/-- The element at position pos of context k of region r has its turn and may act, and nothing waits in its output
(R33, R47). -/
def ElemTurn (s : State) (r k pos : Nat) (g : Region) : Prop :=
  s.cur = .elem r k pos ∧ s.region? r = some g ∧ elemRuns s r g k pos = true ∧ ((g.ctx k).bank pos).outq = []

/-- What the firing of an element leaves: its inputs consumed, its bank and its flags, its tokens at their
destinations, and the free values that it may have used (R47). -/
def firedAt (s : State) (r k pos : Nat) (g : Region) (fd : Fired) : State :=
  let g' := (({ g with stall := 0 }).modCtx k fun c => c.fired (makerOf s (posTile r g k pos)) pos fd).flush (makerOf s (posTile r g k pos)) k pos
  { s.setRegion r g' with oracle := s.oracle + 4 }

/-- Input i of what an element sees holds a DATA token. -/
def ElemIn.HasData (x : ElemIn) (i : Nat) : Prop := ∃ t, x.tok i = some t ∧ t.cls = .data

/-- Every input that the word names holds a DATA token, A holds one, no destination is full, and a predicate that is
named is true (R47, R300). -/
def ElemIn.Ready (x : ElemIn) : Prop :=
  x.full = [] ∧ x.HasData 0 ∧ (∀ i < 4, x.sel i ≠ 0 → x.HasData i) ∧ (∀ t, x.p = some t → x.c.selp ≠ 0 → x.decision t = true)

/-- The operations of the ordinary frame that compute from one token of every input (R303-R305). -/
def laneOps (w : ElemCfg) : List Instr :=
  [.vadd w, .vsub w, .vmul w, .vfma w, .vmin w, .vmax w, .vabs w, .vneg w, .vand w, .vor w, .vxor w, .vshl w, .vshr w, .vsar w,
   .vcmp w, .vclp w, .vscl w, .vred w, .vex2 w, .vrcp w, .vsel w, .vprm w]

/-- Node m of the Folio f in context k of region r has its turn and may act. -/
def NodeTurn (s : State) (r k m : Nat) (g : Region) (f : Folio) : Prop :=
  ElemTurn s r k (2048 + m) g ∧ (g.ctx k).folio = some f ∧ m < f.nodes.length

/-- What the firing of a Folio's node leaves, with the token t at the readers of its output register (R124). -/
def nodeFiredAt (s : State) (r k m : Nat) (g : Region) (f : Folio) (fd : Fired) (t : Token) : State :=
  let g' := ({ g with stall := 0 }).modCtx k fun c => (c.fired (makerOf s (posTile r g k (2048 + m))) (2048 + m) fd).toReaders f m ⟨t, false, 0⟩
  s.setRegion r (g'.flush (makerOf s (posTile r g k (2048 + m))) k (2048 + m))

end Sys2Proof.Machine
end

