-- ==== Sys2Proof/Certificates/Slice0/Obligations.lean ====
section
/-!
DEFINITION. The statements for the provers.
-/

open Sys2Proof Sys2Proof.Machine

/-- The integer family on two operands: the wrapped results, the saturated ones with their flags, and those that always
fit (R241, R242). SAR of an unsigned type is the model's reading (log entry 11). -/
def Obligations.IntegerBinary : Prop :=
  (∀ (s : State) (p : Pred) (tid k : Nat) (t : Task) (b : Block) (x y z : Word) (ty : Ty) (ta tb : Target),
     Fires s p .n2 tid k t b x y z →
     let gives (i : Instr) (v : Word) : Prop := GivesValue i s tid k t b [ta, tb] v 0
     let n := y.toNat % ty.width
     gives (.add p ty false ta tb) (extendBits ty (x + y)) ∧
     gives (.sub p ty false ta tb) (extendBits ty (x - y)) ∧
     gives (.mul p ty false ta tb) (extendBits ty (x * y)) ∧
     gives (.and p ty ta tb) (extendBits ty (x &&& y)) ∧
     gives (.or p ty ta tb) (extendBits ty (x ||| y)) ∧
     gives (.xor p ty ta tb) (extendBits ty (x ^^^ y)) ∧
     gives (.andn p ty ta tb) (extendBits ty (x &&& ~~~y)) ∧
     gives (.shl p ty false ta tb) (extendBits ty (x <<< n)) ∧
     gives (.shr p ty ta tb) (extendBits ty (((x.setWidth ty.width) >>> n).setWidth 64)) ∧
     gives (.sar p ty ta tb) (if ty.signed then extendBits ty ((extendBits ty x).sshiftRight n) else extendBits ty x >>> n) ∧
     gives (.rol p ty ta tb) (extendBits ty (((x.setWidth ty.width).rotateLeft n).setWidth 64))) ∧
  (∀ (s : State) (p : Pred) (tid k : Nat) (t : Task) (b : Block) (x y z : Word) (ty : Ty) (ta tb : Target),
     Fires s p .n2 tid k t b x y z →
     let gives (i : Instr) (v : Int) (fl : Nat) : Prop := GivesValue i s tid k t b [ta, tb] (extend64 ty v) fl
     let a := interp ty x
     let c := interp ty y
     let clamps (i : Instr) (e : Int) : Prop := gives i (clampInt ty e) (clampFlags ty e)
     clamps (.add p ty true ta tb) (a + c) ∧
     clamps (.sub p ty true ta tb) (a - c) ∧
     clamps (.mul p ty true ta tb) (a * c) ∧
     clamps (.shl p ty true ta tb) (a * 2 ^ (y.toNat % ty.width)) ∧
     gives (.mulh p ty ta tb) (a * c / 2 ^ ty.width) 0 ∧
     gives (.min p ty ta tb) (Min.min a c) 0 ∧
     gives (.max p ty ta tb) (Max.max a c) 0)

/-- DIV and REM with their borderline cases (R241, R242). -/
def Obligations.Division : Prop :=
  ∀ (s : State) (p : Pred) (tid k : Nat) (t : Task) (b : Block) (x y z : Word) (ty : Ty) (ta tb : Target),
    Fires s p .n2 tid k t b x y z →
    let gives (i : Instr) (v : Word) (fl : Nat) : Prop := GivesValue i s tid k t b [ta, tb] v fl
    let a := interp ty x
    let c := interp ty y
    let zeroFlag := if a = 0 then fINV else fDVZ
    (c = 0 → (∀ sat, gives (.div p ty sat ta tb) (extendBits ty (-1)) zeroFlag) ∧
      gives (.rem p ty ta tb) (extend64 ty a) zeroFlag) ∧
    (c ≠ 0 → gives (.div p ty false ta tb) (extend64 ty (a.tdiv c)) 0 ∧
      gives (.div p ty true ta tb) (extend64 ty (clampInt ty (a.tdiv c))) (clampFlags ty (a.tdiv c)) ∧
      gives (.rem p ty ta tb) (extend64 ty (a - c * a.tdiv c)) 0 ∧
      (clampFlags ty (a.tdiv c) ≠ 0 → ty.signed = true ∧ a = tyMin ty ∧ c = -1))

/-- The forms that count, extend or reverse bits (R241), and the immediate forms, which work on 64 bits with wrap and set
no flag (R243). -/
def Obligations.IntegerUnaryAndImmediate : Prop :=
  (∀ (s : State) (p : Pred) (tid k : Nat) (t : Task) (b : Block) (x y z : Word) (ty : Ty) (ta tb : Target),
     Fires s p .n1 tid k t b x y z →
     let gives (i : Instr) (v : Word) : Prop := GivesValue i s tid k t b [ta, tb] v 0
     let w := ty.width
     gives (.ext p ty ta tb) (extendBits ty x) ∧
     (∃ v : Word, gives (.bswap p ty ta tb) v ∧ v = extendBits ty v ∧
       ∀ i < w, v.getLsbD i = x.getLsbD (w - 8 - i / 8 * 8 + i % 8)) ∧
     (∃ n ≤ w, gives (.clz p ty ta tb) (wordOf n) ∧ (∀ i, w - n ≤ i → i < w → x.getLsbD i = false) ∧
       (n < w → x.getLsbD (w - 1 - n) = true)) ∧
     (∃ n ≤ w, gives (.ctz p ty ta tb) (wordOf n) ∧ (∀ i < n, x.getLsbD i = false) ∧ (n < w → x.getLsbD n = true)) ∧
     gives (.popc p ty ta tb) (wordOf ((List.range w).filter fun i => x.getLsbD i).length)) ∧
  (∀ (s : State) (p : Pred) (tid k : Nat) (t : Task) (b : Block) (x y z : Word) (imm : BitVec 14) (u : Fin 64) (ta : Target),
     let gives (i : Instr) (v : Word) : Prop := GivesValue i s tid k t b [ta] v 0
     (Fires s p .n0 tid k t b x y z → gives (.cst p imm ta) (imm.signExtend 64)) ∧
     (Fires s p .n1 tid k t b x y z →
       gives (.addi p imm ta) (x + imm.signExtend 64) ∧
       gives (.andi p imm ta) (x &&& imm.signExtend 64) ∧
       gives (.ori p imm ta) (x ||| imm.signExtend 64) ∧
       gives (.xori p imm ta) (x ^^^ imm.signExtend 64) ∧
       gives (.muli p imm ta) (x * imm.signExtend 64) ∧
       gives (.shli p u ta) (x <<< u.val) ∧
       gives (.shri p u ta) (x >>> u.val) ∧
       gives (.sari p u ta) (x.sshiftRight u.val) ∧
       gives (.csth p imm ta) (x <<< 14 ||| imm.setWidth 64)))

/-- Compare and select (R244, R245); the address forms (R246), which check no address and whose LEA and ADDP give
canonical results. -/
def Obligations.CompareSelectAddress : Prop :=
  (∀ (s : State) (p : Pred) (tid k : Nat) (t : Task) (b : Block) (x y z : Word) (ty : Ty) (cc : Cond) (ta tb : Target),
     (Fires s p .n2 tid k t b x y z →
       GivesValue (.cmp p ty cc ta) s tid k t b [ta] (if cc.holds (interp ty x) (interp ty y) then 1 else 0) 0 ∧
       GivesValue (.tst p ty cc ta) s tid k t b [ta] (if cc.holds (interp ty (x &&& y)) 0 then 1 else 0) 0) ∧
     (Fires s p .n3 tid k t b x y z →
       GivesValue (.sel p ty ta tb) s tid k t b [ta, tb] (extendBits ty (if z.getLsbD 0 then x else y)) 0)) ∧
  (∀ (s : State) (p : Pred) (tid k : Nat) (t : Task) (b : Block) (x y z : Word) (imm : BitVec 14) (m : Fin 64) (ta tb : Target),
     let canonical (v : Word) : Word := (v.setWidth 56).signExtend 64
     let low : Word := (1 <<< m.val) - 1
     (Fires s p .n1 tid k t b x y z →
       GivesValue (.lea p imm ta) s tid k t b [ta] (canonical (x + 8 * imm.signExtend 64)) 0 ∧
       GivesValue (.algn p false m ta) s tid k t b [ta] ((x + low) &&& ~~~low) 0 ∧
       GivesValue (.algn p true m ta) s tid k t b [ta] (x &&& ~~~low) 0) ∧
     (Fires s p .n2 tid k t b x y z →
       GivesValue (.addp p ta tb) s tid k t b [ta, tb] (canonical (x + y)) 0) ∧
     (∀ v : Word, isCanonical (canonical v) = true))

/-- The forms that read: RD a register as the previous commit left it, MOV its operand, SNPH one step of the hash, CSRR a
system register as R225 gives it, RECV, PEEK and RSP what their channel or the response stream holds; NUL resolves its
targets as null (R132, R225, R238, R247, R248, R284, R293). -/
def Obligations.Reads : Prop :=
  (∀ (s : State) (p : Pred) (tid k : Nat) (t : Task) (b : Block) (x y z : Word) (g : Fin 64) (c : Csr) (ta tb : Target),
     (Fires s p .n0 tid k t b x y z →
       GivesValue (.rd p g ta) s tid k t b [ta] (t.reg g.val) 0 ∧
       GivesValue (.csrr p c ta) s tid k t b [ta] (csrRead s tid t c) 0) ∧
     (Fires s p .n1 tid k t b x y z → GivesValue (.mov p ta tb) s tid k t b [ta, tb] x 0) ∧
     (Fires s p .n2 tid k t b x y z →
       GivesValue (.snph p ta) s tid k t b [ta] (((x ^^^ y).rotateLeft 23) * 0x9E3779B97F4A7C15) 0)) ∧
  (∀ (s : State) (tid : Nat) (t : Task) (q : Partition),
     csrRead s tid t .time = wordOf s.time ∧ csrRead s tid t .fsr = t.fsr ∧ csrRead s tid t .fcost = t.fcost ∧
     csrRead s tid t .tid = wordOf (tid % 8192) ∧ csrRead s tid t .ptn = wordOf (t.ptn % 16) ∧
     csrRead s tid t .prio = wordOf (t.prio % 4) ∧ csrRead s tid t .plvl = wordOf (t.level % 4) ∧
     csrRead s tid t .alrm = wordOf (s.alarm.level % 4) ∧
     (s.part? t.ptn = some q →
       csrRead s tid t .pepc = wordOf (q.epoch % 16) ∧ csrRead s tid t .ssc0 = q.ssc0 ∧ csrRead s tid t .ssc1 = q.ssc1 ∧
       csrRead s tid t .s1rt = wordOf ((q.s1root.getD 0) / 65536 % 2 ^ 32 * 65536) ∧
       csrRead s tid t .mbxn = wordOf ((mgetD q.mbox 0 []).length + (mgetD q.mbox 1 []).length * 2 ^ 8 +
         (mgetD q.mbox 2 []).length * 2 ^ 16 + (mgetD q.mbox 3 []).length * 2 ^ 24))) ∧
  (∀ (s : State) (p : Pred) (tid k : Nat) (t : Task) (b : Block) (x y z : Word) (ch : Fin 64) (ta tb : Target),
     Fires s p .n0 tid k t b x y z →
     let queue := (s.chan (chanAddr tid ch.val)).q
     (boundTo s tid ch.val = true →
       (∀ w, queue[countBelow s tid b (isRecvOf ch.val) k]? = some w → GivesValue (.recv p ch ta) s tid k t b [ta] w.1 0) ∧
       (∀ w ws, queue = w :: ws → GivesValue (.peek p false ch ta) s tid k t b [ta] w.1 0 ∧
         GivesValue (.peek p true ch ta) s tid k t b [ta] (if w.2 then 1 else 0) 0)) ∧
     (∀ id w, t.resp[countBelow s tid b isRspWord k]? = some ⟨id, some w⟩ → GivesValue (.rsp p ta) s tid k t b [ta] w 0) ∧
     (∀ b', (b.mark k .fired).nullAll false [ta, tb] = some b' → exec (.nul p ta tb) s = .next (putBlock s tid t b')))

/-- The scalar arithmetic: the exact value, rounded once and saturated, and the special cases with their flags (R255). -/
def Obligations.FloatArithmetic : Prop :=
  (∀ (s : State) (p : Pred) (tid k : Nat) (t : Task) (b : Block) (x y z : Word) (ft : FTy) (r : Rnd) (sm : FSat) (ta : Target),
     let gives (i : Instr) (v : Val) (fl : Nat) : Prop :=
       GivesValue i s tid k t b [ta] (wordOf ((fltOf ft).round (.mode r) sm.code v).1)
         (Nat.lor ((fltOf ft).round (.mode r) sm.code v).2 fl)
     let a := fval ft x
     let c := fval ft y
     let rdn := decide (r = .rdn)
     (Fires s p .n2 tid k t b x y z →
       gives (.fadd p ft r sm ta) (Val.add rdn a c).1 (if (Val.add rdn a c).2 then fINV else 0) ∧
       gives (.fsub p ft r sm ta) (Val.add rdn a c.neg).1 (if (Val.add rdn a c.neg).2 then fINV else 0) ∧
       gives (.fmul p ft r sm ta) (Val.mul a c).1 (if (Val.mul a c).2 then fINV else 0) ∧
       gives (.fdiv p ft r sm ta) (divVal a c).1 (divVal a c).2) ∧
     (Fires s p .n1 tid k t b x y z → gives (.fsqrt p ft r sm ta) (sqrtOf a).1 (sqrtOf a).2) ∧
     (Fires s p .n3 tid k t b x y z → a.isNan = false → c.isNan = false → (fval ft z).isNan = false →
       gives (.fma p ft r sm ta) (Val.add rdn (Val.mul a c).1 (fval ft z)).1
         (if (Val.mul a c).2 || (Val.add rdn (Val.mul a c).1 (fval ft z)).2 then fINV else 0)) ∧
     (Fires s p .n3 tid k t b x y z → (a.isNan || c.isNan || (fval ft z).isNan) = true → gives (.fma p ft r sm ta) .nan 0)) ∧
  (∀ (s : State) (p : Pred) (tid k : Nat) (t : Task) (b : Block) (x y z : Word) (ft : FTy) (r : Rnd) (sm : FSat) (ta : Target),
     let canonicalNan : Word := wordOf (fltOf ft).nanPat
     let gives (i : Instr) (v : Word) (fl : Nat) : Prop := GivesValue i s tid k t b [ta] v fl
     let a := fval ft x
     let c := fval ft y
     Fires s p .n2 tid k t b x y z →
     ((a = .nan ∨ c = .nan) →
       gives (.fadd p ft r sm ta) canonicalNan 0 ∧ gives (.fsub p ft r sm ta) canonicalNan 0 ∧
       gives (.fmul p ft r sm ta) canonicalNan 0 ∧ gives (.fdiv p ft r sm ta) canonicalNan 0) ∧
     (∀ n, a = .inf n → c = .inf n → gives (.fsub p ft r sm ta) canonicalNan fINV) ∧
     (∀ n m, a = .inf n → c = .inf m → gives (.fdiv p ft r sm ta) canonicalNan fINV) ∧
     (∀ n m e, a = .inf n → c = .fin m 0 e → gives (.fmul p ft r sm ta) canonicalNan fINV) ∧
     (∀ n e m f, a = .fin n 0 e → c = .fin m 0 f → gives (.fdiv p ft r sm ta) canonicalNan fINV) ∧
     (∀ n d e m f, a = .fin n (d + 1) e → c = .fin m 0 f → sm = .none →
       gives (.fdiv p ft r sm ta) (wordOf (((fltOf ft).infPat.getD 0) + bnat (n != m) * 2 ^ ((fltOf ft).width - 1))) fDVZ))

/-- FMIN, FMAX, FCMP and FCLS set no flag (R256, R257, R259); FCVT between float and integer and between floats (R258). -/
def Obligations.FloatCompareConvert : Prop :=
  (∀ (s : State) (p : Pred) (tid k : Nat) (t : Task) (b : Block) (x y z : Word) (ft : FTy) (cc : FCond) (ta : Target),
     let gives (i : Instr) (v : Word) : Prop := GivesValue i s tid k t b [ta] v 0
     let a := fval ft x
     let c := fval ft y
     (Fires s p .n2 tid k t b x y z →
       gives (.fmin p ft ta) (exactOut ft (Val.min a c)) ∧ gives (.fmax p ft ta) (exactOut ft (Val.max a c)) ∧
       gives (.fcmp p ft cc ta) (if fcondHolds cc a c then 1 else 0) ∧
       ((a = .nan ∨ c = .nan) → gives (.fmin p ft ta) (wordOf (fltOf ft).nanPat) ∧ gives (.fmax p ft ta) (wordOf (fltOf ft).nanPat) ∧
         fcondHolds .ne a c = true ∧ fcondHolds .unordered a c = true ∧ fcondHolds .eq a c = false ∧ fcondHolds .lt a c = false ∧
         fcondHolds .le a c = false ∧ fcondHolds .gt a c = false ∧ fcondHolds .ge a c = false ∧ fcondHolds .ordered a c = false)) ∧
     (Fires s p .n1 tid k t b x y z → ∃ n < 9, gives (.fcls p ft ta) (1 <<< n) ∧ (n = 8 ↔ a = .nan) ∧
       (n = 7 ↔ a = .inf false) ∧ (n = 0 ↔ a = .inf true))) ∧
  (∀ (s : State) (p : Pred) (tid k : Nat) (t : Task) (b : Block) (x y z : Word) (ft g : FTy) (ty : Ty) (r : Rnd) (sm : FSat) (ta : Target),
     Fires s p .n1 tid k t b x y z →
     let toInt := roundInt ty.width ty.signed (.mode r) 1 (fval ft x)
     let fromInt := (fltOf ft).round (.mode r) sm.code (.ofInt (interp ty x))
     let toFlt := (fltOf g).round (.mode r) sm.code (fval ft x)
     GivesValue (.fcvt p ft r sm (.int ty) false ta) s tid k t b [ta] (extend64 ty toInt.1) toInt.2 ∧
     GivesValue (.fcvt p ft r sm (.int ty) true ta) s tid k t b [ta] (wordOf fromInt.1) fromInt.2 ∧
     (ft ≠ g → GivesValue (.fcvt p ft r sm (.flt g) false ta) s tid k t b [ta] (wordOf toFlt.1) toFlt.2) ∧
     GivesValue (.fcvt p ft r sm (.flt ft) false ta) s tid k t b [ta]
       (if (fval ft x).isNan then wordOf (fltOf ft).nanPat else wordOf (x.toNat % 2 ^ (fltOf ft).width)) 0)

/-- When a slot fires, fires null or is squashed (R233, R234, R235, R341); and a form of any kind that is squashed or
fires null computes nothing: its targets and its output operation are resolved as null (R261, R269). That a squashed
slot does not wait for its operands, nor a null one for the others, is the model's reading (log entry 90). -/
def Obligations.SlotsFire : Prop :=
  (∀ (p : Pred) (n : Needs) (x : Slot),
     let wrong : Prop := p ≠ .always ∧ ∃ w, x.p = .val w ∧ w.getLsbD 0 = decide (p = .onFalse)
     let arrived : Prop := (p ≠ .always → x.p ≠ .empty) ∧ (n.a = true → x.a ≠ .empty) ∧ (n.b = true → x.b ≠ .empty) ∧
       (n.c = true → x.c ≠ .empty)
     let hasNull : Prop := (p ≠ .always ∧ x.p = .null) ∨ (n.a = true ∧ x.a = .null) ∨ (n.b = true ∧ x.b = .null) ∨
       (n.c = true ∧ x.c = .null)
     (x.phase ≠ .waiting → fireOf p n x = .notReady) ∧
     (x.phase = .waiting → wrong → fireOf p n x = .squash) ∧
     (x.phase = .waiting → ¬wrong → hasNull → fireOf p n x = .null) ∧
     (x.phase = .waiting → ¬wrong → ¬hasNull → ¬arrived → fireOf p n x = .notReady) ∧
     (x.phase = .waiting → ¬wrong → ¬hasNull → arrived → fireOf p n x = .go x.a.word x.b.word x.c.word)) ∧
  (∀ (i : Instr) (f : Form) (s : State) (tid k : Nat) (t : Task) (b : Block), i.form = some f → s.cur = .firing tid k →
     s.task? tid = some t → t.blk = some b →
     let ts := if i.isLd128 then f.targets ++ f.targets else f.targets
     let outs (c : Block) : Block := match f.commit with
       | some n => { c with regn := c.regn + (f.targets.map (regCount n)).foldr (· + ·) 0, outn := c.outn + 1 }
       | none => c
     let nulled (c : Block) (sq : Bool) : Option Block := if f.commit.isSome then some (outs c) else c.nullAll sq ts
     (fireOf f.pred f.needs (b.slot k) = .squash → ∃ b', nulled (b.mark k .squashed) true = some b' ∧
       b'.slots = (b.mark k .squashed).slots ∧ exec i s = .next (putBlock s tid t b')) ∧
     (fireOf f.pred f.needs (b.slot k) = .null →
       (∀ b', nulled (b.mark k .firedNull) false = some b' → exec i s = .next (putBlock s tid t b')) ∧
       (nulled (b.mark k .firedNull) false = none → exec i s = .next (takeFault s tid (exc 0x0109)))))

/-- LD, LDX and PRF (R164, R267, R268, R269, R404): the bytes that the task sees, extended; the faults of an access; an
uncorrectable error, each of which the block takes at its commit; and a prefetch that would fault does nothing. That a
load waits for unresolved stores of lower LSID, walks in its own step and keeps its fault to the commit is the model's
reading (log entries 10, 13, 38). That a load waits for its own earlier stores is the model's choice (log entry 109). -/
def Obligations.Loads : Prop :=
  ∀ (s : State) (p : Pred) (tid k : Nat) (t : Task) (b : Block) (x y z : Word) (m : Fin 32) (sz : Size) (h : Hint)
    (o : LdOrd) (ta : Target) (u : Fin 8),
    let loads (i : Instr) (va : Word) : Prop :=
      let faults (s' : State) (f : Flt0) : Prop :=
        exec i s = .next (putBlock s' tid t { b.mark k .fired with bad := b.bad ++ [(k, f)] })
      t.invs = [] → loadHeld s tid t b k = false → taskBusy s tid t va = false →
      (∀ f, taskAccess s tid t askLoad va sz.bytes = .error f → faults (faultInstall s tid t f) f) ∧
      (∀ q, taskAccess s tid t askLoad va sz.bytes = .ok q →
        readWaits s (.task tid) t.after t.invs q.typ q.place sz.bytes = false → ldWaits s tid o = [] →
        let sees := blockOverlay s tid t (blockStores s tid b m.val) q.place (seenBytes s (.task tid) q.place sz.bytes)
        (s.placeMarked q.place sz.bytes = true → faults (taskInstall s tid t va) ⟨0x000A, va, q.pte⟩) ∧
        (s.placeMarked q.place sz.bytes = false → ∃ s', SameMemory s s' ∧ s'.fab = s.fab ∧
          (sz ≠ .b128 → exec i s = .next (firedWith s' tid k t b [ta] (sz.extend (natOfBytes sees)) 0)) ∧
          (sz = .b128 → ∀ d, ta = .reg d →
            let lo := wordOf (natOfBytes (sees.take 8))
            let hi := wordOf (natOfBytes (sees.drop 8))
            (∀ w, (d.val, w) ∉ b.regw ∧ (d.val + 1, w) ∉ b.regw) → d.val ∉ b.claims → d.val + 1 ∉ b.claims →
            exec i s = .next (putBlock s' tid t { b.mark k .fired with
              regw := b.regw ++ [(d.val, lo), (d.val + 1, hi)], regn := b.regn + 2 }))) ∧
        ((∀ r ∈ opsOf s (.task tid), r.act.storeOf = none) → blockStores s tid b m.val = [] →
          sees = s.readPlace q.place sz.bytes))
    (Fires s p .n1 tid k t b x y z → loads (.ld p m sz o ta) x) ∧
    (Fires s p .n2 tid k t b x y z → sz ≠ .b128 → loads (.ldx p m sz o ta) (x + y * wordOf sz.bytes)) ∧
    (Fires s p .n1 tid k t b x y z → t.invs = [] → taskBusy s tid t x = false → ∃ s', SameMemory s s' ∧ s'.fab = s.fab ∧
      exec (.prf p m u h) s = .next (putBlock s' tid t (b.mark k .fired)) ∧
      ∀ f, taskAccess s tid t askLoad x 1 = .error f → s' = faultInstall s tid t f)

/-- The frame of the in-block forms and of the exits: a next state differs in the block of the task that fires, or in what
taking an exception changes; a load and a prefetch may also change what the TLBs and the slices hold and ask for a
walk, and RECV and PEEK of a channel that is not bound may use a free value. -/
def Obligations.InBlockFrame : Prop :=
  ∀ (i : Instr) (f : Form) (s s' : State), i.form = some f → f.commit = none → exec i s = .next s' →
    ∃ tid k t s1, s.cur = .firing tid k ∧ s.task? tid = some t ∧
      s1 = { s with tlbs := s1.tlbs, slices := s1.slices, oracle := s1.oracle, walks := s1.walks, walkq := s1.walkq, nextId := s1.nextId } ∧
      (s' = s1 ∨ (∃ b, s' = putBlock s1 tid t b) ∨ ∃ e, s' = takeFault s1 tid e) ∧
      (f.lsid = none → readsChannel i = false → s1 = s) ∧ SameMemory s s' ∧ s'.fab.chans = s.fab.chans ∧
      s'.fab.regions = s.fab.regions ∧ OthersKept s s' tid

/-- An exit that fires is noted and a second one takes exception 0x0109 (R235, R236, R249); at commit a CALL on a full
stack and a RET on an empty one take exception 0x010C, a target that is no block header 0x010B, a bad WAIT mask 0x010D
(R250, R251, R420). -/
def Obligations.ExitsFireAndFault : Prop :=
  (∀ (s : State) (p : Pred) (tid k : Nat) (t : Task) (b : Block) (x y z : Word) (e : Fin 8) (off : BitVec 20),
     let fires (i : Instr) : Prop :=
       (b.exits = [] → exec i s = .next (putBlock s tid t { b.mark k .fired with exits := [⟨k, x, y, z⟩] })) ∧
       (b.exits ≠ [] → exec i s = .next (takeFault s tid (exc 0x0109)))
     (Fires s p .n0 tid k t b x y z → fires (.br p e off) ∧ fires (.call p e off) ∧ fires (.ret p e) ∧ fires (.yld p e)) ∧
     (Fires s p .n1 tid k t b x y z → fires (.brx p e) ∧ fires (.wait p e) ∧ fires (.halt p e))) ∧
  (∀ (s : State) (p : Pred) (tid k : Nat) (t : Task) (b : Block) (a : Word) (e : Fin 8) (off : BitVec 20),
     let r (i : Instr) : Prop := ReadyToCommit s tid k t b i a
     let faults (c : Nat) : Prop := exec (.blockCommit tid) s = .next (takeFault s tid (exc c))
     let there (x : Int) : Prop := isHeader s (seOf tid) x = true
     let far : Int := (b.head : Int) + 4 * off.toInt
     let next : Int := ((b.head + 4 * (b.n + 1) : Nat) : Int)
     (r (.br p e off) → ¬there far → faults 0x010B) ∧
     (r (.brx p e) → ¬there a.toNat → faults 0x010B) ∧
     (r (.call p e off) → (¬there far → faults 0x010B) ∧ (there far → t.ret.length = 8 → faults 0x010C)) ∧
     (r (.ret p e) → t.ret = [] → faults 0x010C) ∧
     (r (.yld p e) → ¬there next → faults 0x010B) ∧
     (r (.wait p e) → (¬there next → faults 0x010B) ∧ (there next → a = 0 → faults 0x010D) ∧
       (there next → ∀ n < 64, a.getLsbD n = true → (s.chan (chanAddr tid n)).slot ≠ some (slotOf tid) → faults 0x010D)))

/-- What each exit does at its block's commit: the registers and flags of the block, the exit number, the program counter
and the return stack; WAIT blocks, YLD yields and HALT ends its task (R237, R239, R249, R250, R251, R252, R253). -/
def Obligations.ExitsCommit : Prop :=
  (∀ (s : State) (p : Pred) (tid k : Nat) (t : Task) (b : Block) (a : Word) (e : Fin 8) (off : BitVec 20),
     let r (i : Instr) : Prop := ReadyToCommit s tid k t b i a
     let there (x : Int) : Prop := isHeader s (seOf tid) x = true
     let goes (x : Int) (st : List Nat) : Prop :=
       CommitsTo s tid { t.committed b with pc := x.toNat, ret := st, lastExit := e.val }
     let far : Int := (b.head : Int) + 4 * off.toInt
     (r (.br p e off) → there far → goes far t.ret) ∧
     (r (.brx p e) → there a.toNat → goes a.toNat t.ret) ∧
     (r (.call p e off) → there far → t.ret.length < 8 → goes far (t.ret ++ [b.head + 4 * (b.n + 1)])) ∧
     (∀ st (x : Nat), r (.ret p e) → t.ret = st ++ [x] → there x → goes x st)) ∧
  (∀ (s : State) (p : Pred) (tid k : Nat) (t : Task) (b : Block) (a : Word) (e : Fin 8),
     let r (i : Instr) : Prop := ReadyToCommit s tid k t b i a
     let next : Nat := b.head + 4 * (b.n + 1)
     let there : Prop := isHeader s (seOf tid) next = true
     let done : Task := { t.committed b with lastExit := e.val }
     let some1 : Prop := ∃ n < 64, a.getLsbD n = true ∧ (s.chan (chanAddr tid n)).q ≠ []
     (r (.wait p e) → there → a ≠ 0 → (∀ n < 64, a.getLsbD n = true → (s.chan (chanAddr tid n)).slot = some (slotOf tid)) →
       (some1 → CommitsTo s tid { done with pc := next }) ∧
       (¬some1 → CommitsTo s tid { done with pc := next, state := .blocked, waitOn := .mask a })) ∧
     (r (.yld p e) → there → ∃ ys, CommitsTo s tid { done with pc := next, yielded := ys } ∧
       ∀ sl, sl ∈ ys ↔ sl < 8 ∧ sl ≠ slotOf tid ∧ ∃ u, s.task? (sl * 1024 + seOf tid) = some u ∧ u.state = .runnable) ∧
     (r (.halt p e) → CommitsTo s tid { done with state := .halted } ∧
       (t.root = true → Completes (.blockCommit tid) s fun s' => ∃ l, mget s'.launches t.launch = some l ∧
         l.state = .draining ∧ l.code = a.toNat % 2 ^ 32)))

/-- A register read inside a block returns what the previous commit left: RD gives the register as its task holds it,
every step of a slot of the block keeps the registers of its task, and the commit writes each of them that the block
has resolved with a value (R237, R238). -/
def Obligations.RegistersChangeAtCommit : Prop :=
  (∀ (s : State) (p : Pred) (tid k : Nat) (t : Task) (b : Block) (x y z : Word) (g : Fin 64) (ta : Target),
    Fires s p .n0 tid k t b x y z → GivesValue (.rd p g ta) s tid k t b [ta] (t.reg g.val) 0) ∧
  (∀ (i : Instr) (f : Form) (s s' : State) (tid k : Nat) (t : Task), i.form = some f → s.cur = .firing tid k →
    s.task? tid = some t → exec i s = .next s' → ∃ t', s'.task? tid = some t' ∧ t'.regs = t.regs ∧ t'.fsr = t.fsr) ∧
  (∀ (s : State) (tid k : Nat) (t : Task) (b : Block) (i : Instr) (a : Word), ReadyToCommit s tid k t b i a → i.form.isSome →
    (exitCheck s tid t b i a = none → t.regs.length = 64 → (b.regw.map (·.1)).Nodup →
      Completes (.blockCommit tid) s fun s' => ∃ t', s'.task? tid = some t' ∧ t'.blk = none ∧
        (∀ g v, (g, v) ∈ b.regw → g < 64 → t'.reg g = v) ∧
        (∀ g, (∀ v, (g, v) ∉ b.regw) → t'.reg g = t.reg g)))

/-- A commit form captures its operands when it fires and counts in S and W; at its block's commit it takes the exception
its operands raise, or has its effect, in the order of R264; a block with one captured form commits to what that form
leaves (R237, R261, R262, R264, R272). -/
def Obligations.CommitForms : Prop :=
  (∀ (i : Instr) (f : Form) (n : Nat) (s : State) (tid k : Nat) (t : Task) (b : Block) (x y z : Word), i.form = some f →
     f.commit = some n → Fires s f.pred f.needs tid k t b x y z →
     let regs := f.targets.flatMap fun ta => match ta with
       | .reg g => natRange g.val n
       | _ => []
     ((∀ g ∈ regs, (∀ v, (g, v) ∉ b.regw) ∧ g ∉ b.claims) →
       exec i s = .next (putBlock s tid t { b.mark k .fired with
         regn := b.regn + regs.length, outn := b.outn + 1, claims := b.claims ++ regs, caps := b.caps ++ [⟨k, x, y, z⟩] })) ∧
     ((∃ g ∈ regs, (∃ v, (g, v) ∈ b.regw) ∨ g ∈ b.claims) → exec i s = .next (takeFault s tid (exc 0x0109)))) ∧
  ((∀ (i : Instr) (cf : CForm) (s : State) (tid k : Nat) (a b c : Word), formOf i = some cf → Commits s tid k a b c →
     (∀ e, cf.check s tid a b c = some e → exec i s = .next (takeFault s tid e)) ∧
     (cf.check s tid a b c = none → cf.ready s tid a b c = true → exec i s = .next (cf.eff s tid a b c))) ∧
   (∀ i : Instr, (formOf i).isSome = true ↔ ∃ f n, i.form = some f ∧ f.commit = some n) ∧
   (∀ (s : State) (tid : Nat) (b : Block), (orderedCaps s tid b).Pairwise fun x y => formRank x.2 x.1.slot ≤ formRank y.2 y.1.slot) ∧
   (∀ (i : Instr) (f : Form) (j : Nat), i.form = some f → j < 64 →
     (∀ m, f.lsid = some m → formRank i j < 100) ∧ (f.lsid = none → 100 ≤ formRank i j)) ∧
   (∀ (s : State) (tid k : Nat) (t u : Task) (b : Block) (c : Capture) (i : Instr) (cf : CForm) (p : Pred) (e : Fin 8) (off : BitVec 20)
     (a y z : Word), MayCommit s tid t b → b.caps = [c] → captured s tid b c = some i → formOf i = some cf → b.chans = [] →
     b.exits = [⟨k, a, y, z⟩] → slotInstr s tid b k = some (.br p e off) → (∀ j < b.n, TakesNothing s tid b j) →
     let s1 := s.setTask tid (b.regw.foldl (fun t r => t.setReg r.1 r.2) t)
     let s2 := cf.eff s1 tid c.a c.b c.c
     (Commits s1 tid c.slot c.a c.b c.c → cf.check s1 tid c.a c.b c.c = none → cf.ready s1 tid c.a c.b c.c = true → exec i s1 = .next s2) ∧
     (s2.task? tid = some u → u.trap = [] → u.later = [] → (mget s2.launches u.launch).map (·.state) = some .running →
       Completes (.blockCommit tid) s fun s' =>
         s' = { s2 with fab := s'.fab, ops := s'.ops, ctrl := s'.ctrl } ∧ s'.fab = { s2.fab with tasks := s'.fab.tasks } ∧
         OthersKept s2 s' tid ∧
         s'.task? tid = some { u with fsr := fsrOr u.fsr b.flags, pc := ((b.head : Int) + 4 * off.toInt).toNat, lastExit := e.val, blk := none } ∧
         s'.ops.map (fun o => { o with words := [] }) = s2.ops.map (fun o => { o with words := [] }) ∧
         s'.ctrl.map (fun w => { w with after := [] }) = s2.ctrl.map (fun w => { w with after := [] }))))

/-- ST, STX, AMO, CAS, CAS2, CLN and INV send one operation to the place their address translates to, which waits for the
earlier accesses that R168 gives, or take the fault of their access (R168, R223, R264, R267, R269, R270, R271). The
pages that the line forms accept are the model's reading (log entry 15). How far an order binds, and what a release
waits for, are the model's reading (log entries 14, 16, 17, 110). The scope tile of an AG, and how a narrow release
that acquires binds, are its reading (log entries 132, 133). -/
def Obligations.StoresAndAtomicsSend : Prop :=
  (∀ (s : State) (p : Pred) (tid k : Nat) (t : Task) (a b c : Word) (m : Fin 32) (sz : Size) (o : StOrd) (off : BitVec 9),
     Turn s tid k t a b c →
     let stores (i : Instr) (va : Word) (bs : List Byte) : Prop :=
       (∀ e, taskAccess s tid t askStore va sz.bytes = .error e → exec i s = .next (takeFault s tid e)) ∧
       (∀ x, taskAccess s tid t askStore va sz.bytes = .ok x → Completes i s fun s' =>
         let rel := o.rel?.toList
         SendsOnly s s' tid t (.task tid) 0 .nowhere (t.after ++ t.afterW ++ rel.flatMap (releaseAfter s (.task tid)) ++
           if inOrder x.typ then ncIds s (.task tid) else []) (.store x.place.space x.place.addr bs (o.hint.code + 16 * x.typ)) ∧
         WaitsNarrowly s' (t.afterS ++ rel.flatMap (releaseSoft s (.task tid))) ∧ Acquires s' tid s.nextId o.acq?)
     let low (v : Word) : List Byte := bytesOfNat sz.bytes v.toNat
     stores (.st p m sz o off) (a + off.signExtend 64 * wordOf sz.bytes)
       (if sz = .b128 then bytesOfNat 8 b.toNat ++ bytesOfNat 8 c.toNat else low b) ∧
     (sz ≠ .b128 → stores (.stx p m sz o off) (a + b * wordOf sz.bytes + off.signExtend 64 * wordOf sz.bytes) (low c))) ∧
  (∀ (s : State) (p : Pred) (tid k : Nat) (t : Task) (a b c : Word) (m : Fin 32) (wide : Bool) (op : AOp)
     (sc : Option Scope) (ta : Target), Turn s tid k t a b c →
     let sends (i : Instr) (code : Nat) (o : AOp) (n : Nat) : Prop :=
       (∀ e, taskAccess s tid t askAtomic a n = .error e → exec i s = .next (takeFault s tid e)) ∧
       (∀ x, taskAccess s tid t askAtomic a n = .ok x → s.placeMarked x.place n = true →
         exec i s = .next (takeFault s tid ⟨0x000A, a, x.pte⟩)) ∧
       (∀ x, taskAccess s tid t askAtomic a n = .ok x → s.placeMarked x.place n = false → Completes i s fun s' =>
         let rel := sc.toList
         SendsOnly s s' tid t (.task tid) 1 (destOf t tid false ta) (t.after ++ t.afterW ++ rel.flatMap (releaseAfter s (.task tid)))
           (.atomic code o x.place.space x.place.addr n b c) ∧
         WaitsNarrowly s' (t.afterS ++ rel.flatMap (releaseSoft s (.task tid))) ∧ Acquires s' tid s.nextId sc)
     let n := if wide then 8 else 4
     sends (.amo p m wide op sc ta) 0 op n ∧ sends (.cas p m wide sc ta) 1 .swap n ∧ sends (.cas2 p m sc ta) 2 .swap 16) ∧
  (∀ (s : State) (p : Pred) (tid k : Nat) (t : Task) (a b c : Word) (sc : Scope) (ta : Target), Turn s tid k t a b c →
     let acts (i : Instr) (inv : Bool) : Prop :=
       (∀ e, taskAccess s tid t askLine (a - a % 8) 8 = .error e → exec i s = .next (takeFault s tid { e with fva := a })) ∧
       (∀ x, taskAccess s tid t askLine (a - a % 8) 8 = .ok x →
         (inHbm x.pa = true ∧ (x.typ = 0 ∨ x.typ = 2) → Completes i s fun s' =>
           SendsOnly s s' tid t (.task tid) 0 .nowhere (t.after ++ t.afterW) (.clean (x.pa / 128 * 128) inv sc.code)) ∧
         (¬(inHbm x.pa = true ∧ (x.typ = 0 ∨ x.typ = 2)) → exec i s = .next s))
     acts (.cln p sc ta) false ∧ acts (.inv p sc ta) true)

/-- FNC and FNCX: what the later accesses of their task wait for; the three barrier forms (R168, R169, R175, R272, R273).
How far a fence binds observers outside its scope is the model's choice (log entry 17). What a release waits for, and
when a task with several waits runs again, are the model's (log entries 14, 100, 110). How a narrow release binds what
stands behind a later acquire is the model's reading (log entry 133). -/
def Obligations.FencesAndBarriers : Prop :=
  (∀ (s : State) (p : Pred) (tid k : Nat) (t : Task) (a b c : Word) (o : FenceOrd) (sc : Scope) (ta : Target),
     Turn s tid k t a b c →
     let kind (x : Op) : Prop := match x.act with
       | .store .. => sc ≠ .elem ∧ ((x.act.combines = false ∧ x.act.leaves = false) ∨ drains sc = true)
       | .clean _ _ w => sc.includes w = true
       | .atomic .. => sc ≠ .elem
       | .fibre .. => sc ≠ .elem
       | .tree .. => sc ≠ .elem
       | _ => False
     let rmw (x : Op) : Prop := match x.act with | .atomic .. => True | _ => False
     let engine (x : Op) : Prop := match x.act with | .engine .. => True | _ => False
     let leaves (i : Instr) (holds : Task → Prop) : Prop :=
       Completes i s fun s' => ∃ t', s' = s.setTask tid t' ∧ t.OrderOnly t' ∧ t'.pend = t.pend ∧ t'.resp = t.resp ∧
         (∀ j ∈ t.after, j ∈ t'.after) ∧ (∀ j ∈ t.afterW, j ∈ t'.afterW) ∧ (∀ j ∈ t.afterS, j ∈ t'.afterS) ∧ holds t'
     leaves (.fnc p o sc ta) (fun t' => ∀ x ∈ opsOf s (.task tid),
       (o = .rel → kind x → if sc.narrow then (x.id, sc.code) ∈ t'.afterS else x.id ∈ t'.afterW) ∧
       (o = .acqrel → kind x → x.id ∈ t'.after) ∧ (o ≠ .rel → sc ≠ .elem → rmw x → x.id ∈ t'.after)) ∧
     leaves (.fncx p ta) (fun t' => ∀ x ∈ opsOf s (.task tid), ¬engine x → x.id ∈ t'.after ∧ x.id ∈ t'.afterX)) ∧
  (∀ (s : State) (p : Pred) (tid k : Nat) (t : Task) (q : Partition) (a b c : Word) (bid : Fin 64) (sc : Scope) (ta : Target),
     Turn s tid k t a b c → s.part? t.ptn = some q →
     let old := q.bar bid.val
     let now (s' : State) (n arr : Nat) (phase : Word) : Prop := ∃ q', s'.part? t.ptn = some q' ∧
       (q'.bar bid.val).n = n ∧ (q'.bar bid.val).arr = arr ∧ (q'.bar bid.val).phase = phase ∧
       ∀ j, j ≠ bid.val → q'.bar j = q.bar j
     (1 ≤ a.toNat ∧ a.toNat ≤ 65535 ∧ old.arr = 0 → Completes (.bari p bid sc ta) s fun s' =>
       now s' a.toNat 0 old.phase ∧ s' = { s with parts := s'.parts } ∧ ∀ x, x ≠ t.ptn → s'.part? x = s.part? x) ∧
     (¬(1 ≤ a.toNat ∧ a.toNat ≤ 65535 ∧ old.arr = 0) → exec (.bari p bid sc ta) s = .next (takeFault s tid (exc 0x010E))) ∧
     (old.n ≠ 0 → Completes (.bara p bid sc ta) s fun s' => SameMemory s s' ∧
       now s' old.n (if old.arr + 1 = old.n then 0 else old.arr + 1) (if old.arr + 1 = old.n then old.phase + 1 else old.phase) ∧
       (∃ o, s'.ops = s.ops ++ [o] ∧ o.src = .task tid ∧ o.dest = destOf t tid false ta ∧ o.act = .land [old.phase] 0 false) ∧
       (∀ u tu, u ≠ tid → s.task? u = some tu → tu.barW = [] → s'.task? u = some tu) ∧
       (∀ u tu w c, u ≠ tid → s.task? u = some tu → tu.ptn = t.ptn → tu.state = .blocked → tu.waitOn = .nothing →
         tu.barW = [(bid.val, w, c)] → old.arr + 1 = old.n → 0 < (old.phase + 1 - w).toInt →
         ∃ tu', s'.task? u = some tu' ∧ tu'.state = .runnable ∧ tu'.barW = [] ∧ tu'.regs = tu.regs)) ∧
     (old.n = 0 → exec (.bara p bid sc ta) s = .next (takeFault s tid (exc 0x010E))) ∧
     (0 < (old.phase - a).toInt → Completes (.barw p bid sc ta) s fun s' => ∃ ids, s' = s.setTask tid { t with after := ids }) ∧
     (¬0 < (old.phase - a).toInt → exec (.barw p bid sc ta) s =
       .next (s.setTask tid { t with state := .blocked, barW := t.barW ++ [(bid.val, a, sc.code)] })))

/-- The three rows of CHB, and the operand words that take exception 0x010D (R278, R279, R423). -/
def Obligations.ChannelBindings : Prop :=
  ∀ (s : State) (p : Pred) (tid k : Nat) (t : Task) (q : Partition) (a b c : Word) (ta : Target),
    Turn s tid k t a b c → s.part? t.ptn = some q →
    let n := a.toNat % 64
    let ad := chanAddr tid n
    let code := field b.toNat 63 62
    let routeOk : Prop := code = 2 ∧ field b.toNat 61 16 = 0 ∧ b.toNat % 256 ∈ q.clusters
    let bindOk : Prop := code = 1 ∧ field b.toNat 61 3 = 0 ∧ (s.chan ad).q = [] ∧
      ∃ u, s.task? (b.toNat % 8 * 1024 + seOf tid) = some u ∧ u.launch = t.launch
    let refused (i : Instr) : Prop := exec i s = .next (takeFault s tid (exc 0x010D))
    (b = 0 → Completes (.chbRouteDefault p ta) s fun s' => ∃ t', s' = s.setTask tid t' ∧ t' = { t with routes := t'.routes } ∧
      t'.route tid n = ad ∧ ∀ j, j ≠ n → t'.route tid j = t.route tid j) ∧
    (b ≠ 0 → refused (.chbRouteDefault p ta)) ∧
    (routeOk → Completes (.chbRoute p ta) s fun s' => ∃ t', s' = s.setTask tid t' ∧ t' = { t with routes := t'.routes } ∧
      t'.route tid n = b.toNat % 65536 ∧ ∀ j, j ≠ n → t'.route tid j = t.route tid j) ∧
    (¬routeOk → refused (.chbRoute p ta)) ∧
    (bindOk → exec (.chbBind p ta) s = .next (s.setChan ad ⟨some (b.toNat % 8), []⟩)) ∧
    (¬bindOk → refused (.chbBind p ta)) ∧
    refine (.chbRouteDefault p ta) a b = (if code = 2 then .chbRoute p ta else if code = 1 then .chbBind p ta else .chbRouteDefault p ta)

/-- The engine requests and INJ (R277, R280-R283, R424): one request goes to the engine of the issuing SE, or for INJ to
the region its word names, and it waits for the earlier accesses of its task; operands out of range take 0x010E. -/
def Obligations.EngineRequests : Prop :=
  ∀ (s : State) (p : Pred) (tid k : Nat) (t : Task) (a b c : Word) (m : Fin 32) (h : Hint) (ta : Target),
    Turn s tid k t a b c → (ta = .none → t.resp.length < 16) →
    let sends (i : Instr) (code hint : Nat) (target : Agent) (ok : Prop) : Prop :=
      (ok → Completes i s fun s' => SendsOnly s s' tid t target 1 (destOf t tid true ta)
        (t.after ++ t.afterW ++ releaseAfter s (.task tid) .dev) (.engine code a b c hint)) ∧
      (¬ok → exec i s = .next (takeFault s tid (exc 0x010E)))
    let here := Agent.engine (seOf tid)
    let blockOk : Prop := b.toNat < 2 ^ 29 ∧ a.toNat % 65536 = 0
    sends (.cpy p m h ta) 0x56 h.code here (1 ≤ c.toNat ∧ c.toNat ≤ 2 ^ 40) ∧
    sends (.mcst p m h ta) 0x57 h.code here (1 ≤ field b.toNat 39 32 ∧ field b.toNat 39 32 ≤ 32 ∧ field b.toNat 63 41 = 0) ∧
    sends (.gth p m h ta) 0x58 h.code here True ∧ sends (.sct p m h ta) 0x59 h.code here True ∧
    sends (.ksel p m h ta) 0x5A h.code here True ∧ sends (.kvpk p m h ta) 0x5B h.code here True ∧
    sends (.axrd p m h ta) 0x5C h.code here blockOk ∧ sends (.axwr p m h ta) 0x5D h.code here blockOk ∧
    sends (.inj p m ta) 0x55 0 (.region (field a.toNat 10 8 * 256 + a.toNat % 256))
      (entryWordOk s t a = true ∧ ¬(3 ≤ field a.toNat 19 16 ∧ field a.toNat 19 16 ≤ 7) ∧ field a.toNat 19 16 ≠ 15)

/-- The fibre forms send one operation to the home shelver of operand a, the Concordance forms one to the tree it names
(R98, R103, R141, R264, R266, R285, R286, R287, R342, R424). The pages that operand a accepts and a batch that cannot
be read are the model's reading (log entry 59). -/
def Obligations.FibreAndTreeRequests : Prop :=
  (∀ (s : State) (p : Pred) (tid k : Nat) (t : Task) (a b c : Word) (m : Fin 32) (mode : MMode) (dz : Bool) (l : Fin 8)
     (ta : Target), Turn s tid k t a b c →
     let sends (i : Instr) (write : Bool) (ok : Prop) (n : Nat) (dest : Dest) (act : Pass → Act) : Prop :=
       (∀ e, headAccess s tid t write a = .error e → ok → exec i s = .next (takeFault s tid e)) ∧
       (∀ x, headAccess s tid t write a = .ok x → ok → Completes i s fun s' =>
         SendsOnly s s' tid t (.shelver (stackOf x.pa * 64 + pchanOf x.pa)) n dest (t.after ++ t.afterW) (act x))
     let plain (code : Nat) (x : Pass) : Act := .fibre code a x.pa x.typ b c 0 0 [] [] false
     let home := destOf t tid false ta
     let batch := batchPlaces s tid t b c.toNat
     sends (.fnew p m ta) true True 1 home (plain fNew) ∧
     sends (.fnewGrant p m ta) true True 1 home (fun x => .fibre fGrant a x.pa x.typ b c 0 (pageLog s tid a) [] [] false) ∧
     sends (.fdel p m ta) true True 0 home (plain fDel) ∧
     sends (.fprb p m ta) false True 2 home (plain fPrb) ∧
     sends (.flen p m ta) false True 1 home (plain fLen) ∧
     sends (.fmrg p m mode dz ta) true (c.toNat < 128) 1 home
       (fun x => .fibre fMrg a x.pa x.typ b c (mode.code + 8 * bnat dz) 0 [] batch.1 batch.2) ∧
     (128 ≤ c.toNat → exec (.fmrg p m mode dz ta) s = .next (takeFault s tid (exc 0x010E))) ∧
     sends (.fscn p m l ta) false (b = 0 ∧ ∃ ch, ta = .chan ch) 1 home (fun x => .fibre fScn a x.pa x.typ b 0 0 0 [] [] false) ∧
     sends (.fscn p m l ta) false (b ≠ 0 ∧ entryWordOk s t b = true) 1
       (.entry (field b.toNat 10 8 * 256 + b.toNat % 256) (field b.toNat 13 12))
       (fun x => .fibre fScn a x.pa x.typ b (match ta with | .chan ch => wordOf (t.route tid ch.val + 65536) | _ => 0) 0 l.val [] [] false) ∧
     ((b = 0 ∧ ∀ ch, ta ≠ .chan ch) → exec (.fscn p m l ta) s = .next (takeFault s tid (exc 0x0105))) ∧
     ((b ≠ 0 ∧ entryWordOk s t b = false) → exec (.fscn p m l ta) s = .next (takeFault s tid (exc 0x010E)))) ∧
  (∀ (s : State) (p : Pred) (tid k : Nat) (t : Task) (a b c : Word) (m : Fin 32) (ta : Target), Turn s tid k t a b c →
     let tree := a.toNat % 4 * 16 + field a.toNat 7 4
     let named : Prop := a.toNat < 256 ∧ field a.toNat 3 2 = 0 ∧ ∀ tr, mget s.trees tree = some tr → tr.ptn = t.ptn
     let sends (i : Instr) (ok : Prop) (code n : Nat) : Prop :=
       (ok → Completes i s fun s' => SendsOnly s s' tid t (.tree tree) n (destOf t tid false ta)
         (t.after ++ t.afterW ++ releaseAfter s (.task tid) .dev ++ writeIds s (.task tid)) (.tree code a b c) ∧
         ∃ t', s'.task? tid = some t' ∧ s.nextId ∈ t'.after) ∧
       (¬ok → exec i s = .next (takeFault s tid (exc 0x010E)))
     sends (.snpf p m ta) (named ∧ c ≠ 0) tFind 2 ∧ sends (.snpp p m ta) named tInsert 2 ∧
     sends (.snpg p m ta) named tGet 3 ∧ sends (.snpr p m ta) named tRelease 0)

/-- CFGL and WGL load an image into a slot of a region and give a status word; a slot that is not free stays as it was and
gives 0x000D, an image that cannot be read gives 0x0001 or 0x0020, and an accepted one gives 0 (R37, R128, R274, R275,
R288, R348, R363, R424). Which of several refusals is given is the model's reading (log entries 40, 45). The refusals
that log entries 108 and 115 name are the model's reading. The code of a WGL that cannot be read, and that of a
relay's side that leads out of the region, are its choice (log entries 123, 124). -/
def Obligations.ContextLoads : Prop :=
  ∀ (s : State) (p : Pred) (tid k : Nat) (t : Task) (g : Region) (a b c : Word) (ctx : Fin 4) (reg : Fin 8) (ta : Target),
    let r := reg.val * 256 + a.toNat % 256
    Turn s tid k t a b c → s.region? r = some g → armsArrived s tid r = true →
    let named : Prop := a.toNat < 256 ∧ regionDeclared s t a.toNat reg.val = true
    let gives (i : Instr) (g' : Region) (st : Word) : Prop := Completes i s fun s' =>
      Gives s s' tid t ta [st] ∧ s'.parts = s.parts ∧ s'.fab.chans = s.fab.chans ∧ s'.region? r = some g' ∧
      ∀ x, x ≠ r → s'.region? x = s.region? x
    let cfgl := Instr.cfgl p ctx reg ta
    let wgl := Instr.wgl p ctx reg ta
    let image := readCtxImage (imageWords s tid) b
    let folio := readFolio (imageWords s tid) b
    (¬named → exec cfgl s = .next (takeFault s tid (exc 0x010E)) ∧ exec wgl s = .next (takeFault s tid (exc 0x010E))) ∧
    (named → batchReady s tid t b 2 = true →
      (image = none → gives cfgl g 0x0001) ∧
      (∀ im, image = some im → (g.ctx ctx.val).isFree = false → gives cfgl g 0x000D) ∧
      (∀ im, image = some im → (g.ctx ctx.val).isFree = true →
        (∀ w, checkImage (s.outside r g) g ctx.val im = .error w → gives cfgl g w) ∧
        (∀ l, checkImage (s.outside r g) g ctx.val im = .ok l → ∃ g', gives cfgl g' 0 ∧ g' = { g with ctxs := g'.ctxs } ∧
          (ctx.val < g.ctxs.length → (g'.ctx ctx.val).status = .staged ∧ (g'.ctx ctx.val).fetching = true ∧
            (g'.ctx ctx.val).elems = l.elems ∧ (g'.ctx ctx.val).arm = 0 ∧ ∀ j, j ≠ ctx.val → g'.ctx j = g.ctx j)))) ∧
    (named → batchReady s tid t b 4 = true →
      (folioSlot (g.ctx ctx.val) = false → gives wgl g 0x000D) ∧
      (folioSlot (g.ctx ctx.val) = true → folio = none → gives wgl g 0x0020) ∧
      (∀ im, folioSlot (g.ctx ctx.val) = true → folio = some im →
        let old := if (g.ctx ctx.val).isFree then none else some (g.ctx ctx.val)
        (∀ w, checkFolio g old im.1 im.2.1 im.2.2 = .error w → gives wgl g w) ∧
        (∀ f, checkFolio g old im.1 im.2.1 im.2.2 = .ok f → ∃ g', gives wgl g' 0 ∧
          (ctx.val < g.ctxs.length → (g'.ctx ctx.val).folio = some { f with va := b.toNat } ∧ (g'.ctx ctx.val).status = .staged ∧
            ∀ j, j ≠ ctx.val → g'.ctx j = g.ctx j))))

/-- ARM, DARM, CTXM, WGQ, WGU and CFGS (R30, R32, R37, R38, R55, R129, R130, R274, R276, R288, R424). The counters before
the first phase end, and WGU without a Folio, are the model's (log entries 44, 46). What DARM does with a pending
section is the model's choice (log entry 97). -/
def Obligations.ContextControl : Prop :=
  (∀ (s : State) (p : Pred) (tid k : Nat) (t : Task) (g : Region) (a b c : Word) (ctx : Fin 4) (reg : Fin 8)
     (mw mode fre : Bool) (ta : Target),
     let r := reg.val * 256 + a.toNat % 256
     Turn s tid k t a b c → s.region? r = some g → armsArrived s tid r = true →
     let named : Prop := a.toNat < 256 ∧ regionDeclared s t a.toNat reg.val = true
     let x := g.ctx ctx.val
     let refused (i : Instr) : Prop := exec i s = .next (takeFault s tid (exc 0x010E))
     (¬named → refused (.arm p ctx reg ta) ∧ refused (.darm p ctx reg fre ta) ∧ refused (.ctxm p ctx reg mw mode ta) ∧
       refused (.wgq p ctx reg ta) ∧ refused (.wgu p ctx reg ta)) ∧
     (named → (b = 0 ∨ 2 ^ 32 ≤ b.toNat) → refused (.arm p ctx reg ta)) ∧
     (named → b ≠ 0 → b.toNat < 2 ^ 32 → Completes (.arm p ctx reg ta) s fun s' =>
       SendsOnly s s' tid t (.region r) 0 .nowhere []
         (.arm r ctx.val b.toNat (match ta with | .chan n => t.route tid n.val | _ => 0) tid t.launch)) ∧
     (named → ctx.val < g.ctxs.length → Completes (.darm p ctx reg fre ta) s fun s' => SameMemory s s' ∧
       ∃ g', s'.region? r = some g' ∧ (∀ q ∈ g'.pends, q.ctx ≠ ctx.val) ∧
         (x.resident = true → g.phase = true → g.cur = some ctx.val →
           (g'.ctx ctx.val).disarm = true ∧ (g'.ctx ctx.val).arm = x.arm ∧ (fre = true → (g'.ctx ctx.val).release = true)) ∧
         (x.resident = true → ¬(g.phase = true ∧ g.cur = some ctx.val) → (g'.ctx ctx.val).arm = 0)) ∧
     (named → Completes (.ctxm p ctx reg mw mode ta) s fun s' => Gives s s' tid t ta [g.snap0, g.snap1] ∧
       ∃ g', s'.region? r = some g' ∧ g' = { g with nextCount := if mw then mode else g.nextCount }) ∧
     (named → Completes (.wgq p ctx reg ta) s fun s' =>
       let used := match x.folio with | some f => f.nodes.length | none => 0
       Gives s s' tid t ta [wordOf ((64 * g.cTiles.length - used) * 2 ^ 32 + used * 2 ^ 16 + bnat x.satEnd * 8 +
         bnat (x.folio.isSome && x.status == .staged) * 4 + ctx.val)] ∧
       ∃ g', s'.region? r = some g' ∧ (g'.ctx ctx.val).satEnd = false) ∧
     (named → ctx.val < g.ctxs.length → Completes (.wgu p ctx reg ta) s fun s' => SameMemory s s' ∧
       ∃ g', s'.region? r = some g' ∧
         (x.folio = none → x.release = false → x.unload = false → g'.ctx ctx.val = x) ∧
         (x.folio.isSome → (g'.ctx ctx.val).unload = true ∨ (g'.ctx ctx.val).status = .free))) ∧
  (∀ (s : State) (p : Pred) (tid k : Nat) (t : Task) (a b c : Word) (ta : Target), Turn s tid k t a b c →
     let n := b.toNat
     let r := field n 10 8 * 256 + n % 256
     armsArrived s tid r = true →
     let ok : Prop := n < 2 ^ 15 ∧ regionDeclared s t (n % 256) (field n 10 8) = true ∧ field n 12 11 ≠ field n 14 13 ∧
       2048 ≤ (a - wordOf s.time).toNat ∧ (a - wordOf s.time).toNat < 2 ^ 47
     (ok → exec (.cfgs p ta) s = .next { s with nextId := s.nextId + 1, ctrl := s.ctrl ++ [⟨s.nextId, .task tid, .region r, 4,
       wordOf (a.toNat % 2 ^ 48 * 2 ^ 16 + field n 14 13 * 4 + field n 12 11), t.ptn, [], none⟩] }) ∧
     (¬ok → exec (.cfgs p ta) s = .next (takeFault s tid (exc 0x010E))))

/-- RETS, RETC, WMSK and L2FL give their status and change the retention registers, the way masks, the lines and the
scratch ways; NMLD, NMGO, NMBX and NMWK send one operation to a near-bank unit (R80, R81, R83, R175, R289, R290, R291,
R292, R391, R424). RETS that does not translate, NMLD that cannot read and the order of the near-bank forms are the
model's (log entries 21, 60). -/
def Obligations.L2AndNearBankForms : Prop :=
  (∀ (s : State) (p : Pred) (tid k : Nat) (t : Task) (q : Partition) (a b c : Word) (ta : Target),
     Turn s tid k t a b c → s.part? t.ptn = some q →
     let j := field c.toNat 1 0
     let n := field c.toNat 7 4
     let die := field c.toNat 9 8
     let regOk : Prop := field c.toNat 63 10 = 0 ∧ field c.toNat 3 2 = 0
     let sliceOk : Prop := a.toNat < 2 ^ 11 ∧ b.toNat < 2 ^ 16
     let refused (i : Instr) : Prop := exec i s = .next (takeFault s tid (exc 0x010E))
     (¬regOk → refused (.rets p ta) ∧ refused (.retc p ta)) ∧
     (regOk → retCountOk s q die j n = false → Completes (.rets p ta) s fun s' => GivesOnly s s' tid t ta [1]) ∧
     (regOk → retCountOk s q die j n = true → retRange s tid t q a b = .bad →
       Completes (.rets p ta) s fun s' => GivesOnly s s' tid t ta [2]) ∧
     (∀ pa, regOk → retCountOk s q die j n = true → retRange s tid t q a b = .at pa → Completes (.rets p ta) s fun s' =>
       Gives s s' tid t ta [0] ∧ ∃ q', s'.part? t.ptn = some q' ∧ mget q'.rets (die * 4 + j) = some ⟨pa, b.toNat, n⟩ ∧
         q' = { q with rets := q'.rets } ∧ ∀ i, i ≠ die * 4 + j → mget q'.rets i = mget q.rets i) ∧
     (regOk → retCountOk s q die j n = true → retRange s tid t q a b = .fault →
       Completes (.rets p ta) s fun s' => ∃ v, GivesOnly s s' tid t ta [v]) ∧
     (regOk → Completes (.retc p ta) s fun s' => Gives s s' tid t ta [0] ∧ ∃ q', s'.part? t.ptn = some q' ∧
       mget q'.rets (die * 4 + j) = none ∧ ∀ i, i ≠ die * 4 + j → mget q'.rets i = mget q.rets i) ∧
     (¬sliceOk → refused (.wmsk p ta) ∧ refused (.l2fl p ta)) ∧
     (sliceOk → wmskStatus s q a b ≠ 0 → Completes (.wmsk p ta) s fun s' =>
       GivesOnly s s' tid t ta [wordOf (wmskStatus s q a b)] ∧ s'.slices = s.slices) ∧
     (sliceOk → wmskStatus s q a b = 0 → Completes (.wmsk p ta) s fun s' =>
       (∃ o, s'.ops = s.ops ++ [o] ∧ o.src = .task tid ∧ o.dest = destOf t tid false ta ∧ o.act = .land [0] 0 false) ∧
       OthersKept s s' tid ∧ s'.parts = s.parts ∧
       (∀ sl ∈ slicesOf a, ∀ w < 16,
         bitAt (s'.slice sl).mask w = if (waysOn q (field a.toNat 9 8)).contains w then bitAt b.toNat w else bitAt (s.slice sl).mask w) ∧
       (∀ sl, sl ∉ slicesOf a → s'.slice sl = s.slice sl) ∧
       (∀ sl ∈ slicesOf a, ∀ w < 16, bitAt (s.slice sl).mask w = true → bitAt (s'.slice sl).mask w = false →
         ∀ j < 32768, Memory.read s'.mem (wayKey sl w + j) = 0) ∧
       (∀ ad, (∀ sl ∈ slicesOf a, ∀ w < 16, ad < wayKey sl w ∨ wayKey sl w + 32768 ≤ ad) →
         Memory.read s'.mem ad = Memory.read s.mem ad)) ∧
     (sliceOk → Completes (.l2fl p ta) s fun s' => GivesOnly s s' tid t ta [0] ∧
       (∀ sl ∈ slicesOf a, ∀ l ∈ (s'.slice sl).lines, ¬((waysOn q (field a.toNat 9 8)).contains (l.1 % 16) = true ∧ bitAt b.toNat (l.1 % 16) = true)) ∧
       (∀ sl, sl ∉ slicesOf a → s'.slice sl = s.slice sl))) ∧
  (∀ (s : State) (p : Pred) (tid k : Nat) (t : Task) (q : Partition) (a b c : Word) (m : Fin 32) (ta : Target),
     Turn s tid k t a b c → s.part? t.ptn = some q →
     let sends (i : Instr) (ok : Prop) (n : Nat) (wait : List Nat) (act : Nat → Act) : Prop :=
       (∀ u, a.toNat < 1024 → q.units[a.toNat]? = some u → ok → Completes i s fun s' =>
         SendsOnly s s' tid t (.unit u) n (destOf t tid false ta) wait (act u)) ∧
       ((1024 ≤ a.toNat ∨ q.units[a.toNat]? = none) → exec i s = .next (takeFault s tid (exc 0x010E)))
     let near (code u : Nat) : Act := .nearBank code u b []
     let batch := batchPlaces s tid t b 16
     sends (.nmld p m ta) True 0 (t.after ++ t.afterX) (fun u => .nearLoad u batch.1 batch.2) ∧
     sends (.nmgo p ta) True 1 t.afterX (near nGo) ∧ sends (.nmbx p ta) True 0 t.afterX (near nPost) ∧
     sends (.nmwk p ta) (b.toNat < 2 ^ 16) 0 t.afterX (near nWake) ∧
     (2 ^ 16 ≤ b.toNat → exec (.nmwk p ta) s = .next (takeFault s tid (exc 0x010E))))

/-- CSRW writes each register that it may write and is refused by the others; IDLE, IRQ, TRP at its form, ERET, TLBI, MBXR
and ATST (R111, R151, R190, R225, R293, R294, R295, R297, R437). The report of ATST, the waking of IDLE, MBXR out of
range and the reach of TLBI are the model's (log entries 8, 22, 39, 71). -/
def Obligations.SystemForms : Prop :=
  (∀ (s : State) (p : Pred) (tid k : Nat) (t : Task) (q : Partition) (a b c : Word) (ta : Target),
     Turn s tid k t a b c → s.part? t.ptn = some q →
     let task (r : Csr) (t' : Task) : Prop := exec (.csrw p r ta) s = .next (s.setTask tid t')
     let part (r : Csr) (q' : Partition) : Prop := exec (.csrw p r ta) s = .next { s with parts := mset s.parts t.ptn q' }
     (t.fsrIn.1 ≠ s.time → task .fsr { t with fsr := a &&& 0x7F }) ∧
     (t.fsrIn.1 = s.time → task .fsr { t with fsr := fsrOr (a &&& 0x7F) t.fsrIn.2 }) ∧ task .fcost { t with fcost := a &&& 0xFFFFFFFFFFFF } ∧
     task .prio { t with prio := a.toNat % 4 } ∧
     part .ssc0 { q with ssc0 := a } ∧ part .ssc1 { q with ssc1 := a } ∧
     part .s1rt { q with s1root := some (field a.toNat 47 16 * 65536) } ∧
     (∀ r : Csr, r ∈ [.time, .tid, .ptn, .plvl, .dlgt, .mbxn, .pepc, .alrm] →
       exec (.csrw p r ta) s = .next (takeFault s tid (exc 0x010F)))) ∧
  (∀ (s : State) (p : Pred) (tid k : Nat) (t : Task) (q : Partition) (a b c : Word) (v : Fin 64) (tn : BitVec 9) (sc : Scope)
     (ta : Target), Turn s tid k t a b c → s.part? t.ptn = some q →
     exec (.idle p ta) s = .next (s.setTask tid { t with asleep := true }) ∧
     (∀ x, mget q.vectors v.val = some x → x.mask = false →
       exec (.irq p v ta) s = .next { s with msgs := s.msgs ++ [(x.addr, x.data)] }) ∧
     (∀ x, mget q.vectors v.val = some x → x.mask = true → exec (.irq p v ta) s =
       .next { s with parts := mset s.parts t.ptn { q with vectors := mset q.vectors v.val { x with pending := true } } }) ∧
     (mget q.vectors v.val = none → exec (.irq p v ta) s = .next s) ∧
     exec (.trp p tn ta) s = .next (s.setTask tid { t with trap := t.trap ++ [tn.toNat] }) ∧
     (∀ u, s.task? a.toNat = some u → u.ptn = t.ptn → u.state = .stopped →
       (b.getLsbD 63 = true → exec (.eret p ta) s =
         .next (s.setTask a.toNat { u with state := .runnable, pc := u.resumeAt.getD u.pc, resumeAt := none })) ∧
       (b.getLsbD 63 = false → isHeader s (seOf a.toNat) (b.toNat % 2 ^ 14 : Nat) = true → exec (.eret p ta) s =
         .next (s.setTask a.toNat { u with state := .runnable, pc := b.toNat % 2 ^ 14, resumeAt := none }))) ∧
     ((b.getLsbD 63 = false ∧ isHeader s (seOf a.toNat) (b.toNat % 2 ^ 14 : Nat) = false) →
       exec (.eret p ta) s = .next (takeFault s tid (exc 0x010B))) ∧
     ((b.getLsbD 63 = true ∧ ∀ u, s.task? a.toNat = some u → u.ptn = t.ptn → u.state ≠ .stopped) →
       exec (.eret p ta) s = .next (takeFault s tid (exc 0x010F))) ∧
     (b.toNat < 2 → Completes (.tlbi p sc ta) s fun s' =>
       SendsOnly s s' tid { t with invs := t.invs ++ [s.nextId] } (.task tid) 0 .nowhere (writeIds s (.task tid))
         (.invalidate a (b.getLsbD 0) sc.code)) ∧
     (2 ≤ b.toNat → exec (.tlbi p sc ta) s = .next (takeFault s tid (exc 0x010E))) ∧
     (∀ r rs, a.toNat < 4 → b.toNat < 16 → mgetD q.mbox a.toNat [] = r :: rs →
       Completes (.mbxr p ta) s fun s' => GivesOnly s s' tid t ta [lget r.words b.toNat 0]) ∧
     (a.toNat < 4 → b.toNat < 16 → mgetD q.mbox a.toNat [] = [] → Completes (.mbxr p ta) s fun s' => GivesOnly s s' tid t ta [0]) ∧
     (¬(a.toNat < 4 ∧ b.toNat < 16) → Completes (.mbxr p ta) s fun s' => ∃ w, GivesOnly s s' tid t ta [w]) ∧
     (s.ready 6 0 = false ∨ s.alarm.erased = true ∨ s.keys = none → Completes (.atst p ta) s fun s' => GivesOnly s s' tid t ta [0]) ∧
     (s.ready 6 0 = true → s.alarm.erased = false → s.keys.isSome →
       let nonce := runsOf s tid t askLoad a 32
       let area := runsOf s tid t askStore b 8192
       (∀ ns rs, nonce = some ns → area = some rs → Completes (.atst p ta) s fun s' =>
         SendsOnly s s' tid t (.task tid) 1 (destOf t tid false ta) (t.after ++ t.afterW) (.attest ns rs)) ∧
       (nonce = none ∨ area = none → Completes (.atst p ta) s fun s' => ∃ v, GivesOnly s s' tid t ta [v])))

/-- The four rows of MBXW (R296): RESUME and POP remove the head record, RESUME lets its stopped task go on, ABORT ends
the launch with STAT 2 and the code b[31:0], DELEGATE routes the classes of its mask. What a second DELEGATE leaves is
the model's reading (log entry 63). -/
def Obligations.MailboxCommands : Prop :=
  ∀ (s : State) (p : Pred) (tid k : Nat) (t : Task) (q : Partition) (a b c : Word) (ta : Target),
    Turn s tid k t a b c → s.part? t.ptn = some q →
    let die := field a.toNat 9 8
    let cmd (n : Nat) : Prop := a.toNat % 256 = n ∧ a.toNat < 2 ^ 24 ∧ field a.toNat 15 10 = 0
    let box := mgetD q.mbox die []
    let popped (s' : State) : Prop := ∃ q', s'.part? t.ptn = some q' ∧ mgetD q'.mbox die [] = box.drop 1 ∧
      q' = { q with mbox := q'.mbox } ∧ ∀ d, d ≠ die → mgetD q'.mbox d [] = mgetD q.mbox d []
    (cmd 1 → box = [] → Completes (.mbxwResume p ta) s fun s' => GivesOnly s s' tid t ta [1]) ∧
    (∀ r rs u tu, cmd 1 → box = r :: rs → r.origin = .task u → u ≠ tid → s.task? u = some tu → tu.state = .stopped →
      Completes (.mbxwResume p ta) s fun s' => popped s' ∧ SameMemory s s' ∧
        s'.task? u = some { tu with state := .runnable, pc := (lget r.words 6 0).toNat, resumeAt := none } ∧
        (∃ o, s'.ops = s.ops ++ [o] ∧ o.dest = destOf t tid false ta ∧ o.act = .land [0] 0 false)) ∧
    (∀ r rs rg cx pos g, cmd 1 → box = r :: rs → r.origin = .elem rg cx pos → s.region? rg = some g → cx < g.ctxs.length →
      Completes (.mbxwResume p ta) s fun s' => popped s' ∧ SameMemory s s' ∧
        (∃ g', s'.region? rg = some g' ∧ g' = { g with ctxs := g'.ctxs } ∧ (∀ j, j ≠ cx → g'.ctx j = g.ctx j) ∧
          ((g'.ctx cx).bank pos).ag = { ((g.ctx cx).bank pos).ag with faulted := false } ∧
          ∀ j, j ≠ pos → (g'.ctx cx).bank j = (g.ctx cx).bank j) ∧
        (∃ o, s'.ops = s.ops ++ [o] ∧ o.dest = destOf t tid false ta ∧ o.act = .land [0] 0 false)) ∧
    (cmd 3 → box = [] → Completes (.mbxwPop p ta) s fun s' => GivesOnly s s' tid t ta [1]) ∧
    (cmd 3 → box ≠ [] → Completes (.mbxwPop p ta) s fun s' => Gives s s' tid t ta [0] ∧ popped s') ∧
    (∀ l, cmd 2 → msorted none s.fab.tasks = true → mget s.launches t.launch = some l → Completes (.mbxwAbort p ta) s fun s' =>
      mget s'.launches t.launch = none ∧ s'.task? tid = none ∧ (∀ u tu, s.task? u = some tu → tu.launch = t.launch → s'.task? u = none) ∧
      SameMemory s s' ∧ (∀ q1, s.part? l.ptn = some q1 → ∃ q', s'.part? l.ptn = some q' ∧
        q'.compl = q1.compl ++ [(complWords l.ring 2 l.seq (b.toNat % 2 ^ 32) s.time l.tag, l.irqc)])) ∧
    (cmd 0x20 → (b = 0 ∨ b.toNat < 65536 ∧ b.toNat % 256 ∈ q.clusters) → Completes (.mbxwDelegate p ta) s fun s' =>
      Gives s s' tid t ta [0] ∧ ∃ q', s'.part? t.ptn = some q' ∧ q' = { q with dlgt := q'.dlgt } ∧
        (∀ cl < 3, a.getLsbD (16 + cl) = true → mget q'.dlgt (die * 4 + cl) = if b = 0 then none else some b.toNat) ∧
        (∀ x, (∀ cl < 3, a.getLsbD (16 + cl) = true → x ≠ die * 4 + cl) → mget q'.dlgt x = mget q.dlgt x)) ∧
    (cmd 0x20 → ¬(b = 0 ∨ b.toNat < 65536 ∧ b.toNat % 256 ∈ q.clusters) →
      exec (.mbxwDelegate p ta) s = .next (takeFault s tid (exc 0x010E))) ∧
    (¬cmd 1 → exec (.mbxwResume p ta) s = .next (takeFault s tid (exc 0x010F))) ∧
    refine (.mbxwResume p ta) a b = (if a.toNat % 256 = 2 then .mbxwAbort p ta else if a.toNat % 256 = 3 then .mbxwPop p ta
      else if a.toNat % 256 = 0x20 then .mbxwDelegate p ta else .mbxwResume p ta)

/-- Taking an exception: the block in flight is discarded, the task stops at its header with its registers and return
stack as they were, nothing of memory changes, and the record of R356 enters the mailbox of its die or waits for room
there (R240, R353, R355, R356); and TRP at its block's commit, which delivers its trap record or ends its launch
(R294, R296, R359). Several traps of one block are the model's reading (log entry 64). -/
def Obligations.TaskFaultEntry : Prop :=
  (∀ (s : State) (tid : Nat) (t : Task) (q : Partition) (f : Flt0), s.task? tid = some t → s.part? t.ptn = some q →
     let s' := takeFault s tid f
     let at' := match t.blk with | some b => b.head | none => t.pc
     let die := tid % 256 / 64
     let words : List Word := [wordOf (0x03 * 2 ^ 56 + f.code * 2 ^ 40 + t.lastExit * 2 ^ 32 + tid),
       wordOf (fcodeClass f.code * 2 ^ 60 + die * 2 ^ 30), f.fva, wordOf s.time, 0, 0, wordOf at', f.lpte, 0, 0, 0, 0, 0, 0, 0, 0]
     let box := mgetD q.mbox die []
     let wait := mgetD q.waitrec die []
     s'.task? tid = some { t with state := .stopped, blk := none, pc := at', resumeAt := some at' } ∧
     OthersKept s s' tid ∧ SameMemory s s' ∧ s'.fab.chans = s.fab.chans ∧ s'.fab.regions = s.fab.regions ∧ s'.ops = s.ops ∧
     s'.launches = s.launches ∧ ∃ q', s'.part? t.ptn = some q' ∧ q' = { q with mbox := q'.mbox, waitrec := q'.waitrec } ∧
       (box.length < 64 ∧ wait = [] →
         mgetD q'.mbox die [] = box ++ [⟨s.nextId, words, .task tid, t.launch⟩] ∧ q'.waitrec = q.waitrec) ∧
       (¬(box.length < 64 ∧ wait = []) →
         mgetD q'.waitrec die [] = wait ++ [⟨s.nextId, words, .task tid, t.launch⟩] ∧ q'.mbox = q.mbox)) ∧
  (∀ (s : State) (tid : Nat) (t : Task) (q : Partition) (n : Nat), s.task? tid = some t → s.part? t.ptn = some q →
     t.trap = [n] → t.state = .runnable →
     let s' := takeTraps s tid
     let after := wordIds s tid
     (∀ ch, delegated (s.setTask tid { t with state := .stopped, waitOn := .nothing, barW := [], resumeAt := some t.pc, trap := [] })
         q (tid % 256 / 64) 2 (.task tid) = some ch →
       s'.task? tid = some { t with state := .stopped, waitOn := .nothing, barW := [], resumeAt := some t.pc, trap := [] } ∧
       s'.ctrl = s.ctrl ++
         [⟨s.nextId, .task tid, .chan ch, 1, wordOf (0x01 * 2 ^ 56 + n * 2 ^ 40 + tid), t.ptn, after, none⟩,
          ⟨s.nextId + 1, .task tid, .chan ch, 1, wordOf t.pc, t.ptn, after, none⟩]) ∧
     (∀ l, (mget q.dlgt (tid % 256 / 64 * 4 + 2) = none) → mget s.launches t.launch = some l → l.ptn = t.ptn →
       mget s'.launches t.launch = none ∧ ∃ q', s'.part? t.ptn = some q' ∧
         q'.compl = q.compl ++ [(complWords l.ring 2 l.seq (0x100 + n) s.time l.tag, l.irqc)]))

/-- BLOCK_ISSUE and BLOCK_COMMIT: the block of the task whose turn it is issues with the counts of its header, or its task
takes the exception the checks at issue find; a block that meets its counts commits when its forms are ready, and one
that can never meet them takes 0x010A; at the commit its channel words set out in slot order, the words that its RECVs
and the responses that its RSPs have taken are gone, and its registers, flags, exit number and program counter change
(R39, R41, R213, R236, R237, R248, R284, R419, R420, R422). The order of forms without LSID and of traps, and the
moment at which a round ends, are the model's reading (log entries 64, 65, 89). That a load's fault is kept to the
commit, and that a squashed slot does not wait for its operands, is the model's reading (log entries 38, 90). -/
def Obligations.BlocksIssueAndCommit : Prop :=
  ((∀ (s : State) (se slot : Nat) (served : List Nat) (t : Task), turnOf s se = some (slot, served) →
     s.task? (slot * 1024 + se) = some t → (∀ j < 8, ∀ u, s.task? (j * 1024 + se) = some u → u.blk = none) →
     let tid := slot * 1024 + se
     let w := s.iword se t.pc
     (∀ c, issueCheck s se t.pc t.level = .error c → exec (.blockIssue se) s = .next (takeFault (noteIssue s se slot served) tid (exc c))) ∧
     (∀ h, issueCheck s se t.pc t.level = .ok h → Completes (.blockIssue se) s fun s' =>
       h = ⟨field w 27 22 + 1, field w 21 16, field w 15 10, bitAt w 9, bitAt w 8⟩ ∧ field w 31 28 = 0xB ∧
       t.pc + 4 * (h.n + 1) ≤ 16384 ∧ SameMemory s s' ∧
       s'.task? tid = some { t with yielded := [], blk := some (⟨t.pc, h.n, h.w, h.s, h.priv, h.yieldpt,
         lrep h.n ⟨.empty, .empty, .empty, .empty, .waiting⟩, [], 0, [], [], 0, [], [], 0,
         gatesOf (fun k => s.iword se (t.pc + 4 * (k + 1))) h.n, []⟩ : Block) } ∧
       ∀ u tu, u ≠ tid → s.task? u = some tu → ∃ ys, s'.task? u = some { tu with yielded := ys })) ∧
   (∀ (s : State) (tid : Nat) (t : Task) (b : Block), s.task? tid = some t → t.blk = some b → taskActs s t = true →
     (countsMet b = false → anySlotCan s tid b = false → b.bad = [] → exec (.blockCommit tid) s = .next (takeFault s tid (exc 0x010A))) ∧
     (countsMet b = false → anySlotCan s tid b = false → b.bad ≠ [] → ∀ f, commitFault s tid t b (natRange 0 b.n) = some f →
       exec (.blockCommit tid) s = .next (takeFault s tid f)) ∧
     (countsMet b = true → (loadDue s tid b = true ∨ formsWalked s tid t b = false) → exec (.blockCommit tid) s = .refused .notEnabled) ∧
     (countsMet b = true → loadDue s tid b = false → formsWalked s tid t b = true → ∀ f, commitFault s tid t b (natRange 0 b.n) = some f →
       exec (.blockCommit tid) s = .next (takeFault (faultInstall s tid t f) tid f)) ∧
     (MayCommit s tid t b → exec (.blockCommit tid) s = .next (commitBlock s tid t b)) ∧
     (countsMet b = true ↔ b.exits.length = 1 ∧ b.regn = b.w ∧ b.outn = b.s)) ∧
   (∀ (s : State) (tid k : Nat) (t : Task) (b : Block) (p : Pred) (e : Fin 8) (off : BitVec 20) (a y z : Word),
     MayCommit s tid t b → b.caps = [] → b.exits = [⟨k, a, y, z⟩] → slotInstr s tid b k = some (.br p e off) → t.trap = [] →
     (mget s.launches t.launch).map (·.state) = some .running → (∀ w ∈ s.ctrl, w.id < s.nextId) →
     let fired (j : Nat) : Prop := j < b.n ∧ (b.slot j).phase = .fired
     Completes (.blockCommit tid) s fun s' => SameMemory s s' ∧ s'.parts = s.parts ∧ OthersKept s s' tid ∧
       (∃ ys : List ChanOut, ys.Perm b.chans ∧ (ys.Pairwise fun x y => x.slot < y.slot ∨ (x.slot = y.slot ∧ x.tgt ≤ y.tgt)) ∧
         ∃ ws, s'.ctrl = s.ctrl ++ ws ∧ ws.map (fun w => (w.src, w.dst, w.ckind, w.payload, w.ptn)) =
           ys.map fun x => (Agent.task tid, CtrlDst.chan (t.route tid x.ch), 1, x.word, t.ptn)) ∧
       (∃ t', s'.task? tid = some t' ∧ t' = { t.committed b with pc := ((b.head : Int) + 4 * off.toInt).toNat, lastExit := e.val, resp := t'.resp } ∧
         ∃ gone : Nat → Bool, (∀ j, gone j = true ↔ ∃ n, fired n ∧ isRspWord (slotWord s tid b n) = true ∧ countBelow s tid b isRspWord n = j) ∧
           t'.resp = (t.resp.zipIdx.filter fun x => !gone x.2).map (·.1)) ∧
       (∀ ch < 64, ∃ gone : Nat → Bool,
         (∀ j, gone j = true ↔ ∃ n, fired n ∧ isRecvOf ch (slotWord s tid b n) = true ∧ countBelow s tid b (isRecvOf ch) n = j) ∧
         (s'.chan (chanAddr tid ch)).q = ((s.chan (chanAddr tid ch)).q.zipIdx.filter fun x => !gone x.2).map (·.1)) ∧
       (∀ ad, (∀ ch < 64, ad ≠ chanAddr tid ch) → s'.chan ad = s.chan ad))) ∧
  (∀ (s : State) (se : Nat),
     (∀ k served, turnOf s se = some (k, served) → k < 8 ∧ canIssue s se k = true ∧ k ∉ served ∧
       ∀ j < 8, canIssue s se j = true → j ∉ served → ∀ x y, taskAt s se j = some x → taskAt s se k = some y → x.prio ≤ y.prio) ∧
     (turnOf s se = none ↔ ∀ j < 8, canIssue s se j = false) ∧
     (∀ k t, canIssue s se k = true → taskAt s se k = some t → t.state = .runnable ∧ t.pend = [] ∧ t.later = [] ∧ t.blk = none ∧ t.held = false))

/-- A store and an atomic that reach memory: their bytes are written and every other byte stays; what an atomic leaves and
gives; the report of an ATST; and what an address generator's access has read stands where its token leaves (R78,
R165, R199, R267, R271, R327, R443). The form of a report and the end of its check are free (log entries 8, 134), and
the order of a section's accesses is the model's reading (log entry 111). -/
def Obligations.MemoryOperationsPerformed : Prop :=
  (∀ (s : State) (id : Nat) (o : Op), s.op? id = some o → performable s o = true →
     let put (m m' : List Host.Cell) (a : Nat) (bs : List Byte) : Prop := (∀ j < bs.length, Memory.read m' (a + j) = lget bs j 0) ∧
       ∀ x, x < a ∨ a + bs.length ≤ x → Memory.read m' x = Memory.read m x
     let writes (sp a : Nat) (bs : List Byte) (s' : State) : Prop :=
       s'.fab = s.fab ∧ s'.parts = s.parts ∧ s'.annex = s.annex ∧ s'.owner = s.owner ∧
       (sp = 0 → put s.mem s'.mem a bs ∧ s'.hostMem = s.hostMem) ∧ (sp = 1 → put s.hostMem s'.hostMem a bs ∧ s'.mem = s.mem) ∧
       (2 ≤ sp → s'.mem = s.mem ∧ s'.hostMem = s.hostMem)
     (∀ sp a bs h, o.act = .store sp a bs h → (∀ q n t i, o.dest ≠ .command q n t i) →
       Completes (.memoryResponse id) s fun s' => writes sp a bs s' ∧ s'.ops = s.ops.filter fun x => x.id != id) ∧
     (∀ code op sp a w b c, o.act = .atomic code op sp a w b c →
       let r := atomicDo code op w (s.readPlace (placeOf sp a) w) b c
       r.1.length = w →
       Completes (.memoryResponse id) s fun s' => writes sp a r.1 s' ∧
         s'.ops = (s.ops.filter fun x => x.id != id) ++ (s.ops.filter fun x => x.id == id).map fun x => { x with act := .land [r.2] 0 false }) ∧
     (∀ ns rs ks tid, o.act = .attest ns rs → o.src = .task tid → s.ready 6 0 = true → s.alarm.erased = false → s.keys = some ks →
       let report := attestation s ks (readRuns s ns)
       Completes (.memoryResponse id) s fun s' => report.length ≤ 8192 ∧ s'.mem = (writeRuns rs report s).mem ∧
         s'.hostMem = (writeRuns rs report s).hostMem ∧ s'.annex = s.annex ∧ s'.owner = s.owner ∧ s'.fab = s.fab ∧
         s'.ops = (s.ops.filter fun x => x.id != id) ++ (s.ops.filter fun x => x.id == id).map fun x => { x with act := .land [wordOf report.length] 0 false }) ∧
     (∀ a inv sc, o.act = .clean a inv sc → Completes (.memoryResponse id) s fun s' => SameMemory s s' ∧ s'.fab = s.fab ∧
       s'.ops = s.ops.filter fun x => x.id != id) ∧
     (∀ sp a wr bs len h acq r k pos g pre post chain, o.act = .agAccess sp a wr bs len h acq → o.src = .elem r k pos →
       onFabric s o.ptn = true → offTile s o = false → s.region? r = some g → k < g.ctxs.length →
       ((g.ctx k).bank pos).ag.queue = pre ++ .read id none chain :: post → (∀ c, AgItem.read id none c ∉ pre) →
       (wr = true ∨ bs = []) →
       Completes (.memoryResponse id) s fun s' => s'.parts = s.parts ∧ s'.annex = s.annex ∧ s'.owner = s.owner ∧
         (wr = false → SameMemory s s') ∧ (wr = true → sp = 0 → put s.mem s'.mem a bs ∧ s'.hostMem = s.hostMem) ∧
         (wr = true → sp = 1 → put s.hostMem s'.hostMem a bs ∧ s'.mem = s.mem) ∧ s'.ops = (s.ops.filter fun x => x.id != id) ∧
         s'.fab.tasks = s.fab.tasks ∧ s'.fab.chans = s.fab.chans ∧ s'.fab.sram = s.fab.sram ∧
         (∀ q, q ≠ r → s'.region? q = s.region? q) ∧ ∃ g', s'.region? r = some g' ∧ (∀ j, j ≠ k → g'.ctx j = g.ctx j) ∧
         ((g'.ctx k).bank pos).ag.queue = pre ++ .read id (some (if wr then [] else s.readPlace (placeOf sp a) len)) chain :: post) ∧
     (∀ (sp a gen : Nat) (va : Word) (n h : Nat) (acq : Bool) (r k pos : Nat) (g : Region) (pre post : List AgItem) (chain : Option Token) (mt j : Nat),
       o.act = .agAccess sp a false (bytesOfNat 8 gen ++ bytesOfNat 8 va.toNat ++ bytesOfNat 1 n) 128 h acq → o.src = .elem r k pos →
       posKind pos = .ag mt j → n < 256 → onFabric s o.ptn = true → offTile s o = false → s.region? r = some g → k < g.ctxs.length →
       ((g.ctx k).bank pos).ag.queue = pre ++ .read id none chain :: post → (∀ c, AgItem.read id none c ∉ pre) →
       Completes (.memoryResponse id) s fun s' => SameMemory s s' ∧ s'.ops = (s.ops.filter fun x => x.id != id) ∧
         ∃ g', s'.region? r = some g' ∧ ((g'.ctx k).bank pos).ag.queue =
           pre ++ .read id (some (((s.readPlace (placeOf sp a) 128).drop (va.toNat % 128)).take n)) chain :: post)) ∧
  (∀ (op : AOp) (n : Nat) (m : List Byte) (b c : Word), (n = 4 ∨ n = 8) → m.length = n →
     let w := 8 * n
     let o : BitVec w := BitVec.ofNat w (natOfBytes m)
     let x : BitVec w := b.setWidth w
     let new : BitVec w := match op with
       | .add => o + x | .and => o &&& x | .or => o ||| x | .xor => o ^^^ x
       | .smin => if x.slt o then x else o | .smax => if o.slt x then x else o
       | .umin => if x.ult o then x else o | .umax => if o.ult x then x else o | .swap => x
     atomicDo 0 op n m b c = (bytesOfNat n new.toNat, if n = 4 then o.signExtend 64 else o.setWidth 64) ∧
     atomicDo 1 op n m b c = (bytesOfNat n (if o = x then c.setWidth w else o).toNat, if n = 4 then o.signExtend 64 else o.setWidth 64) ∧
     ∀ hi : List Byte, n = 8 → hi.length = 8 → let ver : Word := BitVec.ofNat 64 (natOfBytes hi)
       atomicDo 2 op 16 (m ++ hi) b c = (if ver = c then bytesOfNat 8 b.toNat ++ bytesOfNat 8 (c + 1).toNat else m ++ hi, ver))

/-- Results, channel words and engine responses arrive; a word enters its channel when there is room and wakes the task
whose WAIT selects it; a word of reserved CKIND is dropped and counted; what comes to a task or a channel on a fenced
tile is discarded (R40, R55, R110, R251, R262, R263, R280, R284, R379, R432). What wakes a task in IDLE is the model's
reading (log entry 22). How a channel word is a release is the model's reading (log entry 16). When what comes to a
fenced tile is discarded is its reading (log entry 86). -/
def Obligations.ResultsAndWordsArrive : Prop :=
  (∀ (s : State) (id tid : Nat) (o : Op) (t : Task) (vals : List Word) (cost : Word) (mk : Bool), s.op? id = some o →
     o.id = id → stale s o = false → onFabric s o.ptn = true → o.act = .land vals cost mk → scanning s id = false →
     unitRuns s id = false → landsNext s o = true → o.src = .task tid → s.task? tid = some t → t.launch = o.launch →
     let ops := s.ops.filter fun x => x.id != id
     (offTile s o = true → exec (.commitResultLanding id) s = .next (dropOp s id)) ∧
     (tileFenced s (seTile (seOf tid)) = false →
       (∀ g, o.dest = .regs tid g → exec (.commitResultLanding id) s = .next { (s.setTask tid { t.setRegs g vals with
       pend := t.pend.filter (fun p => p.id != id), fcost := addCost t.fcost cost }) with ops := ops }) ∧
     (o.dest = .nowhere → exec (.commitResultLanding id) s =
       .next { (s.setTask tid { t with fcost := addCost t.fcost cost }) with ops := ops }) ∧
     (∀ v, vals = [v] → o.dest = .stream tid → exec (.commitResultLanding id) s = .next { (s.setTask tid { t with
       resp := t.resp.map (fun x => if x.id = id then { x with word := some v } else x), fcost := addCost t.fcost cost }) with ops := ops })) ∧
     (∀ a, o.dest = .chan a → Completes (.commitResultLanding id) s fun s' => s'.ops = ops ∧
       let kinds : List Nat := match o.target, vals with
         | .engine _, [_, _] => [if mk then 7 else 1, 0]
         | _, _ => vals.map fun _ => if mk then 7 else 1
       s'.ctrl.map (fun w => (w.dst, w.ckind, w.payload)) = s.ctrl.map (fun w => (w.dst, w.ckind, w.payload)) ++
         (kinds.zip vals).map fun v => (CtrlDst.chan a, v.1, v.2))) ∧
  (∀ (s : State) (id a : Nat) (w : CtrlWord), s.word? id = some w → wordArrives s w = true → w.dst = .chan a →
     let c := s.chan a
     (tileFenced s (seTile (seOf a)) = true → w.ckind < 8 → exec (.channelWordArrival id) s = .next (s.dropWord id)) ∧
     ((w.ckind = 1 ∨ w.ckind = 7) → tileFenced s (seTile (seOf a)) = false → onFabric s w.ptn = true → c.q.length < 8 → Completes (.channelWordArrival id) s fun s' =>
       (s'.chan a).q = c.q ++ [(w.payload, decide (w.ckind = 7))] ∧ (s'.chan a).slot = c.slot ∧ SameMemory s s' ∧
       (∀ x, x ≠ a → s'.chan x = s.chan x) ∧ (s'.ctrl.all fun x => x.id != id) = true ∧
       (∀ sl t m, c.slot = some sl → s.task? (sl * 1024 + seOf a) = some t → t.waitOn = .mask m → m.getLsbD (a / 1024) = true →
         a < 65536 → t.state = .blocked → t.barW = [] →
         ∃ f, s'.task? (sl * 1024 + seOf a) = some { t with asleep := false, waitOn := .nothing, state := .runnable, fcost := f } ∧
           (w.charge = none → f = t.fcost)) ∧
       (∀ u t l f, w.src = .task u → w.charge = some (l, f) → s.task? u = some t → t.launch = l →
         ∃ t', s'.task? u = some t' ∧ t'.fcost = addCost t.fcost f)) ∧
     (∀ r g sl t, w.ckind = 0 → tileFenced s (seTile (seOf a)) = false → onFabric s w.ptn = true → c.q.length < 8 → w.src = .region r →
       s.region? r = some g → w.charge = none → c.slot = some sl → s.task? (sl * 1024 + seOf a) = some t → w.payload.toNat % 4 < g.ctxs.length →
       Completes (.channelWordArrival id) s fun s' => (s'.chan a).q = c.q ++ [(w.payload, false)] ∧
         (∃ t', s'.task? (sl * 1024 + seOf a) = some t' ∧ t'.fsr = fsrOr t.fsr (g.ctx (w.payload.toNat % 4)).flags ∧ t'.regs = t.regs) ∧
         ∃ g', s'.region? r = some g' ∧ (g'.ctx (w.payload.toNat % 4)).flags = 0) ∧
     (8 ≤ w.ckind → Completes (.channelWordArrival id) s fun s' => s'.fab = s.fab ∧
       mgetD s'.errs (errCkind (a % 256 / 64)) 0 = Nat.min (mgetD s.errs (errCkind (a % 256 / 64)) 0 + 1) (2 ^ 32 - 1) ∧ (s'.ctrl.all fun x => x.id != id) = true))

/-- An engine performs a request: INJ puts its token in its queue, CPY, MCST, GTH, SCT, KSEL, KVPK, AXRD and AXWR leave
their bytes at their places and every other byte as it was; its response word sets out, with EST in [63:56] and the
opcode in [55:48]; a transfer's completion enters the entry queue it names (R79, R90, R91, R92, R93, R94, R95, R277,
R280, R281, R282, R283, R354, R388). That a request is one step, and the padding of KVPK, are the model's (log entries
20, 72). How the response word and the completion word of AXRD and AXWR come is the model's reading (log entry 112). -/
def Obligations.EnginesAnswer : Prop :=
  (∀ (s : State) (id opcode h : Nat) (o : Op) (a b c : Word), s.op? id = some o → performable s o = true →
    o.act = .engine opcode a b c h → walksFree s (engEnv o h).tlb o.ptn (engineVas opcode a b c) = true →
    let e := engEnv o h
    let word (est edet : Nat) : Word := wordOf (est * 2 ^ 56 + opcode * 2 ^ 48 + edet)
    let done (w : Word) : List Word := match o.dest with
      | .chan _ => if (opcode = 0x5C ∨ opcode = 0x5D) ∧ field w.toNat 63 56 = 0 then [wordOf (2 * 2 ^ 56 + opcode * 2 ^ 32 + 65536)] else []
      | _ => []
    let answers (w : Word) (P : State → Prop) : Prop := Completes (.engineResponse id) s fun s' => P s' ∧
      s'.ops = (s.ops.filter fun x => x.id != id) ++
        (s.ops.filter fun x => x.id == id).map fun x => { x with act := .land (w :: done w) 0 false }
    let moves (n sz : Nat) (f g : Nat → Place) (s' : State) : Prop := Puts s s' n sz g fun i => s.readPlace (f i) sz
    (0x56 ≤ opcode → opcode ≤ 0x5D → ∃ w : Word, field w.toNat 55 48 = opcode ∧ field w.toNat 63 56 ≤ 3 ∧ answers w fun _ => True) ∧
    (∀ x r k g, opcode = 0x55 → access s e.tlb e.ptn e.level ⟨true, false, tData⟩ b 32 = .ok x → s.placeMarked x.place 32 = false →
      (r, k) = entryRegion a → s.region? r = some g → g.ptn = o.ptn → g.standsFor k < g.ctxs.length →
      (entryRoom s r k = true → answers (word 0 0) fun s' => SameMemory s s' ∧ ∃ g', s'.region? r = some g' ∧
        (g'.ctx (g.standsFor k)).entry = (g.ctx (g.standsFor k)).entry ++ [⟨⟨BitVec.ofNat 4 (field a.toNat 19 16),
          BitVec.ofNat 8 (field a.toNat 27 20), BitVec.ofNat 256 (natOfBytes (s.readPlace x.place 32))⟩, false, 0⟩]) ∧
      (entryRoom s r k = false → exec (.engineResponse id) s = .refused .notEnabled)) ∧
    (∀ f g n, opcode = 0x56 → c.toNat < 2 ^ 48 → n ≤ c.toNat →
      (∀ i < n, e.At s false tData (b + wordOf i) 1 (f i) ∧ e.At s true tData (a + wordOf i) 1 (g i)) →
      (n = c.toNat → answers (word 0 n) (moves n 1 f g)) ∧
      (∀ x, n < c.toNat → n < 2 ^ 32 → e.Holds s (b + wordOf n) → access s e.tlb e.ptn e.level ⟨true, false, tData⟩ (b + wordOf n) 1 = .error x →
        x.code < 2 ^ 16 → answers (word 1 (x.code * 2 ^ 32 + n)) fun _ => True)) ∧
    (∀ (f g k : Nat → Place) (x : Nat) (x0 x1 x2 : Word), opcode = 0x58 ∨ opcode = 0x59 → e.HasWords s tData b [x0, x1, x2, 0] → x = x2.toNat → field x 63 35 = 0 →
      1 ≤ x % 2 ^ 32 → x % 2 ^ 32 ≤ 2 ^ 24 →
      let n := x % 2 ^ 32
      let sz := sizeBytes (field x 34 32)
      let far (i : Nat) : Word := x0 + wordOf (natOfBytes (s.readPlace (k i) 4) * sz)
      let near (i : Nat) : Word := a + wordOf (i * sz)
      (∀ i < n, e.At s false tData (x1 + wordOf (4 * i)) 4 (k i) ∧
        e.At s false tData (if opcode = 0x58 then far i else near i) sz (f i) ∧
        e.At s true tData (if opcode = 0x58 then near i else far i) sz (g i)) →
      (∀ i < n, ∀ j < n, i < j → (g i).Apart sz (f j) ∧ (g i).Apart (Nat.max sz 4) (k j)) → answers (word 0 n) (moves n sz f g)) ∧
    (∀ (f g : Nat → Place) (ws : List Word) (n m : Nat), opcode = 0x57 → n = field b.toNat 31 0 → m = field b.toNat 39 32 → m ≤ 32 →
      let step := if b.getLsbD 40 then 2 else 1
      ws.length = m * step → e.HasWords s tData c ws → (∀ i < n, e.At s false tData (a + wordOf i) 1 (f i)) →
      (∀ d < m, ∀ i < n, e.At s true tData (lget ws (step * d) 0 + wordOf i) 1 (g (d * n + i))) →
      answers (word 0 (2 ^ m - 1)) fun s' => moves (m * n) 1 (fun j => f (j % n)) g s' ∧ s'.transfers = s.transfers ++
        if b.getLsbD 40 then (natRange 0 m).map fun d => ⟨s.nextId + d, dataTok 0x7F (2 * 2 ^ 56 + 0x57 * 2 ^ 32 + n),
          (entryRegion (lget ws (2 * d + 1) 0)).1, (entryRegion (lget ws (2 * d + 1) 0)).2, o.ptn⟩ else []) ∧
    (∀ g x0 x1 x2 x3 (x4 x5 : Word) pages qs vs rs ex, opcode = 0x5A → e.HasWords s tData a [x0, x1, x2, x3, x4, x5] →
      let dc := field x4.toNat 25 24
      let k := field x4.toNat 23 16
      let np := field x4.toNat 15 0
      let d := 32 * 2 ^ dc
      field x4.toNat 63 26 = 0 → dc < 3 → 1 ≤ k → k ≤ 64 → 1 ≤ np → pages.length = np → qs.length = d → vs.length = (np + 7) / 8 →
      e.HasWords s tKv x3 pages → e.HasBytes s tNk x0 4 qs → e.HasBytes s tKv x2 1 vs →
      (∀ p < np, (∀ i < 4, e.Holds s (lget pages p 0 + wordOf i)) ∧ ∀ i < 2 * d, e.Holds s (x1 + wordOf (4 * d * p) + wordOf (2 * i))) →
      kselPages e s d dc (qs.map fun q => Flt.f32.decode (natOfBytes q)) x1 vs.flatten 0 pages = .ok (rs, ex) →
      let best := rs.take k
      (∀ j < best.length, e.At s true tNk (x5 + wordOf (4 * j)) 4 (g j)) →
      (answers (if ex = 0 then word 0 best.length else word 2 (Nat.min ex 0xFFFF * 2 ^ 32 + best.length)) fun s' =>
        Puts s s' best.length 4 g fun j => bytesOfNat 4 (lget best j (0, .nan)).1) ∧
      ∀ p v, (p, v) ∈ rs ↔ p < np ∧ kselPage e s d dc (qs.map fun q => Flt.f32.decode (natOfBytes q)) x1 vs.flatten p (lget pages p 0) =
        .ok (.ranked v)) ∧
    (∀ g u v x0 x1 x2 x3 (x4 x5 x6 : Word) kbs vbs, opcode = 0x5B → e.HasWords s tData a [x0, x1, x2, x3, x4, x5, x6] →
      let sf := field x4.toNat 9 8
      let dc := field x4.toNat 6 5
      let tc := field x4.toNat 4 0
      let d := 32 * 2 ^ dc
      let size := if sf = 0 then 4 else 2
      field x4.toNat 63 10 = 0 → bitAt x4.toNat 7 = false → sf < 3 → dc < 3 → 1 ≤ tc → tc ≤ 16 → x6.toNat < 2 ^ 32 → x2.toNat % 128 = 0 →
      kbs.length = tc * d → vbs.length = tc * d → e.HasBytes s tNk x0 size kbs → e.HasBytes s tNk x1 size vbs →
      let values (bs : List (List Byte)) : List Val := bs.map fun b =>
        (if sf = 0 then Flt.f32 else if sf = 1 then Flt.f16 else Flt.bf16).decode (natOfBytes b)
      let ks := packBlocks (values kbs)
      let vs := packBlocks (values vbs)
      let page := padTo 32 [0x56, 0x4B, BitVec.ofNat 8 tc, BitVec.ofNat 8 dc] ++ padTo (16 * d) ks.1 ++ padTo (d / 2) ks.2 ++
        padTo (16 * d) vs.1 ++ padTo (d / 2) vs.2
      let bound (r : Rnd) (f : Val → Val → Val) (c : Nat) : List Byte := boundBytes r (extreme f (channelKeys d tc ks.1 ks.2 c))
      (∀ i < page.length, e.At s true tKv (x2 + wordOf i) 1 (g i)) → (∀ i < 2 * d, e.At s true tKv (x3 + wordOf (2 * i)) 2 (u i)) →
      let bit := x5 + wordOf (x6.toNat / 8)
      e.At s false tKv bit 1 v → e.At s true tKv bit 1 v →
      answers (word 0 0) fun s' => page.length = 32 + 33 * d ∧ ∃ s1 s2, Puts s s1 page.length 1 g (fun i => [lget page i 0]) ∧
        Puts s1 s2 (2 * d) 2 u (fun i => if i < d then bound .rdn Val.min i else bound .rup Val.max (i - d)) ∧
        Puts s2 s' 1 1 (fun _ => v) fun _ => [BitVec.ofNat 8 (Nat.lor (natOfBytes (s2.readPlace v 1)) (2 ^ (x6.toNat % 8)))]) ∧
    (opcode = 0x5C ∨ opcode = 0x5D → s.ready 5 0 = false → answers (word 3 (0x12 * 2 ^ 32)) (SameMemory s)) ∧
    (opcode = 0x5C → s.ready 5 0 = true → Config.nandBad s.oracle = true → answers (word 1 (0x11 * 2 ^ 32)) fun s' => s'.annex = s.annex) ∧
    (∀ g, opcode = 0x5C → s.ready 5 0 = true → Config.nandBad s.oracle = false → (∀ i < 65536, e.At s true tData (a + wordOf i) 1 (g i)) →
      answers (word 0 65536) fun s' => Puts s s' 65536 1 g fun i => [Memory.read s.annex (b.toNat % 2 ^ 29 * 65536 + i)]) ∧
    (∀ f : Nat → Place, opcode = 0x5D → s.ready 5 0 = true → (∀ i < 65536, e.At s false tData (a + wordOf i) 1 (f i)) →
      (Config.nandBad s.oracle = true → answers (word 1 (0x11 * 2 ^ 32)) (SameMemory s)) ∧
      (Config.nandBad s.oracle = false → answers (word 0 65536) fun s' => s'.mem = s.mem ∧ s'.hostMem = s.hostMem ∧ s'.owner = s.owner ∧
        (∀ i < 65536, [Memory.read s'.annex (b.toNat % 2 ^ 29 * 65536 + i)] = s.readPlace (f i) 1) ∧
        ∀ x, (x < b.toNat % 2 ^ 29 * 65536 ∨ b.toNat % 2 ^ 29 * 65536 + 65536 ≤ x) → Memory.read s'.annex x = Memory.read s.annex x))) ∧
  (∀ (s : State) (id : Nat) (x : Transfer) (g : Region), s.transfers.find? (fun t => t.id == id) = some x →
    s.region? x.r = some g → g.ptn = x.ptn → entryRoom s x.r x.ctx = true → g.standsFor x.ctx < g.ctxs.length →
    Completes (.transferComplete id) s fun s' => SameMemory s s' ∧ (s'.transfers.all fun t => t.id != id) = true ∧
      ∃ g', s'.region? x.r = some g' ∧
        (g'.ctx (g.standsFor x.ctx)).entry = (g.ctx (g.standsFor x.ctx)).entry ++ [⟨x.tok, false, 0⟩]) ∧
  (∀ (s : State) (tid : Nat) (t : Task) (o : Op) (va : Word) (all : Bool) (sc : Nat), s.task? tid = some t →
    s.ops.find? (fun o => o.src == .task tid && (match o.act with | .invalidate .. => true | _ => false)) = some o →
    o.act = .invalidate va all sc → 6 ≤ sc → performable s o = true → accessUnderWay s o.ptn = false →
    onFabric s o.ptn = true → t.later = [] → Completes (.invalidationComplete tid) s fun s' =>
      s'.task? tid = some { t with invs := t.invs.filter (· != o.id) } ∧ SameMemory s s' ∧
      (∀ k es e, (k, es) ∈ s'.tlbs ∨ (k, es) ∈ s'.agtlbs → e ∈ es → e.ptn = o.ptn →
        all = false ∧ va.toNat % 2 ^ 56 / 2 ^ e.size ≠ e.page * 65536 / 2 ^ e.size))

/-- Fault records and notices, the end of a launch (R26, R355, R358, R360, R369). -/
def Obligations.FaultsAndLaunchEnd : Prop :=
  (∀ (s : State) (p die : Nat) (q : Partition) (r : Record) (rs : List Record), s.part? p = some q →
    mgetD q.waitrec die [] = r :: rs → (mgetD q.mbox die []).length < 64 → Completes (.mailboxRecordWrite p die) s fun s' =>
      SameMemory s s' ∧ s'.fab = s.fab ∧ ∃ q', s'.part? p = some q' ∧ mgetD q'.mbox die [] = mgetD q.mbox die [] ++ [r] ∧
        mgetD q'.waitrec die [] = rs) ∧
  (∀ (s : State) (id : Nat) (w : CtrlWord) (q : Partition), s.word? id = some w → w.ckind = 6 → wordArrives s w = true →
    s.part? w.ptn = some q →
    let told (s' : State) (q' : Partition) : Prop := SameMemory s s' ∧ s'.part? w.ptn = some q' ∧ ∀ v, mget q.vectors 2 = some v →
      (v.mask = false → s'.msgs = s.msgs ++ [(v.addr, v.data)]) ∧ (v.mask = true → mget q'.vectors 2 = some { v with pending := true })
    let ends (n code : Nat) : Prop := ∀ l, mget s.launches n = some l → l.ptn = w.ptn → Completes (.faultNotice id) s fun s' =>
      mget s'.launches n = none ∧ ∃ q', told s' q' ∧ q'.compl = q.compl ++ [(complWords l.ring 2 l.seq code s.time l.tag, l.irqc)]
    let found := (q.mbox.flatMap (·.2)).find? fun x => x.id == id
    (∀ r, (∀ x, w.src ≠ .tile x ∧ w.src ≠ .region x) → found = some r → ends r.launch (0x00010000 + r.fcode)) ∧
    (∀ r, (∀ x, w.src ≠ .tile x ∧ w.src ≠ .region x) → found = some r → mget s.launches r.launch = none →
      Completes (.faultNotice id) s fun s' => ∃ q', told s' q' ∧ q'.compl = q.compl) ∧
    ((∀ x, w.src ≠ .tile x ∧ w.src ≠ .region x) → found = none → exec (.faultNotice id) s = .next (s.dropWord id)) ∧
    (∀ x g, w.src = .region x → s.region? x = some g → ends (ctxLaunch g (g.ctx (w.payload.toNat % 4))) w.payload.toNat)) ∧
  (∀ (s : State) (n : Nat) (l : Launch) (q : Partition), mget s.launches n = some l → s.part? l.ptn = some q → l.state = .draining →
    partRuns s l.ptn = true → (∀ x ∈ launchTasks s n, x.2.blk = none ∧ x.2.later = []) → sectionsDone s n = true →
    (∀ o ∈ s.ops, o.launch = n → o.performed = true ∨ stale s o = true ∨ (o.act.locs = [] ∧ o.act.isArm = false)) →
    Completes (.launchDrainComplete n) s fun s' => mget s'.launches n = none ∧ SameMemory s s' ∧
      (∀ u t, (u, t) ∈ s'.fab.tasks → t.launch ≠ n) ∧ (∀ r g, (r, g) ∈ s'.fab.regions → g.launch ≠ n) ∧
      ∃ q', s'.part? l.ptn = some q' ∧ q'.compl = q.compl ++ [(complWords l.ring l.stat l.seq l.code s.time l.tag, l.irqc)])

/-- The memory system: misses and write-backs, page walks, frames of arbitration, evicted packets and their notices,
acknowledgements and the response log (R84, R89, R188, R189, R390, R413). A line without bytes of its own and the
order of fills are the model's (log entries 12, 91). How an arbitration point serves its requests, when a walk acts
and which misses join it are the model's reading (log entries 10, 104, 117). -/
def Obligations.MemorySystemEvents : Prop :=
  (∀ (s : State) (n : Nat), (∃ m ∈ (s.slice n).misses, hbmServes s m.pa m.ptn = true) →
    Completes (.l2MissFill n) s fun s' => SameMemory s s' ∧ s'.fab = s.fab ∧ s'.poison = s.poison ∧
    ∃ m ∈ (s.slice n).misses, hbmServes s m.pa m.ptn = true ∧ ∃ k, (k = 0 ∨ (s'.slice n).entries ≤ 64) ∧
      (s'.slice n).misses = (s.slice n).misses.erase m ++ (s.slice n).waitq.take k ∧ (s'.slice n).waitq = (s.slice n).waitq.drop k ∧
      ∃ v, v.length ≤ 1 ∧ (s'.slice n).wbs ++ (s'.slice n).wbq = (s.slice n).wbs ++ (s.slice n).wbq ++ v ∧
        ((s'.slice n).wbq = [] ∨ 8 ≤ (s'.slice n).wbs.length)) ∧
  (∀ (s : State) (n : Nat) (w : WriteBack), (s.slice n).wbs.find? (fun w => hbmServes s w.pa w.ptn) = some w →
    Completes (.l2WriteBack n) s fun s' => SameMemory s s' ∧ s'.fab = s.fab ∧
      (∃ k, (s'.slice n).wbs = (s.slice n).wbs.erase w ++ (s.slice n).wbq.take k ∧ (s'.slice n).wbq = (s.slice n).wbq.drop k) ∧
      (w.bad = true → ∀ g ∈ granules w.pa 128, g ∈ s'.poison) ∧ (w.bad = false → s'.poison = s.poison)) ∧
  (∀ (s : State) (id : Nat) (w : Walk) (q : Partition) (e : TlbEntry), s.walks.find? (fun w => w.id == id) = some w →
    s.part? w.ptn = some q → onFabric s w.ptn = true → (∀ x ∈ s.walkq, x.id ≠ id) →
    walk s w.ptn q (sext 56 (w.page * 65536)) = .ok e →
    Completes (.pageWalk id) s fun s' => SameMemory s s' ∧ s'.fab = s.fab ∧ s'.ops = s.ops ∧ (s'.walks.all fun x => x.id != id) = true ∧
      (∃ x ∈ mgetD s'.tlbs w.tlb [], x.ptn = e.ptn ∧ x.page = e.page) ∧
      ∀ c a, w.waiters = [c] → waiterAg s c = some a → a.g.ptn = w.ptn → a.a.active = true →
        (agAddr a.w a.a).toNat % 2 ^ 56 / 65536 = w.page → ∃ x ∈ mgetD s'.agtlbs a.cacheKey [], x.ptn = e.ptn ∧ x.page = e.page) ∧
  (∀ (s : State) (id : Nat) (w : Walk) (q : Partition) (pte : Nat), s.walks.find? (fun w => w.id == id) = some w →
    s.part? w.ptn = some q → onFabric s w.ptn = true → walk s w.ptn q (sext 56 (w.page * 65536)) = .bad pte →
    let t := trailTouch (s.nextWalks fun x => x.id != id) w.ptn q (sext 56 (w.page * 65536))
    SameMemory s t ∧ t.fab = s.fab ∧ t.tlbs = s.tlbs ∧ (w.waiters = [] → exec (.pageWalk id) s = .next t) ∧
    ∀ c a, w.waiters = [c] → waiterAg t c = some a →
      (a.g.ptn = w.ptn → a.a.active = true → (agAddr a.w a.a).toNat % 2 ^ 56 / 65536 = w.page →
        exec (.pageWalk id) s = .next (a.fault t [] ⟨0x0001, agAddr a.w a.a, pte⟩ 0)) ∧
      (a.a.active = false → exec (.pageWalk id) s = .next t)) ∧
  (∀ (s : State) (n : Nat) (f : Frame), mget s.frames n = some f → f.start + 1024 ≤ s.time →
    exec (.arbitrationFrame n) s = .next { s with frames := mset s.frames n ⟨s.time / 1024 * 1024, [], f.turn, f.credit⟩ }) ∧
  (∀ (s : State) (pt urgent : Nat) (u v : Op), s.op? urgent = some u → u.performed = false → u.pkt.evicted = false → u.pkt.prio = 3 →
    u.pkt.point = pt → victimOf s pt = some v → v.pkt.prio < 3 ∧ v.pkt.prot = false ∧ v.pkt.point = pt ∧ v.performed = false ∧
      Completes (.packetEviction pt urgent) s fun s' => s' = { s with ops := s'.ops } ∧ s'.ops = s.ops.map fun o => if o.id = v.id then
        { o with pkt := { o.pkt with evicted := true, evictions := o.pkt.evictions + 1 } } else o) ∧
  (∀ (s : State) (id : Nat) (o : Op), s.op? id = some o → o.pkt.evicted = true → stale s o = false →
    Completes (.evictionNotice id) s fun s' => s' = { s with ops := s'.ops, nextId := s.nextId + 1 } ∧ s'.ops = s.ops.map fun x => if x.id = id then
      { x with pkt := { x.pkt with evicted := false, prot := decide (4 ≤ x.pkt.evictions), arrived := s.nextId } } else x) ∧
  (∀ (s : State) (id : Nat) (o : Op), s.op? id = some o → o.pkt.evicted = true → stale s o = true →
    Completes (.evictionNotice id) s fun s' => SameMemory s s' ∧ s'.fab = s.fab ∧ s'.ops = s.ops.filter fun x => x.id != id) ∧
  (∀ (s : State) (id : Nat) (c : Copy), s.copies.find? (fun c => c.id == id) = some c → c.acked = true →
    exec (.endToEndAck id) s = .next { s with copies := s.copies.filter fun x => x.id != id }) ∧
  (∀ (s : State) (id : Nat) (o : Op) (v : Saved) (vals : List Word) (cost : Word) (mk : Bool), s.op? id = some o → o.act = .land vals cost mk →
    stale s o = false → scanning s id = false → (∀ q n t i, o.dest ≠ .command q n t i) → mget s.saved o.ptn = some v →
    onFabric s o.ptn = false → Completes (.responseLogAppend id) s fun s' => SameMemory s s' ∧ s'.fab = s.fab ∧
      s'.ops = s.ops.filter (fun x => x.id != id) ∧ mget s'.saved o.ptn = some { v with log := v.log ++ [o] }) ∧
  (∀ (s : State) (id space a len h : Nat) (write acq : Bool) (bs : List Byte) (o : Op) (v : Saved), s.op? id = some o →
    o.act = .agAccess space a write bs len h acq → performable s o = true → mget s.saved o.ptn = some v → onFabric s o.ptn = false →
    Completes (.responseLogAppend id) s fun s' => s'.fab = s.fab ∧ s'.ops = s.ops.filter (fun x => x.id != id) ∧
      (write = false → SameMemory s s' ∧ mget s'.saved o.ptn =
        some { v with log := v.log ++ [{ o with act := .agReply (markedNote s space a bs) (s.readPlace (placeOf space a) len) acq }] }) ∧
      (write = true → SameMemory (s.writePlace (placeOf space a) bs) s' ∧ mget s'.saved o.ptn =
        some { v with log := v.log ++ [{ o with act := .agReply [] [] acq }] }))

/-- The completion of a command entry: it no longer counts as started, and an entry of the layout of R185 waits to be
posted; nothing else changes (R185, R186). LAUNCH: what refuses it, and for an image of one task without data what its
root task starts with (R25, R182, R340, R380, R418, R436). The table of images and the details of an alarm at a LAUNCH
are the model's (log entries 4, 88). -/
def Obligations.CompletionsAndLaunches : Prop :=
  ((∀ (s : State) (p k seq stat code : Nat) (tag : Word) (irqc : Bool) (x : Partition), s.part? p = some x →
     let s' := complete s (.part p k) seq tag irqc stat code
     let words : List Word := [wordOf (k * 2 ^ 24 + stat * 2 ^ 16), wordOf (seq * 2 ^ 32 + code % 2 ^ 32), wordOf s.time, 0, 0, 0, 0, tag]
     s' = { s with parts := s'.parts } ∧ (∀ j, j ≠ p → s'.part? j = s.part? j) ∧ ∃ x', s'.part? p = some x' ∧
       x'.compl = x.compl ++ [(words, irqc)] ∧ x' = { x with compl := x'.compl, rings := x'.rings } ∧
       (∀ r, mget x.rings k = some r → mget x'.rings k = some { r with started := r.started.filter fun y => y.seq != seq }) ∧
       ∀ j, j ≠ k → mget x'.rings j = mget x.rings j) ∧
   (∀ (s : State) (seq stat code : Nat) (tag : Word) (irqc : Bool),
     complete s .module seq tag irqc stat code = { s with
       modCompl := s.modCompl ++ [([wordOf (32 * 2 ^ 24 + stat * 2 ^ 16), wordOf (seq * 2 ^ 32 + code % 2 ^ 32), wordOf s.time,
         0, 0, 0, 0, tag], irqc)]
       modq := { s.modq with started := s.modq.started.filter fun y => y.seq != seq } })) ∧
  (∀ (s : State) (p k : Nat) (e : CmdEntry) (im : Image) (r : ImgTask),
     let q : QueueRef := .part p k
     let ends (stat code : Nat) : Prop := exec (.launch q e) s = .next (complete s q e.seq.toNat e.tag (e.irqc == 1) stat code)
     let argLen := e.w3 &&& 0xFFFFFFFF
     (∀ x, launchRefused s p e.w1.toNat = some x → ends x.1 x.2) ∧
     (s.alarm.level = 2 → ends 1 0x00060002) ∧ (3 ≤ s.alarm.level → ends 1 0x00060003) ∧
     (launchRefused s p e.w1.toNat = none → mget s.images e.w1.toNat = some im → e.w4.toNat % 65536 = 0 →
       im.tasks = [r] → r.slot = 0 → im.regions = [] → im.ctxs = [] → im.datas = [] → im.fibres = [] → im.args = none →
       Completes (.launch q e) s fun s' => SameMemory s s' ∧
         mget s'.launches s.nextId = some ⟨p, k, e.seq.toNat, e.tag, e.irqc == 1, r.se, e.w1.toNat, 0, 0, .running, 0, false⟩ ∧
         (∀ j < r.blocks.flatten.length, Memory.read s'.fab.istore (r.se * 16384 + r.pc + j) = lget r.blocks.flatten j 0) ∧
         ∃ t, s'.task? r.se = some t ∧ t.state = .runnable ∧ t.pc = r.pc ∧ t.ptn = p ∧ t.launch = s.nextId ∧ t.root = true ∧
           t.regs = [e.w2, argLen] ++ lrep 62 0 ∧ t.fsr = 0 ∧ t.ret = [] ∧ t.blk = none ∧ t.level = r.level ∧ t.prio = r.prio))

/-- The commands of a partition's rings (R91, R131, R133, R182, R407): NOP, WAITQ, SIGNAL, COPY, NMRUN, RINGRESET,
TCREATE, TDESTROY and WINSET. The distance of a RINGRESET is the model's reading (log entry 79). The place of the node
store and LINK are free (log entry 113). -/
def Obligations.RingCommands : Prop :=
  ∀ (s : State) (p k : Nat) (x : Partition) (e : CmdEntry), s.part? p = some x →
    let q : QueueRef := .part p k
    let ends (i : Instr) (t : State) (stat code : Nat) : Prop :=
      exec i s = .next (complete t q e.seq.toNat e.tag (e.irqc == 1) stat code)
    let sends (i : Instr) (target : Agent) (act : Act) : Prop := Completes i s fun s' => SameMemory s s' ∧ s'.fab = s.fab ∧
      ∃ o os, s'.ops = s.ops ++ os ++ [o] ∧ o.src = .core (s.coreOf p) ∧ o.target = target ∧ o.act = act ∧
        o.dest = .command q e.seq.toNat e.tag (e.irqc == 1)
    let tree := e.w1.toNat % 4 * 16 + field e.w1.toNat 7 4
    let lg := e.w3.toNat % 8192
    let n := e.w4.toNat % 2 ^ 25
    let se := e.w5.toNat / 256
    let treeOk : Prop := lg ≤ 12 ∧ 2 ≤ n ∧ n ≤ 2 ^ 24 ∧ mget s.trees tree = none ∧
      (e.w4.getLsbD 63 = true ∨ se < 1024 ∧ se % 256 ∈ x.clusters)
    ends (.nop q e) s 0 0 ∧
    (∀ r, e.w1.toNat % 256 ≤ 20 → mget x.rings (e.w1.toNat % 256) = some r →
      (∀ st, entryFate r (e.w2.toNat % 2 ^ 32) = some st → ends (.waitq q e) s st 0)) ∧
    ((20 < e.w1.toNat % 256 ∨ mget x.rings (e.w1.toNat % 256) = none) → ends (.waitq q e) s 1 0) ∧
    (∀ a, walksFree s (coreEnv s p).tlb p [e.w1] = true → access s (coreEnv s p).tlb p 1 askStore e.w1 8 = .ok a → sends (.signal q e) (.core (s.coreOf p))
      (.store a.place.space a.place.addr (bytesOfNat 8 e.w2.toNat) (16 * a.typ))) ∧
    (∀ f, walksFree s (coreEnv s p).tlb p [e.w1] = true → access s (coreEnv s p).tlb p 1 askStore e.w1 8 = .error f →
      ends (.signal q e) (installTlb s (coreEnv s p).tlb p e.w1) 2 0) ∧
    (e.w3.toNat ≤ 2 ^ 40 → sends (.copy q e) (.engine (65536 + s.coreOf p)) (.engine 0x56 e.w1 e.w2 e.w3 0)) ∧
    (2 ^ 40 < e.w3.toNat → ends (.copy q e) s 1 0) ∧
    (∀ u ws, x.units[e.w2.toNat % 1024]? = some u → walksFree s (coreEnv s p).tlb p [e.w1, e.w1 + 120] = true → (coreEnv s p).words s tData e.w1 16 = .ok ws →
      sends (.nmrun q e) (.unit u) (.nearBank nGo u e.w3 [])) ∧
    (x.units[e.w2.toNat % 1024]? = none → ends (.nmrun q e) s 1 0) ∧
    (∀ r, e.w1.toNat % 256 ≤ 20 → mget x.rings (e.w1.toNat % 256) = some r → r.stopped = true → r.started = [] →
      ends (.ringreset q e) (restartRing s (.part p (e.w1.toNat % 256))) 0 (restartAt r)) ∧
    (∀ r, mget x.rings (e.w1.toNat % 256) = some r → r.stopped = false → ends (.ringreset q e) s 1 0) ∧
    (∀ store, treeOk → s.storeAt x n = some store → ∃ link, ends (.tcreate q e) { s with
        oracle := s.oracle + 1
        trees := mset s.trees tree ⟨p, e.w2, 2 ^ lg, n, (if e.w4.getLsbD 63 then none else some (e.w5.toNat % 64 * 1024 + se)), 0,
          [(0, ⟨0, 0, e.w2, 0, 0, 0, 0, 0, 0, 0, link⟩)], store⟩ } 0 0 ∧
      store % 64 = 0 ∧ inHbm store = true ∧ (∃ y ∈ x.ranges, y.2.pa ≤ store ∧ store + 64 * n ≤ y.2.pa + y.2.len) ∧
      ∀ y ∈ s.trees, y.2.store + 64 * y.2.n ≤ store ∨ store + 64 * n ≤ y.2.store) ∧
    (¬treeOk ∨ s.storeAt x n = none → ends (.tcreate q e) s 1 0) ∧
    (∀ t, mget s.trees tree = some t → t.ptn = p → ends (.tdestroy q e) { s with trees := merase s.trees tree } 0 t.mismatch) ∧
    ((∀ t, mget s.trees tree = some t → t.ptn ≠ p) → ends (.tdestroy q e) s 1 0) ∧
    (e.w3.toNat % 65536 = 0 → ends (.winset q e)
      { s with parts := mset s.parts p { x with outwin := mset x.outwin (e.w1.toNat % 16) ⟨e.w2.toNat, e.w3.toNat, 0⟩ } } 0 0) ∧
    (e.w3.toNat % 65536 ≠ 0 → ends (.winset q e) s 1 0)

/-- What has become of an entry that a WAITQ names, and where a stopped ring goes on (R182, R405, R407). The command
processor starts the entry of the sequence number it expects, and a ring that finds another stops with an overrun
entry (R180, R181, R184, R186, R405, R406); the module posts its completions in order (R185, R186). Where a ring
starts and how a stopped module queue restarts are the model's reading (log entries 79, 80). -/
def Obligations.RingsRun : Prop :=
  (∀ (r : Ring), r.rp < 2 ^ 32 → r.wp < 2 ^ 32 → 6 ≤ r.log → r.log ≤ 16 →
     (r.skips = [] → ∀ i < 2 ^ 32, entryFate r i = some 0 ↔
       (1 ≤ count32 i r.rp ∧ count32 i r.rp < 2 ^ 31 ∧ ∀ x ∈ r.started, x.seq ≠ i)) ∧
     (∀ a b i, r.skips = [(a, b)] → count32 a i < count32 a b → entryFate r i = some 3) ∧
     (r.wp = r.rp ∨ count32 r.rp r.wp ≤ r.size → restartAt r = (r.rp + 1) % 2 ^ 32) ∧
     (r.size + 1 < count32 r.rp r.wp → count32 r.rp r.wp < 2 ^ 31 → restartAt r = (r.rp + (count32 r.rp r.wp - r.size)) % 2 ^ 32) ∧
     (∀ (s : State) (p k : Nat) (x : Partition), s.part? p = some x → mget x.rings k = some r →
       ∃ x' r', (restartRing s (.part p k)).part? p = some x' ∧ mget x'.rings k = some r' ∧ r'.stopped = false ∧
         r'.rp = restartAt r ∧ r'.started = r.started ∧ r'.wp = r.wp)) ∧
  ((∀ (s : State) (r : Ring) (ws : List Word), served s .module = true → s.modq.stopped = false →
     headWords s .module = some (r, ws) →
     (seqOf ws = s.modq.rp → (bitAt (lget ws 0 0).toNat 17 = true → s.modq.started = []) →
       (entryOk .module ws = true → Completes (.commandEntryFetch .module) s fun s' =>
         s'.modq = { s.modq with rp := (s.modq.rp + 1) % 2 ^ 32, started := s.modq.started ++ [⟨seqOf ws, ws⟩] } ∧
         (waitsFor ws = false → s'.agenda = s.agenda ++ [.event (.command .module ws)]) ∧ (waitsFor ws = true → s'.agenda = s.agenda)) ∧
       (entryOk .module ws = false → Completes (.commandEntryFetch .module) s fun s' =>
         s'.modq.rp = (s.modq.rp + 1) % 2 ^ 32 ∧ s'.agenda = s.agenda ∧ s'.modCompl = s.modCompl ++
           [(complWords 32 1 (seqOf ws) 0 s.time (lget ws 7 0), bitAt (lget ws 0 0).toNat 16)])) ∧
     (seqOf ws ≠ s.modq.rp →
       let entry := complWords 32 4 s.modq.rp (seqOf ws) s.time 0
       (1024 ≤ count32 s.modCrp s.modCwp → Completes (.commandEntryFetch .module) s fun s' =>
         s' = { s with modq := { s.modq with stopped := true }, modCompl := s.modCompl ++ [(entry, false)] }) ∧
       (count32 s.modCrp s.modCwp < 1024 → s.modCompl = [] → Completes (.commandEntryFetch .module) s fun s' =>
         s'.modq = { s.modq with stopped := true } ∧ s'.agenda = s.agenda ∧ s'.modCompl = [] ∧ s'.modCwp = (s.modCwp + 1) % 2 ^ 32 ∧
         (∀ j, 1 ≤ j → j < 8 → Memory.num s'.owner (0x20000 + s.modCwp % 1024 * 64 + 8 * j) 8 = (lget entry j 0).toNat) ∧
         s'.msgs = if s.ownerVec.mask then s.msgs else s.msgs ++ [(s.ownerVec.addr, s.ownerVec.data)]))) ∧
   (∀ (s : State) (p k : Nat) (x : Partition) (r : Ring) (ws : List Word), s.part? p = some x → served s (.part p k) = true →
     headWords s (.part p k) = some (r, ws) → queueWalks s (.part p k) r = true →
     let w0 := (lget ws 0 0).toNat
     (seqOf ws = r.rp → canStart s (.part p k) r ws = true → queueTurn s (.part p k) = true →
       Completes (.commandEntryFetch (.part p k)) s fun s' => s'.fab = s.fab ∧ ∃ x' r', s'.part? p = some x' ∧ mget x'.rings k = some r' ∧
         r'.rp = (r.rp + 1) % 2 ^ 32 ∧ r'.wp = r.wp ∧
         (entryOk (.part p k) ws = true → r'.started = r.started ++ [⟨seqOf ws, ws⟩] ∧ x'.compl = x.compl ∧
           s'.agenda = if waitsFor ws then s.agenda else s.agenda ++ [.event (.command (.part p k) ws)]) ∧
         (entryOk (.part p k) ws = false → s'.agenda = s.agenda ∧
           x'.compl = x.compl ++ [(complWords k 1 (seqOf ws) 0 s.time (lget ws 7 0), bitAt w0 16)])) ∧
     (seqOf ws ≠ r.rp →
       let entry := complWords k 4 r.rp (seqOf ws) s.time 0
       ((∀ c, mget x.rings 21 = some c → c.size ≤ count32 c.rp c.wp) → Completes (.commandEntryFetch (.part p k)) s fun s' =>
         s' = { s with parts := s'.parts } ∧ ∃ x', s'.part? p = some x' ∧ mget x'.rings k = some { r with stopped := true } ∧
           x'.compl = x.compl ++ [(entry, false)] ∧ x'.vectors = x.vectors) ∧
       (∀ c t, mget x.rings 21 = some c → count32 c.rp c.wp < c.size → x.compl = [] →
         walksFree s (coreEnv s p).tlb p [wordOf (c.va + c.wp % c.size * 64)] = true → postEntry s p c entry = some t →
         Completes (.commandEntryFetch (.part p k)) s fun s' => SameMemory t s' ∧ s'.agenda = s.agenda ∧ ∃ x', s'.part? p = some x' ∧
           mget x'.rings k = some { r with stopped := true } ∧ x'.compl = [] ∧ mget x'.rings 21 = some { c with wp := (c.wp + 1) % 2 ^ 32 } ∧
           ∀ v, mget x.vectors 1 = some v → (v.mask = false → s'.msgs = s.msgs ++ [(v.addr, v.data)]) ∧
             (v.mask = true → mget x'.vectors 1 = some { v with pending := true })))) ∧
   (∀ (s : State) (q : QueueRef) (r : Ring), ringOf s q = some r → served s q = true → r.stopped = true → r.restart = true → r.started = [] →
     exec (.commandEntryFetch q) s = .next (restartRing s q)) ∧
   (∀ (s : State) (ws : List Word) (irqc : Bool) (rest : List (List Word × Bool)), s.modCompl = (ws, irqc) :: rest →
     count32 s.modCrp s.modCwp < 1024 → ws.length = 8 → Completes (.completionEntryPost .module) s fun s' =>
       s'.modCompl = rest ∧ s'.modCwp = (s.modCwp + 1) % 2 ^ 32 ∧ s'.fab = s.fab ∧ s'.mem = s.mem ∧
       (∀ j, 1 ≤ j → j < 8 → Memory.num s'.owner (0x20000 + s.modCwp % 1024 * 64 + 8 * j) 8 = (lget ws j 0).toNat) ∧
       Memory.num s'.owner (0x20000 + s.modCwp % 1024 * 64) 8 = (lget ws 0 0).toNat % 2 ^ 32 + s.modCwp % 2 ^ 32 * 2 ^ 32 ∧
       s'.msgs = if (irqc || isOverrun ws) && !s.ownerVec.mask then s.msgs ++ [(s.ownerVec.addr, s.ownerVec.data)] else s.msgs) ∧
   (∀ (s : State) (p k : Nat) (x : Partition) (ws : List Word) (irqc : Bool) (rest : List (List Word × Bool)) (r : Ring),
     s.part? p = some x → x.compl = (ws, irqc) :: rest → mget x.rings 21 = some r → count32 r.rp r.wp < r.size →
     (∀ y, x.reset = some y → y.posting = false ∨ rest ≠ []) → walksFree s (coreEnv s p).tlb p [wordOf (r.va + r.wp % r.size * 64)] = true →
     let posts (holds : State → Prop) : Prop := Completes (.completionEntryPost (.part p k)) s fun s' => holds s' ∧
       ∃ x', s'.part? p = some x' ∧ x'.compl = rest ∧ mget x'.rings 21 = some { r with wp := (r.wp + 1) % 2 ^ 32 } ∧
         (irqc = false → isOverrun ws = false → s'.msgs = s.msgs) ∧ ∀ n v, (n = 0 ∧ irqc = true ∧ isOverrun ws = false) ∨
           (n = 1 ∧ irqc = false ∧ isOverrun ws = true) → mget x.vectors n = some v →
           (v.mask = false → s'.msgs = s.msgs ++ [(v.addr, v.data)]) ∧ (v.mask = true → mget x'.vectors n = some { v with pending := true })
     (∀ t, postEntry s p r ws = some t → posts fun s' => SameMemory t s') ∧
     (∀ a b, ws.length = 8 → b + 8 ≤ a ∨ a + 64 ≤ b →
       (∀ j < 64, ∃ y, access s (coreEnv s p).tlb p 1 ⟨false, true, tData⟩ (wordOf (r.va + r.wp % r.size * 64) + wordOf j) 1 = .ok y ∧
         y.place = .host (a + j) ∧ y.typ = 6) →
       (∃ y, access s (coreEnv s p).tlb p 1 ⟨false, true, tData⟩ (wordOf r.ptrs) 8 = .ok y ∧ y.place = .host b ∧ y.typ = 6) →
       posts fun s' => s'.mem = s.mem ∧ Memory.num s'.hostMem b 8 = (r.wp + 1) % 2 ^ 32 ∧
         Memory.num s'.hostMem a 8 = (lget ws 0 0).toNat % 2 ^ 32 + r.wp % 2 ^ 32 * 2 ^ 32 ∧
         ∀ j, 1 ≤ j → j < 8 → Memory.num s'.hostMem (a + 8 * j) 8 = (lget ws j 0).toNat)))

/-- PCREATE and PDESTROY (R182, R187, R436). Which ways and units a partition gets, and what becomes of a swap partner,
are the model's choice (log entries 34, 35, 36). -/
def Obligations.PartitionsMadeAndDestroyed : Prop :=
  ∀ (s : State) (q : QueueRef) (e : CmdEntry),
    let ends (i : Instr) (t : State) (stat code : Nat) : Prop :=
      exec i s = .next (complete t q e.seq.toNat e.tag (e.irqc == 1) stat code)
    let num := e.w6.toNat % 16
    let p := e.w1.toNat % 16
    (s.alarm.level = 2 → ends (.pcreate q e) s 1 0x00060002) ∧ (3 ≤ s.alarm.level → ends (.pcreate q e) s 1 0x00060003) ∧
    (s.alarm.level < 2 → mhas s.parts num = true → ends (.pcreate q e) s 1 0) ∧
    (s.alarm.level < 2 → mhas s.parts num = false → e.w6.getLsbD 4 = false →
      (∃ y ∈ s.parts, ∃ c ∈ y.2.clusters, c ∈ maskClusters e) → ends (.pcreate q e) s 1 0) ∧
    (∀ w, s.alarm.level < 2 → mhas s.parts num = false → e.w6.getLsbD 4 = false →
      (∀ y ∈ s.parts, ∀ c ∈ y.2.clusters, c ∉ maskClusters e) → chooseWays s (maskClusters e) (e.w5.toNat % 256) = some w →
      ∃ x, ends (.pcreate q e) { s with parts := mset s.parts num x } 0 num ∧ x.clusters = maskClusters e ∧ x.ways = w ∧
        x.prio = field e.w5.toNat 9 8 ∧ x.weight = field e.w5.toNat 23 16 ∧ x.resident = true ∧ x.partner = none ∧
        x.epoch = 0 ∧ x.s1root = none ∧ x.ranges = [] ∧ x.rings = [] ∧ (∀ b, x.bar b = ⟨0, 0, 0, []⟩) ∧
        ∀ v < 64, mget x.vectors v = some ⟨0, 0, true, false⟩) ∧
    (∀ c < 256, c ∈ maskClusters e ↔ (match c / 64 with | 0 => e.w1 | 1 => e.w2 | 2 => e.w3 | _ => e.w4).getLsbD (c % 64) = true) ∧
    (s.part? p = none → ends (.pdestroy q e) s 1 0) ∧
    (∀ x, s.part? p = some x → x.reset.isSome ∨ x.swap.isSome → ends (.pdestroy q e) s 1 0) ∧
    (∀ x, s.part? p = some x → x.reset = none → x.swap = none → ends (.pdestroy q e) (removePartition s p x) 0 0 ∧
      (x.partner = none → let t := removePartition s p x
        t.part? p = none ∧ (∀ o ∈ t.ops, o.ptn ≠ p) ∧ (∀ y ∈ t.fab.tasks, y.2.ptn ≠ p) ∧ (∀ y ∈ t.trees, y.2.ptn ≠ p)))

/-- PRESET and PSWAP, and the events in which they end (R191, R192, R193, R194, R408-R415). What a swap exchanges is the
model's reading (log entry 82). When the last step of a reset comes is the model's reading (log entry 121). -/
def Obligations.ResetsAndSwaps : Prop :=
  (∀ (s : State) (q : QueueRef) (e : CmdEntry) (x : Partition), s.part? (e.w1.toNat % 16) = some x →
    let p := e.w1.toNat % 16
    (mayReset q p = false → exec (.preset q e) s = .next (complete s q e.seq.toNat e.tag (e.irqc == 1) 1 0)) ∧
    (mayReset q p = true → x.reset.isSome ∨ x.swap.isSome → exec (.preset q e) s = .refused .notEnabled) ∧
    (mayReset q p = true → x.reset = none → x.swap = none → Completes (.preset q e) s fun s' =>
      (∀ y ∈ s'.fab.tasks, y.2.ptn ≠ p) ∧ (∀ y ∈ s'.fab.regions, y.2.ptn ≠ p) ∧ (∀ w ∈ s'.ctrl, w.ptn ≠ p) ∧
      (∀ c ∈ s'.copies, c.ptn ≠ p) ∧ (∀ l ∈ s'.launches, l.2.ptn ≠ p) ∧
      ∃ x', s'.part? p = some x' ∧ x'.epoch = (x.epoch + 1) % 16 ∧ x'.reset = some ⟨some ⟨q, e.seq.toNat, e.tag, e.irqc == 1⟩, false⟩)) ∧
  (∀ (s : State) (p : Nat) (x : Partition) (r : ResetState), s.part? p = some x → x.reset = some r →
    (r.posting = false → (∀ o ∈ s.ops, o.ptn = p → stale s o = false) → Completes (.resetEpochDrained p) s fun s' =>
      (∀ y ∈ s'.tlbs, ∀ t ∈ y.2, t.ptn ≠ p) ∧ (∀ y ∈ s'.trees, y.2.ptn ≠ p) ∧
      ∃ x', s'.part? p = some x' ∧ x'.dlgt = [] ∧ x'.pages = [] ∧
        ((x'.reset = none ∧ ∀ v, mget x.vectors 3 = some v →
            (v.mask = false → (v.addr, v.data) ∈ s'.msgs) ∧ (v.mask = true → mget x'.vectors 3 = some { v with pending := true })) ∨
         (x'.reset = some { r with posting := true } ∧ x'.compl ≠ [] ∧ ∀ v, mget x'.vectors 3 = some v → v.pending = false))) ∧
    (∀ ws irqc g t, r.posting = true → x.compl = [(ws, irqc)] → mget x.rings 21 = some g → count32 g.rp g.wp < g.size →
      walksFree s (coreEnv s p).tlb p [wordOf (g.va + g.wp % g.size * 64)] = true → postEntry s p g ws = some t → Completes (.completionEntryPost (.part p 21)) s fun s' =>
        ∃ x', s'.part? p = some x' ∧ x'.reset = none ∧ ∀ v, mget x.vectors 3 = some v →
          (v.mask = false → (v.addr, v.data) ∈ s'.msgs) ∧ (v.mask = true → mget x'.vectors 3 = some { v with pending := true }))) ∧
  (∀ (s : State) (q : QueueRef) (e : CmdEntry) (x y : Partition), s.part? (e.w1.toNat % 16) = some x →
    s.part? (e.w2.toNat % 16) = some y →
    let out := e.w1.toNat % 16
    let inn := e.w2.toNat % 16
    let c : CmdRef := ⟨q, e.seq.toNat, e.tag, e.irqc == 1⟩
    (swapOk x y inn = true → out ≠ inn → Completes (.pswap q e) s fun s' => s' = { s with parts := s'.parts } ∧
      s'.part? out = some { x with swap := some ⟨inn, true, s.time, false, c⟩ } ∧
      s'.part? inn = some { y with swap := some ⟨out, false, s.time, false, c⟩ }) ∧
    (swapOk x y inn = false → exec (.pswap q e) s = .next (complete s q e.seq.toNat e.tag (e.irqc == 1) 1 0))) ∧
  (∀ (s : State) (p : Nat) (x : Partition) (w : SwapState), s.part? p = some x → x.swap = some w → w.out = true →
    (w.exchanged = false → (allAnswered s p = true ∨ w.since + 12000 ≤ s.time) → Completes (.swapExchange p) s fun s' =>
      s'.part? p = some { x with swap := some { w with exchanged := true }, resident := false } ∧
      (w.other ≠ p → ∃ v, mget s'.saved p = some v ∧ v.log = [])) ∧
    (∀ (y : Partition) (o : Op) (u g : Nat) (t : Task) (v : Word), w.exchanged = true → s.part? w.other = some y → w.other ≠ p →
      mgetD s.saved w.other Saved.empty = ⟨Fabric.empty, [], [o], []⟩ → (mgetD s.saved p Saved.empty).bad = [] → o.act = .land [v] 0 false →
      o.dest = .regs u g → o.src = .task u → o.ptn = w.other → stale s o = false → (∀ x ∈ s.ops, x.id ≠ o.id) → scanning s o.id = false →
      unitRuns s o.id = false → s.task? u = some t → t.launch = o.launch → tileFenced s (seTile (seOf u)) = false →
      Completes (.swapComplete p) s fun s' => (∀ x ∈ s'.ops, x.id ≠ o.id) ∧ ∃ t', s'.task? u = some t' ∧ t'.regs = (t.setRegs g [v]).regs) ∧
    (∀ y, w.exchanged = true → s.part? w.other = some y → w.other ≠ p → w.cmd.q = .module → isStarted s .module w.cmd.seq = true →
      (mgetD s.saved w.other Saved.empty).log = [] →
      Completes (.swapComplete p) s fun s' =>
        (∃ x', s'.part? p = some x' ∧ x'.swap = none ∧ x'.resident = x.resident ∧
          ∀ v, mget x.vectors 4 = some v → v.mask = true → mget x'.vectors 4 = some { v with pending := true }) ∧
        (∃ y', s'.part? w.other = some y' ∧ y'.swap = none ∧ y'.resident = true ∧
          ∀ v, mget y.vectors 4 = some v → v.mask = true → mget y'.vectors 4 = some { v with pending := true }) ∧
        (∀ u v, mget x.vectors 4 = some u → mget y.vectors 4 = some v → u.mask = false → v.mask = false →
          s'.msgs = s.msgs ++ [(u.addr, u.data), (v.addr, v.data)]) ∧
        (∃ ws, (ws, w.cmd.irqc) ∈ s'.modCompl) ∧
        (∀ l x' c, (mgetD s.saved p Saved.empty).bad = [] → mget s.launches l = some x' → x'.ptn = w.other → c ∈ (mgetD s.saved w.other Saved.empty).bad → c < 256 →
          (∀ d ∈ (mgetD s.saved w.other Saved.empty).bad, c ≤ d) → mget s'.launches l = none ∧ ∃ y', s'.part? w.other = some y' ∧
            (complWords x'.ring 2 x'.seq (0x00040000 + c) s.time x'.tag, x'.irqc) ∈ y'.compl)))

/-- PSET of each of its five items, and what it refuses (R183, R190). That the two PSETs drop translations is the model's
reading (log entry 81). -/
def Obligations.PartitionSettings : Prop :=
  ∀ (s : State) (q : QueueRef) (e : CmdEntry) (x : Partition),
    let p := e.w1.toNat % 16
    let ix := field e.w1.toNat 23 16
    let ends (i : Instr) (t : State) (stat : Nat) : Prop := exec i s = .next (complete t q e.seq.toNat e.tag (e.irqc == 1) stat 0)
    let named (maxIx : Nat) : Prop := field e.w1.toNat 7 4 = 0 ∧ e.w1.toNat < 2 ^ 24 ∧ ix ≤ maxIx ∧ s.part? p = some x
    let idle : Prop := ∀ l ∈ s.launches, l.2.ptn ≠ p
    let put (y : Partition) : State := { s with parts := mset s.parts p y }
    let r : Range := ⟨e.w2.toNat, e.w3.toNat, e.w4.toNat⟩
    let n := 64 * 2 ^ e.w3.toNat
    let vec (v : Vector64) : Vector64 := ⟨e.w2.toNat, e.w3.toNat, e.w4 == 1, v.pending && e.w4 == 1⟩
    let ring : Ring := ⟨e.w2.toNat, e.w3.toNat, e.w4.toNat, 0, 0, false, false, [], []⟩
    let rootOk : Prop := e.w2.toNat % 65536 = 0 ∧ e.w2.toNat < 2 ^ 48 ∧ e.w3 = 0 ∧ e.w4 = 0
    let ringOk : Prop := 6 ≤ e.w3.toNat ∧ e.w3.toNat ≤ 16 ∧ e.w2.toNat % n = 0 ∧ e.w4.toNat % 16 = 0 ∧
      inWindow0 x e.w2.toNat n = true ∧ inWindow0 x e.w4.toNat 16 = true
    (s.part? p = none → ends (.psetStage1Root q e) s 1 ∧ ends (.psetStage2Range q e) s 1 ∧ ends (.psetInboundWindow q e) s 1 ∧
      ends (.psetRing q e) s 1 ∧ ends (.psetInterruptVector q e) s 1) ∧
    (¬idle → ends (.psetStage1Root q e) s 1 ∧ ends (.psetStage2Range q e) s 1 ∧ ends (.psetRing q e) s 1) ∧
    (named 0 → idle → rootOk → ends (.psetStage1Root q e) (dropTranslations (put { x with s1root := some e.w2.toNat }) p) 0) ∧
    (named 0 → idle → ¬rootOk → ends (.psetStage1Root q e) s 1) ∧
    (named 63 → idle → rangeOk s p r = true → r.len ≠ 0 →
      ends (.psetStage2Range q e) (dropTranslations (put { x with ranges := mset x.ranges ix r }) p) 0) ∧
    (named 63 → idle → rangeOk s p r = true → r.len = 0 →
      ends (.psetStage2Range q e) (dropTranslations (put { x with ranges := merase x.ranges ix }) p) 0) ∧
    (named 63 → idle → rangeOk s p r = false → ends (.psetStage2Range q e) s 1) ∧
    (named 15 → e.w2.toNat % 65536 = 0 → e.w3.toNat % 65536 = 0 → e.w3 ≠ 0 →
      ends (.psetInboundWindow q e) (put { x with inwin := mset x.inwin ix ⟨e.w2.toNat, e.w3.toNat, e.w4.toNat⟩ }) 0) ∧
    (named 15 → e.w2.toNat % 65536 = 0 → e.w3 = 0 → ends (.psetInboundWindow q e) (put { x with inwin := merase x.inwin ix }) 0) ∧
    (named 15 → (e.w2.toNat % 65536 ≠ 0 ∨ e.w3.toNat % 65536 ≠ 0) → ends (.psetInboundWindow q e) s 1) ∧
    (named 21 → idle → ringOk → ends (.psetRing q e) (put { x with rings := mset x.rings ix ring }) 0) ∧
    (named 21 → idle → ¬ringOk → ends (.psetRing q e) s 1) ∧
    (∀ v, named 63 → e.w3.toNat < 2 ^ 32 → e.w4.toNat < 2 → mget x.vectors ix = some v →
      (v.pending = false ∨ e.w4 = 1) → ends (.psetInterruptVector q e) (put { x with vectors := mset x.vectors ix (vec v) }) 0) ∧
    (∀ v, named 63 → e.w3.toNat < 2 ^ 32 → e.w4 = 0 → mget x.vectors ix = some v → v.pending = true →
      ends (.psetInterruptVector q e) { put { x with vectors := mset x.vectors ix ⟨e.w2.toNat, e.w3.toNat, false, false⟩ } with
        msgs := s.msgs ++ [(e.w2.toNat, e.w3.toNat)] } 0) ∧
    (named 63 → (2 ^ 32 ≤ e.w3.toNat ∨ 2 ≤ e.w4.toNat) → ends (.psetInterruptVector q e) s 1)

/-- What the stores and reads of a host do that has a ready port, by which of them the owner alone reaches (R177, R178,
R179, R181, R190, R407); h is the state once the access has been taken up. Which host makes an access is the model's
own list (log entry 120). -/
def Obligations.HostAccesses : Prop :=
  ∀ (s h : State) (v : BitVec 32) (w : Word) (off addr n : Nat) (bs : List Byte), hostReaches s = true →
    h = { s with speakers := s.speakers.drop 1 } →
    let owner : Prop := s.speakers.headD s.record.owner = s.record.owner
    let vec (d : Nat) (m : Bool) : State := { h with ownerVec := { s.ownerVec with data := d, mask := m } }
    (owner → s.modq.stopped = false ∨ v.toNat ≠ s.modq.rp → exec (.ringWritePointerStore .module v) s =
      .next { h with modq := { s.modq with wp := v.toNat } }) ∧
    (owner → s.modq.stopped = true → v.toNat = s.modq.rp → exec (.ringWritePointerStore .module v) s =
      .next { h with modq := { s.modq with restart := true } }) ∧
    (owner → exec (.completionReadPointerStore .module v) s = .next { h with modCrp := v.toNat }) ∧
    (∀ p k r, ringOf s (.part p k) = some r → k < 21 →
      exec (.ringWritePointerStore (.part p k) v) s = .next (hostStore h p r.ptrs (bytesOfNat 8 v.toNat))) ∧
    (∀ p k r, ringOf s (.part p 21) = some r →
      exec (.completionReadPointerStore (.part p k) v) s = .next (hostStore h p (r.ptrs + 8) (bytesOfNat 8 v.toNat))) ∧
    (owner → exec (.ownerWindowWrite 0x8000 w) s = exec (.ringWritePointerStore .module (w.setWidth 32)) s) ∧
    (owner → exec (.ownerWindowWrite 0x8018 w) s = .next { h with modCrp := w.toNat % 2 ^ 32 }) ∧
    (owner → exec (.ownerWindowWrite 0x8020 w) s = .next { h with ownerVec := { s.ownerVec with addr := w.toNat } }) ∧
    (owner → exec (.ownerWindowWrite 0x8028 w) s = .next (vec (w.toNat % 2 ^ 32) (w.getLsbD 32))) ∧
    (owner → s.ownerVec.data < 2 ^ 32 →
      exec (.hostPostedWrite 0x8028 (bytesOfNat 4 v.toNat)) s = .next (vec v.toNat s.ownerVec.mask) ∧
      exec (.hostPostedWrite 0x802C (bytesOfNat 4 v.toNat)) s = .next (vec s.ownerVec.data (v.getLsbD 0))) ∧
    (owner → (0x10000 ≤ off ∧ off < 0x20000 ∨ 0x80000 ≤ off ∧ off < 0x100000) → off % 8 = 0 →
      Completes (.ownerWindowWrite off w) s fun s' => s' = { h with owner := s'.owner } ∧ Memory.num s'.owner off 8 = w.toNat ∧
        ∀ a, a < off ∨ off + 8 ≤ a → Memory.read s'.owner a = Memory.read s.owner a) ∧
    (owner → Completes (.ownerWindowWrite 0x6000 w) s fun s' => ∃ ed ml,
      s' = { h with oracle := s.oracle + 1, agenda := s.agenda ++ [.event (.recoveryDoorbell w ed ml)] }) ∧
    (off + 8 ≤ 0x6000 → exec (.ownerWindowWrite off w) s = .next h) ∧
    (¬owner → exec (.ringWritePointerStore .module v) s = .next h ∧ exec (.completionReadPointerStore .module v) s = .next h ∧
      exec (.ownerWindowWrite off w) s = .next h ∧ (addr + bs.length ≤ 0x100000 → exec (.hostPostedWrite addr bs) s = .next h) ∧
      (addr + n ≤ 0x100000 → exec (.hostRead addr n) s = .next { h with answers := s.answers ++ [([], false)] })) ∧
    (0x100000 < addr + bs.length → windowAt s addr bs.length = none → exec (.hostPostedWrite addr bs) s = .next h) ∧
    (∀ p va, 0x100000 < addr + bs.length → windowAt s addr bs.length = some (p, va) →
      exec (.hostPostedWrite addr bs) s = .next (hostStore h p va bs)) ∧
    (owner → addr + n ≤ 0x100000 →
      exec (.hostRead addr n) s = .next { h with answers := s.answers ++ [((natRange addr n).map (ownerByte s), true)] }) ∧
    (0x100000 < addr + n → windowAt s addr n = none → exec (.hostRead addr n) s = .next { h with answers := s.answers ++ [([], false)] }) ∧
    (∀ p va, 0x100000 < addr + n → windowAt s addr n = some (p, va) → Completes (.hostRead addr n) s fun s' =>
      s' = { h with answers := s'.answers } ∧ ∃ a, s'.answers = s.answers ++ [a] ∧
        (a.2 = true → (coreEnv s p).readAll s tData (wordOf va) 1 n = (a.1, none)))

/-- ARM_APPLY adds its count to a resident context, or leaves it with a pending section, an overflow sending a POISON
word; the end of a phase counts down, sends the completion word of a context that has reached zero, and the selector
chooses (R30, R31, R33, R34, R35, R37, R350, R426). Which tokens keep a context from being drained, and the context of
a pending section, are the model's reading (log entries 48, 66). The context that next names after COUNT is the
model's choice (log entry 98). -/
def Obligations.ArmsAndPhases : Prop :=
  (∀ (s : State) (id r k n route tid l : Nat) (o : Op) (g : Region), s.op? id = some o → o.act = .arm r k n route tid l →
     performable s o = true → partRuns s o.ptn = true → s.region? r = some g → g.oldCtx ≠ some k →
     let c := g.ctx k
     let ops := s.ops.filter fun x => x.id != id
     let held := ((g.pends.find? fun p => p.ctx == k).map (·.count)).getD 0
     let overflows : Prop := Completes (.armApply id) s fun s' => s'.ops = ops ∧ s'.fab = s.fab ∧
       ∃ w, s'.ctrl = s.ctrl ++ [w] ∧ w.dst = .chan route ∧ w.ckind = 7 ∧ w.payload = wordOf (8 * 2 ^ 56 + 0xFFFF * 2 ^ 16)
     (c.resident = true → c.arm + n < 2 ^ 32 → k < g.ctxs.length → Completes (.armApply id) s fun s' => s'.ops = ops ∧ SameMemory s s' ∧
       s'.fab.tasks = s.fab.tasks ∧ ∃ g', s'.region? r = some g' ∧ (g'.ctx k).arm = c.arm + n ∧ (g'.ctx k).route = some route ∧
         (g'.ctx k).release = false ∧ (g'.ctx k).entry = c.entry ∧ (g'.ctx k).lat = c.lat ∧ g' = { g with ctxs := g'.ctxs } ∧
         ∀ j, j ≠ k → g'.ctx j = g.ctx j) ∧
     (c.resident = true → 2 ^ 32 ≤ c.arm + n → overflows) ∧
     (c.resident = false → 2 ^ 32 ≤ held + c.arm + n → overflows) ∧
     (c.resident = false → held + c.arm + n < 2 ^ 32 → Completes (.armApply id) s fun s' => s'.ops = ops ∧ ∃ g', s'.region? r = some g' ∧
       g' = { g with pends := g'.pends } ∧ ∃ p ∈ g'.pends, p.ctx = k ∧ p.count = held + n ∧ p.route = some route)) ∧
  ((∀ (s : State) (r k : Nat) (g : Region), s.region? r = some g → g.cur = some k → regionRuns s g = true → g.waiting = false →
     phaseEnds s r g k = true → k < g.ctxs.length → (g.ctx k).disarm = false → (g.ctx k).release = false → (g.ctx k).unload = false →
     (∀ j, j ≠ k → (g.ctx j).release = false ∧ (g.ctx j).unload = false) →
     let c := g.ctx k
     Completes (.phaseEnd r) s fun s' => SameMemory s s' ∧ s'.fab.tasks = s.fab.tasks ∧ ∃ g', s'.region? r = some g' ∧
       g'.phase = false ∧ (g'.ctx k).arm = (if g.phase then c.arm - 1 else c.arm) ∧
       (g.phase = true → c.arm = 1 → (g'.ctx k).nph = 0 ∧ ∀ a, c.route = some a → ∃ w, s'.ctrl = s.ctrl ++ [w] ∧ w.dst = .chan a ∧
         w.ckind = 0 ∧ w.payload = wordOf ((c.nph + 1) % 2 ^ 32 * 2 ^ 32 + r % 256 * 2 ^ 16 + r / 256 % 8 * 2 ^ 13 + k % 4)) ∧
       (g.phase = true → 1 < c.arm → (g'.ctx k).nph = c.nph + 1 ∧ s'.ctrl = s.ctrl)) ∧
   (∀ (s : State) (r : Nat) (g : Region), s.region? r = some g → regionRuns s g = true → g.waiting = true → g.mayWake = true →
     Completes (.selectorWake r) s fun s' => s'.region? r = some g.select ∧ (∀ x, x ≠ r → s'.region? x = s.region? x) ∧
       s'.fab.tasks = s.fab.tasks ∧ SameMemory s s') ∧
   (∀ g : Region, g.count = true →
     (∀ k, g.select.cur = some k → g.select.waiting = false → k < 4 ∧ (g.ctx k).resident = true ∧ (g.ctx k).arm ≠ 0 ∧ (g.ctx k).entry ≠ [] ∧
       ∀ j < 4, g.candidate j = true → 5 ≤ lget g.pass j 0 → 5 ≤ lget g.pass k 0 ∧ lget g.pass j 0 ≤ lget g.pass k 0) ∧
     ((∀ j < 4, g.candidate j = false) → g.select.waiting = true ∧ g.select.cur = g.cur)) ∧
   (∀ g : Region, g.count = false → g.named0 = false →
     g.select.cur = some g.named ∧ (g.select.waiting = false ↔ g.candidate g.named = true)))

/-- Tokens move: the head of an entry queue to its readers, the head of a link's slots through its receiving join, and
what waits in an element's output; a circuit gives up its oldest token once its latency is over (R33, R56, R58, R59,
R64, R65, R66); and a POISON with PKIND 7 stands in place of a token whose latch or slot holds an uncorrectable error,
while an AG that reads such a bank takes fault 0x000A (R362, R404). The copies of a wire and the flags of a router's
conversion are the model's reading (log entries 42, 53, 54). How an image declares a circuit is the model's choice
(log entry 23), the format of a token that is passed on its reading (log entry 114), and the lane that counts as
served last at first its choice (log entry 102). What an error spoils beyond R404's words is the model's choice (log
entry 62). The turns of a fold's arms and the value of a t3 pair are its reading (log entries 125, 131), and what a
STOP makes of a group of NULLs is its choice (log entry 126). -/
def Obligations.TokensMove : Prop :=
  (∀ (s : State) (r k n : Nat) (g : Region), s.region? r = some g → regionRuns s g = true → g.active k = true →
     let moves (link : Nat) (g' : Region) : Prop := exec (.routerForward r k link) s = .next (s.setRegion r { g' with stall := 0 })
     (∀ t ts, g.cur = some k → g.waiting = false → g.phase = false → (g.ctx k).arm ≠ 0 → (g.ctx k).entry = t :: ts →
       g.oldCtx = none → (g.ctx k).wireRoom .entry = true → k < g.ctxs.length →
       ∃ g', moves 512 g' ∧ g'.phase = true ∧ (g'.ctx k).entry = ts ∧ (g'.ctx k).links = (g.ctx k).links ∧ g'.cur = g.cur ∧
         ∀ j, j ≠ k → g'.ctx j = g.ctx j) ∧
     (∀ m g', n < 512 → m = makerOf s (((g.cTiles[n / 16]?).map (gridTile r)).getD 0) → moveLink m g k n = some g' → moves n g') ∧
     (∀ g', n < 7168 → moveOut (makerOf s (posTile r g k n)) g k n = some g' → moves (1024 + n) g' ∧
       ((g'.ctx k).bank n).outq.length < ((g.ctx k).bank n).outq.length) ∧
     (∀ m t ts x, (mgetD ((g.ctx k).link n).split 1 []) = t :: ts → (g.ctx k).linkWire g n 0 = some x → (g.ctx k).wireRoom x = true →
       k < g.ctxs.length → ∃ g', moveLink m g k n = some g' ∧ mgetD ((g'.ctx k).link n).split 1 [] = ts) ∧
     (∀ s', moveCircuit s r k n = some s' → exec (.routerForward r k (8192 + n)) s = .next s') ∧
     (∀ x t at' ts, mget (g.ctx k).circs n = some x → x.path.dest = none → x.toks = (t, at') :: ts → at' ≤ s.time →
       moveCircuit s r k n = some { s.setRegion r (g.modCtx k fun c => { c with circs := mset c.circs n { x with toks := ts, bad := tailBad x.bad } }) with
         flits := s.flits ++ [(x.path.novey.getD 0, if 0 ∈ x.bad then (circuitMaker s r n).upset else t.tok)] }) ∧
     (∀ x t at' ts, mget (g.ctx k).circs n = some x → x.wait = [] → x.toks = (t, at') :: ts → s.time < at' →
       exec (.routerForward r k (8192 + n)) s = .refused .notEnabled)) ∧
  ((∀ (s : State) (r k pos i : Nat) (g : Region) (w : ElemCfg) (t : Stok), i < 4 → mget (g.ctx k).lat (pos * 4 + i) = some t →
     pos * 4 + i ∈ (g.ctx k).spoilt → (elemInput s r g k pos w).tok i = some (makerOf s (posTile r g k pos)).upset) ∧
   (∀ m : Maker, m.die < 4 → m.col < 64 → m.row < 64 → m.upset.cls = .poison ∧ field m.upset.data.toNat 63 56 = 7 ∧
     field m.upset.data.toNat 127 64 = m.time % 2 ^ 64) ∧
   (∀ (m : Maker) (g : Region) (k n : Nat) (t : Stok) (ts : List Stok),
     let c := g.ctx k
     let l := c.link n
     l.split = [] → l.slots = t :: ts → 0 ∈ l.bad → c.laneReady g n = true → c.laneTurn g n = true →
     moveLink m g k n = some (((g.servedLane n).setCtx k { c with links := mset c.links n { l with slots := ts, bad := tailBad l.bad } }).recvIn m k n
       t.fold { t with tok := m.upset })) ∧
   (∀ (s : State) (w : ElemCfg) (e : AgEnv) (off : Nat), agTurn w false s = some e → e.hasP = false → e.a.queue = [] →
     let n := agSize w.ofmt.toNat
     e.mayAccess s = true → e.place s n = .own off → s.fab.bankMarked (e.sramKey off) n = true →
     exec (.agr w) s = .next (e.fault s [] ⟨0x000A, agAddr w e.a, 0⟩ 0)))

/-- Fetching and switching of contexts (R37, R69, R70, R71, R276, R367, R368). The context that a pending section fills is
the model's reading (log entry 48). That a second switch waits for the slot of the first, and where the old context's
flags go, is the model's choice (log entry 122). -/
def Obligations.ContextsSwitch : Prop :=
  (∀ (s : State) (r k : Nat) (g : Region), s.region? r = some g → regionRuns s g = true → (g.ctx k).status = .staged →
    (g.ctx k).fetching = true → k < g.ctxs.length → switchDue s g k = false → fetchWalks s r g (g.ctx k) = true → Completes (.stagedFetchComplete r k) s fun s' =>
      SameMemory s s' ∧ ∃ g', s'.region? r = some g' ∧ (g'.ctx k).fetching = false ∧
        (g'.ctx k).fetchBad = fetchedBad s r g.ptn (g.ctx k) ∧
        ((g.ctx k).arm = 0 → (g'.ctx k).status = .staged) ∧
        ((g.ctx k).arm ≠ 0 → fetchedBad s r g.ptn (g.ctx k) = none → (g'.ctx k).status = .resident) ∧
        ∀ j, j ≠ k → g'.ctx j = g.ctx j) ∧
  (∀ (s : State) (r k : Nat) (g g' : Region) (p : PendSect), s.region? r = some g → regionRuns s g = true →
    g.pends.find? (fun p => p.ctx == k) = some p → fetchesFirst s r k g = true → imageCtxs s g r k ≠ [] → k < g.ctxs.length →
    walksFree s (elemTlb r) g.ptn ((imageCtxs s g r k).map fun x => wordOf x.va) = true →
    loadParts (s.outside r g) (fetchWords s r g.ptn) (imageCtxs s g r k) g = some g' →
    (∀ q ∈ g.pends, (g.ctx q.ctx).isFree = true → q.image ≠ 0 → entryWaiting s r q.ctx ≤ entryWaiting s r k) ∧
    Completes (.pendingSectionFetch r k) s fun s' => SameMemory s s' ∧ ∃ g2, s'.region? r = some g2 ∧
      (g2.ctx k).status = (g'.ctx k).status ∧ (g2.ctx k).elems = (g'.ctx k).elems ∧ (∀ q ∈ g2.pends, q.ctx ≠ k) ∧
      ((g'.ctx k).arm + p.count < 2 ^ 32 → (g2.ctx k).arm = (g'.ctx k).arm + p.count) ∧
      (2 ^ 32 ≤ (g'.ctx k).arm + p.count → (g2.ctx k).arm = (g'.ctx k).arm ∧ ∀ a, p.route = some a → ∃ w, s'.ctrl = s.ctrl ++ [w] ∧
        w.dst = .chan a ∧ w.ckind = 7)) ∧
  (∀ (s : State) (id r : Nat) (w : CtrlWord) (g : Region), s.word? id = some w → w.dst = .region r → w.ckind = 4 →
    wordArrives s w = true → partRuns s w.ptn = true → s.region? r = some g →
    let sw : Switch := ⟨switchTime s.time (field w.payload.toNat 63 16), field w.payload.toNat 1 0, field w.payload.toNat 3 2, false⟩
    exec (.switchTimeWord id) s = .next ((s.dropWord id).setRegion r { g with switches := g.switches ++ [sw] })) ∧
  (∀ now t, now < t → t ≤ now + 2 ^ 48 → switchTime now (t % 2 ^ 48) = t) ∧
  (∀ (s : State) (r : Nat) (g : Region) (w : Switch), s.region? r = some g → regionRuns s g = true →
    w.old < g.ctxs.length → w.new < g.ctxs.length → w.old ≠ w.new →
    let takes : Prop := (g.ctx w.old).resident = true → g.pends = [] → Completes (.contextSwitch r) s fun s' =>
      ∃ g', s'.region? r = some g' ∧ g'.oldCtx = some w.old ∧ g'.heir = w.new ∧ g'.switches = g.switches.erase w ∧
        (g'.ctx w.new).status = .resident ∧ (g'.ctx w.new).arm = (g.ctx w.old).arm ∧ (g'.ctx w.new).route = (g.ctx w.old).route ∧
        (g'.ctx w.new).entry = (g.ctx w.old).entry.map (fun t => { t with old := true }) ∧ (g'.ctx w.old).arm = 0 ∧
        (g'.ctx w.old).entry = [] ∧ (g.cur = some w.old → g'.cur = some w.new)
    (g.dueSwitch s.time = none → g.oldCtx = none → g.switches.find? (·.passed) = some w → takes) ∧
    (g.dueSwitch s.time = some w → w.passed = false ∧ w.t ≤ s.time ∧ (switchCause s r g w.new = none → g.oldCtx = none → takes) ∧
      (switchCause s r g w.new = none → g.oldCtx ≠ none → exec (.contextSwitch r) s =
        .next (s.setRegion r { g with switches := g.switches.erase w ++ [{ w with passed := true }] })) ∧
      (∀ cause sidx, switchCause s r g w.new = some (cause, sidx) → Completes (.contextSwitch r) s fun s' =>
        ∃ g', s'.region? r = some g' ∧ g'.switches = g.switches.erase w ∧ g'.oldCtx = g.oldCtx ∧ g'.cur = g.cur ∧
          ((g.ctx w.new).status = .staged → (g'.ctx w.new).status = .free) ∧
          (∀ a, (g.ctx w.old).route = some a → ∃ x, s'.ctrl = s.ctrl ++ [x] ∧ x.dst = .chan a ∧ x.ckind = 7 ∧
            x.payload = wordOf (cause * 2 ^ 48 + sidx * 2 ^ 32 + 0xFE * 2 ^ 24 + r % 256 * 2 ^ 16 + r / 256 % 8 * 2 ^ 13 + w.new * 4 + w.old))))) ∧
  (∀ (s : State) (r old : Nat) (g : Region), s.region? r = some g → regionRuns s g = true → g.oldCtx = some old →
    g.dueSwitch s.time = none → oldDone s r g old = true → old < g.ctxs.length → Completes (.contextSwitch r) s fun s' =>
      ∃ g', s'.region? r = some g' ∧ g'.oldCtx = none ∧ (g'.ctx old).status = .free)

/-- Clock gating and power gating (R72, R372), the stall watchdog (R369), and the pre-emption of a launch: its tasks stop,
it is saved when its drain is done or its time is over, and it goes on as it was (R50, R51, R240, R371). When the
stall counter runs, when lanes are gated and where a pre-empted state is kept are the model's (log entries 67, 68,
70). The form in which a failed wake is reported is the model's choice (log entry 119). -/
def Obligations.GatingStallsPreemption : Prop :=
  ((∀ (s : State) (r k pos : Nat) (g : Region), s.region? r = some g → regionRuns s g = true → k < g.ctxs.length →
     let b := (g.ctx k).bank pos
     ((g.ctx k).resident = true → (g.ctx k).positions.contains pos = true → b.gated = false → b.lastFire + 64 ≤ s.time →
       Completes (.elementClockGate r k pos) s fun s' => ∃ g', s'.region? r = some g' ∧ (g'.ctx k).bank pos = { b with gated := true } ∧
         (g'.ctx k).lat = (g.ctx k).lat) ∧
     (b.gated = true → (∃ i < 4, mhas (g.ctx k).lat (pos * 4 + i) = true) → Completes (.elementWake r k pos) s fun s' =>
       ∃ g', s'.region? r = some g' ∧ (g'.ctx k).bank pos = { b with gated := false, lastFire := s.time })) ∧
   (∀ (s : State) (t lane : Nat), lane < 16 →
     let x := s.tile t
     let put (y : Tile) : State := { s with tiles := mset s.tiles t y }
     (mhas x.gated lane = false → x.askGate = [] → laneElems s t lane = [] → exec (.lanePowerGate t lane) s =
       .next (put { x with gated := mset x.gated lane none })) ∧
     (mhas x.gated lane = false → x.askGate = [] → (∃ e ∈ laneElems s t lane, elemFed s e = true) → exec (.lanePowerGate t lane) s =
       .next (put { x with askGate := [lane] })) ∧
     (mhas x.gated lane = false → x.askGate = [lane] → (∀ e ∈ laneElems s t lane, elemFed s e = false ∧ elemIdle s e = true) →
       exec (.lanePowerGate t lane) s = .next (put { x with gated := mset x.gated lane none, askGate := [] })) ∧
     (mhas x.gated lane = true → lane ∉ x.wakeTest → (∃ e ∈ laneElems s t lane, elemFed s e = true) → exec (.lanePowerUp t lane) s =
       .next (put { x with gated := merase x.gated lane })) ∧
     (∀ since, mget x.gated lane = some (some since) → since + 3600 ≤ s.time → lane ∉ x.wakeTest → exec (.laneWakeFailure t lane) s =
       .next { put { x with wakeTest := x.wakeTest ++ [lane] } with wakeFails := s.wakeFails ++ [(t, lane)] })) ∧
   (∀ (s : State) (r : Nat) (g : Region), s.region? r = some g → 2 ^ 26 ≤ g.stall → stallRuns s g = true →
     Completes (.stallWatchdog r) s fun s' => s'.region? r = some { g with stall := 0 } ∧ ∃ w, s'.ctrl = s.ctrl ++ [w] ∧
       w.src = .region r ∧ w.dst = .core (s.coreOf g.ptn) ∧ w.ckind = 6 ∧
       ∃ k < 4, w.payload = wordOf (0x00020000 + r % 256 * 32 + r / 256 % 8 * 4 + k))) ∧
  (∀ (s : State) (n : Nat) (l : Launch), mget s.launches n = some l → partRuns s l.ptn = true →
     let tasks (s' : State) (f : Task → Task) : Prop := ∀ u t, s.task? u = some t →
       s'.task? u = some (if t.launch = n then f t else t)
     let saves (s' : State) : Prop := mget s'.launches n = some { l with state := .saved } ∧ SameMemory s s' ∧
       tasks s' (fun t => { t with held := true, pc := t.blockAddr, blk := none }) ∧
       (∀ r g, s.region? r = some g → g.launch = n → ∃ g', s'.region? r = some g' ∧ g' = { g with frozen := true })
     (l.state = .running → (launchRegions s n = []) → Completes (.preempt n) s fun s' =>
       mget s'.launches n = some { l with state := .preempting, since := s.time } ∧ SameMemory s s' ∧
       tasks s' (fun t => { t with held := t.held || (decide (t.state = .blocked) && t.blk.isNone) })) ∧
     (l.state = .preempting → drainDone s n = true → Completes (.preemptDrainComplete n) s saves) ∧
     (l.state = .preempting → drainDone s n = false → l.since + 24000 ≤ s.time → Completes (.preemptDrainTimeout n) s saves) ∧
     (l.state = .saved → Completes (.preemptResume n) s fun s' => mget s'.launches n = some { l with state := if l.rootDone then .draining else .running } ∧
       SameMemory s s' ∧ tasks s' (fun t => { t with held := false })) ∧
     (∀ code, l.state = .preempting → mget (rootHalted s n code).launches n = some { l with code := code % 2 ^ 32, rootDone := true }))

/-- The ordinary frame of a lane operation: it waits for its named inputs and for its destinations, a POISON passes first,
STOPs of one level pass, a NULL makes NULL, a false predicate makes NULL, and misaligned inputs make a POISON; nothing
but the element's context changes (R45, R46, R47, R300, R365). -/
def Obligations.ElementFrame : Prop :=
  ∀ (s : State) (r k pos : Nat) (g : Region) (w : ElemCfg), ElemTurn s r k pos g →
    let x := elemInput s r g k pos w
    let named := x.namedOf [0, 1, 2, 3]
    let ts := x.toks named
    let good : Prop := firstPoison x.who ts = none
    ∀ i ∈ laneOps w,
      let leaves (outs : List (Nat × Token)) : Prop := exec i s = .next (firedAt s r k pos g ⟨named, outs, x.st, 0, false⟩)
      (((∃ j ∈ x.dsts, j ∈ x.full) ∨ ∃ j ∈ named, x.tok j = none) → exec i s = .refused .notReady) ∧
      ((∀ j ∈ x.dsts, j ∉ x.full) → (∀ j ∈ named, (x.tok j).isSome = true) →
        (∀ t, firstPoison x.who ts = some t → leaves (x.everywhere t)) ∧
        (∀ n, 1 ≤ n → n ≤ 7 → named ≠ [] → (∀ t ∈ ts, t.cls = .stop n) → leaves (x.everywhere (stopTok n))) ∧
        (good → (∀ t ∈ ts, t.stopLevel = 0) → (∃ t ∈ ts, t.cls = .null) → leaves (x.everywhere nullTok)) ∧
        (good → (∃ j ∈ named, ∃ j' ∈ named, j ∉ x.carried ∧ j' ∉ x.carried ∧
          (x.tok j).map Token.stopLevel ≠ (x.tok j').map Token.stopLevel) → leaves (x.everywhere (x.who.poison 3 1))) ∧
        (∀ t, x.p = some t → x.c.selp ≠ 0 → (∀ u ∈ ts, u.cls = .data) → x.decision t = false → leaves (x.everywhere nullTok))) ∧
      (∀ s', exec i s = .next s' → SameMemory s s' ∧ s'.fab.tasks = s.fab.tasks ∧ s'.fab.chans = s.fab.chans ∧ s'.parts = s.parts ∧
        s'.ops = s.ops ∧ s'.ctrl = s.ctrl ∧ (∀ y, y ≠ r → s'.region? y = s.region? y) ∧
        ∃ g', s'.region? r = some g' ∧ ∀ j, j ≠ k → g'.ctx j = g.ctx j)

/-- The results of the lane operations (R157, R299, R301, R303, R304, R305): the value of each element from those of its
inputs, rounded once to the output format at the scale of A, on every destination. VSAR of an unsigned type, VSHL
under SATM 0, and the reading of IMM32 are the model's (log entries 11, 51, 52). -/
def Obligations.LaneResults : Prop :=
  ∀ (s : State) (r k pos : Nat) (g : Region) (w : ElemCfg), ElemTurn s r k pos g →
    let x := elemInput s r g k pos w
    x.Ready →
    let named := x.namedOf [0, 1, 2, 3]
    let as' := aVals x
    let bs := bVals x
    let leaves (i : Instr) (t : Token) (fl : Nat) : Prop :=
      exec i s = .next (firedAt s r k pos g ⟨named, x.everywhere t, x.st, fl, false⟩)
    let rounded (i : Instr) (vs : List (Val × Nat)) : Prop := leaves i
      ⟨0, BitVec.ofNat 8 x.sclA, putElems x.ofm (vs.zipIdx.map fun v => (laneEnc x v.2 v.1.1).1)⟩
      ((vs.zipIdx.map fun v => orF (laneEnc x v.2 v.1.1).2 v.1.2).foldl orF 0)
    let bits (i : Instr) (ps : List Nat) : Prop := leaves i ⟨0, BitVec.ofNat 8 x.sclA, putElems x.ofm ps⟩ 0
    let shift (b : Val) : Nat := patternOf (fmtBits x.ifm) b.toInt % fmtBits x.ifm
    let inv (v : Val × Bool) : Val × Nat := (v.1, if v.2 then fINV else 0)
    rounded (.vadd w) (as'.zipWith (fun a b => inv (Val.add x.rdn a b)) bs) ∧
    rounded (.vsub w) (as'.zipWith (fun a b => inv (Val.add x.rdn a b.neg)) bs) ∧
    rounded (.vmul w) (as'.zipWith (fun a b => inv (Val.mul a b)) bs) ∧
    rounded (.vfma w) ((as'.zip bs).zipWith (fun ab c => fmaVal x.rdn ab.1 ab.2 c) (cVals x)) ∧
    rounded (.vmin w) (as'.zipWith (fun a b => (Val.min a b, 0)) bs) ∧
    rounded (.vmax w) (as'.zipWith (fun a b => (Val.max a b, 0)) bs) ∧
    rounded (.vabs w) (as'.map fun a => (a.abs, 0)) ∧ rounded (.vneg w) (as'.map fun a => (a.neg, 0)) ∧
    (∀ a b, x.a = some a → x.b = some b →
      leaves (.vand w) ⟨0, BitVec.ofNat 8 x.sclA, a.data &&& b.data⟩ 0 ∧ leaves (.vor w) ⟨0, BitVec.ofNat 8 x.sclA, a.data ||| b.data⟩ 0 ∧
      leaves (.vxor w) ⟨0, BitVec.ofNat 8 x.sclA, a.data ^^^ b.data⟩ 0) ∧
    (∀ a, x.a = some a → x.b = none → x.ifm ≠ 15 →
      let b := putElems x.ifm (lrep (fmtCount x.ifm) (patternOf (fmtBits x.ifm) x.imm))
      leaves (.vand w) ⟨0, BitVec.ofNat 8 x.sclA, a.data &&& b⟩ 0 ∧ leaves (.vor w) ⟨0, BitVec.ofNat 8 x.sclA, a.data ||| b⟩ 0 ∧
      leaves (.vxor w) ⟨0, BitVec.ofNat 8 x.sclA, a.data ^^^ b⟩ 0) ∧
    rounded (.vshl w) (as'.zipWith (fun a b => (.ofInt (a.toInt * 2 ^ shift b), 0)) bs) ∧
    bits (.vshr w) (as'.zipWith (fun a b => patternOf (fmtBits x.ifm) a.toInt / 2 ^ shift b) bs) ∧
    rounded (.vsar w) (as'.zipWith (fun a b => (.ofInt (a.toInt / 2 ^ shift b), 0)) bs) ∧
    bits (.vcmp w) (as'.zipWith (fun a b => if laneCond x a b then 2 ^ fmtBits x.ofm - 1 else 0) bs) ∧
    rounded (.vclp w) ((as'.zip (if x.b = none then lrep (fmtCount x.ifm) (immVal x).neg else bs)).zipWith
      (fun al h => (Val.min (Val.max al.1 al.2) h, 0)) (if x.cc = none then lrep (fmtCount x.ifm) (immVal x) else cVals x)) ∧
    (x.sco = false → rounded (.vscl w) (as'.map fun a => (a.scale (sclShift x), 0))) ∧
    (∀ a, x.sco = true → x.a = some a → ∃ n : Nat, n ≤ 254 ∧
      leaves (.vscl w) { a with scl := BitVec.ofNat 8 n } (if (n : Int) = (a.scl.toNat : Int) + x.imm then 0 else fSAT) ∧
      ((a.scl.toNat : Int) + x.imm < 0 → n = 0) ∧ (254 < (a.scl.toNat : Int) + x.imm → n = 254) ∧
      (0 ≤ (a.scl.toNat : Int) + x.imm → (a.scl.toNat : Int) + x.imm ≤ 254 → (n : Int) = (a.scl.toNat : Int) + x.imm)) ∧
    (let tree := redTree x x.sclA (fmtCount x.ifm).log2 as'
      let q := match tree.1 with
        | v :: _ => laneEnc x 0 v
        | [] => (0, 0)
      leaves (.vred w) ⟨0, BitVec.ofNat 8 x.sclA, putElems x.ofm [q.1]⟩ (orF tree.2 q.2)) ∧
    rounded (.vex2 w) (as'.map fun a => (exp2Val a, 0)) ∧ rounded (.vrcp w) (as'.map recipVal) ∧
    (∀ c, x.cc = some c → rounded (.vsel w) ((as'.zip bs).zipWith (fun ab q => (if q % 2 = 1 then ab.1 else ab.2, 0))
      (getElems x.c.afmt.toNat c.data).1)) ∧
    (x.cc = none → rounded (.vprm w) ((natRange 0 (fmtCount x.ifm)).map fun (i : Nat) =>
      (lget as' (((i : Int) + x.imm) % (fmtCount x.ifm : Int)).toNat (.fin false 0 1), 0))) ∧
    (∀ c, x.cc = some c → rounded (.vprm w) ((natRange 0 (fmtCount x.ifm)).map fun (i : Nat) =>
      let q := signedOf (fmtBits x.c.afmt.toNat) (lget (getElems x.c.afmt.toNat c.data).1 i 0)
      (lget as' ((if x.c.nc = 1 then -q else q) % (fmtCount x.ifm : Int)).toNat (.fin false 0 1), 0)))

/-- The router operators, the delay lines and the generator of a count (R49, R76, R312, R313, R314, R315, R316, R329,
R365): the inputs they consume, where their tokens go, and what they remember. NULL at a running CRY and POISON at RPT
are the model's reading (log entry 26). That lower STOPs do not count among the loop tokens is its choice (log entry
99). -/
def Obligations.RouterOperators : Prop :=
  ∀ (s : State) (r k pos : Nat) (g : Region) (w : ElemCfg), ElemTurn s r k pos g →
    let x := elemInput s r g k pos w
    x.full = [] →
    let fires (i : Instr) (take : List Nat) (outs : List (Nat × Token)) (st : ElemSt) : Prop :=
      exec i s = .next (firedAt s r k pos g ⟨take, outs.filter (fun o => x.dst o.1 != 0), st, 0, false⟩)
    let regs (l : List Nat) : ElemSt := { x.st with regs := l }
    let n := x.st.reg 0
    (∀ a p, x.a = some a → a.cls = .data → x.p = some p → p.cls = .data →
      fires (.str w) [0, 3] (if x.decision p then [(0, a), (1, nullTok)] else [(0, nullTok), (1, a)]) x.st ∧
      fires (.rsel w) [0, 3] (x.dsts.map fun j => (j, if j = p.data.toNat % 4 then a else nullTok)) x.st ∧
      fires (.flt w) [0, 3] (if x.decision p then x.everywhere a else []) x.st) ∧
    (∀ a b, x.a = some a → x.b = some b →
      (a.cls = .data → b.cls = .null → fires (.mrg w) [0, 1] (x.everywhere a) x.st) ∧
      (a.cls = .null → b.cls = .data → fires (.mrg w) [0, 1] (x.everywhere b) x.st) ∧
      (a.cls = .data → b.cls = .data → fires (.mrg w) [0, 1] (x.everywhere (x.who.poison 3 2)) x.st ∧
        fires (.ivr w) [1] (x.everywhere a) x.st) ∧
      (∀ j, 1 ≤ j → b.cls = .stop j → a.cls = .data →
        fires (.ivr w) (if x.closes j then [0, 1] else [1]) (x.everywhere (stopTok j)) x.st)) ∧
    (∀ p t, x.p = some p → p.cls = .data → x.tok (if x.decision p then 0 else 1) = some t → t.cls = .data →
      fires (.cmrg w) [if x.decision p then 0 else 1, 3] (x.everywhere t) x.st) ∧
    (∀ a, x.a = some a → a.cls = .data →
      (n = 0 → fires (.cry w) [0] [(0, a)] (regs [1, 0])) ∧
      fires (.stpg w) [0] (x.everywhere a ++ (if n + 1 = x.c.imm.toNat then x.everywhere (stopTok x.level) else []))
        (regs [if n + 1 = x.c.imm.toNat then 0 else n + 1]) ∧
      fires (.stpc w) [0] [] (regs [n + 1]) ∧
      fires (.rpt w) (if n + 1 = x.c.imm.toNat then [0] else []) (x.everywhere a) (regs [if n + 1 = x.c.imm.toNat then 0 else n + 1]) ∧
      (n = 0 → fires (.ngen w) [0] [] (regs [1, a.data.toNat % 2 ^ 32, x.c.imm.toNat])) ∧
      (padDepth x ≤ 1 → fires (.pad w) [0] (x.everywhere a) x.st) ∧
      (w.sela ≠ 0 → x.st.toks = [] → fires (.tfifo w) [0] [] { x.st with toks := [⟨a, false, 0⟩] }) ∧
      (∀ h ts, w.sela ≠ 0 → x.st.toks = h :: ts → ts.length < 768 →
        fires (.tfifo w) [0] (x.everywhere h.tok) { x.st with toks := ts ++ [⟨a, false, 0⟩] })) ∧
    (2 ≤ padDepth x → x.st.toks.Pairwise (fun t u => u.fold < t.fold) → (∀ t ∈ x.st.toks, 1 ≤ t.fold ∧ t.fold < padDepth x) →
      let on (ts : List Stok) : List Stok := ts.map fun t => { t with fold := t.fold + 1 }
      let leaves (take : List Nat) (enters : List Stok) : Prop :=
        (∀ h ts, x.st.toks = h :: ts → h.fold + 1 = padDepth x → fires (.pad w) take (x.everywhere h.tok) { x.st with toks := on ts ++ enters }) ∧
        ((∀ t ∈ x.st.toks, t.fold + 1 ≠ padDepth x) → (x.st.toks ≠ [] ∨ enters ≠ []) → fires (.pad w) take [] { x.st with toks := on x.st.toks ++ enters })
      (x.a = none → leaves [] []) ∧ (∀ a, x.a = some a → a.cls = .data → leaves [0] [⟨a, false, 1⟩])) ∧
    (∀ a, x.a = some a → a.cls = .reserved → padDepth x ≤ 1 → fires (.pad w) [0] (x.everywhere (x.who.poison 4 a.kind.toNat)) x.st) ∧
    (∀ a j, x.a = some a → a.cls = .stop j → x.closes j = true → x.st.poison = none →
      fires (.stpc w) [0] (x.everywhere (dataTok 0x7F (n % 2 ^ (if x.c.ofmt.toNat = 2 then 32 else 64))) ++ x.everywhere a) (regs [0])) ∧
    (∀ b p, n = 1 → x.b = some b → b.cls = .data → x.p = some p → p.cls = .data →
      (x.decision p = true → fires (.cry w) [1, 3] [(0, b)] (regs [1, x.st.reg 1 + 1])) ∧
      (x.decision p = false → fires (.cry w) [1, 3] [(0, nullTok), (1, dataTok 0x7F (x.st.reg 1 % 2 ^ 32))] (regs [2, x.st.reg 1]))) ∧
    (∀ b p j, n ≠ 0 → x.b = some b → x.p = some p → b.cls = .stop j → p.cls = .stop j → 1 ≤ j → x.closes j = true →
      3 ∉ x.carried → 1 ∉ x.carried → fires (.cry w) [1, 3] [(1, stopTok j)] (regs [0, 0])) ∧
    (∀ t, x.tok (lget (jnSteps x) n 0) = some t → t.cls = .data →
      fires (.jn w) [lget (jnSteps x) n 0] [(0, t)] (regs [if n + 1 < (jnSteps x).length then n + 1 else 0])) ∧
    (n = 1 → let left := x.st.reg 1
      (left = 0 → fires (.ngen w) [] (x.everywhere (stopTok x.level)) (regs [0, 0, 0])) ∧
      (left ≠ 0 → ∃ m, m = Nat.min (fmtCount x.c.ofmt.toNat) left ∧ ∃ ps : List Nat, ps.length = m ∧
        (∀ i < m, lget ps i 0 = patternOf 32 ((x.st.reg 2 : Int) + signedOf 16 x.c.ops.toNat * i)) ∧
        fires (.ngen w) [] (x.everywhere ⟨0, 0x7F, putElems x.c.ofmt.toNat ps⟩)
          (regs [1, left - m, patternOf 32 ((x.st.reg 2 : Int) + signedOf 16 x.c.ops.toNat * m)])))

/-- The accumulator, the converters, the generator of random tokens, the online operations and the matrix operations
(R153, R158, R159, R160, R305, R306, R308, R309, R310, R311, R318, R319). The identity of a format without infinity,
the tokens inside a number or a latch load, C and the side modes are the model's reading (log entries 25, 27, 49, 51).
What a side port takes besides value tokens is its choice (log entry 128). -/
def Obligations.AccumulateAndConvert : Prop :=
  ∀ (s : State) (r k pos : Nat) (g : Region) (w : ElemCfg), ElemTurn s r k pos g →
    let x := elemInput s r g k pos w
    x.full = [] →
    let fires (i : Instr) (take : List Nat) (outs : List (Nat × Token)) (st : ElemSt) (fl : Nat) : Prop :=
      exec i s = .next (firedAt s r k pos g ⟨take, outs, st, fl, false⟩)
    let on (j : Nat) (t : Token) : List (Nat × Token) := if x.dst j = 0 then [] else [(j, t)]
    let acc := if x.st.regs = [] then lrep (fmtCount x.ifm) (ropIdent x) else x.st.regs
    (x.Ready → w.selc = 0 → x.cc = none →
      let rs := ((acc.zip (aVals x)).zipIdx).map fun y => ropPat x 0x7F y.2 (accVal x y.1.1) y.1.2
      fires (.vacc w) (x.namedOf [0, 3]) [] { x.st with regs := rs.map (·.1) } (rs.foldl (fun f r => orF f r.2) 0)) ∧
    (∀ a b c j, x.a = some a → a.cls = .data → x.b = some b → b.cls = .data → x.cc = some c → x.st.regs = [] → x.p = none → w.sela ≠ 0 → w.selb ≠ 0 →
      w.selc ≠ 0 → w.selp = 0 →
      let reset : ElemSt := if x.closes j then { x.st with poison := none } else x.st
      (c.cls = .stop j → 1 ≤ j → fires (.vacc w) [0, 2] (x.everywhere (x.who.poison 3 1)) reset 0 ∧
        fires (.mma w) [2, 0, 1] (x.everywhere (x.who.poison 3 1)) { reset with toks := [] } 0) ∧
      (c.cls = .null → fires (.mma w) [2, 0, 1] (x.everywhere nullTok) x.st 0)) ∧
    (∀ a j, x.a = some a → a.cls = .stop j → w.sela ≠ 0 → w.selc = 0 → x.cc = none → w.selp = 0 → x.closes j = true → x.st.poison = none → 0 ∉ x.carried →
      fires (.vacc w) [0] (x.everywhere ⟨0, 0x7F, putElems x.ofm (acc.map (accOut x))⟩ ++ x.everywhere (stopTok j)) { x.st with regs := [], poison := none } 0) ∧
    (x.dsts ≠ [] → ∃ v : Nat → Nat, v 0 = (match x.st.regs with | q :: _ => q | [] => rngSeed w) ∧ (∀ i, v (i + 1) = rngAdvance (v i)) ∧
      fires (.rng w) [] (x.everywhere (dataTok 0x7F (joinBits 64 [v 1, v 2, v 3, v 4]))) { x.st with regs := [v 4] } 0) ∧
    (∀ a, x.Ready → w.side = 0 → x.st.side = none → x.a = some a →
      let named := x.namedOf [0, 2, 3]
      let held := x.st.toks.map (·.tok)
      let need := if fmtCount x.ifm < fmtCount x.ofm then fmtCount x.ofm / fmtCount x.ifm else 1
      let converts (i : Instr) (by' : ScaleBy) : Prop :=
        (held.length + 1 < need → fires i named []
          { x.st with toks := x.st.toks ++ [⟨a, false, 0⟩], regs := x.st.regs ++ [x.rand] } 0) ∧
        (need ≤ held.length + 1 → fires i named (x.all (convGroup x by' (x.st.regs ++ [x.rand]) (held ++ [a])).1)
          { x.st with toks := [], regs := [], sideIn := x.st.sideIn && !(mixedGroup (held ++ [a]) && decide (1 ≤ x.level)) } (convGroup x by' (x.st.regs ++ [x.rand]) (held ++ [a])).2)
      converts (.cvt w) (if bitAt w.ops.toNat 16 then .first else .fixed (w.imm.toNat % 256)) ∧ converts (.cvts w) .auto ∧
      converts (.wpl w) .first ∧
      (let n := w.ops.toNat % 128
        let q (v : Val) : Bool × Nat × Nat := match (v.unscaled (w.imm.toNat % 256)).scale n with
          | .nan => (false, 0, fINV)
          | .inf neg => (neg, 2 ^ n - 1, fINV)
          | .fin neg num den =>
            let m := roundNat (x.rnd 0) neg num den
            if 2 ^ n - 1 < m.1 then (neg, 2 ^ n - 1, orF fSAT fNX) else (neg, m.1, if m.2 then fNX else 0)
        fires (.sde w) named (x.all ((x.inVals a).1.map fun v => sdToken (w.imm.toNat % 256) (sdeCodes n (q v).1 (q v).2.1))) x.st
          (((x.inVals a).1.map q).foldl (fun f r => orF f r.2.2) (x.inVals a).2)) ∧
      (∀ n neg m j, j < n → lget (sdeCodes n neg m) j 0 = (if m / 2 ^ (n - 1 - j) % 2 = 0 then 0 else if neg then 3 else 1) ∧
        lget (sdeCodes n neg m) n 0 = 2) ∧
      ((tokDigits a).2 = false → x.st.toks = [] → fires (.sdd w) named [] { x.st with toks := [⟨a, false, 0⟩] } 0) ∧
      ((tokDigits a).2 = true → x.st.toks = [] → x.st.regs = [] → 1 < fmtCount x.ofm →
        let q := encodeElem x.ofm false (x.rnd 0) x.satc (operandVal ⟨(tokDigits a).1, true, a.scl.toNat⟩)
        fires (.sdd w) named [] { x.st with toks := [], regs := [q.1] } q.2)) ∧
    (∀ b, w.side = 1 → x.st.sideIn = false → x.b = some b → b.cls = .data → ∀ i ∈ [Instr.cvt w, .cvts w, .wpl w, .sde w, .sdd w],
      let d := b.data.toNat
      let y := x.withModes
      let rnd := if d / 2 ^ 6 % 2 = 1 then y.c.rnd.toNat else d / 2 % 8
      let satm := if d / 2 ^ 7 % 2 = 1 then y.c.satm.toNat else d / 2 ^ 4 % 4
      (d < 256 → d % 2 = 0 → modeOk x rnd satm = true → fires i [1] [] { x.st with sideIn := true, side := some (rnd + 8 * satm) } 0) ∧
      (d % 2 = 1 ∨ 256 ≤ d ∨ modeOk x rnd satm = false → fires i [1] [] { x.st with sideIn := true } fFMT)) ∧
    (x.Ready → x.HasData 1 → x.st.reg 0 = 0 → x.st.toks = [] →
      let start (i : Instr) (ins : List Nat) (f : ElemSt → OnOut) : Prop :=
        let st : ElemSt := { x.st with toks := ins.filterMap fun j => (x.tok j).map fun t => ⟨t, false, j⟩ }
        ((f st).done = false → fires i (x.namedOf (ins ++ [3])) (x.all (f st).toks) { st with regs := [1, (f st).toks.length] } 0) ∧
        ((f st).done = true → fires i (x.namedOf (ins ++ [3])) (x.all (f st).toks)
          (if ins.all (fun j => (operandOf st j).ended) then { st with toks := [], regs := [0, 0] }
            else { st with regs := [2, (f st).toks.length] }) (f st).flags)
      let a' (st : ElemSt) := aligned st
      start (.oadd w) [0, 1] (fun st => engineOut (Nat.min 254 ((a' st).2.2 + 2)) (decide (254 < (a' st).2.2 + 2))
        (engineRun [((a' st).1, 1), ((a' st).2.1, 1)] (((Nat.min 254 ((a' st).2.2 + 2) : Nat) : Int) - (a' st).2.2))) ∧
      start (.omlc w) [0] (fun st =>
        let o := operandOf st 0
        let c := signedOf 16 w.imm.toNat
        let e := o.scl + ceilLog2 c.natAbs + 1
        engineOut (Nat.min 254 e) (decide (254 < e)) (engineRun [(o, c)] (((Nat.min 254 e : Nat) : Int) - o.scl))) ∧
      (∀ i ∈ [Instr.oadd w, .omlc w, .ocmp w], ∃ outs st fl, exec i s = .next (firedAt s r k pos g
        ⟨x.namedOf (if i = .omlc w then [0, 3] else [0, 1, 3]), outs, st, fl, false⟩)) ∧
      (∀ q, (let st : ElemSt := { x.st with toks := [0, 1].filterMap fun j => (x.tok j).map fun t => ⟨t, false, j⟩ }
        compareGo (a' st).1 (a' st).2.1 ((a' st).1.digits.length + (a' st).2.1.digits.length + 2) 0 0 = some q) → ∃ st,
        fires (.ocmp w) (x.namedOf [0, 1, 3]) (x.everywhere (dataTok 0x7F (patternOf 32 q))) st 0)) ∧
    (∀ a b, x.Ready → x.a = some a → x.b = some b → b.cls = .data → w.sela ≠ 0 → w.selb ≠ 0 → w.selc = 0 → x.cc = none → x.ifm ≠ 11 →
      let named := x.namedOf [0, 1, 3]
      let groups := (mmaShape x.ifm).1
      let place := x.st.reg 0
      let d := if x.st.regs = [] then lrep 4 0 else x.st.regs.drop 1
      let last : Bool := place + 1 == groups
      x.st.toks = [] → fires (.mma w) (if last then named else named.filter (· != 0)) (on 1 b ++ if last then on 0 a else [])
        { x.st with regs := (if last then 0 else place + 1) :: (mmaAdd x a [b] place d).1, toks := [] } (mmaAdd x a [b] place d).2) ∧
    (∀ b, x.b = some b → b.cls = .data → x.st.regs = [] → ∃ st, fires (.mmaw w) [1] [] st 0 ∧
      st.toks = [⟨b, false, 0⟩] ∧ mmawOf st = ⟨0, true, true, true, none⟩) ∧
    (∀ a, x.Ready → x.a = some a → x.b = none → w.sela ≠ 0 → w.selc = 0 → x.cc = none → (mmawOf x.st).want = false →
      let m := mmawOf x.st
      let per := (mmaShape x.ifm).2.1
      let last : Bool := m.place + 1 == (mmaShape x.ifm).1
      let bs := ((x.st.toks.map (·.tok)).drop (m.place * per)).take per
      let d := mmaAdd x a bs m.place (m.strip.getD (lrep 4 0))
      fires (.mmaw w) (if last then x.namedOf [0, 3] else (x.namedOf [0, 3]).filter (· != 0)) (if last then on 0 a else [])
        (({ m with place := if last then 0 else m.place + 1, strip := some d.1 }).put x.st) d.2) ∧
    (x.st.regs = [] → fires (.dly w) [] (x.everywhere (dlyInitial x)) { x.st with regs := [1] } 0) ∧
    (∀ a, x.Ready → x.a = some a → x.st.regs ≠ [] → fires (.dly w) (x.namedOf [0, 3]) (x.everywhere a) x.st 0) ∧
    (∀ c, x.Ready → x.cc = some c → ∃ ps, ∃ fl,
      (ps, fl) = recurrence x 0 (let y := laneVal w.afmt.toNat x.uns c.scl.toNat (lget (getElems w.afmt.toNat c.data).1 0 0)
        if w.nc == 1 then y.neg else y) ((aVals x).zip (bVals x)) ∧
      fires (.lrec w) (x.namedOf [0, 1, 2, 3]) (on 0 ⟨0, BitVec.ofNat 8 x.sclA, putElems x.ofm ps⟩ ++
        on 1 ⟨0, BitVec.ofNat 8 x.sclA, putElems x.ofm (lrep (fmtCount x.ofm) (ps.getLast?.getD 0))⟩) x.st fl) ∧
    (∀ a b, x.Ready → x.a = some a → x.b = some b → fires (.adrn w) (x.namedOf [0, 1, 3])
      (x.everywhere ⟨0, BitVec.ofNat 8 x.sclA, putElems 6 ((getElems 6 a.data).1.take 4 ++ (getElems 6 b.data).1.take 4)⟩) x.st 0)

/-- The nodes of a Folio (R121, R122, R124, R126): the exact sums, the delayed element, and the narrowed output. The SCL
of NRW's token is the model's choice (log entry 127). -/
def Obligations.FolioNodes : Prop :=
  ∀ (s : State) (r k m : Nat) (g : Region) (f : Folio) (n : FolioNode), NodeTurn s r k m g f →
    let v := nodeInput s r g k m f n
    let count := if f.mode = 0 then 16 else 8
    v.room = true → v.ins ≠ [] →
    let leaves (i : Instr) (t : Token) (st : ElemSt) (fl : Nat) (sat : Bool) : Prop :=
      exec i s = .next (nodeFiredAt s r k m g f ⟨v.ins, [(0, t)], st, fl, sat⟩ t)
    let ops : List Instr := [.sha n, .sum4 n, .tap n, .nrw n]
    let out (ys : Nat → Int) : ElemSt := { v.x.st with regs := (natRange 0 count).map fun j => patternOf 40 (ys j) }
    (∀ i ∈ ops, (∃ j ∈ v.ins, v.x.tok j = none) → exec i s = .refused .notReady) ∧
    (∀ i ∈ ops, ∀ t, (∀ j ∈ v.ins, (v.x.tok j).isSome = true) → firstPoison v.x.who (v.x.toks v.ins) = some t → leaves i t v.x.st 0 false) ∧
    (∀ i ∈ ops, (∀ j ∈ v.ins, ∃ t, v.x.tok j = some t ∧ t.cls = .null) → leaves i nullTok v.x.st 0 false) ∧
    ((∀ j ∈ v.ins, v.x.HasData j) →
      leaves (.sha n) (dataTok 0x7F 0) (out fun j => shaTerm (v.el 0 j) (nodeFld n 31 27) (nodeFld n 21 21 == 1) +
        (if 1 ∈ v.ins then shaTerm (v.el 1 j) (nodeFld n 26 22) (nodeFld n 20 20 == 1) else 0)) 0 false ∧
      leaves (.sum4 n) (dataTok 0x7F 0) (out fun j => (v.ins.map fun i => v.el i j).foldl (· + ·) 0) 0 false ∧
      (∃ st, leaves (.tap n) (dataTok 0x7F 0) st 0 false ∧
        (v.x.st.regs.length = count + nodeFld n 38 32 → (v.val 0).length = count → 0 < nodeFld n 38 32 →
          st.regs = v.x.st.regs.drop count ++ (v.val 0).map (patternOf 40))) ∧
      (let rs := ((v.val 0).take count).map fun a => narrow f.mode (nodeFld n 43 38) (.mode ((Rnd.ofCode (nodeFld n 37 35)).getD .rne)) a
        let fl := rs.foldl (fun x r => orF x r.2) 0
        ∃ t st, leaves (.nrw n) t st fl (bitAt fl 5) ∧ t.cls = .data ∧
          t.data = BitVec.ofNat 256 (joinBits (if f.mode = 0 then 16 else 32) (rs.map (·.1)))))

/-- The fibre stream elements and the address generators (R76, R77, R78, R79, R100, R119, R327, R329, R330, R430): a head
or a descriptor is taken, a request sets out, pairs join, an access lands in an M-tile's own bank, in a bank line or
on a page, or takes the fault of its place, what it has read leaves as a token, and a walk ends with its completion.
When FOUT's work tile ends is the model's choice (log entry 107). The order of a section's accesses is the model's
reading (log entry 111). -/
def Obligations.StreamElements : Prop :=
  (∀ (s : State) (r k pos : Nat) (g : Region) (w : ElemCfg), ElemTurn s r k pos g →
    let x := elemInput s r g k pos w
    let j := joinerOf x.st
    let joins (uni : Bool) (i : Instr) : Prop :=
      (∀ a, x.a = some a → a.cls = .data → j.qa = [] → ∃ fd, exec i s = .next (firedAt s r k pos g fd) ∧ fd.take = [0]) ∧
      (∀ b, x.b = some b → b.cls = .data → j.qa ≠ [] → j.qb = [] → ∃ fd, exec i s = .next (firedAt s r k pos g fd) ∧ fd.take = [1]) ∧
      (∀ a b n, x.a = some a → x.b = some b → 1 ≤ n → a.cls = .stop n → b.cls = .stop n → j.qa = [] → j.qb = [] → j.oa = [] →
        exec i s = .next (firedAt s r k pos g
          ⟨[0, 1], [(0, stopTok n), (1, stopTok n)].filter (fun o => x.dst o.1 != 0), { x.st with regs := [0, 0, 0, 0, 0, bnat j.warned] }, 0, false⟩)) ∧
      (∀ n p ps q qs oa ob la lb wn, let here : Joiner := ⟨p :: ps, q :: qs, oa, ob, la, lb, wn⟩
        (p % 2 ^ 32 = q % 2 ^ 32 → Joiner.run uni false false (n + 1) here = Joiner.run uni false false n
          ⟨ps, qs, oa ++ [p % 2 ^ 32 + p / 2 ^ 32 * 2 ^ 32], ob ++ [p % 2 ^ 32 + q / 2 ^ 32 * 2 ^ 32], la, lb, wn⟩) ∧
        (p % 2 ^ 32 < q % 2 ^ 32 → Joiner.run uni false false (n + 1) here = Joiner.run uni false false n
          (if uni then ⟨ps, q :: qs, oa ++ [p % 2 ^ 32 + p / 2 ^ 32 * 2 ^ 32], ob ++ [p % 2 ^ 32], la, lb, wn⟩
            else ⟨ps, q :: qs, oa, ob, la, lb, wn⟩)))
    x.full = [] → joins false (.fisx w) ∧ joins true (.funi w)) ∧
  (∀ (s : State) (r k pos : Nat) (g : Region) (w : ElemCfg), ElemTurn s r k pos g → (g.ctx k).destFree g pos 0 = true →
    let x := (g.ctx k).seen (makerOf s (posTile r g k pos)) pos
    let st := x.bank pos
    let lvl := Nat.max 1 (field w.ops.toNat 20 18)
    let walked (va : Word) : Prop := headWalked s r g.ptn va = true
    let found (write : Bool) (va : Word) : Option Pass := elemHead (installTlb s (elemTlb r) g.ptn va) r g x write va
    (∀ t, x.latch pos 0 = some t → t.cls = .data → ¬ walked (wordOf (t.data.toNat % 2 ^ 64)) → exec (.fin w) s = .refused .notReady) ∧
    (∀ t p, st.reg 0 ≠ 1 → x.latch pos 0 = some t → t.cls = .data → walked (wordOf (t.data.toNat % 2 ^ 64)) → found false (wordOf (t.data.toNat % 2 ^ 64)) = some p →
      Completes (.fin w) s fun s' => SameMemory s s' ∧ s'.fab.tasks = s.fab.tasks ∧ ∃ o, s'.ops = s.ops ++ [o] ∧ o.src = .elem r k pos ∧
        o.target = .shelver (shelverOf p.pa) ∧ o.act = .fibre 3 (wordOf (t.data.toNat % 2 ^ 64)) p.pa p.typ 0 0 (16 * (w.afmt.toNat + 1)) lvl [] [] false) ∧
    (∀ t, st.reg 0 ≠ 1 → x.latch pos 0 = some t → t.cls = .data → walked (wordOf (t.data.toNat % 2 ^ 64)) → found false (wordOf (t.data.toNat % 2 ^ 64)) = none →
      exec (.fin w) s = .next (elemDone (installTlb s (elemTlb r) g.ptn (wordOf (t.data.toNat % 2 ^ 64))) r k pos [0] st
        [(0, unitPoison s.time 5 6 (dieOf r)), (0, stopTok lvl)])) ∧
    (∀ b, st.reg 2 ≠ 1 → st.reg 0 = 0 → x.latch pos 1 = some b → b.cls = .data → exec (.fout w) s = .next (elemDone s r k pos [1]
      { st with regs := [1, b.data.toNat % 2 ^ 64, 0, st.reg 3], toks := [] } [])) ∧
    (∀ t, st.reg 2 ≠ 1 → st.reg 0 = 1 → x.latch pos 0 = some t → t.cls = .data → walked (wordOf (st.reg 1)) →
      let all := st.regs.drop 4 ++ tokenPairs t
      (all.length < 64 → exec (.fout w) s = .next (elemDone s r k pos [0] { st with regs := st.regs.take 4 ++ all } [])) ∧
      (64 ≤ all.length → found true (wordOf (st.reg 1)) = none → exec (.fout w) s = .next (elemDone (installTlb s (elemTlb r) g.ptn (wordOf (st.reg 1)))
        r k pos [0] { st with regs := [st.reg 0, st.reg 1, 0, st.reg 3] ++ all.drop 64 } [(0, dataTok 0x7F (0x8000 * 2 ^ 48 + 6))])) ∧
      (∀ p, 64 ≤ all.length → found true (wordOf (st.reg 1)) = some p → Completes (.fout w) s fun s' => SameMemory s s' ∧
        ∃ o, s'.ops = s.ops ++ [o] ∧ o.src = .elem r k pos ∧ o.target = .shelver (shelverOf p.pa) ∧
          o.act = .fibre 2 (wordOf (st.reg 1)) p.pa p.typ 0 64 (field w.ops.toNat 20 18 + 8 * bnat (bitAt w.ops.toNat 17) +
            16 * (w.afmt.toNat + 1)) 0 ((all.take 64).map wordOf) [] false))) ∧
  (∀ (s : State) (w : ElemCfg) (isW : Bool) (e : AgEnv), agTurn w isW s = some e → e.hasP = false → e.a.queue = [] →
    let i : Instr := if isW then .agw w else .agr w
    let va : Word := agAddr w e.a
    let n := agSize (if isW then w.ifmt.toNat else w.ofmt.toNat)
    let bytes (t : Token) : List Byte := if isW then bytesOfNat n t.data.toNat else []
    let key (off : Nat) : Nat := e.tile * 32768 + off
    let inBank : Prop := eopOf e.role = eopMbuf ∨ eopOf e.role = eopLbuf
    let goes : Prop := e.mayAccess s = true ∧ e.a.due = []
    let given (t : Token) : Prop := isW = true → e.tok 1 = some t ∧ t.cls = .data
    let queued (s' : State) (x : AgItem) : Prop :=
      e.k < e.g.ctxs.length → ∃ g', s'.region? e.r = some g' ∧ ((g'.ctx e.k).bank e.pos).ag.queue.head? = some x
    let sent (s' : State) (x : Pass) (act : Act) : Prop := SameMemory s s' ∧ s'.fab.tasks = s.fab.tasks ∧ ∃ o, s'.ops = s.ops ++ [o] ∧
      o.src = .elem e.r e.k e.pos ∧ o.target = .tile e.tile ∧ (∀ y ∈ e.orderIds s x.typ, y ∈ o.after) ∧ o.act = act
    (∀ t, e.a.active = false → e.a.faulted = false → e.tok 0 = some t → t.cls = .data → e.mayBegin = true → exec i s =
      .next (e.done s [0] { e.a with active := true, desc := t.data, cnt := lrep 6 0, due := [], last := false, wbytes := 0 } [])) ∧
    (∀ t x, ¬ inBank → (eopOf e.role = eopCbnk → isW = true ∨ bankable x = false) → goes → given t → e.virtual s va n = .page x →
      (isW = false → s.placeMarked x.place n = true → exec i s = .next (e.fault s [] ⟨0x000A, va, x.pte⟩ 0)) ∧
      ((isW = false → s.placeMarked x.place n = false) → Completes i s fun s' =>
        sent s' x (.agAccess x.place.space x.place.addr isW (bytes t) n (e.hintOf x.typ) e.isAcq))) ∧
    (∀ x, eopOf e.role = eopCbnk → isW = false → bankable x = true → goes → e.virtual s va n = .page x →
      (∀ j, e.isAcq = false → bankSlot e.roleSt va = some j →
        (allDone s (e.acqIds s) = false → exec i s = .refused .notReady) ∧
        (allDone s (e.acqIds s) = true → s.fab.bankMarked (key (j * 128 + va.toNat % 128)) n = false → Completes i s fun s' => SameMemory s s' ∧
          s'.fab.sram = s.fab.sram ∧ s'.ops = s.ops ∧ queued s' (.read 0 (some (Memory.readN s.fab.sram (key (j * 128 + va.toNat % 128)) n)) none))) ∧
      ((e.isAcq = true ∨ bankSlot e.roleSt va = none) → s.placeMarked x.place n = false → Completes i s fun s' =>
        ∃ note, sent s' x (.agAccess x.place.space (x.place.addr - va.toNat % 128) false note 128 (e.hintOf x.typ) e.isAcq))) ∧
    (∀ t f, goes → given t → (¬ inBank → e.virtual s va n = .bad f) → (inBank → e.place s n = .bad f) → exec i s = .next (e.fault s [] f 0)) ∧
    (∀ t off, inBank → goes → given t → e.place s n = .own off →
      (isW = false → s.fab.bankMarked (key off) n = false → Completes i s fun s' => SameMemory s s' ∧ s'.fab.sram = s.fab.sram ∧ s'.ops = s.ops ∧
        queued s' (.read 0 (some (Memory.readN s.fab.sram (key off) n)) none)) ∧
      (isW = true → Completes i s fun s' => SameMemory s s' ∧ s'.ops = s.ops ∧ queued s' (.read 0 (some []) none) ∧
        (∀ j < n, Memory.read s'.fab.sram (key off + j) = lget (bytesOfNat n t.data.toNat) j 0) ∧
        ∀ z, z < key off ∨ key off + n ≤ z → Memory.read s'.fab.sram z = Memory.read s.fab.sram z)) ∧
    (eopOf e.role = eopMbuf →
      let seg := 24576 / (field e.role 1 0 + 1)
      let off := e.a.tiles % (field e.role 1 0 + 1) * seg + va.toNat
      e.place s n = if seg ≤ va.toNat ∨ 24576 < off + n then .bad ⟨0x000C, va, 0⟩ else .own off) ∧
    (eopOf e.role = eopLbuf →
      let len := field e.role 15 3 * 32
      let lines := field e.role 2 0 + 1
      let full := lget e.roleSt.regs 0 0
      let head := lget e.roleSt.regs 1 0
      let off := (head + va.toNat / len) % lines * len + va.toNat % len
      (isW = true → full < lines → e.place s n = .own ((head + full) % lines * len + lget e.roleSt.regs 2 0)) ∧
      (isW = true → lines ≤ full → goes → (∀ t, e.tok 1 = some t → t.cls = .data → exec i s = .refused .notReady)) ∧
      (isW = false → len = 0 ∨ lines ≤ va.toNat / len → e.place s n = .bad ⟨0x000C, va, 0⟩) ∧
      (isW = false → len ≠ 0 → va.toNat / len < lines → va.toNat / len < full →
        e.place s n = if 24576 < off + n then .bad ⟨0x000C, va, 0⟩ else .own off) ∧
      (isW = false → len ≠ 0 → va.toNat / len < lines → full ≤ va.toNat / len → goes → exec i s = .refused .notReady)) ∧
    (isCanonical va = false → e.virtual s va n = .bad ⟨0x0003, va, 0⟩) ∧
    (isCanonical va = true → va.toNat % n ≠ 0 → e.virtual s va n = .bad ⟨0x0004, va, 0⟩) ∧
    (isW = true → e.a.active = true → e.a.last = true → e.a.due = [] → e.free 0 = true → exec i s = .next (e.done s []
      { e.a with active := false, last := false, tiles := e.a.tiles + 1, wbytes := 0 }
      [(0, dataTok 0 (2 ^ 56 + (e.a.tiles + 1) % 2 ^ 16 * 2 ^ 32 + e.a.wbytes % 2 ^ 32))]))) ∧
  (∀ (s : State) (w : ElemCfg) (isW : Bool) (e : AgEnv) (id : Nat) (bs : List Byte) (rest : List AgItem), agTurn w isW s = some e →
    e.a.queue = .read id (some bs) none :: rest →
    let i : Instr := if isW then .agw w else .agr w
    (bs = [] → exec i s = .next (e.done s [] { e.a with queue := rest } [])) ∧
    (bs ≠ [] → e.free 0 = true → exec i s = .next (e.done s [] { e.a with queue := rest } [(0, dataTok 0x7F (natOfBytes bs))])))

/-- The near-bank units (R291, R292, R400, R401, R431): a graph is loaded or refused, a run starts, each node fires when
its operands are there and the arcs it feeds are empty, and DONE ends the run with its notice. The place of a word,
the width of IMM, MBX and the one rounding of a MAC are the model's (log entries 30, 31, 32, 58). -/
def Obligations.NearBankNodes : Prop :=
  (∀ (s : State) (u : Nat) (o : Op) (c v : Nat) (b : Word) (ws : List Word), (s.unit u).running = none →
    o.act = .nearBank c v b ws →
    (nearRequest s u nLoad = some o → Completes (.nearBankGraphReplace u) s fun s' => SameMemory s s' ∧ s'.fab = s.fab ∧
      (s'.unit u).graph = (if ws.length = 16 ∧ ∀ w ∈ ws, field w.toNat 63 60 ≤ 12 ∧ field w.toNat 45 32 = 0 then some ws else none)) ∧
    (nearRequest s u nGo = some o → (s.unit u).graph.isSome → Completes (.nearBankRunStart u) s fun s' => SameMemory s s' ∧
      (s'.unit u).running = some ⟨o.id, o.ptn⟩ ∧ (s'.unit u).arcs = [(0, b)] ∧ (s'.unit u).accs = []) ∧
    (nearRequest s u nGo = some o → (s.unit u).graph = none → exec (.nearBankRunStart u) s =
      .next (toLanding s o.id [wordOf (6 * 2 ^ 56 + 0xFFFF * 2 ^ 16 + 15 * 2 ^ 12 + 4)] 0 true))) ∧
  (∀ (s : State) (n : NbNode) (e : NbTurn), nodeTurn s = some e → e.free n = true →
    let imm : Word := n.imm.signExtend 64
    let leaves (i : Instr) (taken : List Nat) (v : Word) : Prop := exec i s = .next (s.setUnit e.u (e.put n taken (some v)))
    let inside (pa : Nat) : Prop := unitHolds s e.u e.run.ptn pa = true ∧ unitHolds s e.u e.run.ptn (pa + 7) = true
    (∀ l, e.arc 0 = some l →
      let pa := (l + imm).toNat
      (inside pa → s.hbmMarked pa 8 = false → leaves (.nbRdw n) [0] (wordOf (s.memWord pa))) ∧
      (inside pa → s.hbmMarked pa 8 = true → exec (.nbRdw n) s = .next (e.fail s 2)) ∧
      (¬inside pa → exec (.nbRdw n) s = .next (e.fail s 1)) ∧
      exec (.nbDone n) s = .next (toLanding (s.setUnit e.u { e.x with running := none, arcs := [], cnts := [] }) e.run.id [l] 0 false) ∧
      (mget e.x.cnts e.k = none → 1 < n.imm.toNat → exec (.nbCnt n) s =
        .next (s.setUnit e.u { e.put n [0] (some l) with cnts := mset e.x.cnts e.k (l + 1, n.imm.toNat - 1) })) ∧
      (mget e.x.cnts e.k = none → n.imm.toNat = 1 → leaves (.nbCnt n) [0] l) ∧
      (mget e.x.cnts e.k = none → n.imm.toNat = 0 → exec (.nbCnt n) s = .next (s.setUnit e.u (e.put n [0] none))) ∧
      (∀ p v, mhas e.x.cnts e.k = false → s.part? e.run.ptn = some p → p.units[n.imm.toNat]? = some v → (s.unit v).mbox.length < 8 →
        Completes (.nbMbx n) s fun s' => (s'.unit v).mbox = (s.unit v).mbox ++ [l] ∧ SameMemory s s' ∧
          ∀ u, u ≠ v → u ≠ e.u → s'.unit u = s.unit u) ∧
      (∀ p, mhas e.x.cnts e.k = false → s.part? e.run.ptn = some p → p.units[n.imm.toNat]? = none →
        exec (.nbMbx n) s = .next (e.fail s 3))) ∧
    (∀ v left, mget e.x.cnts e.k = some (v, left) → left ≠ 1 → exec (.nbCnt n) s =
      .next (s.setUnit e.u { e.put n [] (some v) with cnts := mset e.x.cnts e.k (v + 1, left - 1) })) ∧
    (∀ v, mget e.x.cnts e.k = some (v, 1) → exec (.nbCnt n) s =
      .next (s.setUnit e.u { e.put n [] (some v) with cnts := merase e.x.cnts e.k })) ∧
    (∀ w ws, mhas e.x.cnts e.k = true → e.x.mbox = w :: ws → bitAt e.x.wake e.k = true → exec (.nbMbx n) s =
      .next (s.setUnit e.u { e.put n [] (some w) with mbox := ws, cnts := merase e.x.cnts e.k })) ∧
    (∀ l r, e.operands n = some (l, r) →
      let pa := (l + imm).toNat
      let f (w : Word) : Val := Flt.f32.decode (w.toNat % 2 ^ 32)
      let flt (v : Val) : Word := wordOf (Flt.f32.round (.mode .rne) 0 v).1
      let acc := mgetD e.x.accs e.k 0
      (inside pa → exec (.nbWrw n) s = .next ((s.putMem pa (bytesOfNat 8 r.toNat)).setUnit e.u (e.put n [0, 1] (some l)))) ∧
      (¬inside pa → exec (.nbWrw n) s = .next (e.fail s 1)) ∧
      leaves (.nbSel n) [0, 1] (if l.getLsbD 0 then r else 0) ∧
      (n.nft = 0 → leaves (.nbAdd n) [0, 1] (l + r) ∧ leaves (.nbMul n) [0, 1] (l * r) ∧
        leaves (.nbMin n) [0, 1] (if r.slt l then r else l) ∧ leaves (.nbMax n) [0, 1] (if l.slt r then r else l) ∧
        leaves (.nbCmp n) [0, 1] (if l.slt r then 1 else 0) ∧
        exec (.nbMac n) s = .next (s.setUnit e.u { e.put n [0, 1] (some (acc + l * r)) with accs := mset e.x.accs e.k (acc + l * r) })) ∧
      (n.nft = 1 → leaves (.nbAdd n) [0, 1] (flt (Val.add false (f l) (f r)).1) ∧ leaves (.nbMul n) [0, 1] (flt (Val.mul (f l) (f r)).1) ∧
        leaves (.nbMin n) [0, 1] (flt (Val.min (f l) (f r))) ∧ leaves (.nbMax n) [0, 1] (flt (Val.max (f l) (f r))) ∧
        leaves (.nbCmp n) [0, 1] (if Val.lt (f l) (f r) then 1 else 0) ∧
        let a := flt (Val.add false (f acc) (Val.mul (f l) (f r)).1).1
        exec (.nbMac n) s = .next (s.setUnit e.u { e.put n [0, 1] (some a) with accs := mset e.x.accs e.k a }))))

/-- The operations of the shelvers: a granted page joins the pools, NEW takes the lowest free segment, each operation
gives its results with its cost word, or its refusal with nothing changed in memory; the pairs that a merge leaves in
its segments, and the head that NEW writes; and the steps of a scan to a channel (R96, R98, R99, R101, R102, R103,
R105, R106, R107, R108, R109, R111, R113, R114, R116, R117, R118, R392, R393). The counts of a cost word and DEL of a
damaged fibre are the model's reading (log entries 76, 78). The reads that a refused merge counts are its choice (log
entry 106). That RPL counts in CMB is its choice (log entry 129). -/
def Obligations.FibreOperations : Prop :=
  ((∀ (vfmt mode : Nat) (dz : Bool) (m : Merged) (batch ps : List (Nat × Nat)), Rising batch → Rising ps →
     let r := applyPairs vfmt mode dz batch ps m
     let kept (v : Nat) : Option Nat := if dz && zeroVal vfmt v then none else some v
     Rising r.1 ∧ ∀ x, valueAt r.1 x = match valueAt batch x, valueAt ps x with
       | none, u => u
       | some v, none => kept v
       | some v, some u => if mode = 0 then some u else kept (combine vfmt mode u v)) ∧
   (∀ (s : State) (id : Nat) (o : Op) (p : Partition) (q : FReq), s.op? id = some o → performable s o = true → s.part? o.ptn = some p →
     let refusal (c : Nat) : Word := wordOf (0x8000 * 2 ^ 48 + c)
     let lands (i : Instr) (vals : List Word) (holds : State → Prop) : Prop := Completes i s fun s' =>
       (∃ cost, s'.ops = (s.ops.filter fun x => x.id != id) ++ (s.ops.filter fun x => x.id == id).map fun x => { x with act := .land vals cost false }) ∧ s'.fab = s.fab ∧ holds s'
     let landsCost (i : Instr) (vals : List Word) (cost : Word) : Prop := Completes i s fun s' => SameMemory s s' ∧ s'.fab = s.fab ∧
       s'.ops = (s.ops.filter fun x => x.id != id) ++ (s.ops.filter fun x => x.id == id).map fun x => { x with act := .land vals cost false }
     let pool := (s.shelver q.n).pool q.ptn
     let g : Grant := ⟨q.va, q.pa, q.stpl⟩
     let grantOk : Prop := q.typ = 1 ∧ q.va % 2 ^ g.log = 0 ∧ alreadyGranted p g = false
     let walk (top : Option Nat) := walkSegs s p top (segCount p) q.va
     let found (x : Nat) := ((walk (some x)).1.flatMap (·.2.pairs)).find? fun e => e.1 == x
     (reqOf o fGrant = some q →
       (grantOk → lands (.shelverGrant id) [wordOf (2 ^ (g.log - 6))] fun s' => SameMemory s s' ∧
         (∃ p', s'.part? o.ptn = some p' ∧ p'.pages = p.pages ++ [g]) ∧
         ∀ n, stackOf q.pa * 64 ≤ n → n < stackOf q.pa * 64 + 64 → ∀ v ∈ pageSegs g n, v ∈ (s'.shelver n).pool q.ptn) ∧
       (¬grantOk → landsCost (.shelverGrant id) [refusal 5] 0)) ∧
     (reqOf o fNew = some q →
       (q.typ ≠ 1 ∨ grantOf p q.va = none → landsCost (.shelverNew id) [refusal 5] 0) ∧
       (q.typ = 1 → (grantOf p q.va).isSome → vfmtKnown (q.b.toNat % 256) = false → landsCost (.shelverNew id) [refusal 3] 0) ∧
       (q.typ = 1 → (grantOf p q.va).isSome → vfmtKnown (q.b.toNat % 256) = true → pool = [] → landsCost (.shelverNew id) [refusal 1] 0) ∧
       (∀ h rest, q.typ = 1 → (grantOf p q.va).isSome → vfmtKnown (q.b.toNat % 256) = true → pool = h :: rest → lands (.shelverNew id) [wordOf h] fun s' =>
         (s'.shelver q.n).pool q.ptn = rest ∧ (q.ptn, h) ∈ (s'.shelver q.n).heads ∧ ∀ pa, segPa p h = some pa → OnlySegments s s' [pa] ∧
           (natRange 0 8).map (fun i => s'.memWord (pa + 8 * i)) = [2 ^ 32 + 2 ^ 16 + q.b.toNat % 256 * 2 ^ 8, 0, 0, 0, 0, 0, 0, 0])) ∧
     (∀ c, headRefusal s q = some c → c ≠ 9 →
       (reqOf o fPrb = some q → landsCost (.shelverProbe id) [refusal c, 0] 0) ∧
       (reqOf o fLen = some q → landsCost (.shelverLength id) [refusal c] 0)) ∧
     (∀ c, headRefusal s (q.load s) = some c → c ≠ 9 → reqOf o fMrg = some q → landsCost (.shelverMerge id) [refusal c] 0) ∧
     (headRefusal s q = none → ∀ x, x = q.b.toNat % 2 ^ 32 → (walk (some x)).2.1 = true → reqOf o fPrb = some q →
       landsCost (.shelverProbe id) (match found x with | some e => [wordOf e.2, 1] | none => [0, 0])
         (Cost.word ⟨(walk (some x)).2.2, 0, 0, 0⟩)) ∧
     (headRefusal s q = none → (walk none).2.1 = true → reqOf o fLen = some q →
       landsCost (.shelverLength id) [wordOf ((walk none).1.length * 2 ^ 32 + ((walk none).1.flatMap (·.2.pairs)).length)]
         (Cost.word ⟨(walk none).2.2, 0, 0, 0⟩)) ∧
     (headRefusal s (q.load s) = none → reqOf o fMrg = some q →
       let batch := (q.load s).batch.map pairOf
       let w := walk (some (batch.foldr (fun x m => Nat.max x.1 m) 0))
       let mode := q.mode % 8
       let vfmt := chainFmt w.1
       let placed := placeBatch vfmt mode (bitAt q.mode 3) w.1 batch
       let need := (placed.1.map fun ps => partsOf ps.length - 1).foldr (· + ·) 0
       w.2.1 = true → q.mode < 16 →
       (mergeModeOk vfmt mode = false → landsCost (.shelverMerge id) [refusal 3] (Cost.word ⟨w.2.2, 0, 0, 0⟩)) ∧
       (mergeModeOk vfmt mode = true → (q.c.toNat ≠ batch.length ∨ batchOk vfmt batch = false) →
         landsCost (.shelverMerge id) [refusal 2] (Cost.word ⟨w.2.2, 0, 0, 0⟩)) ∧
       (mergeModeOk vfmt mode = true → q.c.toNat = batch.length → batchOk vfmt batch = true →
         (pool.length < need → landsCost (.shelverMerge id) [refusal 1] (Cost.word ⟨w.2.2, 0, 0, 0⟩)) ∧
         (need ≤ pool.length → lands (.shelverMerge id) [wordOf (placed.2.del * 2 ^ 48 + placed.2.kept * 2 ^ 32 + placed.2.cmb * 2 ^ 16 +
           placed.2.ins)] fun s' => s'.hostMem = s.hostMem ∧ s'.annex = s.annex ∧ s'.owner = s.owner ∧
           (let pas := w.1.filterMap fun e => segPa p e.1
             ∀ _ : pas.Pairwise (fun x y => x + 64 ≤ y ∨ y + 64 ≤ x), (∀ ps ∈ placed.1, ps.length ≤ 6) → (∀ ps ∈ placed.1.drop 1, ps ≠ []) →
             OnlySegments s s' pas ∧ ∀ e ∈ w.1.zip placed.1, ∀ pa, segPa p e.1.1 = some pa →
               s'.HoldsPairs pa e.2 ∧ s'.LinksTo pa e.1.2.tail e.1.2.next) ∧
           (∀ va g' ps h rest pa pb, w.1 = [(va, g')] → placed.1 = [ps] → 6 < ps.length → ps.length ≤ 12 → pool = h :: rest → segPa p va = some pa →
             segPa p h = some pb → pa + 64 ≤ pb ∨ pb + 64 ≤ pa →
             OnlySegments s s' [pa, pb] ∧ (s'.shelver q.n).pool q.ptn = rest ∧
             s'.HoldsPairs pa (ps.take ((ps.length + 1) / 2)) ∧ s'.LinksTo pa false h ∧
             s'.HoldsPairs pb (ps.drop ((ps.length + 1) / 2)) ∧ s'.LinksTo pb g'.tail g'.next) ∧
           (∀ va vb g' h' ps pa, w.1 = [(va, g'), (vb, h')] → placed.1 = [ps, []] → ps.length ≤ 6 → segPa p va = some pa →
             OnlySegments s s' [pa] ∧ s'.HoldsPairs pa ps ∧ s'.LinksTo pa h'.tail h'.next ∧ vb ∈ (s'.shelver q.n).pool q.ptn)))) ∧
     (reqOf o fDel = some q →
       ((q.ptn, q.va) ∉ (s.shelver q.n).heads → landsCost (.shelverDelete id) [] 0) ∧
       ((q.ptn, q.va) ∈ (s.shelver q.n).heads → lands (.shelverDelete id) [] fun s' => SameMemory s s' ∧
         ((segPa p q.va).isSome → (q.ptn, q.va) ∉ (s'.shelver q.n).heads ∧ q.va ∈ (s'.shelver q.n).pool q.ptn))) ∧
     (reqOf o fScn = some q → scanning s id = false →
       let x := s.shelver q.n
       (x.scans.length < 32 → x.waiting = [] → lands (.scanStart id) [] fun s' => SameMemory s s' ∧
         (s'.shelver q.n).scans = x.scans ++ [q.scan id]) ∧
       (¬(x.scans.length < 32 ∧ x.waiting = []) → Completes (.scanStart id) s fun s' => s'.ops = s.ops ∧
         (s'.shelver q.n).waiting = x.waiting ++ [q.scan id] ∧ (s'.shelver q.n).scans = x.scans)))) ∧
  (∀ (s : State) (id n : Nat) (x : Shelver) (e : Scan) (o : Op) (p : Partition) (a : Nat),
     (s.shelvers.find? fun y => y.2.scans.any fun z => z.opid == id) = some (n, x) → s.shelver n = x →
     x.scans.find? (fun z => z.opid == id) = some e → s.op? id = some o → stale s o = false → onFabric s o.ptn = true →
     s.part? o.ptn = some p → e.emit = [] → scanEmitted s e o = true → o.dest = .chan a →
     (∀ z ∈ x.waiting, z.opid ≠ id) →
     let r := scanFind s p n e
     let sends (s' : State) (ws : List Word) : Prop := s'.ctrl.map (fun w => (w.dst, w.ckind, w.payload)) =
       s.ctrl.map (fun w => (w.dst, w.ckind, w.payload)) ++ ws.map fun w => (CtrlDst.chan a, 1, w)
     (∀ ps seg next, r.1 = .pairs ps seg next → Completes (.scanStep id) s fun s' => SameMemory s s' ∧ s'.fab = s.fab ∧
       sends s' (ps.map fun c => wordOf (c.1 + c.2 * 2 ^ 32)) ∧ ∃ e' ∈ (s'.shelver n).scans, e'.opid = id ∧ e'.seg = some seg ∧
         e'.next = next ∧ e'.count = e.count + ps.length ∧ e'.cursor = ps.getLast?.map (·.1) ∧ e'.dst = false) ∧
     (r.1 = .finish → o.id = id → Completes (.scanStep id) s fun s' => SameMemory s s' ∧ s'.fab = s.fab ∧
       ∃ y ∈ s'.ops, y.id = id ∧ ∃ cost due, y.act = .land [wordOf (0xFFFFFFFF + e.count * 2 ^ 32), cost] due false ∧ (e.route = none → due = cost)) ∧
     (∀ k, r.1 = .refused k → o.id = id → Completes (.scanStep id) s fun s' => SameMemory s s' ∧ s'.fab = s.fab ∧
       ∃ y ∈ s'.ops, y.id = id ∧ ∃ cost due, y.act = .land [wordOf (2 ^ 64 - 1), wordOf (0x8000 * 2 ^ 48 + k), cost] due false ∧
         (e.route = none → due = cost)))

/-- The operations of the Concordance engines (R135, R136, R137, R138, R139, R141, R399). Which of two codes is given, and
the wrap of REF, are the model's (log entries 77, 92). The place of the node store and LINK are free (log entry 113).
What a failed read behind a differing word gives is the model's choice (log entry 130). -/
def Obligations.ConcordanceOperations : Prop :=
  ∀ (s : State) (id n k : Nat) (o : Op) (a b c : Word), s.op? id = some o → performable s o = true → o.target = .tree n →
    o.act = .tree k a b c →
    let lands (i : Instr) (vals : List Word) (t' : Option Tree) : Prop := Completes i s fun s' => SameMemory s s' ∧ s'.fab = s.fab ∧
      s'.ops = ((s.ops.filter fun x => x.id != id) ++ (s.ops.filter fun x => x.id == id).map fun x => { x with act := .land vals 0 false }) ∧ mget s'.trees n = t'
    let absent : Prop := ∀ t, mget s.trees n = some t → t.ptn ≠ o.ptn
    (k = tFind ∨ k = tInsert → walksFree s (engEnv o 0).tlb o.ptn [b] = true) →
    (absent → (k = tFind → lands (.concordanceFind id) [4, 0] (mget s.trees n)) ∧
      (k = tInsert → lands (.concordanceInsert id) [4, 0] (mget s.trees n)) ∧
      (k = tGet → lands (.concordanceGet id) [0, 0, 0] (mget s.trees n)) ∧
      (k = tRelease → lands (.concordanceRelease id) [] (mget s.trees n))) ∧
    (∀ t, mget s.trees n = some t → t.ptn = o.ptn →
      let i := field b.toNat 63 40
      let dead : Prop := i = 0 ∨ ∀ x, mget t.nodes i = some x → x.gen ≠ field b.toNat 39 24
      (k = tGet → dead → lands (.concordanceGet id) [0, 0, 0] (some t)) ∧
      (k = tRelease → dead → lands (.concordanceRelease id) [] (some t)) ∧
      (∀ x, mget t.nodes i = some x → x.gen = field b.toNat 39 24 → i ≠ 0 →
        (k = tGet → lands (.concordanceGet id) [x.blob, wordOf x.size, 1]
          (some { t with nodes := mset t.nodes i { x with ref := (x.ref + 1) % 2 ^ 32 } })) ∧
        (k = tRelease → x.ref ≠ 0 → lands (.concordanceRelease id) []
          (some { t with nodes := mset t.nodes i { x with ref := x.ref - 1 } })) ∧
        (k = tRelease → x.ref = 0 → lands (.concordanceRelease id) [] (some t))) ∧
      (k = tFind → b.toNat % 8 ≠ 0 → lands (.concordanceFind id) [5, 0] (some t)) ∧
      (k = tFind → b.toNat % 8 = 0 → c.toNat < t.g → ∃ gen, lands (.concordanceFind id) [nodeWord 0 gen 0, 0] (some t)) ∧
      (k = tFind → b.toNat % 8 = 0 → ∃ vals t', lands (.concordanceFind id) vals (some t') ∧ vals.length = 2 ∧
        mkeys t'.nodes = mkeys t.nodes) ∧
      (k = tInsert → b.toNat % 32 ≠ 0 → lands (.concordanceInsert id) [5, 0] (some t)) ∧
      (∀ ws, k = tInsert → b.toNat % 32 = 0 → chunkWords (engEnv o 0) (serve s o) b 4 = some ws →
        let w3 := (lget ws 3 0).toNat
        (2 ^ 32 ≤ w3 → lands (.concordanceInsert id) [6, 0] (some t)) ∧
        (w3 < 2 ^ 32 → liveNode t (lget ws 0 0) = none → lands (.concordanceInsert id) [3, 0] (some t)) ∧
        (∀ pi px cs j, w3 < 2 ^ 32 → liveNode t (lget ws 0 0) = some (pi, px) → (lget ws 1 0).toNat % 8 = 0 →
          chunkWords (engEnv o 0) (serve s o) (lget ws 1 0) t.g = some cs → childOf t pi (foldHash px.key cs) = none →
          freeSlot t = some j → j ≠ pi → ∃ gen t', lands (.concordanceInsert id) [nodeWord j gen (px.depth + 1), 1] (some t') ∧
            mget t'.nodes j = some ⟨gen, pi, foldHash px.key cs, px.depth + 1, lget ws 2 0, lget ws 1 0, w3, 1, s.deviceTime, 0, Config.nodeLink j s.deviceTime⟩ ∧
            mget t'.nodes pi = some { px with kids := px.kids + 1 })))

/-- Heartbeats and judgements, votes, withdrawals, the fence, the withdrawal of a tile, its self-test and its return
(R374, R375, R376, R377, R378, R379, R380, R381, R382). When a tile judges, how the words travel and what a fence
withdraws are the model's reading (log entries 83, 85, 86). Which packets count against a neighbour and when the
placement map reaches a tile are the model's choice (log entries 84, 116). -/
def Obligations.TilesFenced : Prop :=
  ((∀ (s : State) (t : Nat), beatDue s t = true →
     let x := s.tile t
     let p := s.time / 65536
     let word : Word := wordOf ((x.hseq + (p - x.beat)) % 2 ^ 32 * 2 ^ 32 + t / 4096 * 2 ^ 30 + t % 64 * 2 ^ 24 + t / 64 % 64 * 2 ^ 18 + x.hst * 2 ^ 16)
     Completes (.heartbeatSend t) s fun s' => SameMemory s s' ∧ s'.fab = s.fab ∧
       s'.ctrl.map (fun w => (w.src, w.dst, w.ckind, w.payload)) = s.ctrl.map (fun w => (w.src, w.dst, w.ckind, w.payload)) ++
         (neighbours t).map (fun n => (Agent.tile t, CtrlDst.tile n.2, 2, word)) ∧
       s'.tile t = { x with beat := p + 1, hseq := (x.hseq + (p + 1 - x.beat)) % 2 ^ 32 }) ∧
   (∀ (s : State) (id n t d : Nat) (w : CtrlWord), s.word? id = some w → w.src = .tile n → w.dst = .tile t → w.ckind = 2 →
     wordArrives s w = true → sideTo t n = some d → Completes (.heartbeatReceive id) s fun s' => SameMemory s s' ∧ s'.fab = s.fab ∧
       s'.ctrl = s.ctrl.filter (fun x => x.id != id) ∧ ((s.tile t).beats = true →
         s'.neighOf t d = { s.neighOf t d with beats := (s.neighOf t d).beats ++ [(field w.payload.toNat 63 32, field w.payload.toNat 17 16)] })) ∧
   (∀ (s : State) (t d n : Nat), gridNeigh t d = some n → powered s = true → t < 16384 → (s.tile t).beats = true →
     let y := s.neighOf t d
     y.period < s.time / 65536 → ((s.tile n).beats = false ∨ y.period < (s.tile n).beat) → y.fenced = false →
     let finds (state misses clean : Nat) : Prop := Completes (.neighbourJudgement t d) s fun s' => SameMemory s s' ∧
       (s'.neighOf t d).state = state ∧ (s'.neighOf t d).misses = misses ∧ ((s'.neighOf t d).clean = clean ∨ (s'.neighOf t d).fenced = true) ∧
       (s'.neighOf t d).beats = [] ∧ (s'.neighOf t d).period = y.period + 1 ∧
       (∀ b, y.beats.getLast? = some b → (s'.neighOf t d).hseq = some b.1) ∧ (y.beats = [] → (s'.neighOf t d).hseq = y.hseq)
     let found := y.finding (packetsOf s n)
     let votes (cause : Nat) : Prop := (s.tile n).hst ≠ 2 → present (mapAt s t) n ≠ [] → Completes (.neighbourJudgement t d) s fun s' =>
       (t, cause) ∈ mgetD (s'.tile t).votes n []
     (found = .clean → (y.state ≠ 2 → finds 0 0 0) ∧ (y.state = 2 → y.clean = 0 → finds 2 0 1) ∧
       (y.state = 2 → 1 ≤ y.clean → finds 0 0 0)) ∧
     (found = .missing → y.state ≠ 2 → (y.misses < 2 → finds 1 (y.misses + 1) 0) ∧ (2 ≤ y.misses → finds 2 0 0 ∧ votes 0)) ∧
     (∀ c, found = .babbling c → y.state ≠ 2 → finds 2 0 0 ∧ votes c) ∧
     (found ≠ .clean → (s.tile n).hst = 2 → reinstated s n = false → Completes (.neighbourJudgement t d) s fun s' =>
       (s'.tile n).hst = 1 ∧ (s'.tile t).votes = (s.tile t).votes)) ∧
   (∀ (y : Neigh) (sent : Nat), (y.finding sent = .missing ↔ y.beats = []) ∧ (y.finding sent = .babbling 1 ↔ 2 < y.beats.length) ∧
     (y.finding sent = .babbling 3 → 131072 < sent - y.packets) ∧
     (∀ l b, y.hseq = some l → y.beats = [b] → (y.finding sent = .clean ↔
       b.1 = (l + 1) % 2 ^ 32 ∧ b.2 ≠ 3 ∧ sent - y.packets ≤ 131072)) ∧
     (∀ l b c, y.hseq = some l → y.beats = [b, c] → (y.finding sent = .clean ↔
       b.1 = (l + 1) % 2 ^ 32 ∧ c.1 = (b.1 + 1) % 2 ^ 32 ∧ b.2 ≠ 3 ∧ c.2 ≠ 3 ∧ sent - y.packets ≤ 131072)))) ∧
  ((∀ (s : State) (id t d : Nat) (w : CtrlWord), let subject := voteSubject (t / 4096) w.payload
     let voter := voteVoter (t / 4096) w.payload
     sideTo t subject = some d →
     (fenceWordAt s id 0 = some (w, .here t) → babbles (s.dropWord id) t voter = false → Completes (.voteWord id) s fun s' =>
       SameMemory s s' ∧ (voter, voteCause w.payload) ∈ mgetD (s'.tile t).votes subject [] ∧
       (isMajority (mapAt s t) subject (votesAgainst (addVote (s.dropWord id) t subject voter (voteCause w.payload)) t subject).length = true →
         (s'.neighOf t d).fenced = true)) ∧
     (fenceWordAt s id 0 = some (w, .here t) → babbles (s.dropWord id) t voter = true → exec (.voteWord id) s = .next (s.dropWord id)) ∧
     (fenceWordAt s id 1 = some (w, .here t) → (s.neighOf t d).fenced = false → Completes (.withdrawalWord id) s fun s' =>
       SameMemory s s' ∧ (s'.tile t).votes = (s.tile t).votes ∧ (s'.tile t).withdrawn = (s.tile t).withdrawn ++ [(subject, voter)]) ∧
     ((subject, voter) ∈ (s.tile t).withdrawn → (s.neighOf t d).fenced = false →
       ∀ v ∈ mgetD ((applyWithdrawals s).tile t).votes subject [], v.1 ≠ voter) ∧
     (fenceWordAt s id 2 = some (w, .here t) → Completes (.fenceWord id) s fun s' => SameMemory s s' ∧ (s'.neighOf t d).fenced = true)) ∧
   (∀ (s : State) (id k : Nat) (w : CtrlWord), s.word? id = some w → w.ckind = 6 → (∃ n, w.src = .tile n) → wordArrives s w = true →
     w.payload.toNat = k →
     (k ∉ s.placement → Completes (.fenceWithdrawal id) s fun s' => SameMemory s s' ∧ s'.placement = s.placement ++ [k] ∧
       ∀ l ∈ launchesOn s k, mget s'.launches l = none) ∧
     (k ∈ s.placement → exec (.fenceWithdrawal id) s = .next (s.dropWord id))) ∧
   (∀ (s : State) (t : Nat), let x := s.tile t
     x.off = false → x.silent = false →
     (x.hst = 1 → Completes (.selfTestRun t true) s fun s' => s'.mem = s.mem ∧
       (s'.tile t).hst = (if 1 ≤ x.passes then 2 else 1) ∧ (s'.tile t).passes = (if 1 ≤ x.passes then 0 else x.passes + 1)) ∧
     (x.hst = 1 → Completes (.selfTestRun t false) s fun s' => (s'.tile t).hst = 1 ∧ (s'.tile t).passes = 0) ∧
     (x.hst = 0 → x.wakeTest ≠ [] → exec (.selfTestRun t false) s = .next (s.modTile t fun x => { x with silent := true }))) ∧
   (∀ (s : State) (t : Nat), appealed s t ≠ [] → Completes (.probationComplete t) s fun s' => SameMemory s s' ∧ appealed s' t = [] ∧
     s'.ctrl.length = s.ctrl.length + (appealed s t).length) ∧
   (∀ (s : State) (t : Nat), reinstateWords s t ≠ [] →
     (t ∉ s.placement → Completes (.reinstate t) s fun s' => SameMemory s s' ∧ s'.placement = s.placement) ∧
     ((s.tile t).off = true → Completes (.reinstate t) s fun s' => s'.placement = s.placement) ∧
     (t ∈ s.placement → (s.tile t).off = false → isMajority s.placement t (((((reinstateWords s t).map fun w => voteVoter (t / 4096) w.payload).filter
         fun v => (present s.placement t).contains v).eraseDups).length) = true →
       Completes (.reinstate t) s fun s' => SameMemory s s' ∧ s'.placement = s.placement.filter (· != t))) ∧
   (∀ (s : State) (id t d : Nat) (w : CtrlWord), s.word? id = some w → w.dst = .tile t → w.ckind = 5 → wordArrives s w = true →
     let subject := voteSubject (t / 4096) w.payload
     sideTo t subject = some d → Completes (.reinstateWord id) s fun s' => SameMemory s s' ∧ (s'.neighOf t d).fenced = false ∧
       (s'.neighOf t d).state = 0 ∧ mgetD (s'.tile t).votes subject [] = []))

/-- The readiness of functions, the alarm, power and reset, the recovery and the patrol scrub (R195, R196, R198, R403,
R418, R433, R434, R435, R436, R437, R438, R448). What a reset, a recovery and a loss of power keep, and details of the
alarm, are the model's reading (log entries 87, 88). The forms of the record, the keys and the report are free (log
entries 2, 8). -/
def Obligations.ModuleEvents : Prop :=
  (∀ (s : State), powered s = true →
     let a := s.alarm
     let call (trig : Nat) : Nat := if trig = 2 then 3 else if trig = 3 then (if a.sigFails = 2 then 2 else 1) else
       if 2 ≤ (if a.came = s.time then a.prior else a.level) then 3 else 2
     let raises (i : Instr) (trig die det : Nat) : Prop := Completes i s fun s' =>
       s'.alarm.level = Nat.max a.level (call trig) ∧
       (a.log.length < 64 → s'.alarm.dropped = a.dropped ∧ s'.alarm.log = a.log ++
         [⟨[wordOf (Nat.max a.level (call trig) * 2 ^ 56 + trig * 2 ^ 48 + die * 2 ^ 32 + det), wordOf s.time]⟩]) ∧
       (64 ≤ a.log.length → s'.alarm.log = a.log ∧ s'.alarm.dropped = a.dropped + 1) ∧
       (a.level < 2 → 2 ≤ s'.alarm.level → s'.catState 6 0 = (if s'.alarm.level = 3 then 4 else 3) ∨ mget s.cat (catIndex 6 0) = none) ∧
       (s'.alarm.level = 3 → a.level < 3 → s'.alarm.erased = true ∧ s'.alarm.latchA3 = true ∧ s'.keys = none ∧ s'.launches = []) ∧
       (s'.alarm.level < 3 → s'.launches = s.launches)
     (∀ (die : Fin 4) (clock : Bool), raises (.alarmGuardBand die clock) 1 die.val (bnat clock)) ∧
     (∀ (die : Fin 4) (x : Fin 256),
       ((facingPtile (die.val * 256 + x.val)).isSome → raises (.alarmLinkTamper die x) 2 die.val x.val) ∧
       (facingPtile (die.val * 256 + x.val) = none → exec (.alarmLinkTamper die x) s = .refused .notEnabled)) ∧
     (∀ (die : Fin 4) (port : BitVec 32), raises (.debugPortAccess die port false) 4 die.val port.toNat ∧
       (s.parts ≠ [] → raises (.debugPortAccess die port true) 4 die.val port.toNat) ∧
       (s.parts = [] → exec (.debugPortAccess die port true) s = .next s)) ∧
     (∀ kind inst pass, inst < kindCount kind → mhas s.cat (catIndex kind inst) = true → s.ready kind inst = false →
       ¬(kind = 6 ∧ 2 ≤ a.level) → Completes (.functionSelfTestDone kind inst pass) s fun s' =>
         s'.catState kind inst = (if pass then 2 else 4) ∧ SameMemory s s' ∧
         (kind ≠ 4 → kind ≠ 7 → s' = { s with cgen := s.cgen + 2, cat := s'.cat }) ∧
         (kind = 7 → pass = true → ∀ i x, s.part? i = some x → x.core / 4 = inst / 4 → s.ready 7 x.core = false → x.core ≠ inst →
           ∃ x', s'.part? i = some x' ∧ x'.core = inst)) ∧
     (∀ kind inst st, inst < kindCount kind → s.ready kind inst = true → st < 5 → st ≠ 2 →
       Completes (.unitReadinessLost kind inst st) s fun s' => SameMemory s s' ∧ s'.catState kind inst = st ∧
         (kind ≠ 3 → kind ≠ 4 → kind ≠ 7 → s' = { s with cgen := s.cgen + 2, cat := s'.cat }) ∧
         (kind = 3 → ∀ l ∈ launchesAt s inst, mget s'.launches l = none)) ∧
     (∀ ed ml cfgEd cfgMl, exec (.powerOn ed ml cfgEd cfgMl) s = .refused .notEnabled) ∧
     (a.level < 3 → Completes .moduleReset s fun s' => s'.alarm = { a with level := 0, prior := 0 } ∧ SameMemory s s' ∧ s'.parts = s.parts) ∧
     (a.level = 3 → Completes .moduleReset s fun s' => s'.alarm = a ∧ SameMemory s s' ∧ s'.parts = s.parts) ∧
     (∀ len : Word, hostReaches s = true → Completes (.recoveryDoorbell len true true) s fun s' =>
       s'.mem = s.mem ∧ s'.annex = s.annex ∧ s'.hostMem = s.hostMem ∧ s'.parts = [] ∧ s'.launches = [] ∧ s'.fab = State.reset.fab ∧
       s'.alarm.latchA3 = false ∧ s'.alarm.erased = false ∧ s'.alarm.level ≤ 1 ∧ s'.keys = some ⟨Config.edKey, Config.mlKey⟩ ∧
       ∀ i < 1334, ∃ e, mget s'.cat i = some e ∧ e.state = 1) ∧
     (∀ (len : Word) (ed ml : Bool), hostReaches s = true → (ed && ml) = false →
       raises (.recoveryDoorbell len ed ml) 3 0 (bnat (!ed) + 2 * bnat (!ml) + 32)) ∧
     (∀ stack, stack < 12 → mgetD s.scrubs stack 0 + 2 ^ 46 ≤ s.time → Completes (.hbmPatrolScrub stack) s fun s' =>
       SameMemory s s' ∧ mget s'.scrubs stack = some s.time ∧
       (∃ n : Nat, mgetD s'.errs (errIndex (stack / 3) 2) 0 = Nat.min (mgetD s.errs (errIndex (stack / 3) 2) 0 + n) (2 ^ 32 - 1)) ∧ ∀ c, c ≠ errIndex (stack / 3) 2 → mgetD s'.errs c 0 = mgetD s.errs c 0)) ∧
  (∀ (s : State),
     (Completes .lossOfPower s fun s' => s'.fab = State.reset.fab ∧ s'.parts = [] ∧ s'.launches = [] ∧ s'.mem = [] ∧ s'.cat = [] ∧
       s'.annex = s.annex ∧ s'.hostMem = s.hostMem ∧ s'.alarm.log = s.alarm.log ∧ s'.alarm.latchA3 = s.alarm.latchA3 ∧ s'.alarm.level = 0) ∧
     (powered s = false → Completes (.powerOn true true true true) s fun s' => s'.cgen = s.cgen + (if s.alarm.latchA3 then 4 else 2) ∧
       (∀ i < 1334, ∃ e, mget s'.cat i = some e ∧ (e.state = 1 ∨ i = catIndex 6 0 ∧ s.alarm.latchA3 = true ∧ e.state = 4)) ∧
       s'.alarm.level = (if s.alarm.latchA3 then 3 else s.alarm.level) ∧
       s'.keys = (if s.alarm.latchA3 then none else some ⟨Config.edKey, Config.mlKey⟩) ∧ SameMemory s s' ∧ s'.fab = s.fab ∧ s'.parts = s.parts) ∧
     (∀ fwEd fwMl cfgEd cfgMl, powered s = false → Completes (.powerOn fwEd fwMl cfgEd cfgMl) s fun s' =>
       s'.alarm.sigFails = (if fwEd && fwMl then 0 else 1) + (if cfgEd && cfgMl then 0 else 1) ∧
       ((fwEd && fwMl && cfgEd && cfgMl) = false → 1 ≤ s'.alarm.level)))

/-- A step runs the decoded instruction: the word of the slot, element or node whose turn it is, or the event; and with no
turn standing, what comes first in the cycle, an actor chosen among those that can act, or what comes last in the
cycle with the passing of time (R33, R35, R41, R69, R213, R229, R350, R374, R446; log entries 1, 6 and 7). The agenda
and the actor whose turn it is are the model's own schedule (log entry 1). -/
def Obligations.AStepRunsTheDecodedInstruction : Prop :=
  (∀ (s : State) (tid k : Nat) (as : List Actor) (t : Task) (b : Block) (i : Instr), s.agenda = .slot tid k :: as →
    s.task? tid = some t → t.blk = some b → decode (s.iword (seOf tid) (b.head + 4 * (k + 1))) = .ok i →
    step s = exec (refine i (b.slot k).a.word (b.slot k).b.word) { s with agenda := as, cur := .firing tid k }) ∧
  (∀ (s : State) (r k pos : Nat) (as : List Actor) (g : Region) (i : Instr), s.agenda = .elem r k pos :: as → s.region? r = some g →
    ((∀ n, posKind pos ≠ .node n) → decodeElem ((g.ctx k).word pos) = some i → step s = exec i { s with agenda := as, cur := .elem r k pos }) ∧
    (∀ n f w, posKind pos = .node n → (g.ctx k).folio = some f → f.nodes[n]? = some w → decodeFolio w.toNat = some i →
      step s = exec i { s with agenda := as, cur := .elem r k pos })) ∧
  (∀ (s : State) (u k : Nat) (as : List Actor) (ws : List Word) (w : Word) (i : Instr), s.agenda = .node u k :: as →
    (s.unit u).graph = some ws → ws[k]? = some w → decodeNode w.toNat = some i →
    step s = exec i { s with agenda := as, cur := .node u k }) ∧
  (∀ (s : State) (e : Event) (as : List Actor), s.agenda = .event e :: as → step s = runEvent e { s with agenda := as }) ∧
  (∀ e : Event, (∀ q ws, e ≠ .command q ws) → ∃ i : Instr, ∀ s, runEvent e s = exec i s) ∧
  (∀ q ws i s, decodeCmd q (joinBits 64 (ws.map (·.toNat))) = some i → runEvent (.command q ws) s = exec i s) ∧
  (∀ s : State, s.agenda = [] →
    let t := { s with oracle := s.oracle + 1 }
    (∀ a, (dueActors s).find? (canAct s) = some a → step s = act a s) ∧
    ((∀ a ∈ dueActors s, canAct s a = false) →
      (∃ a ∈ actors t, a.isLast = false ∧ canAct t a = true ∧ step s = act a { t with oracle := t.oracle + 1 }) ∨
      (step s = .next t ∧ ∀ a ∈ actors t, a.isLast = false → canAct t a = false) ∨
      ∃ d, 0 < d ∧ step s = .next (tick (endCycle t) d)))

/-- Words written out from the encodings of the spec decode to the instructions they stand for, and reserved ones are
refused by name (R203, R214, R216, R217, R218, R221, R223, R226, R229, R420). -/
def Obligations.WrittenWordsDecode : Prop :=
  decode 0x02200042 = .ok (.add .always .s32 false (.left 2) .none) ∧
  decode 0x40BA00C3 = .ok (.cmp .onTrue .s64 .ge (.pred 3)) ∧
  decode 0x561FFFFE = .ok (.br .always 1 0xFFFFE) ∧
  decode 0x64000105 = .ok (.fadd .always .f32 .rne .none (.reg 5)) ∧
  decode 0x80052F04 = .ok (.ld .always 1 .s32 (.acq .dev) (.reg 4)) ∧
  decode 0x8E020F03 = .ok (.amo .always 0 true .add (some .dev) (.reg 3)) ∧
  decode 0x9E540101 = .ok (.cfgl .always 2 5 (.reg 1)) ∧
  decode 0xAC080400 = .ok (.cpy .always 2 .ef .none) ∧
  decode 0xC2014107 = .ok (.fmrg .always 0 .add true (.reg 7)) ∧
  decode 0xCC0C0101 = .ok (.snpf .always 3 (.reg 1)) ∧
  decode 0xF0002800 = .ok (.csrw .always .ssc0 .none) ∧
  decode 0 = .error .reservedOpcode ∧ decode 0x03A00042 = .error .reservedPred ∧ decode 0x022001C0 = .error .badTarget ∧
  decode 0x02240042 = .error .reservedField ∧
  decodeElem (0x10 * 2 ^ 120 + 6 * 2 ^ 116 + 6 * 2 ^ 112 + 1 * 2 ^ 60 + 2 * 2 ^ 56 + 0x11 * 2 ^ 40) =
    some (.vadd ⟨6, 6, 0, 0, 0, 0, 0, 0, 0, 0, 0, 0, 1, 2, 0, 0, 0x11, 0, 0, 0, 0⟩)

/-- Decoding undoes encoding, for every block form with every operand: the word is 32 bits long and decodes to the form,
or, for the rows that share a word, to the row its operands select (R213, R214, R226, R278, R296). That KSEL has a
hint field is the model's reading of two rules (log entry 96). -/
def Obligations.BlockFormsRoundTrip : Prop :=
  ∀ (i : Instr) (w : Nat), i.fieldsOk = true → encode i = some w → w < 2 ^ 32 ∧ w / 2 ^ 25 ≠ 0 ∧
    ∃ j, decode w = .ok j ∧ (∃ a b, refine j a b = i) ∧ encode j = some w

/-- No two words stand for one block form: encoding undoes decoding, so every bit of a word that is accepted is read, and
every reserved opcode, predicate, target and field is refused by its name (R213, R216, R217, R226, R420). That KSEL
has a hint field is the model's reading of two rules (log entry 96). -/
def Obligations.BlockWordsRoundTrip : Prop :=
  (∀ (w : Nat) (i : Instr), w < 2 ^ 32 → decode w = .ok i → encode i = some w ∧ i.fieldsOk = true) ∧
  (∀ w : Nat, w < 2 ^ 32 →
    (decode w = .error .reservedOpcode ↔ w / 2 ^ 25 ∈ [0x00, 0x3D, 0x3E, 0x3F, 0x7F]) ∧
    (decode w = .error .reservedPred ↔ w / 2 ^ 25 ∉ [0x00, 0x3D, 0x3E, 0x3F, 0x7F] ∧ w / 2 ^ 23 % 4 = 3) ∧
    (let op := w / 2 ^ 25
      let two : List Nat := [0x01, 0x02, 0x03, 0x04, 0x05, 0x06, 0x07, 0x08, 0x09, 0x0A, 0x0B, 0x0C, 0x0D, 0x0E, 0x0F, 0x10, 0x11, 0x12, 0x13,
        0x14, 0x15, 0x22, 0x24, 0x27, 0x2A]
      let exits : List Nat := [0x2C, 0x2E, 0x2F, 0x30, 0x31]
      let noField : List Nat := [0x2B, 0x2D, 0x41, 0x43, 0x44]
      let ill (f : Nat) : Prop := f / 64 = 7 ∨ f / 64 = 0 ∧ f % 64 ≠ 0
      decode w = .error .badTarget ↔ op ∉ [0x00, 0x3D, 0x3E, 0x3F, 0x7F] ∧ w / 2 ^ 23 % 4 ≠ 3 ∧
        (op ∈ two ∧ (ill (w % 512) ∨ ill (w / 512 % 512)) ∨ op ∈ exits ∧ w % 512 ≠ 0 ∨
          op ∉ two ∧ op ∉ exits ∧ op ∉ noField ∧ ill (w % 512))) ∧
    (decode w = .error .reservedField ↔ decode w ≠ .error .reservedOpcode ∧ decode w ≠ .error .reservedPred ∧ decode w ≠ .error .badTarget ∧
      ∀ i : Instr, i.fieldsOk = true → encode i ≠ some w))

/-- Decoding undoes encoding and encoding decoding for the words of elements, Folio nodes, near-bank nodes and command
entries, with every field at every value (R126, R182, R183, R229, R232, R291). -/
def Obligations.ConfigurationWordsRoundTrip : Prop :=
  (∀ i w, Sys2Proof.encodeElem i = some w → w < 2 ^ 128 ∧ decodeElem w = some i) ∧
  (∀ i w, w < 2 ^ 128 → decodeElem w = some i → Sys2Proof.encodeElem i = some w) ∧
  (∀ i w, encodeFolio i = some w → w < 2 ^ 64 ∧ decodeFolio w = some i) ∧
  (∀ i w, w < 2 ^ 64 → decodeFolio w = some i → encodeFolio i = some w) ∧
  (∀ i w, encodeNode i = some w → w < 2 ^ 64 ∧ decodeNode w = some i) ∧
  (∀ i w, w < 2 ^ 64 → decodeNode w = some i → encodeNode i = some w) ∧
  (∀ q i w, w < 2 ^ 512 → decodeCmd q w = some i → encodeCmd i = some w ∧ ∃ e, i.cmd? = some (q, e)) ∧
  (∀ q e i w, i.cmd? = some (q, e) → encodeCmd i = some w → w < 2 ^ 512 ∧ ((w / 2 ^ 24 % 256 ≠ 0x44) → decodeCmd q w = some i)) ∧
  (∀ (q : QueueRef) (e : CmdEntry) (w : Nat) (i : Instr), encodeCmd i = some w →
    let item := e.w1.toNat / 2 ^ 8 % 256
    (item = 0 ∧ i = .psetStage1Root q e ∨ item = 1 ∧ i = .psetStage2Range q e ∨ item = 2 ∧ i = .psetInboundWindow q e ∨
      item = 3 ∧ i = .psetRing q e ∨ item = 4 ∧ i = .psetInterruptVector q e) → decodeCmd q w = some i)

/-- Every step keeps HBM, host memory, the Annex and the owner window in canonical form: addresses strictly rising, and no
byte listed that reads as an unlisted one (the model's form of memory: log entry 3). -/
def Obligations.StepKeepsMemories : Prop :=
  ∀ s s' : State, s.memoriesOk = true → step s = .next s' → s'.memoriesOk = true

/-- The state after reset: the form of memory holds, no partition, task, launch, region or channel exists, every Catalogue
entry reads absent, and the alarm is at level 0 (R195, R197, R433; the zero start of the rest is the model's choice,
log entry 2). -/
def Obligations.ResetState : Prop :=
  let s := State.reset
  s.memoriesOk = true ∧ s.parts = [] ∧ s.launches = [] ∧ s.fab.tasks = [] ∧ s.fab.regions = [] ∧ s.fab.chans = [] ∧ s.ops = [] ∧
    s.ctrl = [] ∧ s.cgen = 0 ∧ (∀ kind inst, s.catState kind inst = 0) ∧ s.alarm.level = 0 ∧ s.alarm.latchA3 = false ∧
    (∀ a, Memory.read s.mem a = 0) ∧ s.placement = [] ∧ (∀ n, s.slice n = s.slice 0) ∧ s.modq.rp = 0 ∧ s.modq.wp = 0
end

