-- ==== Sys2Proof/Laws/Elements.lean ====
section
/-!
SUPPORT. What the shared shapes of elements, Folio nodes, near-bank nodes and operations in flight do, once each.
-/

namespace Sys2Proof.Machine

/-- An element that acts through its latches leaves what its firing gives. -/
theorem elemForm_fires {s : State} {r k pos : Nat} {g : Region} {w : ElemCfg} {f : ElemFn} {fd : Fired}
    (h : ElemTurn s r k pos g) (hf : f (elemInput s r g k pos w) = some fd) :
    elemForm w f s = .next (firedAt s r k pos g fd) := by
  obtain ⟨h1, h2, h3, h4⟩ := h
  simp [elemForm, h1, h2, h3, h4, hf, firedAt]

/-- An element that does not fire waits. -/
theorem elemForm_waits {s : State} {r k pos : Nat} {g : Region} {w : ElemCfg} {f : ElemFn}
    (h : ElemTurn s r k pos g) (hf : f (elemInput s r g k pos w) = none) : elemForm w f s = .refused .notReady := by
  obtain ⟨h1, h2, h3, h4⟩ := h
  simp [elemForm, h1, h2, h3, h4, hf, notReady]

/-- Whatever an element that acts through its latches answers as a next state is what a firing of it leaves. -/
theorem elemForm_next {s s' : State} {w : ElemCfg} {f : ElemFn} (h : elemForm w f s = .next s') :
    ∃ r k pos g fd, s.cur = .elem r k pos ∧ s.region? r = some g ∧ elemRuns s r g k pos = true ∧
      f (elemInput s r g k pos w) = some fd ∧ s' = firedAt s r k pos g fd := by
  unfold elemForm at h
  split at h <;> try (simp [notReady] at h)
  rename_i r k pos hc
  split at h <;> try (simp at h)
  rename_i g hg
  split at h <;> try (simp at h)
  rename_i hr
  split at h <;> try (simp at h)
  rename_i fd hfd
  exact ⟨r, k, pos, g, fd, hc, hg, by simp at hr; exact hr.1, hfd, by simpa [firedAt] using h.symm⟩

/-- A node of a Folio leaves what its firing gives, with its token at its readers. -/
theorem nodeForm_fires {s : State} {r k m : Nat} {g : Region} {f : Folio} {n : FolioNode} {op : NodeFn} {fd : Fired} {j : Nat} {t : Token}
    (h : NodeTurn s r k m g f) (hf : op (nodeInput s r g k m f n) = some fd) (ho : fd.outs = [(j, t)]) :
    nodeForm n op s = .next (nodeFiredAt s r k m g f fd t) := by
  obtain ⟨⟨h1, h2, h3, h4⟩, h5, h6⟩ := h
  have h7 : ¬2048 + m < 2048 := by omega
  simp [nodeForm, h1, h2, h3, h4, h5, h7, Nat.not_le.mpr h6, hf, ho, nodeFiredAt]

/-- A node of a Folio that does not fire waits. -/
theorem nodeForm_waits {s : State} {r k m : Nat} {g : Region} {f : Folio} {n : FolioNode} {op : NodeFn}
    (h : NodeTurn s r k m g f) (hf : op (nodeInput s r g k m f n) = none) : nodeForm n op s = .refused .notReady := by
  obtain ⟨⟨h1, h2, h3, h4⟩, h5, h6⟩ := h
  have h7 : ¬2048 + m < 2048 := by omega
  simp [nodeForm, h1, h2, h3, h4, h5, h7, Nat.not_le.mpr h6, hf, notReady]

end Sys2Proof.Machine
end

