-- ==== Sys2Proof/Laws/Forms.lean ====
section
/-!
SUPPORT. What the shared shapes of block forms do, once each: the callers' statements cite these and do not unfold the
shapes.
-/

namespace Sys2Proof.Machine

/-- A computing form that fires gives its value. -/
theorem compute_fires {s : State} {p : Pred} {n : Needs} {tid k : Nat} {t : Task} {b : Block} {x y z : Word}
    (ts : List Target) (f : Word → Word → Word → Word × Nat) (h : Fires s p n tid k t b x y z) :
    compute p n ts s f = .next (firedWith s tid k t b ts (f x y z).1 (f x y z).2) := by
  obtain ⟨h1, h2, h3, h4⟩ := h
  simp only [compute, inBlock, inBlockS, firing, h1, h2, h3, h4, firedWith, afterFire, growBlock]
  split <;> simp_all

/-- An in-block form that touches nothing outside its block and fires with a value. -/
theorem inBlock_fires {s : State} {p : Pred} {n : Needs} {tid k : Nat} {t : Task} {b : Block} {x y z v : Word} {fl : Nat}
    {ts : List Target} {g : Nat → Task → Block → Word → Word → Word → Res}
    (h : Fires s p n tid k t b x y z) (hg : g tid t b x y z = .val v fl) :
    inBlock p n ts s g = .next (firedWith s tid k t b ts v fl) := by
  obtain ⟨h1, h2, h3, h4⟩ := h
  simp only [inBlock, inBlockS, firing, h1, h2, h3, h4, hg, firedWith, afterFire, growBlock]
  split <;> simp_all

/-- A commit form that fires captures its operands and resolves its outputs, when no register of its has a value yet. -/
theorem commitForm_fires {s : State} {p : Pred} {n : Needs} {tid k j : Nat} {ta : Target} {t : Task} {b : Block} {x y z : Word}
    (cf : CForm) (h : Fires s p n tid j t b x y z) (hc : (regsOf k ta).any b.claimed = false) :
    commitForm p n ta k cf s = .next (putBlock s tid t { b.mark j .fired with
      regn := b.regn + regCount k ta, claims := b.claims ++ regsOf k ta, outn := b.outn + 1
      caps := b.caps ++ [⟨j, x, y, z⟩] }) := by
  obtain ⟨h1, h2, h3, h4⟩ := h
  simp [commitForm, firing, h1, h2, h3, h4, hc, growBlock]

/-- A commit form whose register has a value already takes 0x0109. -/
theorem commitForm_claimed {s : State} {p : Pred} {n : Needs} {tid k j : Nat} {ta : Target} {t : Task} {b : Block} {x y z : Word}
    (cf : CForm) (h : Fires s p n tid j t b x y z) (hc : (regsOf k ta).any b.claimed = true) :
    commitForm p n ta k cf s = .next (takeFault s tid (exc 0x0109)) := by
  obtain ⟨h1, h2, h3, h4⟩ := h
  simp [commitForm, firing, h1, h2, h3, h4, hc, growBlock]

/-- A commit form that passes its check and is ready has its effect. -/
theorem commitForm_acts {s : State} {p : Pred} {n : Needs} {tid k j : Nat} {ta : Target} {a b c : Word} {cf : CForm}
    (h : Commits s tid j a b c) (hc : cf.check s tid a b c = none) (hr : cf.ready s tid a b c = true) :
    commitForm p n ta k cf s = .next (cf.eff s tid a b c) := by
  simp only [commitForm, show s.cur = _ from h, hc, hr, if_true]

/-- A commit form that fails its check takes the exception. -/
theorem commitForm_fails {s : State} {p : Pred} {n : Needs} {tid k j : Nat} {ta : Target} {a b c : Word} {cf : CForm} {f : Flt0}
    (h : Commits s tid j a b c) (hc : cf.check s tid a b c = some f) :
    commitForm p n ta k cf s = .next (takeFault s tid f) := by
  simp only [commitForm, show s.cur = _ from h, hc]

/-- An exit that fires is noted, when none has fired yet. -/
theorem exitForm_fires {s : State} {p : Pred} {n : Needs} {tid k : Nat} {t : Task} {b : Block} {x y z : Word}
    (h : Fires s p n tid k t b x y z) (he : b.exits = []) :
    exitForm p n s = .next (putBlock s tid t { b.mark k .fired with exits := [⟨k, x, y, z⟩] }) := by
  obtain ⟨h1, h2, h3, h4⟩ := h
  simp only [exitForm, firing, h1, h2, h3, h4, he, List.isEmpty_nil, if_true, growBlock]

/-- Whatever a computing form answers as a next state is one of four things. -/
theorem compute_next {s s' : State} {p : Pred} {n : Needs} {ts : List Target} {f : Word → Word → Word → Word × Nat}
    (h : compute p n ts s f = .next s') :
    ∃ tid t, s.task? tid = some t ∧ ((∃ b, s' = putBlock s tid t b) ∨ s' = takeFault s tid (exc 0x0109)) := by
  simp only [compute, inBlock, inBlockS, firing] at h
  split at h <;> try (simp [notReady] at h)
  rename_i tid k t b hf
  have ht : s.task? tid = some t := by
    split at hf <;> try (simp at hf)
    split at hf <;> try (simp at hf)
    split at hf <;> simp_all
  refine ⟨tid, t, ht, ?_⟩
  have grow : ∀ ob, growBlock s tid t ob = .next s' → (∃ b, s' = putBlock s tid t b) ∨ s' = takeFault s tid (exc 0x0109) := by
    intro ob hg
    cases ob with
    | none => simp [growBlock] at hg; exact .inr hg.symm
    | some b' => simp [growBlock] at hg; exact .inl ⟨b', hg.symm⟩
  split at h
  · simp at h
  · exact grow _ h
  · exact grow _ h
  · exact grow _ h

end Sys2Proof.Machine
end

