-- ==== Sys2Proof/Laws/Memory.lean ====
section
/-!
SUPPORT. The laws of finite maps and of memories: read after write, and the canonical form that every operation keeps.
-/

namespace Sys2Proof.Machine

/-! ### Finite maps -/

@[simp] theorem mget_nil {α : Type} (k : Nat) : mget ([] : Map α) k = none := rfl

/-- What was written at a key is there. -/
@[simp] theorem mget_mset_self {α : Type} (m : Map α) (k : Nat) (v : α) : mget (mset m k v) k = some v := by
  induction m with
  | nil => simp [mset, mget]
  | cons p m ih =>
    obtain ⟨j, u⟩ := p
    simp only [mset]
    split
    · simp [mget]
    · split
      · simp [mget]
      · rename_i h; simp [mget, ih, Ne.symm h]

/-- A write leaves every other key alone. -/
theorem mget_mset_ne {α : Type} (m : Map α) {k j : Nat} (v : α) (h : j ≠ k) : mget (mset m k v) j = mget m j := by
  induction m with
  | nil => simp [mset, mget, Ne.symm h]
  | cons p m ih =>
    obtain ⟨i, u⟩ := p
    simp only [mset]
    split
    · simp [mget, Ne.symm h]
    · split
      · rename_i h2; subst h2; simp [mget, Ne.symm h]
      · simp [mget, ih]

/-- A key that has been removed is absent. -/
@[simp] theorem mget_merase_self {α : Type} (m : Map α) (k : Nat) : mget (merase m k) k = none := by
  induction m with
  | nil => rfl
  | cons p m ih =>
    obtain ⟨j, u⟩ := p
    simp only [merase]
    split
    · exact ih
    · rename_i h; simp [mget, h, ih]

/-- Removing a key leaves every other key alone. -/
theorem mget_merase_ne {α : Type} (m : Map α) {k j : Nat} (h : j ≠ k) : mget (merase m k) j = mget m j := by
  induction m with
  | nil => rfl
  | cons p m ih =>
    obtain ⟨i, u⟩ := p
    simp only [merase]
    split
    · rename_i h2; subst h2; simp [mget, ih, Ne.symm h]
    · simp [mget, ih]

/-- A bound below all keys may be lowered. -/
theorem msorted_weaken {α : Type} {m : Map α} {a b : Nat} (h : msorted (some b) m = true) (hab : a ≤ b) :
    msorted (some a) m = true := by
  cases m with
  | nil => rfl
  | cons p m => simp only [msorted, Bool.and_eq_true, decide_eq_true_eq] at *; exact ⟨by omega, h.2⟩

/-- Keys that rise above a bound rise. -/
theorem msorted_none {α : Type} {m : Map α} {b : Nat} (h : msorted (some b) m = true) : msorted none m = true := by
  cases m with
  | nil => rfl
  | cons p m => simp only [msorted, Bool.and_eq_true] at *; exact h.2

/-- A write above a bound keeps the keys rising above it. -/
theorem msorted_mset_some {α : Type} (m : Map α) (b k : Nat) (v : α) (h : msorted (some b) m = true) (hb : b < k) :
    msorted (some b) (mset m k v) = true := by
  induction m generalizing b with
  | nil => simp [mset, msorted, hb]
  | cons p m ih =>
    obtain ⟨j, u⟩ := p
    simp only [msorted, Bool.and_eq_true, decide_eq_true_eq] at h
    simp only [mset]
    split
    · simp only [msorted, Bool.and_eq_true, decide_eq_true_eq]; exact ⟨hb, ‹_›, h.2⟩
    · split
      · rename_i h2; subst h2; simp only [msorted, Bool.and_eq_true, decide_eq_true_eq]; exact ⟨hb, h.2⟩
      · simp only [msorted, Bool.and_eq_true, decide_eq_true_eq]; exact ⟨h.1, ih j h.2 (by omega)⟩

/-- A write keeps the keys rising. -/
theorem msorted_mset {α : Type} (m : Map α) (k : Nat) (v : α) (h : msorted none m = true) : msorted none (mset m k v) = true := by
  cases m with
  | nil => rfl
  | cons p m =>
    obtain ⟨j, u⟩ := p
    simp only [msorted] at h
    simp only [mset]
    split
    · simp only [msorted, Bool.and_eq_true, decide_eq_true_eq]; exact ⟨‹_›, h⟩
    · split
      · rename_i h2; subst h2; exact h
      · simp only [msorted]; exact msorted_mset_some m j k v h (by omega)

/-- A part of a map whose keys rise above a bound has keys that rise above it. -/
theorem msorted_filter_some {α : Type} (f : Nat × α → Bool) (m : Map α) (b : Nat) (h : msorted (some b) m = true) :
    msorted (some b) (m.filter f) = true := by
  induction m generalizing b with
  | nil => rfl
  | cons p m ih =>
    obtain ⟨j, u⟩ := p
    simp only [msorted, Bool.and_eq_true, decide_eq_true_eq] at h
    simp only [List.filter_cons]
    split
    · simp only [msorted, Bool.and_eq_true, decide_eq_true_eq]; exact ⟨h.1, ih j h.2⟩
    · exact msorted_weaken (ih j h.2) (by omega)

/-- A part of a map keeps the keys rising. -/
theorem msorted_filter {α : Type} (f : Nat × α → Bool) (m : Map α) (h : msorted none m = true) :
    msorted none (m.filter f) = true := by
  cases m with
  | nil => rfl
  | cons p m =>
    obtain ⟨j, u⟩ := p
    simp only [msorted] at h
    simp only [List.filter_cons]
    split
    · simp only [msorted]; exact msorted_filter_some f m j h
    · exact msorted_none (msorted_filter_some f m j h)

/-- Removing a key takes a part of the map. -/
theorem merase_filter {α : Type} (m : Map α) (k : Nat) : merase m k = m.filter fun p => decide (p.1 ≠ k) := by
  induction m with
  | nil => rfl
  | cons p m ih =>
    obtain ⟨j, u⟩ := p
    simp only [merase, List.filter_cons]
    by_cases h : j = k <;> simp [h, ih]

/-- Removing a key keeps the keys rising. -/
theorem msorted_merase {α : Type} (m : Map α) (k : Nat) (h : msorted none m = true) : msorted none (merase m k) = true := by
  rw [merase_filter]; exact msorted_filter _ m h

/-! ### Memories -/

/-- A part of a memory in canonical form is in canonical form. -/
theorem Memory.wf_filter (m : Memory) (f : Host.Cell → Bool) (h : Memory.wf m = true) : Memory.wf (m.filter f) = true := by
  simp only [Memory.wf, Bool.and_eq_true, List.all_eq_true] at *
  exact ⟨msorted_filter f m h.1, fun c hc => h.2 c (List.mem_filter.mp hc).1⟩

/-- Clearing keeps the canonical form. -/
theorem Memory.wf_clear (m : Memory) (a n : Nat) (h : Memory.wf m = true) : Memory.wf (Memory.clear m a n) = true :=
  Memory.wf_filter m _ h

/-- What stands in a map after a write is the value or stood there. -/
theorem mem_mset {α : Type} {m : Map α} {k : Nat} {v : α} {p : Nat × α} (h : p ∈ mset m k v) : p = (k, v) ∨ p ∈ m := by
  induction m with
  | nil => simp [mset] at h; exact .inl h
  | cons q m ih =>
    obtain ⟨j, u⟩ := q
    simp only [mset] at h
    split at h
    · simp only [List.mem_cons] at *; exact h
    · split at h
      · simp only [List.mem_cons] at *; exact h.imp_right .inr
      · simp at h; rcases h with h | h
        · simp [h]
        · rcases ih h with h | h <;> simp [h]

/-- A write of one byte keeps the canonical form. -/
theorem Memory.wf_write (m : Memory) (a : Nat) (b : Byte) (h : Memory.wf m = true) : Memory.wf (m.write a b) = true := by
  simp only [Memory.write]
  split
  · rw [merase_filter]; exact Memory.wf_filter m _ h
  · simp only [Memory.wf, Bool.and_eq_true, List.all_eq_true] at *
    refine ⟨msorted_mset m a b h.1, fun c hc => ?_⟩
    rcases mem_mset hc with rfl | hc
    · simpa using ‹_›
    · exact h.2 c hc

/-- A write of bytes keeps the canonical form. -/
theorem Memory.wf_writeN (m : Memory) (a : Nat) (bs : List Byte) (h : Memory.wf m = true) : Memory.wf (m.writeN a bs) = true := by
  induction bs generalizing m a with
  | nil => exact h
  | cons b bs ih => exact ih _ _ (Memory.wf_write m a b h)

/-- The cells of a copy written one after another keep the canonical form. -/
theorem Memory.wf_writes (cs : List Host.Cell) (m : Memory) (h : Memory.wf m = true) :
    Memory.wf (cs.foldl (fun m (c : Host.Cell) => Memory.write m c.1 c.2) m) = true := by
  induction cs generalizing m with
  | nil => exact h
  | cons c cs ih => exact ih _ (Memory.wf_write m c.1 c.2 h)

/-- Clearing one range after another keeps the canonical form. -/
theorem Memory.wf_clears {α : Type} (f : α → Nat) (n : Nat) (xs : List α) (m : Memory) (h : Memory.wf m = true) :
    Memory.wf (xs.foldl (fun m x => Memory.clear m (f x) n) m) = true := by
  induction xs generalizing m with
  | nil => exact h
  | cons x xs ih => exact ih _ (Memory.wf_clear m (f x) n h)

/-- A read after a write to the same address gives the byte written. -/
@[simp] theorem Memory.read_write_self (m : Memory) (a : Nat) (b : Byte) : Memory.read (m.write a b) a = b := by
  simp only [Memory.write, Memory.read, mgetD]
  split
  · simp [*]
  · simp

/-- A write leaves every other address alone. -/
theorem Memory.read_write_ne (m : Memory) {a x : Nat} (b : Byte) (h : x ≠ a) : Memory.read (m.write a b) x = Memory.read m x := by
  simp only [Memory.write, Memory.read, mgetD]
  split
  · rw [mget_merase_ne m h]
  · rw [mget_mset_ne m b h]

/-- A write of bytes leaves every address outside them alone. -/
theorem Memory.read_writeN_out (m : Memory) (a : Nat) (bs : List Byte) {x : Nat} (h : x < a ∨ a + bs.length ≤ x) :
    Memory.read (m.writeN a bs) x = Memory.read m x := by
  induction bs generalizing m a with
  | nil => rfl
  | cons b bs ih =>
    simp only [List.length_cons] at h
    rw [Memory.writeN, ih _ _ (by omega), Memory.read_write_ne m b (by omega)]

/-- A read of a byte of what was written gives it. -/
theorem Memory.read_writeN_in (m : Memory) (a : Nat) (bs : List Byte) {j : Nat} (h : j < bs.length) :
    Memory.read (m.writeN a bs) (a + j) = lget bs j 0 := by
  induction bs generalizing m a j with
  | nil => simp at h
  | cons b bs ih =>
    cases j with
    | zero =>
      rw [Memory.writeN, Memory.read_writeN_out _ _ _ (by omega), Nat.add_zero, Memory.read_write_self]
      rfl
    | succ j =>
      simp only [List.length_cons] at h
      have := ih (m.write a b) (a + 1) (j := j) (by omega)
      rw [Memory.writeN, show a + (j + 1) = a + 1 + j by omega, this]
      rfl

/-- A memory's clear leaves every address outside the range alone. -/
theorem Memory.read_clear_out (m : Memory) (a n x : Nat) (h : x < a ∨ a + n ≤ x) : Memory.read (Memory.clear m a n) x = Memory.read m x := by
  simp only [Memory.read, mgetD, Memory.clear]
  congr 1
  induction m with
  | nil => rfl
  | cons p m ih =>
    obtain ⟨j, u⟩ := p
    simp only [List.filter_cons]
    split
    · simp only [mget, ih]
    · rename_i hj
      simp only [Bool.or_eq_true, decide_eq_true_eq] at hj
      have : j ≠ x := by omega
      simp [mget, this, ih]

end Sys2Proof.Machine
end

