-- ==== Sys2Proof/Laws/State.lean ====
section
/-!
SUPPORT. What each update of the state leaves as it was, field by field, and what a read after it gives.
-/

namespace Sys2Proof.Machine

/-! ### setFab -/

@[simp] theorem State.setFab_time (s : State) (f : Fabric) : (s.setFab f).time = s.time := rfl
@[simp] theorem State.setFab_oracle (s : State) (f : Fabric) : (s.setFab f).oracle = s.oracle := rfl
@[simp] theorem State.setFab_agenda (s : State) (f : Fabric) : (s.setFab f).agenda = s.agenda := rfl
@[simp] theorem State.setFab_cur (s : State) (f : Fabric) : (s.setFab f).cur = s.cur := rfl
@[simp] theorem State.setFab_inputs (s : State) (f : Fabric) : (s.setFab f).inputs = s.inputs := rfl
@[simp] theorem State.setFab_nextId (s : State) (f : Fabric) : (s.setFab f).nextId = s.nextId := rfl
@[simp] theorem State.setFab_mem (s : State) (f : Fabric) : (s.setFab f).mem = s.mem := rfl
@[simp] theorem State.setFab_hostMem (s : State) (f : Fabric) : (s.setFab f).hostMem = s.hostMem := rfl
@[simp] theorem State.setFab_annex (s : State) (f : Fabric) : (s.setFab f).annex = s.annex := rfl
@[simp] theorem State.setFab_owner (s : State) (f : Fabric) : (s.setFab f).owner = s.owner := rfl
@[simp] theorem State.setFab_poison (s : State) (f : Fabric) : (s.setFab f).poison = s.poison := rfl
@[simp] theorem State.setFab_parts (s : State) (f : Fabric) : (s.setFab f).parts = s.parts := rfl
@[simp] theorem State.setFab_launches (s : State) (f : Fabric) : (s.setFab f).launches = s.launches := rfl
@[simp] theorem State.setFab_saved (s : State) (f : Fabric) : (s.setFab f).saved = s.saved := rfl
@[simp] theorem State.setFab_ops (s : State) (f : Fabric) : (s.setFab f).ops = s.ops := rfl
@[simp] theorem State.setFab_copies (s : State) (f : Fabric) : (s.setFab f).copies = s.copies := rfl
@[simp] theorem State.setFab_ctrl (s : State) (f : Fabric) : (s.setFab f).ctrl = s.ctrl := rfl
@[simp] theorem State.setFab_tlbs (s : State) (f : Fabric) : (s.setFab f).tlbs = s.tlbs := rfl
@[simp] theorem State.setFab_slices (s : State) (f : Fabric) : (s.setFab f).slices = s.slices := rfl
@[simp] theorem State.setFab_shelvers (s : State) (f : Fabric) : (s.setFab f).shelvers = s.shelvers := rfl
@[simp] theorem State.setFab_trees (s : State) (f : Fabric) : (s.setFab f).trees = s.trees := rfl
@[simp] theorem State.setFab_nb (s : State) (f : Fabric) : (s.setFab f).nb = s.nb := rfl
@[simp] theorem State.setFab_cgen (s : State) (f : Fabric) : (s.setFab f).cgen = s.cgen := rfl
@[simp] theorem State.setFab_cat (s : State) (f : Fabric) : (s.setFab f).cat = s.cat := rfl
@[simp] theorem State.setFab_placement (s : State) (f : Fabric) : (s.setFab f).placement = s.placement := rfl
@[simp] theorem State.setFab_modq (s : State) (f : Fabric) : (s.setFab f).modq = s.modq := rfl
@[simp] theorem State.setFab_alarm (s : State) (f : Fabric) : (s.setFab f).alarm = s.alarm := rfl
@[simp] theorem State.setFab_tiles (s : State) (f : Fabric) : (s.setFab f).tiles = s.tiles := rfl
@[simp] theorem State.setFab_errs (s : State) (f : Fabric) : (s.setFab f).errs = s.errs := rfl
@[simp] theorem State.setFab_veils (s : State) (f : Fabric) : (s.setFab f).veils = s.veils := rfl
@[simp] theorem State.setFab_walkq (s : State) (f : Fabric) : (s.setFab f).walkq = s.walkq := rfl
@[simp] theorem State.setFab_coreMem (s : State) (f : Fabric) : (s.setFab f).coreMem = s.coreMem := rfl
@[simp] theorem State.setFab_speakers (s : State) (f : Fabric) : (s.setFab f).speakers = s.speakers := rfl
@[simp] theorem State.setFab_flits (s : State) (f : Fabric) : (s.setFab f).flits = s.flits := rfl
@[simp] theorem State.setFab_firmware (s : State) (f : Fabric) : (s.setFab f).firmware = s.firmware := rfl
@[simp] theorem State.setFab_record (s : State) (f : Fabric) : (s.setFab f).record = s.record := rfl
@[simp] theorem State.setFab_keys (s : State) (f : Fabric) : (s.setFab f).keys = s.keys := rfl
@[simp] theorem State.setFab_bootPeriod (s : State) (f : Fabric) : (s.setFab f).bootPeriod = s.bootPeriod := rfl
@[simp] theorem State.setFab_wakeFails (s : State) (f : Fabric) : (s.setFab f).wakeFails = s.wakeFails := rfl

/-! ### setTask -/

@[simp] theorem State.setTask_time (s : State) (tid : Nat) (t : Task) : (s.setTask tid t).time = s.time := rfl
@[simp] theorem State.setTask_oracle (s : State) (tid : Nat) (t : Task) : (s.setTask tid t).oracle = s.oracle := rfl
@[simp] theorem State.setTask_agenda (s : State) (tid : Nat) (t : Task) : (s.setTask tid t).agenda = s.agenda := rfl
@[simp] theorem State.setTask_cur (s : State) (tid : Nat) (t : Task) : (s.setTask tid t).cur = s.cur := rfl
@[simp] theorem State.setTask_inputs (s : State) (tid : Nat) (t : Task) : (s.setTask tid t).inputs = s.inputs := rfl
@[simp] theorem State.setTask_nextId (s : State) (tid : Nat) (t : Task) : (s.setTask tid t).nextId = s.nextId := rfl
@[simp] theorem State.setTask_mem (s : State) (tid : Nat) (t : Task) : (s.setTask tid t).mem = s.mem := rfl
@[simp] theorem State.setTask_hostMem (s : State) (tid : Nat) (t : Task) : (s.setTask tid t).hostMem = s.hostMem := rfl
@[simp] theorem State.setTask_annex (s : State) (tid : Nat) (t : Task) : (s.setTask tid t).annex = s.annex := rfl
@[simp] theorem State.setTask_owner (s : State) (tid : Nat) (t : Task) : (s.setTask tid t).owner = s.owner := rfl
@[simp] theorem State.setTask_poison (s : State) (tid : Nat) (t : Task) : (s.setTask tid t).poison = s.poison := rfl
@[simp] theorem State.setTask_parts (s : State) (tid : Nat) (t : Task) : (s.setTask tid t).parts = s.parts := rfl
@[simp] theorem State.setTask_launches (s : State) (tid : Nat) (t : Task) : (s.setTask tid t).launches = s.launches := rfl
@[simp] theorem State.setTask_saved (s : State) (tid : Nat) (t : Task) : (s.setTask tid t).saved = s.saved := rfl
@[simp] theorem State.setTask_ops (s : State) (tid : Nat) (t : Task) : (s.setTask tid t).ops = s.ops := rfl
@[simp] theorem State.setTask_copies (s : State) (tid : Nat) (t : Task) : (s.setTask tid t).copies = s.copies := rfl
@[simp] theorem State.setTask_ctrl (s : State) (tid : Nat) (t : Task) : (s.setTask tid t).ctrl = s.ctrl := rfl
@[simp] theorem State.setTask_tlbs (s : State) (tid : Nat) (t : Task) : (s.setTask tid t).tlbs = s.tlbs := rfl
@[simp] theorem State.setTask_slices (s : State) (tid : Nat) (t : Task) : (s.setTask tid t).slices = s.slices := rfl
@[simp] theorem State.setTask_shelvers (s : State) (tid : Nat) (t : Task) : (s.setTask tid t).shelvers = s.shelvers := rfl
@[simp] theorem State.setTask_trees (s : State) (tid : Nat) (t : Task) : (s.setTask tid t).trees = s.trees := rfl
@[simp] theorem State.setTask_nb (s : State) (tid : Nat) (t : Task) : (s.setTask tid t).nb = s.nb := rfl
@[simp] theorem State.setTask_cgen (s : State) (tid : Nat) (t : Task) : (s.setTask tid t).cgen = s.cgen := rfl
@[simp] theorem State.setTask_cat (s : State) (tid : Nat) (t : Task) : (s.setTask tid t).cat = s.cat := rfl
@[simp] theorem State.setTask_placement (s : State) (tid : Nat) (t : Task) : (s.setTask tid t).placement = s.placement := rfl
@[simp] theorem State.setTask_modq (s : State) (tid : Nat) (t : Task) : (s.setTask tid t).modq = s.modq := rfl
@[simp] theorem State.setTask_alarm (s : State) (tid : Nat) (t : Task) : (s.setTask tid t).alarm = s.alarm := rfl
@[simp] theorem State.setTask_tiles (s : State) (tid : Nat) (t : Task) : (s.setTask tid t).tiles = s.tiles := rfl
@[simp] theorem State.setTask_errs (s : State) (tid : Nat) (t : Task) : (s.setTask tid t).errs = s.errs := rfl
@[simp] theorem State.setTask_veils (s : State) (tid : Nat) (t : Task) : (s.setTask tid t).veils = s.veils := rfl
@[simp] theorem State.setTask_walkq (s : State) (tid : Nat) (t : Task) : (s.setTask tid t).walkq = s.walkq := rfl
@[simp] theorem State.setTask_coreMem (s : State) (tid : Nat) (t : Task) : (s.setTask tid t).coreMem = s.coreMem := rfl
@[simp] theorem State.setTask_speakers (s : State) (tid : Nat) (t : Task) : (s.setTask tid t).speakers = s.speakers := rfl
@[simp] theorem State.setTask_flits (s : State) (tid : Nat) (t : Task) : (s.setTask tid t).flits = s.flits := rfl
@[simp] theorem State.setTask_firmware (s : State) (tid : Nat) (t : Task) : (s.setTask tid t).firmware = s.firmware := rfl
@[simp] theorem State.setTask_record (s : State) (tid : Nat) (t : Task) : (s.setTask tid t).record = s.record := rfl
@[simp] theorem State.setTask_keys (s : State) (tid : Nat) (t : Task) : (s.setTask tid t).keys = s.keys := rfl
@[simp] theorem State.setTask_bootPeriod (s : State) (tid : Nat) (t : Task) : (s.setTask tid t).bootPeriod = s.bootPeriod := rfl
@[simp] theorem State.setTask_wakeFails (s : State) (tid : Nat) (t : Task) : (s.setTask tid t).wakeFails = s.wakeFails := rfl

/-! ### setChan -/

@[simp] theorem State.setChan_time (s : State) (a : Nat) (c : Channel) : (s.setChan a c).time = s.time := rfl
@[simp] theorem State.setChan_oracle (s : State) (a : Nat) (c : Channel) : (s.setChan a c).oracle = s.oracle := rfl
@[simp] theorem State.setChan_agenda (s : State) (a : Nat) (c : Channel) : (s.setChan a c).agenda = s.agenda := rfl
@[simp] theorem State.setChan_cur (s : State) (a : Nat) (c : Channel) : (s.setChan a c).cur = s.cur := rfl
@[simp] theorem State.setChan_inputs (s : State) (a : Nat) (c : Channel) : (s.setChan a c).inputs = s.inputs := rfl
@[simp] theorem State.setChan_nextId (s : State) (a : Nat) (c : Channel) : (s.setChan a c).nextId = s.nextId := rfl
@[simp] theorem State.setChan_mem (s : State) (a : Nat) (c : Channel) : (s.setChan a c).mem = s.mem := rfl
@[simp] theorem State.setChan_hostMem (s : State) (a : Nat) (c : Channel) : (s.setChan a c).hostMem = s.hostMem := rfl
@[simp] theorem State.setChan_annex (s : State) (a : Nat) (c : Channel) : (s.setChan a c).annex = s.annex := rfl
@[simp] theorem State.setChan_owner (s : State) (a : Nat) (c : Channel) : (s.setChan a c).owner = s.owner := rfl
@[simp] theorem State.setChan_poison (s : State) (a : Nat) (c : Channel) : (s.setChan a c).poison = s.poison := rfl
@[simp] theorem State.setChan_parts (s : State) (a : Nat) (c : Channel) : (s.setChan a c).parts = s.parts := rfl
@[simp] theorem State.setChan_launches (s : State) (a : Nat) (c : Channel) : (s.setChan a c).launches = s.launches := rfl
@[simp] theorem State.setChan_saved (s : State) (a : Nat) (c : Channel) : (s.setChan a c).saved = s.saved := rfl
@[simp] theorem State.setChan_ops (s : State) (a : Nat) (c : Channel) : (s.setChan a c).ops = s.ops := rfl
@[simp] theorem State.setChan_copies (s : State) (a : Nat) (c : Channel) : (s.setChan a c).copies = s.copies := rfl
@[simp] theorem State.setChan_ctrl (s : State) (a : Nat) (c : Channel) : (s.setChan a c).ctrl = s.ctrl := rfl
@[simp] theorem State.setChan_tlbs (s : State) (a : Nat) (c : Channel) : (s.setChan a c).tlbs = s.tlbs := rfl
@[simp] theorem State.setChan_slices (s : State) (a : Nat) (c : Channel) : (s.setChan a c).slices = s.slices := rfl
@[simp] theorem State.setChan_shelvers (s : State) (a : Nat) (c : Channel) : (s.setChan a c).shelvers = s.shelvers := rfl
@[simp] theorem State.setChan_trees (s : State) (a : Nat) (c : Channel) : (s.setChan a c).trees = s.trees := rfl
@[simp] theorem State.setChan_nb (s : State) (a : Nat) (c : Channel) : (s.setChan a c).nb = s.nb := rfl
@[simp] theorem State.setChan_cgen (s : State) (a : Nat) (c : Channel) : (s.setChan a c).cgen = s.cgen := rfl
@[simp] theorem State.setChan_cat (s : State) (a : Nat) (c : Channel) : (s.setChan a c).cat = s.cat := rfl
@[simp] theorem State.setChan_placement (s : State) (a : Nat) (c : Channel) : (s.setChan a c).placement = s.placement := rfl
@[simp] theorem State.setChan_modq (s : State) (a : Nat) (c : Channel) : (s.setChan a c).modq = s.modq := rfl
@[simp] theorem State.setChan_alarm (s : State) (a : Nat) (c : Channel) : (s.setChan a c).alarm = s.alarm := rfl
@[simp] theorem State.setChan_tiles (s : State) (a : Nat) (c : Channel) : (s.setChan a c).tiles = s.tiles := rfl
@[simp] theorem State.setChan_errs (s : State) (a : Nat) (c : Channel) : (s.setChan a c).errs = s.errs := rfl
@[simp] theorem State.setChan_veils (s : State) (a : Nat) (c : Channel) : (s.setChan a c).veils = s.veils := rfl
@[simp] theorem State.setChan_walkq (s : State) (a : Nat) (c : Channel) : (s.setChan a c).walkq = s.walkq := rfl
@[simp] theorem State.setChan_coreMem (s : State) (a : Nat) (c : Channel) : (s.setChan a c).coreMem = s.coreMem := rfl
@[simp] theorem State.setChan_speakers (s : State) (a : Nat) (c : Channel) : (s.setChan a c).speakers = s.speakers := rfl
@[simp] theorem State.setChan_flits (s : State) (a : Nat) (c : Channel) : (s.setChan a c).flits = s.flits := rfl
@[simp] theorem State.setChan_firmware (s : State) (a : Nat) (c : Channel) : (s.setChan a c).firmware = s.firmware := rfl
@[simp] theorem State.setChan_record (s : State) (a : Nat) (c : Channel) : (s.setChan a c).record = s.record := rfl
@[simp] theorem State.setChan_keys (s : State) (a : Nat) (c : Channel) : (s.setChan a c).keys = s.keys := rfl
@[simp] theorem State.setChan_bootPeriod (s : State) (a : Nat) (c : Channel) : (s.setChan a c).bootPeriod = s.bootPeriod := rfl
@[simp] theorem State.setChan_wakeFails (s : State) (a : Nat) (c : Channel) : (s.setChan a c).wakeFails = s.wakeFails := rfl

/-! ### setRegion -/

@[simp] theorem State.setRegion_time (s : State) (r : Nat) (g : Region) : (s.setRegion r g).time = s.time := rfl
@[simp] theorem State.setRegion_oracle (s : State) (r : Nat) (g : Region) : (s.setRegion r g).oracle = s.oracle := rfl
@[simp] theorem State.setRegion_agenda (s : State) (r : Nat) (g : Region) : (s.setRegion r g).agenda = s.agenda := rfl
@[simp] theorem State.setRegion_cur (s : State) (r : Nat) (g : Region) : (s.setRegion r g).cur = s.cur := rfl
@[simp] theorem State.setRegion_inputs (s : State) (r : Nat) (g : Region) : (s.setRegion r g).inputs = s.inputs := rfl
@[simp] theorem State.setRegion_nextId (s : State) (r : Nat) (g : Region) : (s.setRegion r g).nextId = s.nextId := rfl
@[simp] theorem State.setRegion_mem (s : State) (r : Nat) (g : Region) : (s.setRegion r g).mem = s.mem := rfl
@[simp] theorem State.setRegion_hostMem (s : State) (r : Nat) (g : Region) : (s.setRegion r g).hostMem = s.hostMem := rfl
@[simp] theorem State.setRegion_annex (s : State) (r : Nat) (g : Region) : (s.setRegion r g).annex = s.annex := rfl
@[simp] theorem State.setRegion_owner (s : State) (r : Nat) (g : Region) : (s.setRegion r g).owner = s.owner := rfl
@[simp] theorem State.setRegion_poison (s : State) (r : Nat) (g : Region) : (s.setRegion r g).poison = s.poison := rfl
@[simp] theorem State.setRegion_parts (s : State) (r : Nat) (g : Region) : (s.setRegion r g).parts = s.parts := rfl
@[simp] theorem State.setRegion_launches (s : State) (r : Nat) (g : Region) : (s.setRegion r g).launches = s.launches := rfl
@[simp] theorem State.setRegion_saved (s : State) (r : Nat) (g : Region) : (s.setRegion r g).saved = s.saved := rfl
@[simp] theorem State.setRegion_ops (s : State) (r : Nat) (g : Region) : (s.setRegion r g).ops = s.ops := rfl
@[simp] theorem State.setRegion_copies (s : State) (r : Nat) (g : Region) : (s.setRegion r g).copies = s.copies := rfl
@[simp] theorem State.setRegion_ctrl (s : State) (r : Nat) (g : Region) : (s.setRegion r g).ctrl = s.ctrl := rfl
@[simp] theorem State.setRegion_tlbs (s : State) (r : Nat) (g : Region) : (s.setRegion r g).tlbs = s.tlbs := rfl
@[simp] theorem State.setRegion_slices (s : State) (r : Nat) (g : Region) : (s.setRegion r g).slices = s.slices := rfl
@[simp] theorem State.setRegion_shelvers (s : State) (r : Nat) (g : Region) : (s.setRegion r g).shelvers = s.shelvers := rfl
@[simp] theorem State.setRegion_trees (s : State) (r : Nat) (g : Region) : (s.setRegion r g).trees = s.trees := rfl
@[simp] theorem State.setRegion_nb (s : State) (r : Nat) (g : Region) : (s.setRegion r g).nb = s.nb := rfl
@[simp] theorem State.setRegion_cgen (s : State) (r : Nat) (g : Region) : (s.setRegion r g).cgen = s.cgen := rfl
@[simp] theorem State.setRegion_cat (s : State) (r : Nat) (g : Region) : (s.setRegion r g).cat = s.cat := rfl
@[simp] theorem State.setRegion_placement (s : State) (r : Nat) (g : Region) : (s.setRegion r g).placement = s.placement := rfl
@[simp] theorem State.setRegion_modq (s : State) (r : Nat) (g : Region) : (s.setRegion r g).modq = s.modq := rfl
@[simp] theorem State.setRegion_alarm (s : State) (r : Nat) (g : Region) : (s.setRegion r g).alarm = s.alarm := rfl
@[simp] theorem State.setRegion_tiles (s : State) (r : Nat) (g : Region) : (s.setRegion r g).tiles = s.tiles := rfl
@[simp] theorem State.setRegion_errs (s : State) (r : Nat) (g : Region) : (s.setRegion r g).errs = s.errs := rfl
@[simp] theorem State.setRegion_veils (s : State) (r : Nat) (g : Region) : (s.setRegion r g).veils = s.veils := rfl
@[simp] theorem State.setRegion_walkq (s : State) (r : Nat) (g : Region) : (s.setRegion r g).walkq = s.walkq := rfl
@[simp] theorem State.setRegion_coreMem (s : State) (r : Nat) (g : Region) : (s.setRegion r g).coreMem = s.coreMem := rfl
@[simp] theorem State.setRegion_speakers (s : State) (r : Nat) (g : Region) : (s.setRegion r g).speakers = s.speakers := rfl
@[simp] theorem State.setRegion_flits (s : State) (r : Nat) (g : Region) : (s.setRegion r g).flits = s.flits := rfl
@[simp] theorem State.setRegion_firmware (s : State) (r : Nat) (g : Region) : (s.setRegion r g).firmware = s.firmware := rfl
@[simp] theorem State.setRegion_record (s : State) (r : Nat) (g : Region) : (s.setRegion r g).record = s.record := rfl
@[simp] theorem State.setRegion_keys (s : State) (r : Nat) (g : Region) : (s.setRegion r g).keys = s.keys := rfl
@[simp] theorem State.setRegion_bootPeriod (s : State) (r : Nat) (g : Region) : (s.setRegion r g).bootPeriod = s.bootPeriod := rfl
@[simp] theorem State.setRegion_wakeFails (s : State) (r : Nat) (g : Region) : (s.setRegion r g).wakeFails = s.wakeFails := rfl

/-! ### setUnit -/

@[simp] theorem State.setUnit_time (s : State) (u : Nat) (x : NbUnit) : (s.setUnit u x).time = s.time := rfl
@[simp] theorem State.setUnit_oracle (s : State) (u : Nat) (x : NbUnit) : (s.setUnit u x).oracle = s.oracle := rfl
@[simp] theorem State.setUnit_agenda (s : State) (u : Nat) (x : NbUnit) : (s.setUnit u x).agenda = s.agenda := rfl
@[simp] theorem State.setUnit_cur (s : State) (u : Nat) (x : NbUnit) : (s.setUnit u x).cur = s.cur := rfl
@[simp] theorem State.setUnit_inputs (s : State) (u : Nat) (x : NbUnit) : (s.setUnit u x).inputs = s.inputs := rfl
@[simp] theorem State.setUnit_nextId (s : State) (u : Nat) (x : NbUnit) : (s.setUnit u x).nextId = s.nextId := rfl
@[simp] theorem State.setUnit_mem (s : State) (u : Nat) (x : NbUnit) : (s.setUnit u x).mem = s.mem := rfl
@[simp] theorem State.setUnit_hostMem (s : State) (u : Nat) (x : NbUnit) : (s.setUnit u x).hostMem = s.hostMem := rfl
@[simp] theorem State.setUnit_annex (s : State) (u : Nat) (x : NbUnit) : (s.setUnit u x).annex = s.annex := rfl
@[simp] theorem State.setUnit_owner (s : State) (u : Nat) (x : NbUnit) : (s.setUnit u x).owner = s.owner := rfl
@[simp] theorem State.setUnit_poison (s : State) (u : Nat) (x : NbUnit) : (s.setUnit u x).poison = s.poison := rfl
@[simp] theorem State.setUnit_fab (s : State) (u : Nat) (x : NbUnit) : (s.setUnit u x).fab = s.fab := rfl
@[simp] theorem State.setUnit_parts (s : State) (u : Nat) (x : NbUnit) : (s.setUnit u x).parts = s.parts := rfl
@[simp] theorem State.setUnit_launches (s : State) (u : Nat) (x : NbUnit) : (s.setUnit u x).launches = s.launches := rfl
@[simp] theorem State.setUnit_saved (s : State) (u : Nat) (x : NbUnit) : (s.setUnit u x).saved = s.saved := rfl
@[simp] theorem State.setUnit_ops (s : State) (u : Nat) (x : NbUnit) : (s.setUnit u x).ops = s.ops := rfl
@[simp] theorem State.setUnit_copies (s : State) (u : Nat) (x : NbUnit) : (s.setUnit u x).copies = s.copies := rfl
@[simp] theorem State.setUnit_ctrl (s : State) (u : Nat) (x : NbUnit) : (s.setUnit u x).ctrl = s.ctrl := rfl
@[simp] theorem State.setUnit_tlbs (s : State) (u : Nat) (x : NbUnit) : (s.setUnit u x).tlbs = s.tlbs := rfl
@[simp] theorem State.setUnit_slices (s : State) (u : Nat) (x : NbUnit) : (s.setUnit u x).slices = s.slices := rfl
@[simp] theorem State.setUnit_shelvers (s : State) (u : Nat) (x : NbUnit) : (s.setUnit u x).shelvers = s.shelvers := rfl
@[simp] theorem State.setUnit_trees (s : State) (u : Nat) (x : NbUnit) : (s.setUnit u x).trees = s.trees := rfl
@[simp] theorem State.setUnit_cgen (s : State) (u : Nat) (x : NbUnit) : (s.setUnit u x).cgen = s.cgen := rfl
@[simp] theorem State.setUnit_cat (s : State) (u : Nat) (x : NbUnit) : (s.setUnit u x).cat = s.cat := rfl
@[simp] theorem State.setUnit_placement (s : State) (u : Nat) (x : NbUnit) : (s.setUnit u x).placement = s.placement := rfl
@[simp] theorem State.setUnit_modq (s : State) (u : Nat) (x : NbUnit) : (s.setUnit u x).modq = s.modq := rfl
@[simp] theorem State.setUnit_alarm (s : State) (u : Nat) (x : NbUnit) : (s.setUnit u x).alarm = s.alarm := rfl
@[simp] theorem State.setUnit_tiles (s : State) (u : Nat) (x : NbUnit) : (s.setUnit u x).tiles = s.tiles := rfl
@[simp] theorem State.setUnit_errs (s : State) (u : Nat) (x : NbUnit) : (s.setUnit u x).errs = s.errs := rfl
@[simp] theorem State.setUnit_veils (s : State) (u : Nat) (x : NbUnit) : (s.setUnit u x).veils = s.veils := rfl
@[simp] theorem State.setUnit_walkq (s : State) (u : Nat) (x : NbUnit) : (s.setUnit u x).walkq = s.walkq := rfl
@[simp] theorem State.setUnit_coreMem (s : State) (u : Nat) (x : NbUnit) : (s.setUnit u x).coreMem = s.coreMem := rfl
@[simp] theorem State.setUnit_speakers (s : State) (u : Nat) (x : NbUnit) : (s.setUnit u x).speakers = s.speakers := rfl
@[simp] theorem State.setUnit_flits (s : State) (u : Nat) (x : NbUnit) : (s.setUnit u x).flits = s.flits := rfl
@[simp] theorem State.setUnit_firmware (s : State) (u : Nat) (x : NbUnit) : (s.setUnit u x).firmware = s.firmware := rfl
@[simp] theorem State.setUnit_record (s : State) (u : Nat) (x : NbUnit) : (s.setUnit u x).record = s.record := rfl
@[simp] theorem State.setUnit_keys (s : State) (u : Nat) (x : NbUnit) : (s.setUnit u x).keys = s.keys := rfl
@[simp] theorem State.setUnit_bootPeriod (s : State) (u : Nat) (x : NbUnit) : (s.setUnit u x).bootPeriod = s.bootPeriod := rfl
@[simp] theorem State.setUnit_wakeFails (s : State) (u : Nat) (x : NbUnit) : (s.setUnit u x).wakeFails = s.wakeFails := rfl

/-! ### setShelver -/

@[simp] theorem State.setShelver_time (s : State) (n : Nat) (x : Shelver) : (s.setShelver n x).time = s.time := rfl
@[simp] theorem State.setShelver_oracle (s : State) (n : Nat) (x : Shelver) : (s.setShelver n x).oracle = s.oracle := rfl
@[simp] theorem State.setShelver_agenda (s : State) (n : Nat) (x : Shelver) : (s.setShelver n x).agenda = s.agenda := rfl
@[simp] theorem State.setShelver_cur (s : State) (n : Nat) (x : Shelver) : (s.setShelver n x).cur = s.cur := rfl
@[simp] theorem State.setShelver_inputs (s : State) (n : Nat) (x : Shelver) : (s.setShelver n x).inputs = s.inputs := rfl
@[simp] theorem State.setShelver_nextId (s : State) (n : Nat) (x : Shelver) : (s.setShelver n x).nextId = s.nextId := rfl
@[simp] theorem State.setShelver_mem (s : State) (n : Nat) (x : Shelver) : (s.setShelver n x).mem = s.mem := rfl
@[simp] theorem State.setShelver_hostMem (s : State) (n : Nat) (x : Shelver) : (s.setShelver n x).hostMem = s.hostMem := rfl
@[simp] theorem State.setShelver_annex (s : State) (n : Nat) (x : Shelver) : (s.setShelver n x).annex = s.annex := rfl
@[simp] theorem State.setShelver_owner (s : State) (n : Nat) (x : Shelver) : (s.setShelver n x).owner = s.owner := rfl
@[simp] theorem State.setShelver_poison (s : State) (n : Nat) (x : Shelver) : (s.setShelver n x).poison = s.poison := rfl
@[simp] theorem State.setShelver_fab (s : State) (n : Nat) (x : Shelver) : (s.setShelver n x).fab = s.fab := rfl
@[simp] theorem State.setShelver_parts (s : State) (n : Nat) (x : Shelver) : (s.setShelver n x).parts = s.parts := rfl
@[simp] theorem State.setShelver_launches (s : State) (n : Nat) (x : Shelver) : (s.setShelver n x).launches = s.launches := rfl
@[simp] theorem State.setShelver_saved (s : State) (n : Nat) (x : Shelver) : (s.setShelver n x).saved = s.saved := rfl
@[simp] theorem State.setShelver_ops (s : State) (n : Nat) (x : Shelver) : (s.setShelver n x).ops = s.ops := rfl
@[simp] theorem State.setShelver_copies (s : State) (n : Nat) (x : Shelver) : (s.setShelver n x).copies = s.copies := rfl
@[simp] theorem State.setShelver_ctrl (s : State) (n : Nat) (x : Shelver) : (s.setShelver n x).ctrl = s.ctrl := rfl
@[simp] theorem State.setShelver_tlbs (s : State) (n : Nat) (x : Shelver) : (s.setShelver n x).tlbs = s.tlbs := rfl
@[simp] theorem State.setShelver_slices (s : State) (n : Nat) (x : Shelver) : (s.setShelver n x).slices = s.slices := rfl
@[simp] theorem State.setShelver_trees (s : State) (n : Nat) (x : Shelver) : (s.setShelver n x).trees = s.trees := rfl
@[simp] theorem State.setShelver_nb (s : State) (n : Nat) (x : Shelver) : (s.setShelver n x).nb = s.nb := rfl
@[simp] theorem State.setShelver_cgen (s : State) (n : Nat) (x : Shelver) : (s.setShelver n x).cgen = s.cgen := rfl
@[simp] theorem State.setShelver_cat (s : State) (n : Nat) (x : Shelver) : (s.setShelver n x).cat = s.cat := rfl
@[simp] theorem State.setShelver_placement (s : State) (n : Nat) (x : Shelver) : (s.setShelver n x).placement = s.placement := rfl
@[simp] theorem State.setShelver_modq (s : State) (n : Nat) (x : Shelver) : (s.setShelver n x).modq = s.modq := rfl
@[simp] theorem State.setShelver_alarm (s : State) (n : Nat) (x : Shelver) : (s.setShelver n x).alarm = s.alarm := rfl
@[simp] theorem State.setShelver_tiles (s : State) (n : Nat) (x : Shelver) : (s.setShelver n x).tiles = s.tiles := rfl
@[simp] theorem State.setShelver_errs (s : State) (n : Nat) (x : Shelver) : (s.setShelver n x).errs = s.errs := rfl
@[simp] theorem State.setShelver_veils (s : State) (n : Nat) (x : Shelver) : (s.setShelver n x).veils = s.veils := rfl
@[simp] theorem State.setShelver_walkq (s : State) (n : Nat) (x : Shelver) : (s.setShelver n x).walkq = s.walkq := rfl
@[simp] theorem State.setShelver_coreMem (s : State) (n : Nat) (x : Shelver) : (s.setShelver n x).coreMem = s.coreMem := rfl
@[simp] theorem State.setShelver_speakers (s : State) (n : Nat) (x : Shelver) : (s.setShelver n x).speakers = s.speakers := rfl
@[simp] theorem State.setShelver_flits (s : State) (n : Nat) (x : Shelver) : (s.setShelver n x).flits = s.flits := rfl
@[simp] theorem State.setShelver_firmware (s : State) (n : Nat) (x : Shelver) : (s.setShelver n x).firmware = s.firmware := rfl
@[simp] theorem State.setShelver_record (s : State) (n : Nat) (x : Shelver) : (s.setShelver n x).record = s.record := rfl
@[simp] theorem State.setShelver_keys (s : State) (n : Nat) (x : Shelver) : (s.setShelver n x).keys = s.keys := rfl
@[simp] theorem State.setShelver_bootPeriod (s : State) (n : Nat) (x : Shelver) : (s.setShelver n x).bootPeriod = s.bootPeriod := rfl
@[simp] theorem State.setShelver_wakeFails (s : State) (n : Nat) (x : Shelver) : (s.setShelver n x).wakeFails = s.wakeFails := rfl

/-! ### modShelver -/

@[simp] theorem State.modShelver_time (s : State) (n : Nat) (f : Shelver → Shelver) : (s.modShelver n f).time = s.time := rfl
@[simp] theorem State.modShelver_oracle (s : State) (n : Nat) (f : Shelver → Shelver) : (s.modShelver n f).oracle = s.oracle := rfl
@[simp] theorem State.modShelver_agenda (s : State) (n : Nat) (f : Shelver → Shelver) : (s.modShelver n f).agenda = s.agenda := rfl
@[simp] theorem State.modShelver_cur (s : State) (n : Nat) (f : Shelver → Shelver) : (s.modShelver n f).cur = s.cur := rfl
@[simp] theorem State.modShelver_inputs (s : State) (n : Nat) (f : Shelver → Shelver) : (s.modShelver n f).inputs = s.inputs := rfl
@[simp] theorem State.modShelver_nextId (s : State) (n : Nat) (f : Shelver → Shelver) : (s.modShelver n f).nextId = s.nextId := rfl
@[simp] theorem State.modShelver_mem (s : State) (n : Nat) (f : Shelver → Shelver) : (s.modShelver n f).mem = s.mem := rfl
@[simp] theorem State.modShelver_hostMem (s : State) (n : Nat) (f : Shelver → Shelver) : (s.modShelver n f).hostMem = s.hostMem := rfl
@[simp] theorem State.modShelver_annex (s : State) (n : Nat) (f : Shelver → Shelver) : (s.modShelver n f).annex = s.annex := rfl
@[simp] theorem State.modShelver_owner (s : State) (n : Nat) (f : Shelver → Shelver) : (s.modShelver n f).owner = s.owner := rfl
@[simp] theorem State.modShelver_poison (s : State) (n : Nat) (f : Shelver → Shelver) : (s.modShelver n f).poison = s.poison := rfl
@[simp] theorem State.modShelver_fab (s : State) (n : Nat) (f : Shelver → Shelver) : (s.modShelver n f).fab = s.fab := rfl
@[simp] theorem State.modShelver_parts (s : State) (n : Nat) (f : Shelver → Shelver) : (s.modShelver n f).parts = s.parts := rfl
@[simp] theorem State.modShelver_launches (s : State) (n : Nat) (f : Shelver → Shelver) : (s.modShelver n f).launches = s.launches := rfl
@[simp] theorem State.modShelver_saved (s : State) (n : Nat) (f : Shelver → Shelver) : (s.modShelver n f).saved = s.saved := rfl
@[simp] theorem State.modShelver_ops (s : State) (n : Nat) (f : Shelver → Shelver) : (s.modShelver n f).ops = s.ops := rfl
@[simp] theorem State.modShelver_copies (s : State) (n : Nat) (f : Shelver → Shelver) : (s.modShelver n f).copies = s.copies := rfl
@[simp] theorem State.modShelver_ctrl (s : State) (n : Nat) (f : Shelver → Shelver) : (s.modShelver n f).ctrl = s.ctrl := rfl
@[simp] theorem State.modShelver_tlbs (s : State) (n : Nat) (f : Shelver → Shelver) : (s.modShelver n f).tlbs = s.tlbs := rfl
@[simp] theorem State.modShelver_slices (s : State) (n : Nat) (f : Shelver → Shelver) : (s.modShelver n f).slices = s.slices := rfl
@[simp] theorem State.modShelver_trees (s : State) (n : Nat) (f : Shelver → Shelver) : (s.modShelver n f).trees = s.trees := rfl
@[simp] theorem State.modShelver_nb (s : State) (n : Nat) (f : Shelver → Shelver) : (s.modShelver n f).nb = s.nb := rfl
@[simp] theorem State.modShelver_cgen (s : State) (n : Nat) (f : Shelver → Shelver) : (s.modShelver n f).cgen = s.cgen := rfl
@[simp] theorem State.modShelver_cat (s : State) (n : Nat) (f : Shelver → Shelver) : (s.modShelver n f).cat = s.cat := rfl
@[simp] theorem State.modShelver_placement (s : State) (n : Nat) (f : Shelver → Shelver) : (s.modShelver n f).placement = s.placement := rfl
@[simp] theorem State.modShelver_modq (s : State) (n : Nat) (f : Shelver → Shelver) : (s.modShelver n f).modq = s.modq := rfl
@[simp] theorem State.modShelver_alarm (s : State) (n : Nat) (f : Shelver → Shelver) : (s.modShelver n f).alarm = s.alarm := rfl
@[simp] theorem State.modShelver_tiles (s : State) (n : Nat) (f : Shelver → Shelver) : (s.modShelver n f).tiles = s.tiles := rfl
@[simp] theorem State.modShelver_errs (s : State) (n : Nat) (f : Shelver → Shelver) : (s.modShelver n f).errs = s.errs := rfl
@[simp] theorem State.modShelver_veils (s : State) (n : Nat) (f : Shelver → Shelver) : (s.modShelver n f).veils = s.veils := rfl
@[simp] theorem State.modShelver_walkq (s : State) (n : Nat) (f : Shelver → Shelver) : (s.modShelver n f).walkq = s.walkq := rfl
@[simp] theorem State.modShelver_coreMem (s : State) (n : Nat) (f : Shelver → Shelver) : (s.modShelver n f).coreMem = s.coreMem := rfl
@[simp] theorem State.modShelver_speakers (s : State) (n : Nat) (f : Shelver → Shelver) : (s.modShelver n f).speakers = s.speakers := rfl
@[simp] theorem State.modShelver_flits (s : State) (n : Nat) (f : Shelver → Shelver) : (s.modShelver n f).flits = s.flits := rfl
@[simp] theorem State.modShelver_firmware (s : State) (n : Nat) (f : Shelver → Shelver) : (s.modShelver n f).firmware = s.firmware := rfl
@[simp] theorem State.modShelver_record (s : State) (n : Nat) (f : Shelver → Shelver) : (s.modShelver n f).record = s.record := rfl
@[simp] theorem State.modShelver_keys (s : State) (n : Nat) (f : Shelver → Shelver) : (s.modShelver n f).keys = s.keys := rfl
@[simp] theorem State.modShelver_bootPeriod (s : State) (n : Nat) (f : Shelver → Shelver) : (s.modShelver n f).bootPeriod = s.bootPeriod := rfl
@[simp] theorem State.modShelver_wakeFails (s : State) (n : Nat) (f : Shelver → Shelver) : (s.modShelver n f).wakeFails = s.wakeFails := rfl

/-! ### setSlice -/

@[simp] theorem State.setSlice_time (s : State) (n : Nat) (x : Slice) : (s.setSlice n x).time = s.time := rfl
@[simp] theorem State.setSlice_oracle (s : State) (n : Nat) (x : Slice) : (s.setSlice n x).oracle = s.oracle := rfl
@[simp] theorem State.setSlice_agenda (s : State) (n : Nat) (x : Slice) : (s.setSlice n x).agenda = s.agenda := rfl
@[simp] theorem State.setSlice_cur (s : State) (n : Nat) (x : Slice) : (s.setSlice n x).cur = s.cur := rfl
@[simp] theorem State.setSlice_inputs (s : State) (n : Nat) (x : Slice) : (s.setSlice n x).inputs = s.inputs := rfl
@[simp] theorem State.setSlice_nextId (s : State) (n : Nat) (x : Slice) : (s.setSlice n x).nextId = s.nextId := rfl
@[simp] theorem State.setSlice_mem (s : State) (n : Nat) (x : Slice) : (s.setSlice n x).mem = s.mem := rfl
@[simp] theorem State.setSlice_hostMem (s : State) (n : Nat) (x : Slice) : (s.setSlice n x).hostMem = s.hostMem := rfl
@[simp] theorem State.setSlice_annex (s : State) (n : Nat) (x : Slice) : (s.setSlice n x).annex = s.annex := rfl
@[simp] theorem State.setSlice_owner (s : State) (n : Nat) (x : Slice) : (s.setSlice n x).owner = s.owner := rfl
@[simp] theorem State.setSlice_poison (s : State) (n : Nat) (x : Slice) : (s.setSlice n x).poison = s.poison := rfl
@[simp] theorem State.setSlice_fab (s : State) (n : Nat) (x : Slice) : (s.setSlice n x).fab = s.fab := rfl
@[simp] theorem State.setSlice_parts (s : State) (n : Nat) (x : Slice) : (s.setSlice n x).parts = s.parts := rfl
@[simp] theorem State.setSlice_launches (s : State) (n : Nat) (x : Slice) : (s.setSlice n x).launches = s.launches := rfl
@[simp] theorem State.setSlice_saved (s : State) (n : Nat) (x : Slice) : (s.setSlice n x).saved = s.saved := rfl
@[simp] theorem State.setSlice_ops (s : State) (n : Nat) (x : Slice) : (s.setSlice n x).ops = s.ops := rfl
@[simp] theorem State.setSlice_copies (s : State) (n : Nat) (x : Slice) : (s.setSlice n x).copies = s.copies := rfl
@[simp] theorem State.setSlice_ctrl (s : State) (n : Nat) (x : Slice) : (s.setSlice n x).ctrl = s.ctrl := rfl
@[simp] theorem State.setSlice_tlbs (s : State) (n : Nat) (x : Slice) : (s.setSlice n x).tlbs = s.tlbs := rfl
@[simp] theorem State.setSlice_shelvers (s : State) (n : Nat) (x : Slice) : (s.setSlice n x).shelvers = s.shelvers := rfl
@[simp] theorem State.setSlice_trees (s : State) (n : Nat) (x : Slice) : (s.setSlice n x).trees = s.trees := rfl
@[simp] theorem State.setSlice_nb (s : State) (n : Nat) (x : Slice) : (s.setSlice n x).nb = s.nb := rfl
@[simp] theorem State.setSlice_cgen (s : State) (n : Nat) (x : Slice) : (s.setSlice n x).cgen = s.cgen := rfl
@[simp] theorem State.setSlice_cat (s : State) (n : Nat) (x : Slice) : (s.setSlice n x).cat = s.cat := rfl
@[simp] theorem State.setSlice_placement (s : State) (n : Nat) (x : Slice) : (s.setSlice n x).placement = s.placement := rfl
@[simp] theorem State.setSlice_modq (s : State) (n : Nat) (x : Slice) : (s.setSlice n x).modq = s.modq := rfl
@[simp] theorem State.setSlice_alarm (s : State) (n : Nat) (x : Slice) : (s.setSlice n x).alarm = s.alarm := rfl
@[simp] theorem State.setSlice_tiles (s : State) (n : Nat) (x : Slice) : (s.setSlice n x).tiles = s.tiles := rfl
@[simp] theorem State.setSlice_errs (s : State) (n : Nat) (x : Slice) : (s.setSlice n x).errs = s.errs := rfl
@[simp] theorem State.setSlice_veils (s : State) (n : Nat) (x : Slice) : (s.setSlice n x).veils = s.veils := rfl
@[simp] theorem State.setSlice_walkq (s : State) (n : Nat) (x : Slice) : (s.setSlice n x).walkq = s.walkq := rfl
@[simp] theorem State.setSlice_coreMem (s : State) (n : Nat) (x : Slice) : (s.setSlice n x).coreMem = s.coreMem := rfl
@[simp] theorem State.setSlice_speakers (s : State) (n : Nat) (x : Slice) : (s.setSlice n x).speakers = s.speakers := rfl
@[simp] theorem State.setSlice_flits (s : State) (n : Nat) (x : Slice) : (s.setSlice n x).flits = s.flits := rfl
@[simp] theorem State.setSlice_firmware (s : State) (n : Nat) (x : Slice) : (s.setSlice n x).firmware = s.firmware := rfl
@[simp] theorem State.setSlice_record (s : State) (n : Nat) (x : Slice) : (s.setSlice n x).record = s.record := rfl
@[simp] theorem State.setSlice_keys (s : State) (n : Nat) (x : Slice) : (s.setSlice n x).keys = s.keys := rfl
@[simp] theorem State.setSlice_bootPeriod (s : State) (n : Nat) (x : Slice) : (s.setSlice n x).bootPeriod = s.bootPeriod := rfl
@[simp] theorem State.setSlice_wakeFails (s : State) (n : Nat) (x : Slice) : (s.setSlice n x).wakeFails = s.wakeFails := rfl

/-! ### modTile -/

@[simp] theorem State.modTile_time (s : State) (t : Nat) (f : Tile → Tile) : (s.modTile t f).time = s.time := rfl
@[simp] theorem State.modTile_oracle (s : State) (t : Nat) (f : Tile → Tile) : (s.modTile t f).oracle = s.oracle := rfl
@[simp] theorem State.modTile_agenda (s : State) (t : Nat) (f : Tile → Tile) : (s.modTile t f).agenda = s.agenda := rfl
@[simp] theorem State.modTile_cur (s : State) (t : Nat) (f : Tile → Tile) : (s.modTile t f).cur = s.cur := rfl
@[simp] theorem State.modTile_inputs (s : State) (t : Nat) (f : Tile → Tile) : (s.modTile t f).inputs = s.inputs := rfl
@[simp] theorem State.modTile_nextId (s : State) (t : Nat) (f : Tile → Tile) : (s.modTile t f).nextId = s.nextId := rfl
@[simp] theorem State.modTile_mem (s : State) (t : Nat) (f : Tile → Tile) : (s.modTile t f).mem = s.mem := rfl
@[simp] theorem State.modTile_hostMem (s : State) (t : Nat) (f : Tile → Tile) : (s.modTile t f).hostMem = s.hostMem := rfl
@[simp] theorem State.modTile_annex (s : State) (t : Nat) (f : Tile → Tile) : (s.modTile t f).annex = s.annex := rfl
@[simp] theorem State.modTile_owner (s : State) (t : Nat) (f : Tile → Tile) : (s.modTile t f).owner = s.owner := rfl
@[simp] theorem State.modTile_poison (s : State) (t : Nat) (f : Tile → Tile) : (s.modTile t f).poison = s.poison := rfl
@[simp] theorem State.modTile_fab (s : State) (t : Nat) (f : Tile → Tile) : (s.modTile t f).fab = s.fab := rfl
@[simp] theorem State.modTile_parts (s : State) (t : Nat) (f : Tile → Tile) : (s.modTile t f).parts = s.parts := rfl
@[simp] theorem State.modTile_launches (s : State) (t : Nat) (f : Tile → Tile) : (s.modTile t f).launches = s.launches := rfl
@[simp] theorem State.modTile_saved (s : State) (t : Nat) (f : Tile → Tile) : (s.modTile t f).saved = s.saved := rfl
@[simp] theorem State.modTile_ops (s : State) (t : Nat) (f : Tile → Tile) : (s.modTile t f).ops = s.ops := rfl
@[simp] theorem State.modTile_copies (s : State) (t : Nat) (f : Tile → Tile) : (s.modTile t f).copies = s.copies := rfl
@[simp] theorem State.modTile_ctrl (s : State) (t : Nat) (f : Tile → Tile) : (s.modTile t f).ctrl = s.ctrl := rfl
@[simp] theorem State.modTile_tlbs (s : State) (t : Nat) (f : Tile → Tile) : (s.modTile t f).tlbs = s.tlbs := rfl
@[simp] theorem State.modTile_slices (s : State) (t : Nat) (f : Tile → Tile) : (s.modTile t f).slices = s.slices := rfl
@[simp] theorem State.modTile_shelvers (s : State) (t : Nat) (f : Tile → Tile) : (s.modTile t f).shelvers = s.shelvers := rfl
@[simp] theorem State.modTile_trees (s : State) (t : Nat) (f : Tile → Tile) : (s.modTile t f).trees = s.trees := rfl
@[simp] theorem State.modTile_nb (s : State) (t : Nat) (f : Tile → Tile) : (s.modTile t f).nb = s.nb := rfl
@[simp] theorem State.modTile_cgen (s : State) (t : Nat) (f : Tile → Tile) : (s.modTile t f).cgen = s.cgen := rfl
@[simp] theorem State.modTile_cat (s : State) (t : Nat) (f : Tile → Tile) : (s.modTile t f).cat = s.cat := rfl
@[simp] theorem State.modTile_placement (s : State) (t : Nat) (f : Tile → Tile) : (s.modTile t f).placement = s.placement := rfl
@[simp] theorem State.modTile_modq (s : State) (t : Nat) (f : Tile → Tile) : (s.modTile t f).modq = s.modq := rfl
@[simp] theorem State.modTile_alarm (s : State) (t : Nat) (f : Tile → Tile) : (s.modTile t f).alarm = s.alarm := rfl
@[simp] theorem State.modTile_errs (s : State) (t : Nat) (f : Tile → Tile) : (s.modTile t f).errs = s.errs := rfl
@[simp] theorem State.modTile_veils (s : State) (t : Nat) (f : Tile → Tile) : (s.modTile t f).veils = s.veils := rfl
@[simp] theorem State.modTile_walkq (s : State) (t : Nat) (f : Tile → Tile) : (s.modTile t f).walkq = s.walkq := rfl
@[simp] theorem State.modTile_coreMem (s : State) (t : Nat) (f : Tile → Tile) : (s.modTile t f).coreMem = s.coreMem := rfl
@[simp] theorem State.modTile_speakers (s : State) (t : Nat) (f : Tile → Tile) : (s.modTile t f).speakers = s.speakers := rfl
@[simp] theorem State.modTile_flits (s : State) (t : Nat) (f : Tile → Tile) : (s.modTile t f).flits = s.flits := rfl
@[simp] theorem State.modTile_firmware (s : State) (t : Nat) (f : Tile → Tile) : (s.modTile t f).firmware = s.firmware := rfl
@[simp] theorem State.modTile_record (s : State) (t : Nat) (f : Tile → Tile) : (s.modTile t f).record = s.record := rfl
@[simp] theorem State.modTile_keys (s : State) (t : Nat) (f : Tile → Tile) : (s.modTile t f).keys = s.keys := rfl
@[simp] theorem State.modTile_bootPeriod (s : State) (t : Nat) (f : Tile → Tile) : (s.modTile t f).bootPeriod = s.bootPeriod := rfl
@[simp] theorem State.modTile_wakeFails (s : State) (t : Nat) (f : Tile → Tile) : (s.modTile t f).wakeFails = s.wakeFails := rfl

/-! ### modNeigh -/

@[simp] theorem State.modNeigh_time (s : State) (t d : Nat) (f : Neigh → Neigh) : (s.modNeigh t d f).time = s.time := rfl
@[simp] theorem State.modNeigh_oracle (s : State) (t d : Nat) (f : Neigh → Neigh) : (s.modNeigh t d f).oracle = s.oracle := rfl
@[simp] theorem State.modNeigh_agenda (s : State) (t d : Nat) (f : Neigh → Neigh) : (s.modNeigh t d f).agenda = s.agenda := rfl
@[simp] theorem State.modNeigh_cur (s : State) (t d : Nat) (f : Neigh → Neigh) : (s.modNeigh t d f).cur = s.cur := rfl
@[simp] theorem State.modNeigh_inputs (s : State) (t d : Nat) (f : Neigh → Neigh) : (s.modNeigh t d f).inputs = s.inputs := rfl
@[simp] theorem State.modNeigh_nextId (s : State) (t d : Nat) (f : Neigh → Neigh) : (s.modNeigh t d f).nextId = s.nextId := rfl
@[simp] theorem State.modNeigh_mem (s : State) (t d : Nat) (f : Neigh → Neigh) : (s.modNeigh t d f).mem = s.mem := rfl
@[simp] theorem State.modNeigh_hostMem (s : State) (t d : Nat) (f : Neigh → Neigh) : (s.modNeigh t d f).hostMem = s.hostMem := rfl
@[simp] theorem State.modNeigh_annex (s : State) (t d : Nat) (f : Neigh → Neigh) : (s.modNeigh t d f).annex = s.annex := rfl
@[simp] theorem State.modNeigh_owner (s : State) (t d : Nat) (f : Neigh → Neigh) : (s.modNeigh t d f).owner = s.owner := rfl
@[simp] theorem State.modNeigh_poison (s : State) (t d : Nat) (f : Neigh → Neigh) : (s.modNeigh t d f).poison = s.poison := rfl
@[simp] theorem State.modNeigh_fab (s : State) (t d : Nat) (f : Neigh → Neigh) : (s.modNeigh t d f).fab = s.fab := rfl
@[simp] theorem State.modNeigh_parts (s : State) (t d : Nat) (f : Neigh → Neigh) : (s.modNeigh t d f).parts = s.parts := rfl
@[simp] theorem State.modNeigh_launches (s : State) (t d : Nat) (f : Neigh → Neigh) : (s.modNeigh t d f).launches = s.launches := rfl
@[simp] theorem State.modNeigh_saved (s : State) (t d : Nat) (f : Neigh → Neigh) : (s.modNeigh t d f).saved = s.saved := rfl
@[simp] theorem State.modNeigh_ops (s : State) (t d : Nat) (f : Neigh → Neigh) : (s.modNeigh t d f).ops = s.ops := rfl
@[simp] theorem State.modNeigh_copies (s : State) (t d : Nat) (f : Neigh → Neigh) : (s.modNeigh t d f).copies = s.copies := rfl
@[simp] theorem State.modNeigh_ctrl (s : State) (t d : Nat) (f : Neigh → Neigh) : (s.modNeigh t d f).ctrl = s.ctrl := rfl
@[simp] theorem State.modNeigh_tlbs (s : State) (t d : Nat) (f : Neigh → Neigh) : (s.modNeigh t d f).tlbs = s.tlbs := rfl
@[simp] theorem State.modNeigh_slices (s : State) (t d : Nat) (f : Neigh → Neigh) : (s.modNeigh t d f).slices = s.slices := rfl
@[simp] theorem State.modNeigh_shelvers (s : State) (t d : Nat) (f : Neigh → Neigh) : (s.modNeigh t d f).shelvers = s.shelvers := rfl
@[simp] theorem State.modNeigh_trees (s : State) (t d : Nat) (f : Neigh → Neigh) : (s.modNeigh t d f).trees = s.trees := rfl
@[simp] theorem State.modNeigh_nb (s : State) (t d : Nat) (f : Neigh → Neigh) : (s.modNeigh t d f).nb = s.nb := rfl
@[simp] theorem State.modNeigh_cgen (s : State) (t d : Nat) (f : Neigh → Neigh) : (s.modNeigh t d f).cgen = s.cgen := rfl
@[simp] theorem State.modNeigh_cat (s : State) (t d : Nat) (f : Neigh → Neigh) : (s.modNeigh t d f).cat = s.cat := rfl
@[simp] theorem State.modNeigh_placement (s : State) (t d : Nat) (f : Neigh → Neigh) : (s.modNeigh t d f).placement = s.placement := rfl
@[simp] theorem State.modNeigh_modq (s : State) (t d : Nat) (f : Neigh → Neigh) : (s.modNeigh t d f).modq = s.modq := rfl
@[simp] theorem State.modNeigh_alarm (s : State) (t d : Nat) (f : Neigh → Neigh) : (s.modNeigh t d f).alarm = s.alarm := rfl
@[simp] theorem State.modNeigh_errs (s : State) (t d : Nat) (f : Neigh → Neigh) : (s.modNeigh t d f).errs = s.errs := rfl
@[simp] theorem State.modNeigh_veils (s : State) (t d : Nat) (f : Neigh → Neigh) : (s.modNeigh t d f).veils = s.veils := rfl
@[simp] theorem State.modNeigh_walkq (s : State) (t d : Nat) (f : Neigh → Neigh) : (s.modNeigh t d f).walkq = s.walkq := rfl
@[simp] theorem State.modNeigh_coreMem (s : State) (t d : Nat) (f : Neigh → Neigh) : (s.modNeigh t d f).coreMem = s.coreMem := rfl
@[simp] theorem State.modNeigh_speakers (s : State) (t d : Nat) (f : Neigh → Neigh) : (s.modNeigh t d f).speakers = s.speakers := rfl
@[simp] theorem State.modNeigh_flits (s : State) (t d : Nat) (f : Neigh → Neigh) : (s.modNeigh t d f).flits = s.flits := rfl
@[simp] theorem State.modNeigh_firmware (s : State) (t d : Nat) (f : Neigh → Neigh) : (s.modNeigh t d f).firmware = s.firmware := rfl
@[simp] theorem State.modNeigh_record (s : State) (t d : Nat) (f : Neigh → Neigh) : (s.modNeigh t d f).record = s.record := rfl
@[simp] theorem State.modNeigh_keys (s : State) (t d : Nat) (f : Neigh → Neigh) : (s.modNeigh t d f).keys = s.keys := rfl
@[simp] theorem State.modNeigh_bootPeriod (s : State) (t d : Nat) (f : Neigh → Neigh) : (s.modNeigh t d f).bootPeriod = s.bootPeriod := rfl
@[simp] theorem State.modNeigh_wakeFails (s : State) (t d : Nat) (f : Neigh → Neigh) : (s.modNeigh t d f).wakeFails = s.wakeFails := rfl

/-! ### dropWord -/

@[simp] theorem State.dropWord_time (s : State) (id : Nat) : (s.dropWord id).time = s.time := rfl
@[simp] theorem State.dropWord_oracle (s : State) (id : Nat) : (s.dropWord id).oracle = s.oracle := rfl
@[simp] theorem State.dropWord_agenda (s : State) (id : Nat) : (s.dropWord id).agenda = s.agenda := rfl
@[simp] theorem State.dropWord_cur (s : State) (id : Nat) : (s.dropWord id).cur = s.cur := rfl
@[simp] theorem State.dropWord_inputs (s : State) (id : Nat) : (s.dropWord id).inputs = s.inputs := rfl
@[simp] theorem State.dropWord_nextId (s : State) (id : Nat) : (s.dropWord id).nextId = s.nextId := rfl
@[simp] theorem State.dropWord_mem (s : State) (id : Nat) : (s.dropWord id).mem = s.mem := rfl
@[simp] theorem State.dropWord_hostMem (s : State) (id : Nat) : (s.dropWord id).hostMem = s.hostMem := rfl
@[simp] theorem State.dropWord_annex (s : State) (id : Nat) : (s.dropWord id).annex = s.annex := rfl
@[simp] theorem State.dropWord_owner (s : State) (id : Nat) : (s.dropWord id).owner = s.owner := rfl
@[simp] theorem State.dropWord_poison (s : State) (id : Nat) : (s.dropWord id).poison = s.poison := rfl
@[simp] theorem State.dropWord_fab (s : State) (id : Nat) : (s.dropWord id).fab = s.fab := rfl
@[simp] theorem State.dropWord_parts (s : State) (id : Nat) : (s.dropWord id).parts = s.parts := rfl
@[simp] theorem State.dropWord_launches (s : State) (id : Nat) : (s.dropWord id).launches = s.launches := rfl
@[simp] theorem State.dropWord_saved (s : State) (id : Nat) : (s.dropWord id).saved = s.saved := rfl
@[simp] theorem State.dropWord_ops (s : State) (id : Nat) : (s.dropWord id).ops = s.ops := rfl
@[simp] theorem State.dropWord_copies (s : State) (id : Nat) : (s.dropWord id).copies = s.copies := rfl
@[simp] theorem State.dropWord_tlbs (s : State) (id : Nat) : (s.dropWord id).tlbs = s.tlbs := rfl
@[simp] theorem State.dropWord_slices (s : State) (id : Nat) : (s.dropWord id).slices = s.slices := rfl
@[simp] theorem State.dropWord_shelvers (s : State) (id : Nat) : (s.dropWord id).shelvers = s.shelvers := rfl
@[simp] theorem State.dropWord_trees (s : State) (id : Nat) : (s.dropWord id).trees = s.trees := rfl
@[simp] theorem State.dropWord_nb (s : State) (id : Nat) : (s.dropWord id).nb = s.nb := rfl
@[simp] theorem State.dropWord_cgen (s : State) (id : Nat) : (s.dropWord id).cgen = s.cgen := rfl
@[simp] theorem State.dropWord_cat (s : State) (id : Nat) : (s.dropWord id).cat = s.cat := rfl
@[simp] theorem State.dropWord_placement (s : State) (id : Nat) : (s.dropWord id).placement = s.placement := rfl
@[simp] theorem State.dropWord_modq (s : State) (id : Nat) : (s.dropWord id).modq = s.modq := rfl
@[simp] theorem State.dropWord_alarm (s : State) (id : Nat) : (s.dropWord id).alarm = s.alarm := rfl
@[simp] theorem State.dropWord_tiles (s : State) (id : Nat) : (s.dropWord id).tiles = s.tiles := rfl
@[simp] theorem State.dropWord_errs (s : State) (id : Nat) : (s.dropWord id).errs = s.errs := rfl
@[simp] theorem State.dropWord_veils (s : State) (id : Nat) : (s.dropWord id).veils = s.veils := rfl
@[simp] theorem State.dropWord_walkq (s : State) (id : Nat) : (s.dropWord id).walkq = s.walkq := rfl
@[simp] theorem State.dropWord_coreMem (s : State) (id : Nat) : (s.dropWord id).coreMem = s.coreMem := rfl
@[simp] theorem State.dropWord_speakers (s : State) (id : Nat) : (s.dropWord id).speakers = s.speakers := rfl
@[simp] theorem State.dropWord_flits (s : State) (id : Nat) : (s.dropWord id).flits = s.flits := rfl
@[simp] theorem State.dropWord_firmware (s : State) (id : Nat) : (s.dropWord id).firmware = s.firmware := rfl
@[simp] theorem State.dropWord_record (s : State) (id : Nat) : (s.dropWord id).record = s.record := rfl
@[simp] theorem State.dropWord_keys (s : State) (id : Nat) : (s.dropWord id).keys = s.keys := rfl
@[simp] theorem State.dropWord_bootPeriod (s : State) (id : Nat) : (s.dropWord id).bootPeriod = s.bootPeriod := rfl
@[simp] theorem State.dropWord_wakeFails (s : State) (id : Nat) : (s.dropWord id).wakeFails = s.wakeFails := rfl

/-! ### putMem -/

@[simp] theorem State.putMem_time (s : State) (a : Nat) (bs : List Byte) : (s.putMem a bs).time = s.time := rfl
@[simp] theorem State.putMem_oracle (s : State) (a : Nat) (bs : List Byte) : (s.putMem a bs).oracle = s.oracle := rfl
@[simp] theorem State.putMem_agenda (s : State) (a : Nat) (bs : List Byte) : (s.putMem a bs).agenda = s.agenda := rfl
@[simp] theorem State.putMem_cur (s : State) (a : Nat) (bs : List Byte) : (s.putMem a bs).cur = s.cur := rfl
@[simp] theorem State.putMem_inputs (s : State) (a : Nat) (bs : List Byte) : (s.putMem a bs).inputs = s.inputs := rfl
@[simp] theorem State.putMem_nextId (s : State) (a : Nat) (bs : List Byte) : (s.putMem a bs).nextId = s.nextId := rfl
@[simp] theorem State.putMem_hostMem (s : State) (a : Nat) (bs : List Byte) : (s.putMem a bs).hostMem = s.hostMem := rfl
@[simp] theorem State.putMem_annex (s : State) (a : Nat) (bs : List Byte) : (s.putMem a bs).annex = s.annex := rfl
@[simp] theorem State.putMem_owner (s : State) (a : Nat) (bs : List Byte) : (s.putMem a bs).owner = s.owner := rfl
@[simp] theorem State.putMem_fab (s : State) (a : Nat) (bs : List Byte) : (s.putMem a bs).fab = s.fab := rfl
@[simp] theorem State.putMem_parts (s : State) (a : Nat) (bs : List Byte) : (s.putMem a bs).parts = s.parts := rfl
@[simp] theorem State.putMem_launches (s : State) (a : Nat) (bs : List Byte) : (s.putMem a bs).launches = s.launches := rfl
@[simp] theorem State.putMem_saved (s : State) (a : Nat) (bs : List Byte) : (s.putMem a bs).saved = s.saved := rfl
@[simp] theorem State.putMem_ops (s : State) (a : Nat) (bs : List Byte) : (s.putMem a bs).ops = s.ops := rfl
@[simp] theorem State.putMem_copies (s : State) (a : Nat) (bs : List Byte) : (s.putMem a bs).copies = s.copies := rfl
@[simp] theorem State.putMem_ctrl (s : State) (a : Nat) (bs : List Byte) : (s.putMem a bs).ctrl = s.ctrl := rfl
@[simp] theorem State.putMem_tlbs (s : State) (a : Nat) (bs : List Byte) : (s.putMem a bs).tlbs = s.tlbs := rfl
@[simp] theorem State.putMem_slices (s : State) (a : Nat) (bs : List Byte) : (s.putMem a bs).slices = s.slices := rfl
@[simp] theorem State.putMem_shelvers (s : State) (a : Nat) (bs : List Byte) : (s.putMem a bs).shelvers = s.shelvers := rfl
@[simp] theorem State.putMem_trees (s : State) (a : Nat) (bs : List Byte) : (s.putMem a bs).trees = s.trees := rfl
@[simp] theorem State.putMem_nb (s : State) (a : Nat) (bs : List Byte) : (s.putMem a bs).nb = s.nb := rfl
@[simp] theorem State.putMem_cgen (s : State) (a : Nat) (bs : List Byte) : (s.putMem a bs).cgen = s.cgen := rfl
@[simp] theorem State.putMem_cat (s : State) (a : Nat) (bs : List Byte) : (s.putMem a bs).cat = s.cat := rfl
@[simp] theorem State.putMem_placement (s : State) (a : Nat) (bs : List Byte) : (s.putMem a bs).placement = s.placement := rfl
@[simp] theorem State.putMem_modq (s : State) (a : Nat) (bs : List Byte) : (s.putMem a bs).modq = s.modq := rfl
@[simp] theorem State.putMem_alarm (s : State) (a : Nat) (bs : List Byte) : (s.putMem a bs).alarm = s.alarm := rfl
@[simp] theorem State.putMem_tiles (s : State) (a : Nat) (bs : List Byte) : (s.putMem a bs).tiles = s.tiles := rfl
@[simp] theorem State.putMem_errs (s : State) (a : Nat) (bs : List Byte) : (s.putMem a bs).errs = s.errs := rfl
@[simp] theorem State.putMem_veils (s : State) (a : Nat) (bs : List Byte) : (s.putMem a bs).veils = s.veils := rfl
@[simp] theorem State.putMem_walkq (s : State) (a : Nat) (bs : List Byte) : (s.putMem a bs).walkq = s.walkq := rfl
@[simp] theorem State.putMem_coreMem (s : State) (a : Nat) (bs : List Byte) : (s.putMem a bs).coreMem = s.coreMem := rfl
@[simp] theorem State.putMem_speakers (s : State) (a : Nat) (bs : List Byte) : (s.putMem a bs).speakers = s.speakers := rfl
@[simp] theorem State.putMem_flits (s : State) (a : Nat) (bs : List Byte) : (s.putMem a bs).flits = s.flits := rfl
@[simp] theorem State.putMem_firmware (s : State) (a : Nat) (bs : List Byte) : (s.putMem a bs).firmware = s.firmware := rfl
@[simp] theorem State.putMem_record (s : State) (a : Nat) (bs : List Byte) : (s.putMem a bs).record = s.record := rfl
@[simp] theorem State.putMem_keys (s : State) (a : Nat) (bs : List Byte) : (s.putMem a bs).keys = s.keys := rfl
@[simp] theorem State.putMem_bootPeriod (s : State) (a : Nat) (bs : List Byte) : (s.putMem a bs).bootPeriod = s.bootPeriod := rfl
@[simp] theorem State.putMem_wakeFails (s : State) (a : Nat) (bs : List Byte) : (s.putMem a bs).wakeFails = s.wakeFails := rfl

/-! ### putBlock -/

@[simp] theorem putBlock_time (s : State) (tid : Nat) (t : Task) (b : Block) : (putBlock s tid t b).time = s.time := rfl
@[simp] theorem putBlock_oracle (s : State) (tid : Nat) (t : Task) (b : Block) : (putBlock s tid t b).oracle = s.oracle := rfl
@[simp] theorem putBlock_agenda (s : State) (tid : Nat) (t : Task) (b : Block) : (putBlock s tid t b).agenda = s.agenda := rfl
@[simp] theorem putBlock_cur (s : State) (tid : Nat) (t : Task) (b : Block) : (putBlock s tid t b).cur = s.cur := rfl
@[simp] theorem putBlock_inputs (s : State) (tid : Nat) (t : Task) (b : Block) : (putBlock s tid t b).inputs = s.inputs := rfl
@[simp] theorem putBlock_nextId (s : State) (tid : Nat) (t : Task) (b : Block) : (putBlock s tid t b).nextId = s.nextId := rfl
@[simp] theorem putBlock_mem (s : State) (tid : Nat) (t : Task) (b : Block) : (putBlock s tid t b).mem = s.mem := rfl
@[simp] theorem putBlock_hostMem (s : State) (tid : Nat) (t : Task) (b : Block) : (putBlock s tid t b).hostMem = s.hostMem := rfl
@[simp] theorem putBlock_annex (s : State) (tid : Nat) (t : Task) (b : Block) : (putBlock s tid t b).annex = s.annex := rfl
@[simp] theorem putBlock_owner (s : State) (tid : Nat) (t : Task) (b : Block) : (putBlock s tid t b).owner = s.owner := rfl
@[simp] theorem putBlock_poison (s : State) (tid : Nat) (t : Task) (b : Block) : (putBlock s tid t b).poison = s.poison := rfl
@[simp] theorem putBlock_parts (s : State) (tid : Nat) (t : Task) (b : Block) : (putBlock s tid t b).parts = s.parts := rfl
@[simp] theorem putBlock_launches (s : State) (tid : Nat) (t : Task) (b : Block) : (putBlock s tid t b).launches = s.launches := rfl
@[simp] theorem putBlock_saved (s : State) (tid : Nat) (t : Task) (b : Block) : (putBlock s tid t b).saved = s.saved := rfl
@[simp] theorem putBlock_ops (s : State) (tid : Nat) (t : Task) (b : Block) : (putBlock s tid t b).ops = s.ops := rfl
@[simp] theorem putBlock_copies (s : State) (tid : Nat) (t : Task) (b : Block) : (putBlock s tid t b).copies = s.copies := rfl
@[simp] theorem putBlock_ctrl (s : State) (tid : Nat) (t : Task) (b : Block) : (putBlock s tid t b).ctrl = s.ctrl := rfl
@[simp] theorem putBlock_tlbs (s : State) (tid : Nat) (t : Task) (b : Block) : (putBlock s tid t b).tlbs = s.tlbs := rfl
@[simp] theorem putBlock_slices (s : State) (tid : Nat) (t : Task) (b : Block) : (putBlock s tid t b).slices = s.slices := rfl
@[simp] theorem putBlock_shelvers (s : State) (tid : Nat) (t : Task) (b : Block) : (putBlock s tid t b).shelvers = s.shelvers := rfl
@[simp] theorem putBlock_trees (s : State) (tid : Nat) (t : Task) (b : Block) : (putBlock s tid t b).trees = s.trees := rfl
@[simp] theorem putBlock_nb (s : State) (tid : Nat) (t : Task) (b : Block) : (putBlock s tid t b).nb = s.nb := rfl
@[simp] theorem putBlock_cgen (s : State) (tid : Nat) (t : Task) (b : Block) : (putBlock s tid t b).cgen = s.cgen := rfl
@[simp] theorem putBlock_cat (s : State) (tid : Nat) (t : Task) (b : Block) : (putBlock s tid t b).cat = s.cat := rfl
@[simp] theorem putBlock_placement (s : State) (tid : Nat) (t : Task) (b : Block) : (putBlock s tid t b).placement = s.placement := rfl
@[simp] theorem putBlock_modq (s : State) (tid : Nat) (t : Task) (b : Block) : (putBlock s tid t b).modq = s.modq := rfl
@[simp] theorem putBlock_alarm (s : State) (tid : Nat) (t : Task) (b : Block) : (putBlock s tid t b).alarm = s.alarm := rfl
@[simp] theorem putBlock_tiles (s : State) (tid : Nat) (t : Task) (b : Block) : (putBlock s tid t b).tiles = s.tiles := rfl
@[simp] theorem putBlock_errs (s : State) (tid : Nat) (t : Task) (b : Block) : (putBlock s tid t b).errs = s.errs := rfl
@[simp] theorem putBlock_veils (s : State) (tid : Nat) (t : Task) (b : Block) : (putBlock s tid t b).veils = s.veils := rfl
@[simp] theorem putBlock_walkq (s : State) (tid : Nat) (t : Task) (b : Block) : (putBlock s tid t b).walkq = s.walkq := rfl
@[simp] theorem putBlock_coreMem (s : State) (tid : Nat) (t : Task) (b : Block) : (putBlock s tid t b).coreMem = s.coreMem := rfl
@[simp] theorem putBlock_speakers (s : State) (tid : Nat) (t : Task) (b : Block) : (putBlock s tid t b).speakers = s.speakers := rfl
@[simp] theorem putBlock_flits (s : State) (tid : Nat) (t : Task) (b : Block) : (putBlock s tid t b).flits = s.flits := rfl
@[simp] theorem putBlock_firmware (s : State) (tid : Nat) (t : Task) (b : Block) : (putBlock s tid t b).firmware = s.firmware := rfl
@[simp] theorem putBlock_record (s : State) (tid : Nat) (t : Task) (b : Block) : (putBlock s tid t b).record = s.record := rfl
@[simp] theorem putBlock_keys (s : State) (tid : Nat) (t : Task) (b : Block) : (putBlock s tid t b).keys = s.keys := rfl
@[simp] theorem putBlock_bootPeriod (s : State) (tid : Nat) (t : Task) (b : Block) : (putBlock s tid t b).bootPeriod = s.bootPeriod := rfl
@[simp] theorem putBlock_wakeFails (s : State) (tid : Nat) (t : Task) (b : Block) : (putBlock s tid t b).wakeFails = s.wakeFails := rfl

/-! ### ackCopy -/

@[simp] theorem ackCopy_time (s : State) (id : Nat) : (ackCopy s id).time = s.time := rfl
@[simp] theorem ackCopy_oracle (s : State) (id : Nat) : (ackCopy s id).oracle = s.oracle := rfl
@[simp] theorem ackCopy_agenda (s : State) (id : Nat) : (ackCopy s id).agenda = s.agenda := rfl
@[simp] theorem ackCopy_cur (s : State) (id : Nat) : (ackCopy s id).cur = s.cur := rfl
@[simp] theorem ackCopy_inputs (s : State) (id : Nat) : (ackCopy s id).inputs = s.inputs := rfl
@[simp] theorem ackCopy_nextId (s : State) (id : Nat) : (ackCopy s id).nextId = s.nextId := rfl
@[simp] theorem ackCopy_mem (s : State) (id : Nat) : (ackCopy s id).mem = s.mem := rfl
@[simp] theorem ackCopy_hostMem (s : State) (id : Nat) : (ackCopy s id).hostMem = s.hostMem := rfl
@[simp] theorem ackCopy_annex (s : State) (id : Nat) : (ackCopy s id).annex = s.annex := rfl
@[simp] theorem ackCopy_owner (s : State) (id : Nat) : (ackCopy s id).owner = s.owner := rfl
@[simp] theorem ackCopy_poison (s : State) (id : Nat) : (ackCopy s id).poison = s.poison := rfl
@[simp] theorem ackCopy_fab (s : State) (id : Nat) : (ackCopy s id).fab = s.fab := rfl
@[simp] theorem ackCopy_parts (s : State) (id : Nat) : (ackCopy s id).parts = s.parts := rfl
@[simp] theorem ackCopy_launches (s : State) (id : Nat) : (ackCopy s id).launches = s.launches := rfl
@[simp] theorem ackCopy_saved (s : State) (id : Nat) : (ackCopy s id).saved = s.saved := rfl
@[simp] theorem ackCopy_ops (s : State) (id : Nat) : (ackCopy s id).ops = s.ops := rfl
@[simp] theorem ackCopy_ctrl (s : State) (id : Nat) : (ackCopy s id).ctrl = s.ctrl := rfl
@[simp] theorem ackCopy_tlbs (s : State) (id : Nat) : (ackCopy s id).tlbs = s.tlbs := rfl
@[simp] theorem ackCopy_slices (s : State) (id : Nat) : (ackCopy s id).slices = s.slices := rfl
@[simp] theorem ackCopy_shelvers (s : State) (id : Nat) : (ackCopy s id).shelvers = s.shelvers := rfl
@[simp] theorem ackCopy_trees (s : State) (id : Nat) : (ackCopy s id).trees = s.trees := rfl
@[simp] theorem ackCopy_nb (s : State) (id : Nat) : (ackCopy s id).nb = s.nb := rfl
@[simp] theorem ackCopy_cgen (s : State) (id : Nat) : (ackCopy s id).cgen = s.cgen := rfl
@[simp] theorem ackCopy_cat (s : State) (id : Nat) : (ackCopy s id).cat = s.cat := rfl
@[simp] theorem ackCopy_placement (s : State) (id : Nat) : (ackCopy s id).placement = s.placement := rfl
@[simp] theorem ackCopy_modq (s : State) (id : Nat) : (ackCopy s id).modq = s.modq := rfl
@[simp] theorem ackCopy_alarm (s : State) (id : Nat) : (ackCopy s id).alarm = s.alarm := rfl
@[simp] theorem ackCopy_tiles (s : State) (id : Nat) : (ackCopy s id).tiles = s.tiles := rfl
@[simp] theorem ackCopy_errs (s : State) (id : Nat) : (ackCopy s id).errs = s.errs := rfl
@[simp] theorem ackCopy_veils (s : State) (id : Nat) : (ackCopy s id).veils = s.veils := rfl
@[simp] theorem ackCopy_walkq (s : State) (id : Nat) : (ackCopy s id).walkq = s.walkq := rfl
@[simp] theorem ackCopy_coreMem (s : State) (id : Nat) : (ackCopy s id).coreMem = s.coreMem := rfl
@[simp] theorem ackCopy_speakers (s : State) (id : Nat) : (ackCopy s id).speakers = s.speakers := rfl
@[simp] theorem ackCopy_flits (s : State) (id : Nat) : (ackCopy s id).flits = s.flits := rfl
@[simp] theorem ackCopy_firmware (s : State) (id : Nat) : (ackCopy s id).firmware = s.firmware := rfl
@[simp] theorem ackCopy_record (s : State) (id : Nat) : (ackCopy s id).record = s.record := rfl
@[simp] theorem ackCopy_keys (s : State) (id : Nat) : (ackCopy s id).keys = s.keys := rfl
@[simp] theorem ackCopy_bootPeriod (s : State) (id : Nat) : (ackCopy s id).bootPeriod = s.bootPeriod := rfl
@[simp] theorem ackCopy_wakeFails (s : State) (id : Nat) : (ackCopy s id).wakeFails = s.wakeFails := rfl

/-! ### dropOp -/

@[simp] theorem dropOp_time (s : State) (id : Nat) : (dropOp s id).time = s.time := rfl
@[simp] theorem dropOp_oracle (s : State) (id : Nat) : (dropOp s id).oracle = s.oracle := rfl
@[simp] theorem dropOp_agenda (s : State) (id : Nat) : (dropOp s id).agenda = s.agenda := rfl
@[simp] theorem dropOp_cur (s : State) (id : Nat) : (dropOp s id).cur = s.cur := rfl
@[simp] theorem dropOp_inputs (s : State) (id : Nat) : (dropOp s id).inputs = s.inputs := rfl
@[simp] theorem dropOp_nextId (s : State) (id : Nat) : (dropOp s id).nextId = s.nextId := rfl
@[simp] theorem dropOp_mem (s : State) (id : Nat) : (dropOp s id).mem = s.mem := rfl
@[simp] theorem dropOp_hostMem (s : State) (id : Nat) : (dropOp s id).hostMem = s.hostMem := rfl
@[simp] theorem dropOp_annex (s : State) (id : Nat) : (dropOp s id).annex = s.annex := rfl
@[simp] theorem dropOp_owner (s : State) (id : Nat) : (dropOp s id).owner = s.owner := rfl
@[simp] theorem dropOp_poison (s : State) (id : Nat) : (dropOp s id).poison = s.poison := rfl
@[simp] theorem dropOp_fab (s : State) (id : Nat) : (dropOp s id).fab = s.fab := rfl
@[simp] theorem dropOp_parts (s : State) (id : Nat) : (dropOp s id).parts = s.parts := rfl
@[simp] theorem dropOp_launches (s : State) (id : Nat) : (dropOp s id).launches = s.launches := rfl
@[simp] theorem dropOp_saved (s : State) (id : Nat) : (dropOp s id).saved = s.saved := rfl
@[simp] theorem dropOp_ctrl (s : State) (id : Nat) : (dropOp s id).ctrl = s.ctrl := rfl
@[simp] theorem dropOp_tlbs (s : State) (id : Nat) : (dropOp s id).tlbs = s.tlbs := rfl
@[simp] theorem dropOp_slices (s : State) (id : Nat) : (dropOp s id).slices = s.slices := rfl
@[simp] theorem dropOp_shelvers (s : State) (id : Nat) : (dropOp s id).shelvers = s.shelvers := rfl
@[simp] theorem dropOp_trees (s : State) (id : Nat) : (dropOp s id).trees = s.trees := rfl
@[simp] theorem dropOp_nb (s : State) (id : Nat) : (dropOp s id).nb = s.nb := rfl
@[simp] theorem dropOp_cgen (s : State) (id : Nat) : (dropOp s id).cgen = s.cgen := rfl
@[simp] theorem dropOp_cat (s : State) (id : Nat) : (dropOp s id).cat = s.cat := rfl
@[simp] theorem dropOp_placement (s : State) (id : Nat) : (dropOp s id).placement = s.placement := rfl
@[simp] theorem dropOp_modq (s : State) (id : Nat) : (dropOp s id).modq = s.modq := rfl
@[simp] theorem dropOp_alarm (s : State) (id : Nat) : (dropOp s id).alarm = s.alarm := rfl
@[simp] theorem dropOp_tiles (s : State) (id : Nat) : (dropOp s id).tiles = s.tiles := rfl
@[simp] theorem dropOp_errs (s : State) (id : Nat) : (dropOp s id).errs = s.errs := rfl
@[simp] theorem dropOp_veils (s : State) (id : Nat) : (dropOp s id).veils = s.veils := rfl
@[simp] theorem dropOp_walkq (s : State) (id : Nat) : (dropOp s id).walkq = s.walkq := rfl
@[simp] theorem dropOp_coreMem (s : State) (id : Nat) : (dropOp s id).coreMem = s.coreMem := rfl
@[simp] theorem dropOp_speakers (s : State) (id : Nat) : (dropOp s id).speakers = s.speakers := rfl
@[simp] theorem dropOp_flits (s : State) (id : Nat) : (dropOp s id).flits = s.flits := rfl
@[simp] theorem dropOp_firmware (s : State) (id : Nat) : (dropOp s id).firmware = s.firmware := rfl
@[simp] theorem dropOp_record (s : State) (id : Nat) : (dropOp s id).record = s.record := rfl
@[simp] theorem dropOp_keys (s : State) (id : Nat) : (dropOp s id).keys = s.keys := rfl
@[simp] theorem dropOp_bootPeriod (s : State) (id : Nat) : (dropOp s id).bootPeriod = s.bootPeriod := rfl
@[simp] theorem dropOp_wakeFails (s : State) (id : Nat) : (dropOp s id).wakeFails = s.wakeFails := rfl

/-! ### toLanding -/

@[simp] theorem toLanding_time (s : State) (id : Nat) (vals : List Word) (cost : Word) (marked : Bool) : (toLanding s id vals cost marked).time = s.time := rfl
@[simp] theorem toLanding_oracle (s : State) (id : Nat) (vals : List Word) (cost : Word) (marked : Bool) : (toLanding s id vals cost marked).oracle = s.oracle := rfl
@[simp] theorem toLanding_agenda (s : State) (id : Nat) (vals : List Word) (cost : Word) (marked : Bool) : (toLanding s id vals cost marked).agenda = s.agenda := rfl
@[simp] theorem toLanding_cur (s : State) (id : Nat) (vals : List Word) (cost : Word) (marked : Bool) : (toLanding s id vals cost marked).cur = s.cur := rfl
@[simp] theorem toLanding_inputs (s : State) (id : Nat) (vals : List Word) (cost : Word) (marked : Bool) : (toLanding s id vals cost marked).inputs = s.inputs := rfl
@[simp] theorem toLanding_nextId (s : State) (id : Nat) (vals : List Word) (cost : Word) (marked : Bool) : (toLanding s id vals cost marked).nextId = s.nextId := rfl
@[simp] theorem toLanding_mem (s : State) (id : Nat) (vals : List Word) (cost : Word) (marked : Bool) : (toLanding s id vals cost marked).mem = s.mem := rfl
@[simp] theorem toLanding_hostMem (s : State) (id : Nat) (vals : List Word) (cost : Word) (marked : Bool) : (toLanding s id vals cost marked).hostMem = s.hostMem := rfl
@[simp] theorem toLanding_annex (s : State) (id : Nat) (vals : List Word) (cost : Word) (marked : Bool) : (toLanding s id vals cost marked).annex = s.annex := rfl
@[simp] theorem toLanding_owner (s : State) (id : Nat) (vals : List Word) (cost : Word) (marked : Bool) : (toLanding s id vals cost marked).owner = s.owner := rfl
@[simp] theorem toLanding_poison (s : State) (id : Nat) (vals : List Word) (cost : Word) (marked : Bool) : (toLanding s id vals cost marked).poison = s.poison := rfl
@[simp] theorem toLanding_fab (s : State) (id : Nat) (vals : List Word) (cost : Word) (marked : Bool) : (toLanding s id vals cost marked).fab = s.fab := rfl
@[simp] theorem toLanding_parts (s : State) (id : Nat) (vals : List Word) (cost : Word) (marked : Bool) : (toLanding s id vals cost marked).parts = s.parts := rfl
@[simp] theorem toLanding_launches (s : State) (id : Nat) (vals : List Word) (cost : Word) (marked : Bool) : (toLanding s id vals cost marked).launches = s.launches := rfl
@[simp] theorem toLanding_saved (s : State) (id : Nat) (vals : List Word) (cost : Word) (marked : Bool) : (toLanding s id vals cost marked).saved = s.saved := rfl
@[simp] theorem toLanding_ctrl (s : State) (id : Nat) (vals : List Word) (cost : Word) (marked : Bool) : (toLanding s id vals cost marked).ctrl = s.ctrl := rfl
@[simp] theorem toLanding_tlbs (s : State) (id : Nat) (vals : List Word) (cost : Word) (marked : Bool) : (toLanding s id vals cost marked).tlbs = s.tlbs := rfl
@[simp] theorem toLanding_slices (s : State) (id : Nat) (vals : List Word) (cost : Word) (marked : Bool) : (toLanding s id vals cost marked).slices = s.slices := rfl
@[simp] theorem toLanding_shelvers (s : State) (id : Nat) (vals : List Word) (cost : Word) (marked : Bool) : (toLanding s id vals cost marked).shelvers = s.shelvers := rfl
@[simp] theorem toLanding_trees (s : State) (id : Nat) (vals : List Word) (cost : Word) (marked : Bool) : (toLanding s id vals cost marked).trees = s.trees := rfl
@[simp] theorem toLanding_nb (s : State) (id : Nat) (vals : List Word) (cost : Word) (marked : Bool) : (toLanding s id vals cost marked).nb = s.nb := rfl
@[simp] theorem toLanding_cgen (s : State) (id : Nat) (vals : List Word) (cost : Word) (marked : Bool) : (toLanding s id vals cost marked).cgen = s.cgen := rfl
@[simp] theorem toLanding_cat (s : State) (id : Nat) (vals : List Word) (cost : Word) (marked : Bool) : (toLanding s id vals cost marked).cat = s.cat := rfl
@[simp] theorem toLanding_placement (s : State) (id : Nat) (vals : List Word) (cost : Word) (marked : Bool) : (toLanding s id vals cost marked).placement = s.placement := rfl
@[simp] theorem toLanding_modq (s : State) (id : Nat) (vals : List Word) (cost : Word) (marked : Bool) : (toLanding s id vals cost marked).modq = s.modq := rfl
@[simp] theorem toLanding_alarm (s : State) (id : Nat) (vals : List Word) (cost : Word) (marked : Bool) : (toLanding s id vals cost marked).alarm = s.alarm := rfl
@[simp] theorem toLanding_tiles (s : State) (id : Nat) (vals : List Word) (cost : Word) (marked : Bool) : (toLanding s id vals cost marked).tiles = s.tiles := rfl
@[simp] theorem toLanding_errs (s : State) (id : Nat) (vals : List Word) (cost : Word) (marked : Bool) : (toLanding s id vals cost marked).errs = s.errs := rfl
@[simp] theorem toLanding_veils (s : State) (id : Nat) (vals : List Word) (cost : Word) (marked : Bool) : (toLanding s id vals cost marked).veils = s.veils := rfl
@[simp] theorem toLanding_walkq (s : State) (id : Nat) (vals : List Word) (cost : Word) (marked : Bool) : (toLanding s id vals cost marked).walkq = s.walkq := rfl
@[simp] theorem toLanding_coreMem (s : State) (id : Nat) (vals : List Word) (cost : Word) (marked : Bool) : (toLanding s id vals cost marked).coreMem = s.coreMem := rfl
@[simp] theorem toLanding_speakers (s : State) (id : Nat) (vals : List Word) (cost : Word) (marked : Bool) : (toLanding s id vals cost marked).speakers = s.speakers := rfl
@[simp] theorem toLanding_flits (s : State) (id : Nat) (vals : List Word) (cost : Word) (marked : Bool) : (toLanding s id vals cost marked).flits = s.flits := rfl
@[simp] theorem toLanding_firmware (s : State) (id : Nat) (vals : List Word) (cost : Word) (marked : Bool) : (toLanding s id vals cost marked).firmware = s.firmware := rfl
@[simp] theorem toLanding_record (s : State) (id : Nat) (vals : List Word) (cost : Word) (marked : Bool) : (toLanding s id vals cost marked).record = s.record := rfl
@[simp] theorem toLanding_keys (s : State) (id : Nat) (vals : List Word) (cost : Word) (marked : Bool) : (toLanding s id vals cost marked).keys = s.keys := rfl
@[simp] theorem toLanding_bootPeriod (s : State) (id : Nat) (vals : List Word) (cost : Word) (marked : Bool) : (toLanding s id vals cost marked).bootPeriod = s.bootPeriod := rfl
@[simp] theorem toLanding_wakeFails (s : State) (id : Nat) (vals : List Word) (cost : Word) (marked : Bool) : (toLanding s id vals cost marked).wakeFails = s.wakeFails := rfl

/-! ### sendCtrl -/

@[simp] theorem sendCtrl_time (s : State) (src : Agent) (dst : CtrlDst) (ckind : Nat) (w : Word) (ptn : Nat) (after : List Nat) : (sendCtrl s src dst ckind w ptn after).time = s.time := rfl
@[simp] theorem sendCtrl_oracle (s : State) (src : Agent) (dst : CtrlDst) (ckind : Nat) (w : Word) (ptn : Nat) (after : List Nat) : (sendCtrl s src dst ckind w ptn after).oracle = s.oracle := rfl
@[simp] theorem sendCtrl_agenda (s : State) (src : Agent) (dst : CtrlDst) (ckind : Nat) (w : Word) (ptn : Nat) (after : List Nat) : (sendCtrl s src dst ckind w ptn after).agenda = s.agenda := rfl
@[simp] theorem sendCtrl_cur (s : State) (src : Agent) (dst : CtrlDst) (ckind : Nat) (w : Word) (ptn : Nat) (after : List Nat) : (sendCtrl s src dst ckind w ptn after).cur = s.cur := rfl
@[simp] theorem sendCtrl_inputs (s : State) (src : Agent) (dst : CtrlDst) (ckind : Nat) (w : Word) (ptn : Nat) (after : List Nat) : (sendCtrl s src dst ckind w ptn after).inputs = s.inputs := rfl
@[simp] theorem sendCtrl_mem (s : State) (src : Agent) (dst : CtrlDst) (ckind : Nat) (w : Word) (ptn : Nat) (after : List Nat) : (sendCtrl s src dst ckind w ptn after).mem = s.mem := rfl
@[simp] theorem sendCtrl_hostMem (s : State) (src : Agent) (dst : CtrlDst) (ckind : Nat) (w : Word) (ptn : Nat) (after : List Nat) : (sendCtrl s src dst ckind w ptn after).hostMem = s.hostMem := rfl
@[simp] theorem sendCtrl_annex (s : State) (src : Agent) (dst : CtrlDst) (ckind : Nat) (w : Word) (ptn : Nat) (after : List Nat) : (sendCtrl s src dst ckind w ptn after).annex = s.annex := rfl
@[simp] theorem sendCtrl_owner (s : State) (src : Agent) (dst : CtrlDst) (ckind : Nat) (w : Word) (ptn : Nat) (after : List Nat) : (sendCtrl s src dst ckind w ptn after).owner = s.owner := rfl
@[simp] theorem sendCtrl_poison (s : State) (src : Agent) (dst : CtrlDst) (ckind : Nat) (w : Word) (ptn : Nat) (after : List Nat) : (sendCtrl s src dst ckind w ptn after).poison = s.poison := rfl
@[simp] theorem sendCtrl_fab (s : State) (src : Agent) (dst : CtrlDst) (ckind : Nat) (w : Word) (ptn : Nat) (after : List Nat) : (sendCtrl s src dst ckind w ptn after).fab = s.fab := rfl
@[simp] theorem sendCtrl_parts (s : State) (src : Agent) (dst : CtrlDst) (ckind : Nat) (w : Word) (ptn : Nat) (after : List Nat) : (sendCtrl s src dst ckind w ptn after).parts = s.parts := rfl
@[simp] theorem sendCtrl_launches (s : State) (src : Agent) (dst : CtrlDst) (ckind : Nat) (w : Word) (ptn : Nat) (after : List Nat) : (sendCtrl s src dst ckind w ptn after).launches = s.launches := rfl
@[simp] theorem sendCtrl_saved (s : State) (src : Agent) (dst : CtrlDst) (ckind : Nat) (w : Word) (ptn : Nat) (after : List Nat) : (sendCtrl s src dst ckind w ptn after).saved = s.saved := rfl
@[simp] theorem sendCtrl_ops (s : State) (src : Agent) (dst : CtrlDst) (ckind : Nat) (w : Word) (ptn : Nat) (after : List Nat) : (sendCtrl s src dst ckind w ptn after).ops = s.ops := rfl
@[simp] theorem sendCtrl_copies (s : State) (src : Agent) (dst : CtrlDst) (ckind : Nat) (w : Word) (ptn : Nat) (after : List Nat) : (sendCtrl s src dst ckind w ptn after).copies = s.copies := rfl
@[simp] theorem sendCtrl_tlbs (s : State) (src : Agent) (dst : CtrlDst) (ckind : Nat) (w : Word) (ptn : Nat) (after : List Nat) : (sendCtrl s src dst ckind w ptn after).tlbs = s.tlbs := rfl
@[simp] theorem sendCtrl_slices (s : State) (src : Agent) (dst : CtrlDst) (ckind : Nat) (w : Word) (ptn : Nat) (after : List Nat) : (sendCtrl s src dst ckind w ptn after).slices = s.slices := rfl
@[simp] theorem sendCtrl_shelvers (s : State) (src : Agent) (dst : CtrlDst) (ckind : Nat) (w : Word) (ptn : Nat) (after : List Nat) : (sendCtrl s src dst ckind w ptn after).shelvers = s.shelvers := rfl
@[simp] theorem sendCtrl_trees (s : State) (src : Agent) (dst : CtrlDst) (ckind : Nat) (w : Word) (ptn : Nat) (after : List Nat) : (sendCtrl s src dst ckind w ptn after).trees = s.trees := rfl
@[simp] theorem sendCtrl_nb (s : State) (src : Agent) (dst : CtrlDst) (ckind : Nat) (w : Word) (ptn : Nat) (after : List Nat) : (sendCtrl s src dst ckind w ptn after).nb = s.nb := rfl
@[simp] theorem sendCtrl_cgen (s : State) (src : Agent) (dst : CtrlDst) (ckind : Nat) (w : Word) (ptn : Nat) (after : List Nat) : (sendCtrl s src dst ckind w ptn after).cgen = s.cgen := rfl
@[simp] theorem sendCtrl_cat (s : State) (src : Agent) (dst : CtrlDst) (ckind : Nat) (w : Word) (ptn : Nat) (after : List Nat) : (sendCtrl s src dst ckind w ptn after).cat = s.cat := rfl
@[simp] theorem sendCtrl_placement (s : State) (src : Agent) (dst : CtrlDst) (ckind : Nat) (w : Word) (ptn : Nat) (after : List Nat) : (sendCtrl s src dst ckind w ptn after).placement = s.placement := rfl
@[simp] theorem sendCtrl_modq (s : State) (src : Agent) (dst : CtrlDst) (ckind : Nat) (w : Word) (ptn : Nat) (after : List Nat) : (sendCtrl s src dst ckind w ptn after).modq = s.modq := rfl
@[simp] theorem sendCtrl_alarm (s : State) (src : Agent) (dst : CtrlDst) (ckind : Nat) (w : Word) (ptn : Nat) (after : List Nat) : (sendCtrl s src dst ckind w ptn after).alarm = s.alarm := rfl
@[simp] theorem sendCtrl_tiles (s : State) (src : Agent) (dst : CtrlDst) (ckind : Nat) (w : Word) (ptn : Nat) (after : List Nat) : (sendCtrl s src dst ckind w ptn after).tiles = s.tiles := rfl
@[simp] theorem sendCtrl_errs (s : State) (src : Agent) (dst : CtrlDst) (ckind : Nat) (w : Word) (ptn : Nat) (after : List Nat) : (sendCtrl s src dst ckind w ptn after).errs = s.errs := rfl
@[simp] theorem sendCtrl_veils (s : State) (src : Agent) (dst : CtrlDst) (ckind : Nat) (w : Word) (ptn : Nat) (after : List Nat) : (sendCtrl s src dst ckind w ptn after).veils = s.veils := rfl
@[simp] theorem sendCtrl_walkq (s : State) (src : Agent) (dst : CtrlDst) (ckind : Nat) (w : Word) (ptn : Nat) (after : List Nat) : (sendCtrl s src dst ckind w ptn after).walkq = s.walkq := rfl
@[simp] theorem sendCtrl_coreMem (s : State) (src : Agent) (dst : CtrlDst) (ckind : Nat) (w : Word) (ptn : Nat) (after : List Nat) : (sendCtrl s src dst ckind w ptn after).coreMem = s.coreMem := rfl
@[simp] theorem sendCtrl_speakers (s : State) (src : Agent) (dst : CtrlDst) (ckind : Nat) (w : Word) (ptn : Nat) (after : List Nat) : (sendCtrl s src dst ckind w ptn after).speakers = s.speakers := rfl
@[simp] theorem sendCtrl_flits (s : State) (src : Agent) (dst : CtrlDst) (ckind : Nat) (w : Word) (ptn : Nat) (after : List Nat) : (sendCtrl s src dst ckind w ptn after).flits = s.flits := rfl
@[simp] theorem sendCtrl_firmware (s : State) (src : Agent) (dst : CtrlDst) (ckind : Nat) (w : Word) (ptn : Nat) (after : List Nat) : (sendCtrl s src dst ckind w ptn after).firmware = s.firmware := rfl
@[simp] theorem sendCtrl_record (s : State) (src : Agent) (dst : CtrlDst) (ckind : Nat) (w : Word) (ptn : Nat) (after : List Nat) : (sendCtrl s src dst ckind w ptn after).record = s.record := rfl
@[simp] theorem sendCtrl_keys (s : State) (src : Agent) (dst : CtrlDst) (ckind : Nat) (w : Word) (ptn : Nat) (after : List Nat) : (sendCtrl s src dst ckind w ptn after).keys = s.keys := rfl
@[simp] theorem sendCtrl_bootPeriod (s : State) (src : Agent) (dst : CtrlDst) (ckind : Nat) (w : Word) (ptn : Nat) (after : List Nat) : (sendCtrl s src dst ckind w ptn after).bootPeriod = s.bootPeriod := rfl
@[simp] theorem sendCtrl_wakeFails (s : State) (src : Agent) (dst : CtrlDst) (ckind : Nat) (w : Word) (ptn : Nat) (after : List Nat) : (sendCtrl s src dst ckind w ptn after).wakeFails = s.wakeFails := rfl

/-! ### issue -/

@[simp] theorem issue_time (s : State) (src : Agent) (ptn launch level : Nat) (target : Agent) (dest : Dest) (k : Nat) (after : List Nat) (act : Act) : (issue s src ptn launch level target dest k after act).time = s.time := rfl
@[simp] theorem issue_oracle (s : State) (src : Agent) (ptn launch level : Nat) (target : Agent) (dest : Dest) (k : Nat) (after : List Nat) (act : Act) : (issue s src ptn launch level target dest k after act).oracle = s.oracle := rfl
@[simp] theorem issue_agenda (s : State) (src : Agent) (ptn launch level : Nat) (target : Agent) (dest : Dest) (k : Nat) (after : List Nat) (act : Act) : (issue s src ptn launch level target dest k after act).agenda = s.agenda := rfl
@[simp] theorem issue_cur (s : State) (src : Agent) (ptn launch level : Nat) (target : Agent) (dest : Dest) (k : Nat) (after : List Nat) (act : Act) : (issue s src ptn launch level target dest k after act).cur = s.cur := rfl
@[simp] theorem issue_inputs (s : State) (src : Agent) (ptn launch level : Nat) (target : Agent) (dest : Dest) (k : Nat) (after : List Nat) (act : Act) : (issue s src ptn launch level target dest k after act).inputs = s.inputs := rfl
@[simp] theorem issue_mem (s : State) (src : Agent) (ptn launch level : Nat) (target : Agent) (dest : Dest) (k : Nat) (after : List Nat) (act : Act) : (issue s src ptn launch level target dest k after act).mem = s.mem := rfl
@[simp] theorem issue_hostMem (s : State) (src : Agent) (ptn launch level : Nat) (target : Agent) (dest : Dest) (k : Nat) (after : List Nat) (act : Act) : (issue s src ptn launch level target dest k after act).hostMem = s.hostMem := rfl
@[simp] theorem issue_annex (s : State) (src : Agent) (ptn launch level : Nat) (target : Agent) (dest : Dest) (k : Nat) (after : List Nat) (act : Act) : (issue s src ptn launch level target dest k after act).annex = s.annex := rfl
@[simp] theorem issue_owner (s : State) (src : Agent) (ptn launch level : Nat) (target : Agent) (dest : Dest) (k : Nat) (after : List Nat) (act : Act) : (issue s src ptn launch level target dest k after act).owner = s.owner := rfl
@[simp] theorem issue_poison (s : State) (src : Agent) (ptn launch level : Nat) (target : Agent) (dest : Dest) (k : Nat) (after : List Nat) (act : Act) : (issue s src ptn launch level target dest k after act).poison = s.poison := rfl
@[simp] theorem issue_fab (s : State) (src : Agent) (ptn launch level : Nat) (target : Agent) (dest : Dest) (k : Nat) (after : List Nat) (act : Act) : (issue s src ptn launch level target dest k after act).fab = s.fab := rfl
@[simp] theorem issue_parts (s : State) (src : Agent) (ptn launch level : Nat) (target : Agent) (dest : Dest) (k : Nat) (after : List Nat) (act : Act) : (issue s src ptn launch level target dest k after act).parts = s.parts := rfl
@[simp] theorem issue_launches (s : State) (src : Agent) (ptn launch level : Nat) (target : Agent) (dest : Dest) (k : Nat) (after : List Nat) (act : Act) : (issue s src ptn launch level target dest k after act).launches = s.launches := rfl
@[simp] theorem issue_saved (s : State) (src : Agent) (ptn launch level : Nat) (target : Agent) (dest : Dest) (k : Nat) (after : List Nat) (act : Act) : (issue s src ptn launch level target dest k after act).saved = s.saved := rfl
@[simp] theorem issue_ctrl (s : State) (src : Agent) (ptn launch level : Nat) (target : Agent) (dest : Dest) (k : Nat) (after : List Nat) (act : Act) : (issue s src ptn launch level target dest k after act).ctrl = s.ctrl := rfl
@[simp] theorem issue_tlbs (s : State) (src : Agent) (ptn launch level : Nat) (target : Agent) (dest : Dest) (k : Nat) (after : List Nat) (act : Act) : (issue s src ptn launch level target dest k after act).tlbs = s.tlbs := rfl
@[simp] theorem issue_slices (s : State) (src : Agent) (ptn launch level : Nat) (target : Agent) (dest : Dest) (k : Nat) (after : List Nat) (act : Act) : (issue s src ptn launch level target dest k after act).slices = s.slices := rfl
@[simp] theorem issue_shelvers (s : State) (src : Agent) (ptn launch level : Nat) (target : Agent) (dest : Dest) (k : Nat) (after : List Nat) (act : Act) : (issue s src ptn launch level target dest k after act).shelvers = s.shelvers := rfl
@[simp] theorem issue_trees (s : State) (src : Agent) (ptn launch level : Nat) (target : Agent) (dest : Dest) (k : Nat) (after : List Nat) (act : Act) : (issue s src ptn launch level target dest k after act).trees = s.trees := rfl
@[simp] theorem issue_nb (s : State) (src : Agent) (ptn launch level : Nat) (target : Agent) (dest : Dest) (k : Nat) (after : List Nat) (act : Act) : (issue s src ptn launch level target dest k after act).nb = s.nb := rfl
@[simp] theorem issue_cgen (s : State) (src : Agent) (ptn launch level : Nat) (target : Agent) (dest : Dest) (k : Nat) (after : List Nat) (act : Act) : (issue s src ptn launch level target dest k after act).cgen = s.cgen := rfl
@[simp] theorem issue_cat (s : State) (src : Agent) (ptn launch level : Nat) (target : Agent) (dest : Dest) (k : Nat) (after : List Nat) (act : Act) : (issue s src ptn launch level target dest k after act).cat = s.cat := rfl
@[simp] theorem issue_placement (s : State) (src : Agent) (ptn launch level : Nat) (target : Agent) (dest : Dest) (k : Nat) (after : List Nat) (act : Act) : (issue s src ptn launch level target dest k after act).placement = s.placement := rfl
@[simp] theorem issue_modq (s : State) (src : Agent) (ptn launch level : Nat) (target : Agent) (dest : Dest) (k : Nat) (after : List Nat) (act : Act) : (issue s src ptn launch level target dest k after act).modq = s.modq := rfl
@[simp] theorem issue_alarm (s : State) (src : Agent) (ptn launch level : Nat) (target : Agent) (dest : Dest) (k : Nat) (after : List Nat) (act : Act) : (issue s src ptn launch level target dest k after act).alarm = s.alarm := rfl
@[simp] theorem issue_tiles (s : State) (src : Agent) (ptn launch level : Nat) (target : Agent) (dest : Dest) (k : Nat) (after : List Nat) (act : Act) : (issue s src ptn launch level target dest k after act).tiles = s.tiles := rfl
@[simp] theorem issue_errs (s : State) (src : Agent) (ptn launch level : Nat) (target : Agent) (dest : Dest) (k : Nat) (after : List Nat) (act : Act) : (issue s src ptn launch level target dest k after act).errs = s.errs := rfl
@[simp] theorem issue_veils (s : State) (src : Agent) (ptn launch level : Nat) (target : Agent) (dest : Dest) (k : Nat) (after : List Nat) (act : Act) : (issue s src ptn launch level target dest k after act).veils = s.veils := rfl
@[simp] theorem issue_walkq (s : State) (src : Agent) (ptn launch level : Nat) (target : Agent) (dest : Dest) (k : Nat) (after : List Nat) (act : Act) : (issue s src ptn launch level target dest k after act).walkq = s.walkq := rfl
@[simp] theorem issue_coreMem (s : State) (src : Agent) (ptn launch level : Nat) (target : Agent) (dest : Dest) (k : Nat) (after : List Nat) (act : Act) : (issue s src ptn launch level target dest k after act).coreMem = s.coreMem := rfl
@[simp] theorem issue_speakers (s : State) (src : Agent) (ptn launch level : Nat) (target : Agent) (dest : Dest) (k : Nat) (after : List Nat) (act : Act) : (issue s src ptn launch level target dest k after act).speakers = s.speakers := rfl
@[simp] theorem issue_flits (s : State) (src : Agent) (ptn launch level : Nat) (target : Agent) (dest : Dest) (k : Nat) (after : List Nat) (act : Act) : (issue s src ptn launch level target dest k after act).flits = s.flits := rfl
@[simp] theorem issue_firmware (s : State) (src : Agent) (ptn launch level : Nat) (target : Agent) (dest : Dest) (k : Nat) (after : List Nat) (act : Act) : (issue s src ptn launch level target dest k after act).firmware = s.firmware := rfl
@[simp] theorem issue_record (s : State) (src : Agent) (ptn launch level : Nat) (target : Agent) (dest : Dest) (k : Nat) (after : List Nat) (act : Act) : (issue s src ptn launch level target dest k after act).record = s.record := rfl
@[simp] theorem issue_keys (s : State) (src : Agent) (ptn launch level : Nat) (target : Agent) (dest : Dest) (k : Nat) (after : List Nat) (act : Act) : (issue s src ptn launch level target dest k after act).keys = s.keys := rfl
@[simp] theorem issue_bootPeriod (s : State) (src : Agent) (ptn launch level : Nat) (target : Agent) (dest : Dest) (k : Nat) (after : List Nat) (act : Act) : (issue s src ptn launch level target dest k after act).bootPeriod = s.bootPeriod := rfl
@[simp] theorem issue_wakeFails (s : State) (src : Agent) (ptn launch level : Nat) (target : Agent) (dest : Dest) (k : Nat) (after : List Nat) (act : Act) : (issue s src ptn launch level target dest k after act).wakeFails = s.wakeFails := rfl

/-! ### serve -/

@[simp] theorem serve_time (s : State) (o : Op) : (serve s o).time = s.time := rfl
@[simp] theorem serve_oracle (s : State) (o : Op) : (serve s o).oracle = s.oracle := rfl
@[simp] theorem serve_agenda (s : State) (o : Op) : (serve s o).agenda = s.agenda := rfl
@[simp] theorem serve_cur (s : State) (o : Op) : (serve s o).cur = s.cur := rfl
@[simp] theorem serve_inputs (s : State) (o : Op) : (serve s o).inputs = s.inputs := rfl
@[simp] theorem serve_nextId (s : State) (o : Op) : (serve s o).nextId = s.nextId := rfl
@[simp] theorem serve_mem (s : State) (o : Op) : (serve s o).mem = s.mem := rfl
@[simp] theorem serve_hostMem (s : State) (o : Op) : (serve s o).hostMem = s.hostMem := rfl
@[simp] theorem serve_annex (s : State) (o : Op) : (serve s o).annex = s.annex := rfl
@[simp] theorem serve_owner (s : State) (o : Op) : (serve s o).owner = s.owner := rfl
@[simp] theorem serve_poison (s : State) (o : Op) : (serve s o).poison = s.poison := rfl
@[simp] theorem serve_fab (s : State) (o : Op) : (serve s o).fab = s.fab := rfl
@[simp] theorem serve_parts (s : State) (o : Op) : (serve s o).parts = s.parts := rfl
@[simp] theorem serve_launches (s : State) (o : Op) : (serve s o).launches = s.launches := rfl
@[simp] theorem serve_saved (s : State) (o : Op) : (serve s o).saved = s.saved := rfl
@[simp] theorem serve_ops (s : State) (o : Op) : (serve s o).ops = s.ops := rfl
@[simp] theorem serve_copies (s : State) (o : Op) : (serve s o).copies = s.copies := rfl
@[simp] theorem serve_ctrl (s : State) (o : Op) : (serve s o).ctrl = s.ctrl := rfl
@[simp] theorem serve_tlbs (s : State) (o : Op) : (serve s o).tlbs = s.tlbs := rfl
@[simp] theorem serve_slices (s : State) (o : Op) : (serve s o).slices = s.slices := rfl
@[simp] theorem serve_shelvers (s : State) (o : Op) : (serve s o).shelvers = s.shelvers := rfl
@[simp] theorem serve_trees (s : State) (o : Op) : (serve s o).trees = s.trees := rfl
@[simp] theorem serve_nb (s : State) (o : Op) : (serve s o).nb = s.nb := rfl
@[simp] theorem serve_cgen (s : State) (o : Op) : (serve s o).cgen = s.cgen := rfl
@[simp] theorem serve_cat (s : State) (o : Op) : (serve s o).cat = s.cat := rfl
@[simp] theorem serve_placement (s : State) (o : Op) : (serve s o).placement = s.placement := rfl
@[simp] theorem serve_modq (s : State) (o : Op) : (serve s o).modq = s.modq := rfl
@[simp] theorem serve_alarm (s : State) (o : Op) : (serve s o).alarm = s.alarm := rfl
@[simp] theorem serve_tiles (s : State) (o : Op) : (serve s o).tiles = s.tiles := rfl
@[simp] theorem serve_errs (s : State) (o : Op) : (serve s o).errs = s.errs := rfl
@[simp] theorem serve_veils (s : State) (o : Op) : (serve s o).veils = s.veils := rfl
@[simp] theorem serve_walkq (s : State) (o : Op) : (serve s o).walkq = s.walkq := rfl
@[simp] theorem serve_coreMem (s : State) (o : Op) : (serve s o).coreMem = s.coreMem := rfl
@[simp] theorem serve_speakers (s : State) (o : Op) : (serve s o).speakers = s.speakers := rfl
@[simp] theorem serve_flits (s : State) (o : Op) : (serve s o).flits = s.flits := rfl
@[simp] theorem serve_firmware (s : State) (o : Op) : (serve s o).firmware = s.firmware := rfl
@[simp] theorem serve_record (s : State) (o : Op) : (serve s o).record = s.record := rfl
@[simp] theorem serve_keys (s : State) (o : Op) : (serve s o).keys = s.keys := rfl
@[simp] theorem serve_bootPeriod (s : State) (o : Op) : (serve s o).bootPeriod = s.bootPeriod := rfl
@[simp] theorem serve_wakeFails (s : State) (o : Op) : (serve s o).wakeFails = s.wakeFails := rfl

/-! ### setCat -/

@[simp] theorem setCat_time (s : State) (kind inst st : Nat) : (setCat s kind inst st).time = s.time := rfl
@[simp] theorem setCat_oracle (s : State) (kind inst st : Nat) : (setCat s kind inst st).oracle = s.oracle := rfl
@[simp] theorem setCat_agenda (s : State) (kind inst st : Nat) : (setCat s kind inst st).agenda = s.agenda := rfl
@[simp] theorem setCat_cur (s : State) (kind inst st : Nat) : (setCat s kind inst st).cur = s.cur := rfl
@[simp] theorem setCat_inputs (s : State) (kind inst st : Nat) : (setCat s kind inst st).inputs = s.inputs := rfl
@[simp] theorem setCat_nextId (s : State) (kind inst st : Nat) : (setCat s kind inst st).nextId = s.nextId := rfl
@[simp] theorem setCat_mem (s : State) (kind inst st : Nat) : (setCat s kind inst st).mem = s.mem := rfl
@[simp] theorem setCat_hostMem (s : State) (kind inst st : Nat) : (setCat s kind inst st).hostMem = s.hostMem := rfl
@[simp] theorem setCat_annex (s : State) (kind inst st : Nat) : (setCat s kind inst st).annex = s.annex := rfl
@[simp] theorem setCat_owner (s : State) (kind inst st : Nat) : (setCat s kind inst st).owner = s.owner := rfl
@[simp] theorem setCat_poison (s : State) (kind inst st : Nat) : (setCat s kind inst st).poison = s.poison := rfl
@[simp] theorem setCat_fab (s : State) (kind inst st : Nat) : (setCat s kind inst st).fab = s.fab := rfl
@[simp] theorem setCat_parts (s : State) (kind inst st : Nat) : (setCat s kind inst st).parts = s.parts := rfl
@[simp] theorem setCat_launches (s : State) (kind inst st : Nat) : (setCat s kind inst st).launches = s.launches := rfl
@[simp] theorem setCat_saved (s : State) (kind inst st : Nat) : (setCat s kind inst st).saved = s.saved := rfl
@[simp] theorem setCat_ops (s : State) (kind inst st : Nat) : (setCat s kind inst st).ops = s.ops := rfl
@[simp] theorem setCat_copies (s : State) (kind inst st : Nat) : (setCat s kind inst st).copies = s.copies := rfl
@[simp] theorem setCat_ctrl (s : State) (kind inst st : Nat) : (setCat s kind inst st).ctrl = s.ctrl := rfl
@[simp] theorem setCat_tlbs (s : State) (kind inst st : Nat) : (setCat s kind inst st).tlbs = s.tlbs := rfl
@[simp] theorem setCat_slices (s : State) (kind inst st : Nat) : (setCat s kind inst st).slices = s.slices := rfl
@[simp] theorem setCat_shelvers (s : State) (kind inst st : Nat) : (setCat s kind inst st).shelvers = s.shelvers := rfl
@[simp] theorem setCat_trees (s : State) (kind inst st : Nat) : (setCat s kind inst st).trees = s.trees := rfl
@[simp] theorem setCat_nb (s : State) (kind inst st : Nat) : (setCat s kind inst st).nb = s.nb := rfl
@[simp] theorem setCat_placement (s : State) (kind inst st : Nat) : (setCat s kind inst st).placement = s.placement := rfl
@[simp] theorem setCat_modq (s : State) (kind inst st : Nat) : (setCat s kind inst st).modq = s.modq := rfl
@[simp] theorem setCat_alarm (s : State) (kind inst st : Nat) : (setCat s kind inst st).alarm = s.alarm := rfl
@[simp] theorem setCat_tiles (s : State) (kind inst st : Nat) : (setCat s kind inst st).tiles = s.tiles := rfl
@[simp] theorem setCat_errs (s : State) (kind inst st : Nat) : (setCat s kind inst st).errs = s.errs := rfl
@[simp] theorem setCat_veils (s : State) (kind inst st : Nat) : (setCat s kind inst st).veils = s.veils := rfl
@[simp] theorem setCat_walkq (s : State) (kind inst st : Nat) : (setCat s kind inst st).walkq = s.walkq := rfl
@[simp] theorem setCat_coreMem (s : State) (kind inst st : Nat) : (setCat s kind inst st).coreMem = s.coreMem := rfl
@[simp] theorem setCat_speakers (s : State) (kind inst st : Nat) : (setCat s kind inst st).speakers = s.speakers := rfl
@[simp] theorem setCat_flits (s : State) (kind inst st : Nat) : (setCat s kind inst st).flits = s.flits := rfl
@[simp] theorem setCat_firmware (s : State) (kind inst st : Nat) : (setCat s kind inst st).firmware = s.firmware := rfl
@[simp] theorem setCat_record (s : State) (kind inst st : Nat) : (setCat s kind inst st).record = s.record := rfl
@[simp] theorem setCat_keys (s : State) (kind inst st : Nat) : (setCat s kind inst st).keys = s.keys := rfl
@[simp] theorem setCat_bootPeriod (s : State) (kind inst st : Nat) : (setCat s kind inst st).bootPeriod = s.bootPeriod := rfl
@[simp] theorem setCat_wakeFails (s : State) (kind inst st : Nat) : (setCat s kind inst st).wakeFails = s.wakeFails := rfl

/-! ### Reads after updates -/

@[simp] theorem task_setTask_self (s : State) (tid : Nat) (t : Task) : (s.setTask tid t).task? tid = some t :=
  mget_mset_self _ _ _
theorem task_setTask_ne (s : State) {tid u : Nat} (t : Task) (h : u ≠ tid) : (s.setTask tid t).task? u = s.task? u :=
  mget_mset_ne _ _ h
@[simp] theorem task_putBlock_self (s : State) (tid : Nat) (t : Task) (b : Block) :
    (putBlock s tid t b).task? tid = some { t with blk := some b } := mget_mset_self _ _ _
theorem task_putBlock_ne (s : State) {tid u : Nat} (t : Task) (b : Block) (h : u ≠ tid) : (putBlock s tid t b).task? u = s.task? u :=
  mget_mset_ne _ _ h
@[simp] theorem task_setChan (s : State) (a u : Nat) (c : Channel) : (s.setChan a c).task? u = s.task? u := rfl
@[simp] theorem task_setRegion (s : State) (r u : Nat) (g : Region) : (s.setRegion r g).task? u = s.task? u := rfl
@[simp] theorem region_setRegion_self (s : State) (r : Nat) (g : Region) : (s.setRegion r g).region? r = some g := mget_mset_self _ _ _
theorem region_setRegion_ne (s : State) {r x : Nat} (g : Region) (h : x ≠ r) : (s.setRegion r g).region? x = s.region? x :=
  mget_mset_ne _ _ h
@[simp] theorem region_setTask (s : State) (tid r : Nat) (t : Task) : (s.setTask tid t).region? r = s.region? r := rfl
@[simp] theorem chan_setChan_self (s : State) (a : Nat) (c : Channel) : (s.setChan a c).chan a = c := by
  simp [State.chan, State.setChan, mgetD]
theorem chan_setChan_ne (s : State) {a x : Nat} (c : Channel) (h : x ≠ a) : (s.setChan a c).chan x = s.chan x := by
  simp [State.chan, State.setChan, mgetD, mget_mset_ne _ _ h]
@[simp] theorem unit_setUnit_self (s : State) (u : Nat) (x : NbUnit) : (s.setUnit u x).unit u = x := by
  simp [State.unit, State.setUnit, mgetD]
theorem unit_setUnit_ne (s : State) {u v : Nat} (x : NbUnit) (h : v ≠ u) : (s.setUnit u x).unit v = s.unit v := by
  simp [State.unit, State.setUnit, mgetD, mget_mset_ne _ _ h]
@[simp] theorem shelver_setShelver_self (s : State) (n : Nat) (x : Shelver) : (s.setShelver n x).shelver n = x := by
  simp [State.shelver, State.setShelver, mgetD]
theorem shelver_setShelver_ne (s : State) {n m : Nat} (x : Shelver) (h : m ≠ n) : (s.setShelver n x).shelver m = s.shelver m := by
  simp [State.shelver, State.setShelver, mgetD, mget_mset_ne _ _ h]
@[simp] theorem tile_modTile_self (s : State) (t : Nat) (f : Tile → Tile) : (s.modTile t f).tile t = f (s.tile t) := by
  simp [State.tile, State.modTile, mgetD]
theorem tile_modTile_ne (s : State) {t u : Nat} (f : Tile → Tile) (h : u ≠ t) : (s.modTile t f).tile u = s.tile u := by
  simp [State.tile, State.modTile, mgetD, mget_mset_ne _ _ h]
@[simp] theorem neighOf_modNeigh_self (s : State) (t d : Nat) (f : Neigh → Neigh) :
    (s.modNeigh t d f).neighOf t d = f (s.neighOf t d) := by
  simp [State.neighOf, State.modNeigh, mgetD]

/-! ### The form of the memories -/

/-- An update that changes none of the four memories keeps their form. -/
theorem memoriesOk_of_same {s s' : State} (h : SameMemory s s') : s'.memoriesOk = s.memoriesOk := by
  obtain ⟨h1, h2, h3, h4⟩ := h
  simp [State.memoriesOk, h1, h2, h3, h4]

/-- A store to HBM or scratch keeps the form. -/
theorem memoriesOk_putMem {s : State} (a : Nat) (bs : List Byte) (h : s.memoriesOk = true) : (s.putMem a bs).memoriesOk = true := by
  simp only [State.memoriesOk, Bool.and_eq_true] at *
  exact ⟨⟨⟨Memory.wf_writeN _ _ _ h.1.1.1, h.1.1.2⟩, h.1.2⟩, h.2⟩

/-- The same memories twice. -/
theorem SameMemory.trans {s t u : State} (h : SameMemory s t) (k : SameMemory t u) : SameMemory s u :=
  ⟨k.1.trans h.1, k.2.1.trans h.2.1, k.2.2.1.trans h.2.2.1, k.2.2.2.trans h.2.2.2⟩

/-- Nothing has changed. -/
theorem SameMemory.refl (s : State) : SameMemory s s := ⟨rfl, rfl, rfl, rfl⟩

end Sys2Proof.Machine
end

