-- ==== Sys2Proof/Tests/Slice0.lean ====
section
/-!
SUPPORT. The model's own tests: ill-formed terms that the checks refuse, words written out from the spec's encodings
that decode to the instructions they stand for, and, for the statements in Certificates/Slice0/Obligations.lean,
states and operands that meet their hypotheses.
-/

namespace Sys2Proof.Tests

open Sys2Proof Sys2Proof.Machine

set_option Elab.async false

/-! ### Well-formedness: an ill-formed term for each check -/

theorem test_wf_target_in_block : (Instr.mov .always (.left 4) .none).wellFormed 4 = false := by decide
theorem test_wf_target_in_block_ok : (Instr.mov .always (.left 3) .none).wellFormed 4 = true := by decide
theorem test_wf_commit_target_kind : (Instr.amo .always 0 true .add none (.left 0)).wellFormed 4 = false := by decide
theorem test_wf_register_range : (Instr.snpg .always 0 (.reg 62)).wellFormed 4 = false := by decide
theorem test_wf_register_range_ok : (Instr.snpg .always 0 (.reg 61)).wellFormed 4 = true := by decide
theorem test_wf_arm_target : (Instr.arm .always 0 0 (.reg 1)).wellFormed 4 = false := by decide
theorem test_wf_no_result : (Instr.irq .always 5 (.reg 1)).wellFormed 4 = false := by decide
theorem test_wf_scan_target : (Instr.fscn .always 0 0 (.reg 1)).wellFormed 4 = false := by decide
theorem test_wf_wide_load : (Instr.ld .always 0 .b128 (.plain .none) (.reg 63)).wellFormed 4 = false := by decide
theorem test_wf_vector : (Instr.irq .always 4 .none).wellFormed 4 = false := by decide
theorem test_wf_wide_ldx : (Instr.ldx .always 0 .b128 (.plain .none) (.reg 1)).wellFormed 4 = false := by decide
theorem test_wf_wide_stx : (Instr.stx .always 0 .b128 (.plain .none) 0).wellFormed 4 = false := by decide
theorem test_wf_element_reserved :
    (Instr.vadd ⟨6, 6, 0, 0, 0, 0, 0, 0, 0, 0, 1, 0, 1, 2, 0, 0, 0x11, 0, 0, 0, 0⟩).wellFormed 4 = false := by decide
theorem test_wf_folio_reserved : (Instr.sha ⟨0, 1, 0x800, 0⟩).wellFormed 4 = false := by decide
theorem test_wf_node_reserved : (Instr.nbAdd ⟨0, 0, 0, 0, 0, 0, 0, 0, 1, 0⟩).wellFormed 4 = false := by decide
theorem test_wf_command_reserved : (Instr.nop .module ⟨0, 1, 0, 0, 0, 0, 0, 0, 0, 0, 0, 0, 0⟩).wellFormed 4 = false := by decide

/-! ### Decoding: the words that spec/12_encodings.md writes out to the bit -/

theorem test_decode_rd : decode 0x4C000A41 = .ok (.rd .always 5 (.left 1)) := by rfl
theorem test_decode_addi : decode 0x2C000242 = .ok (.addi .always 1 (.left 2)) := by rfl
theorem test_decode_mov : decode 0x4E028705 = .ok (.mov .always (.reg 5) (.chan 3)) := by rfl
theorem test_decode_br : decode 0x56000000 = .ok (.br .always 0 0) := by rfl
theorem test_decode_add : decode 0x02320A42 = .ok (.add .always .s64 false (.left 2) (.reg 5)) := by rfl
theorem test_decode_st : decode 0x82894C02 = .ok (.st .onTrue 2 .s32 (.rel .ptn) 2) := by rfl
theorem test_decode_vadd : decodeElem 0x103300800000000047002A0000000000 =
    some (.vadd ⟨3, 3, 0, 0, 1, 0, 0, 0, 0, 0, 0, 0, 4, 7, 0, 0, 0x2A, 0, 0, 0, 0⟩) := by rfl

/-! ### Decoding: words written out by the tables, one or more for each family -/

/-- opcode 0x0D, always, TY n16 (5), TGTB none, TGTA kind 4 index 1 -/
theorem test_decode_sar : decode (0x0D * 2 ^ 25 + 5 * 2 ^ 20 + 0x101) = .ok (.sar .always .n16 (.reg 1) .none) := by rfl
/-- opcode 0x1E, predicate false, IMM14 all ones, TGTA kind 2 index 7 -/
theorem test_decode_cst : decode (0x1E * 2 ^ 25 + 2 * 2 ^ 23 + 0x3FFF * 2 ^ 9 + 0x087) = .ok (.cst .onFalse 0x3FFF (.right 7)) := by rfl
/-- opcode 0x22, TY s8, TGTA kind 6 index 2 -/
theorem test_decode_sel : decode (0x22 * 2 ^ 25 + 0x182) = .ok (.sel .always .s8 (.third 2) .none) := by rfl
/-- opcode 0x29, MK 1 at bit 15, channel 9 at bit 9 -/
theorem test_decode_peek : decode (0x29 * 2 ^ 25 + 2 ^ 15 + 9 * 2 ^ 9 + 0x100) = .ok (.peek .always true 9 (.reg 0)) := by rfl
/-- opcode 0x31, EXIT 7 -/
theorem test_decode_halt : decode (0x31 * 2 ^ 25 + 7 * 2 ^ 20) = .ok (.halt .always 7) := by rfl
/-- opcode 0x3B, FT f16, RND rup, SATM finite, SUB n32 (6), DIR 1 -/
theorem test_decode_fcvt : decode (0x3B * 2 ^ 25 + 1 * 2 ^ 21 + 3 * 2 ^ 18 + 1 * 2 ^ 16 + 6 * 2 ^ 12 + 2 ^ 11 + 0x101) =
    .ok (.fcvt .always .f16 .rup .finite (.int .n32) true (.reg 1)) := by rfl
/-- opcode 0x44, LSID 3, hint ef -/
theorem test_decode_prf : decode (0x44 * 2 ^ 25 + 3 * 2 ^ 18 + 2 * 2 ^ 9) = .ok (.prf .always 3 0 .ef) := by rfl
/-- opcode 0x49, LSID 4, WD 1, SCOPE sys (12) -/
theorem test_decode_cas2 : decode (0x49 * 2 ^ 25 + 4 * 2 ^ 18 + 2 ^ 17 + 12 * 2 ^ 9 + 0x100) =
    .ok (.cas2 .always 4 (some .sys) (.reg 0)) := by rfl
/-- opcode 0x4A, ORD acqrel, SCOPE die (5) -/
theorem test_decode_fnc : decode (0x4A * 2 ^ 25 + 3 * 2 ^ 13 + 5 * 2 ^ 9) = .ok (.fnc .always .acqrel .die .none) := by rfl
/-- opcode 0x4D, BID 33, SCOPE ptn (6) -/
theorem test_decode_bara : decode (0x4D * 2 ^ 25 + 33 * 2 ^ 17 + 6 * 2 ^ 9 + 0x102) = .ok (.bara .always 33 .ptn (.reg 2)) := by rfl
/-- opcode 0x53, CTX 1, REG 6, MW 1, MODE 1 -/
theorem test_decode_ctxm : decode (0x53 * 2 ^ 25 + 1 * 2 ^ 21 + 6 * 2 ^ 18 + 2 ^ 17 + 2 ^ 16 + 0x101) =
    .ok (.ctxm .always 1 6 true true (.reg 1)) := by rfl
/-- opcode 0x57, LSID 1, hint nt -/
theorem test_decode_mcst : decode (0x57 * 2 ^ 25 + 1 * 2 ^ 18 + 3 * 2 ^ 9 + 0x101) = .ok (.mcst .always 1 .nt (.reg 1)) := by rfl
/-- opcode 0x5F, GR 1 at bit 17 -/
theorem test_decode_fnew : decode (0x5F * 2 ^ 25 + 2 ^ 17 + 0x101) = .ok (.fnewGrant .always 0 (.reg 1)) := by rfl
/-- opcode 0x62, STPL 5, channel target 3 -/
theorem test_decode_fscn : decode (0x62 * 2 ^ 25 + 5 * 2 ^ 15 + 0x143) = .ok (.fscn .always 0 5 (.chan 3)) := by rfl
/-- opcode 0x65 -/
theorem test_decode_snph : decode (0x65 * 2 ^ 25 + 0x041) = .ok (.snph .always (.left 1)) := by rfl
/-- opcode 0x6A, CTX 3, REG 2 -/
theorem test_decode_wgl : decode (0x6A * 2 ^ 25 + 3 * 2 ^ 21 + 2 * 2 ^ 18 + 0x101) = .ok (.wgl .always 3 2 (.reg 1)) := by rfl
/-- opcode 0x6D -/
theorem test_decode_rets : decode (0x6D * 2 ^ 25 + 0x101) = .ok (.rets .always (.reg 1)) := by rfl
/-- opcode 0x71, LSID 2 -/
theorem test_decode_nmld : decode (0x71 * 2 ^ 25 + 2 * 2 ^ 18) = .ok (.nmld .always 2 .none) := by rfl
/-- opcode 0x75, TNUM 511 -/
theorem test_decode_trp : decode (0x75 * 2 ^ 25 + 511 * 2 ^ 9) = .ok (.trp .always 511 .none) := by rfl
/-- opcode 0x7C, VEC 63; vector 4 is refused -/
theorem test_decode_irq : decode (0x7C * 2 ^ 25 + 63 * 2 ^ 9) = .ok (.irq .always 63 .none) := by rfl
theorem test_decode_irq_low : decode (0x7C * 2 ^ 25 + 4 * 2 ^ 9) = .error .reservedField := by rfl
/-- a load with rel, a scope of 13, and CSR number 0x006 are reserved -/
theorem test_decode_load_rel : decode (0x40 * 2 ^ 25 + 2 * 2 ^ 13 + 6 * 2 ^ 9 + 0x101) = .error .reservedField := by rfl
theorem test_decode_scope_13 : decode (0x40 * 2 ^ 25 + 1 * 2 ^ 13 + 13 * 2 ^ 9 + 0x101) = .error .reservedField := by rfl
theorem test_decode_csr_6 : decode (0x77 * 2 ^ 25 + 6 * 2 ^ 9 + 0x101) = .error .reservedField := by rfl

/-- The element operations by their codes: a converter, an online operation, a router operator, a matrix operation, an
address generator and a fibre stream element; 0x01 is no operation, and the role word of a memory buffer fires nothing. -/
theorem test_decode_elements :
    (decodeElem (0x30 * 2 ^ 120 + 5 * 2 ^ 105)).isSome = true ∧ decodeElem (0x01 * 2 ^ 120) = none ∧
      decodeElem (0x62 * 2 ^ 120) = none := by decide
theorem test_decode_router : decodeElem (0x43 * 2 ^ 120 + 3 * 2 ^ 60 + 0xA1 * 2 ^ 40 + 2 * 2 ^ 21 + 5) =
    some (.cry ⟨0, 0, 0, 0, 0, 0, 0, 0, 0, 0, 0, 0, 3, 0, 0, 0, 0xA1, 0, 0, 2, 5⟩) := by rfl
theorem test_decode_matrix : decodeElem (0x50 * 2 ^ 120 + 6 * 2 ^ 116 + 8 * 2 ^ 112 + 4 * 2 ^ 60 + 1 * 2 ^ 56) =
    some (.mma ⟨6, 8, 0, 0, 0, 0, 0, 0, 0, 0, 0, 0, 4, 1, 0, 0, 0, 0, 0, 0, 0⟩) := by rfl
theorem test_decode_generator : decodeElem (0x61 * 2 ^ 120 + 7 * 2 ^ 64) =
    some (.agw ⟨0, 0, 0, 0, 0, 0, 0, 0, 0, 0, 0, 7, 0, 0, 0, 0, 0, 0, 0, 0, 0⟩) := by rfl
theorem test_decode_stream : decodeElem (0x6B * 2 ^ 120 + 14 * 2 ^ 116 + 14 * 2 ^ 112) =
    some (.funi ⟨14, 14, 0, 0, 0, 0, 0, 0, 0, 0, 0, 0, 0, 0, 0, 0, 0, 0, 0, 0, 0⟩) := by rfl
/-- NOP 1 (SUM4), WID 2, S0 input port 3, S1 node 5, S2 and S3 none -/
theorem test_decode_folio : decodeFolio (1 * 2 ^ 60 + 2 * 2 ^ 58 + 0x803 * 2 ^ 44 + 0x005 * 2 ^ 32 + 0xFFF * 2 ^ 20 + 0xFFF * 2 ^ 8) =
    some (.sum4 ⟨2, 0, 0x803, 0x005FFFFFF00⟩) := by rfl
/-- NOPC 3 (ADD), NFT 1, output A to node 9 right, used; RI 1; IMM 4 -/
theorem test_decode_node : decodeNode (3 * 2 ^ 60 + 2 ^ 59 + 9 * 2 ^ 55 + 2 ^ 54 + 2 ^ 53 + 2 ^ 46 + 4) =
    some (.nbAdd ⟨1, 9, 1, 1, 0, 0, 0, 1, 0, 4⟩) := by rfl
set_option exponentiation.threshold 600 in
/-- SEQ 7, OPC 0x03 (SIGNAL), IRQC 1, word 1, word 2 and TAG -/
theorem test_decode_command : decodeCmd (.part 1 0) (7 * 2 ^ 32 + 0x03 * 2 ^ 24 + 2 ^ 16 + 0x1000 * 2 ^ 64 + 5 * 2 ^ 128 + 9 * 2 ^ 224 * 2 ^ 224) =
    some (.signal (.part 1 0) ⟨7, 0, 0, 1, 0, 0, 0x1000, 5, 0, 0, 0, 0, 9⟩) := by rfl
set_option exponentiation.threshold 600 in
/-- PSET item 3 names a ring -/
theorem test_decode_pset : decodeCmd .module (0x44 * 2 ^ 24 + 2 ^ 64 * (1 + 3 * 2 ^ 8 + 0 * 2 ^ 16)) =
    some (.psetRing .module ⟨0, 0, 0, 0, 0, 0, 0x301, 0, 0, 0, 0, 0, 0⟩) := by rfl

/-! ### Small states -/

/-- A task of partition 1 and launch 1 at block 0. -/
def aTask : Task where
  ptn := 1
  launch := 1
  root := false
  state := .runnable
  pc := 0
  regs := lrep 64 0
  fsr := 0
  fcost := 0
  prio := 0
  level := 0
  ret := []
  lastExit := 0
  routes := []
  pend := []
  waitOn := .nothing
  barW := []
  yielded := []
  resp := []
  invs := []
  after := []
  afterW := []
  resumeAt := none
  held := false
  asleep := false
  trap := []
  blk := none

/-- A partition of clusters 0 and 1 with nothing set. -/
def aPart : Partition where
  clusters := [0, 1]
  ways := [(0, [0, 1])]
  prio := 0
  weight := 1
  partner := none
  resident := true
  core := 0
  s1root := none
  ranges := []
  inwin := []
  outwin := []
  rings := []
  vectors := []
  epoch := 0
  ssc0 := 0
  ssc1 := 0
  bars := []
  dlgt := []
  mbox := []
  waitrec := []
  rets := []
  pages := []
  units := []
  reset := none
  swap := none
  compl := []

/-- A launch of partition 1 that runs. -/
def aLaunch : Launch := ⟨1, 0, 5, 9, false, 0, 0x10000, 0, 0, .running, 0, false⟩

/-- A state with one task in slot 0 of SE 0. -/
def withTask (t : Task) : State :=
  { State.reset with fab := { Fabric.empty with tasks := [(0, t)] }, parts := [(1, aPart)], launches := [(1, aLaunch)] }

/-- A block of the one slot x. -/
def aBlock (x : Slot) : Block := ⟨0, 1, 0, 0, true, false, [x], [], 0, [], [], 0, [], [], 0, [], []⟩

/-- The state in which slot x, the one slot of its block, has its turn. -/
def firingState (x : Slot) : State := { withTask { aTask with blk := some (aBlock x) } with cur := .firing 0 0 }

/-- The state in which a commit form has its turn with its operands. -/
def commitState (a b c : Word) : State :=
  { withTask aTask with cur := .commit 0 0 a b c }

/-- A slot with its operands and a predicate. -/
def slotOf4 (x y z p : Word) : Slot := ⟨.val x, .val y, .val z, .val p, .waiting⟩

/-! ### Witnesses: slots that fire -/

/-- Two operands and a predicate that matches: what the statements on forms of two operands assume. -/
theorem witness_two : Fires (firingState (slotOf4 0x80 3 0 1)) .onTrue .n2 0 0 { aTask with blk := some (aBlock (slotOf4 0x80 3 0 1)) }
    (aBlock (slotOf4 0x80 3 0 1)) 0x80 3 0 := ⟨rfl, rfl, rfl, rfl⟩

theorem witness_IntegerBinary : ∃ s p tid k t b x y z, Fires s p .n2 tid k t b x y z := ⟨_, _, _, _, _, _, _, _, _, witness_two⟩

/-- DIV: a divisor of 0 and of -1 with the smallest dividend, whose quotient lies outside s8. -/
theorem witness_Division : (∃ s p tid k t b x z, Fires s p .n2 tid k t b x 0x100 z ∧ interp .s8 0x100 = 0) ∧
    (∃ s p tid k t b z, Fires s p .n2 tid k t b 0x80 0xFF z ∧ interp .s8 0xFF ≠ 0 ∧
      clampFlags .s8 ((interp .s8 0x80).tdiv (interp .s8 0xFF)) ≠ 0) :=
  ⟨⟨firingState (slotOf4 7 0x100 0 0), .always, 0, 0, _, _, 7, 0, ⟨rfl, rfl, rfl, rfl⟩, rfl⟩,
   ⟨firingState (slotOf4 0x80 0xFF 0 0), .always, 0, 0, _, _, 0, ⟨rfl, rfl, rfl, rfl⟩, by decide, by decide⟩⟩

/-- Forms of one operand and of none. -/
theorem witness_IntegerUnaryAndImmediate : (∃ s p tid k t b x y z, Fires s p .n1 tid k t b x y z) ∧
    (∃ s p tid k t b x y z, Fires s p .n0 tid k t b x y z) :=
  ⟨⟨firingState ⟨.val 8, .empty, .empty, .empty, .waiting⟩, .always, 0, 0, _, _, 8, 0, 0, ⟨rfl, rfl, rfl, rfl⟩⟩,
   ⟨firingState ⟨.empty, .empty, .empty, .empty, .waiting⟩, .always, 0, 0, _, _, 0, 0, 0, ⟨rfl, rfl, rfl, rfl⟩⟩⟩

/-- Forms of one, two and three operands. -/
theorem witness_CompareSelectAddress : (∃ s p tid k t b x y z, Fires s p .n1 tid k t b x y z) ∧
    (∃ s p tid k t b x y z, Fires s p .n2 tid k t b x y z) ∧ (∃ s p tid k t b x y z, Fires s p .n3 tid k t b x y z) :=
  ⟨witness_IntegerUnaryAndImmediate.1, witness_IntegerBinary,
   ⟨firingState (slotOf4 1 2 3 0), .onFalse, 0, 0, _, _, 1, 2, 3, ⟨rfl, rfl, rfl, rfl⟩⟩⟩

/-- The channel 3 bound to the task, with a word whose mark is set, and a response that is there. -/
def readState (x : Slot) : State :=
  let t := { aTask with blk := some (aBlock x), resp := [⟨7, some 11⟩] }
  { withTask t with cur := .firing 0 0, fab := { Fabric.empty with tasks := [(0, t)], chans := [(3 * 1024, ⟨some 0, [(42, true)]⟩)] } }

theorem witness_Reads : ∃ (t : Task) (b : Block),
    Fires (readState .blank) .always .n0 0 0 t b 0 0 0 ∧ boundTo (readState .blank) 0 3 = true ∧
      ((readState .blank).chan (chanAddr 0 3)).q[countBelow (readState .blank) 0 b (isRecvOf 3) 0]? = some (42, true) ∧
      ((readState .blank).chan (chanAddr 0 3)).q = [(42, true)] ∧
      t.resp[countBelow (readState .blank) 0 b isRspWord 0]? = some ⟨7, some 11⟩ ∧
      ((b.mark 0 .fired).nullAll false [.reg 1, .none]).isSome = true ∧ (readState .blank).part? t.ptn = some aPart :=
  ⟨_, _, ⟨rfl, rfl, rfl, rfl⟩, by decide, by decide, by decide, by decide, by decide, by decide⟩

/-- Numbers, infinities and NaN of f32: the operands of the clauses on special values. -/
theorem witness_FloatArithmetic : (∃ s p tid k t b x y z, Fires s p .n2 tid k t b x y z ∧ fval .f32 x = .nan) ∧
    fval .f32 0x7F800000 = .inf false ∧ fval .f32 0xFF800000 = .inf true ∧ (∃ n e, fval .f32 0 = .fin n 0 e) ∧
    (∃ n d e, fval .f32 0x3F800000 = .fin n (d + 1) e) ∧
    (∃ s p tid k t b x y z, Fires s p .n3 tid k t b x y z ∧ (fval .f32 x).isNan = false ∧ (fval .f32 y).isNan = false ∧
      (fval .f32 z).isNan = false) ∧
    (∃ s p tid k t b x y z, Fires s p .n3 tid k t b x y z ∧ (fval .f32 x).isNan = true) :=
  ⟨⟨firingState (slotOf4 0x7FC00000 0 0 0), .always, 0, 0, _, _, 0x7FC00000, 0, 0, ⟨rfl, rfl, rfl, rfl⟩, by decide⟩, by decide, by decide,
   ⟨_, _, rfl⟩, ⟨false, 8388607, 8388608, by decide⟩,
   ⟨firingState (slotOf4 1 2 3 0), .always, 0, 0, _, _, 1, 2, 3, ⟨rfl, rfl, rfl, rfl⟩, by decide, by decide, by decide⟩,
   ⟨firingState (slotOf4 0x7FC00000 2 3 0), .always, 0, 0, _, _, 0x7FC00000, 2, 3, ⟨rfl, rfl, rfl, rfl⟩, by decide⟩⟩

theorem witness_FloatCompareConvert : (∃ s p tid k t b x y z, Fires s p .n2 tid k t b x y z ∧ fval .f32 x = .nan) ∧
    (∃ s p tid k t b x y z, Fires s p .n1 tid k t b x y z ∧ fval .f16 x = .nan) :=
  ⟨witness_FloatArithmetic.1,
   ⟨firingState ⟨.val 0x7E00, .empty, .empty, .empty, .waiting⟩, .always, 0, 0, _, _, 0x7E00, 0, 0, ⟨rfl, rfl, rfl, rfl⟩, by decide⟩⟩

/-- Each of the five cases of a slot. -/
theorem witness_SlotsFire : fireOf .onTrue .n2 ⟨.empty, .null, .empty, .val 2, .waiting⟩ = .squash ∧
    fireOf .onTrue .n2 ⟨.val 1, .null, .empty, .val 1, .waiting⟩ = .null ∧
    fireOf .onTrue .n2 ⟨.val 1, .empty, .empty, .val 1, .waiting⟩ = .notReady ∧
    fireOf .onTrue .n2 ⟨.val 1, .val 2, .empty, .val 1, .waiting⟩ = .go 1 2 0 ∧
    (∃ f, Instr.form (.add .onTrue .s8 false .none .none) = some f ∧
      fireOf f.pred f.needs ((aBlock ⟨.val 1, .null, .empty, .val 1, .waiting⟩).slot 0) = .null ∧
      (firingState ⟨.val 1, .null, .empty, .val 1, .waiting⟩).cur = .firing 0 0) :=
  ⟨by decide, by decide, by decide, by decide, _, rfl, by decide, rfl⟩

/-! ### One step on fixed values, by hand from the spec -/

/-- What a block's task 0 has resolved of its registers, and the flags of its block. -/
def wrote (o : Out) : Option (List (Nat × Word) × Nat) :=
  match o with
  | .next s => match s.task? 0 with
    | some t => t.blk.map fun b => (b.regw, b.flags)
    | none => none
  | _ => none

/-- The value and flags that a form with target g1 leaves on operands x, y and z. -/
def gave (i : Instr) (x y z : Word) : Option (List (Nat × Word) × Nat) := wrote (exec i (firingState (slotOf4 x y z 1)))

theorem test_add_wraps : gave (.add .always .s8 false (.reg 1) .none) 0x7F 1 0 = some ([(1, 0xFFFFFFFFFFFFFF80)], 0) := by decide
theorem test_add_saturates : gave (.add .always .s8 true (.reg 1) .none) 0x7F 1 0 = some ([(1, 0x7F)], 0x21) := by decide
theorem test_sub_wraps : gave (.sub .always .n16 false (.reg 1) .none) 0 1 0 = some ([(1, 0xFFFF)], 0) := by decide
theorem test_mulh_signed : gave (.mulh .always .s8 (.reg 1) .none) 0x80 0x80 0 = some ([(1, 0x40)], 0) := by decide
theorem test_div_by_zero : gave (.div .always .n8 false (.reg 1) .none) 5 0 0 = some ([(1, 0xFF)], 0x10) := by decide
theorem test_div_zero_by_zero : gave (.div .always .s8 false (.reg 1) .none) 0 0 0 = some ([(1, 0xFFFFFFFFFFFFFFFF)], 0x08) := by decide
theorem test_rem_sign : gave (.rem .always .s8 (.reg 1) .none) 0xF9 3 0 = some ([(1, 0xFFFFFFFFFFFFFFFF)], 0) := by decide
theorem test_andn : gave (.andn .always .s64 (.reg 1) .none) 0xF0 0x30 0 = some ([(1, 0xC0)], 0) := by decide
theorem test_shl_amount_mod_width : gave (.shl .always .s8 false (.reg 1) .none) 1 9 0 = some ([(1, 2)], 0) := by decide
theorem test_shr_zeros : gave (.shr .always .s8 (.reg 1) .none) 0x80 1 0 = some ([(1, 0x40)], 0) := by decide
theorem test_sar_sign : gave (.sar .always .s8 (.reg 1) .none) 0x80 1 0 = some ([(1, 0xFFFFFFFFFFFFFFC0)], 0) := by decide
theorem test_rol : gave (.rol .always .n8 (.reg 1) .none) 0x81 1 0 = some ([(1, 3)], 0) := by decide
theorem test_min_signed : gave (.min .always .s8 (.reg 1) .none) 0xFF 1 0 = some ([(1, 0xFFFFFFFFFFFFFFFF)], 0) := by decide
theorem test_max_unsigned : gave (.max .always .n8 (.reg 1) .none) 0xFF 1 0 = some ([(1, 0xFF)], 0) := by decide
theorem test_clz : gave (.clz .always .n16 (.reg 1) .none) 0x00FF 0 0 = some ([(1, 8)], 0) := by decide
theorem test_clz_zero : gave (.clz .always .n16 (.reg 1) .none) 0x10000 0 0 = some ([(1, 16)], 0) := by decide
theorem test_ctz : gave (.ctz .always .n16 (.reg 1) .none) 0x0100 0 0 = some ([(1, 8)], 0) := by decide
theorem test_popc : gave (.popc .always .n8 (.reg 1) .none) 0x1FF 0 0 = some ([(1, 8)], 0) := by decide
theorem test_bswap : gave (.bswap .always .n32 (.reg 1) .none) 0x11223344 0 0 = some ([(1, 0x44332211)], 0) := by decide
theorem test_csth : gave (.csth .always 1 (.reg 1)) 1 0 0 = some ([(1, 0x4001)], 0) := by decide
theorem test_cst_negative : gave (.cst .always 0x3FFF (.reg 1)) 0 0 0 = some ([(1, 0xFFFFFFFFFFFFFFFF)], 0) := by decide
theorem test_cmp_unsigned : gave (.cmp .always .n8 .lt (.reg 1)) 0x7F 0x80 0 = some ([(1, 1)], 0) := by decide
theorem test_cmp_signed : gave (.cmp .always .s8 .lt (.reg 1)) 0x7F 0x80 0 = some ([(1, 0)], 0) := by decide
theorem test_tst : gave (.tst .always .s8 .ne (.reg 1)) 6 1 0 = some ([(1, 0)], 0) := by decide
theorem test_sel_third : gave (.sel .always .s64 (.reg 1) .none) 5 6 2 = some ([(1, 6)], 0) := by decide
theorem test_lea_scaled : gave (.lea .always 2 (.reg 1)) 0x100 0 0 = some ([(1, 0x110)], 0) := by decide
theorem test_algn_up : gave (.algn .always false 16 (.reg 1)) 1 0 0 = some ([(1, 0x10000)], 0) := by decide
/-- R132's example -/
theorem test_snph : gave (.snph .always (.reg 1)) 0 1 0 = some ([(1, 0xDCBFA53E0A800000)], 0) := by decide
theorem test_fsub_inf : gave (.fsub .always .f32 .rne .none (.reg 1)) 0x7F800000 0x7F800000 0 = some ([(1, 0x7FC00000)], 0x08) := by decide
/-- R255's example: a tie -/
theorem test_fadd : gave (.fadd .always .f16 .rne .none (.reg 1)) 0x3C00 0x1000 0 = some ([(1, 0x3C00)], 1) := by decide
theorem test_fadd_up : gave (.fadd .always .f16 .rup .none (.reg 1)) 0x3C00 0x1000 0 = some ([(1, 0x3C01)], 1) := by decide
theorem test_fmul_overflow : gave (.fmul .always .f16 .rne .finite (.reg 1)) 0x7BFF 0x4000 0 = some ([(1, 0x7BFF)], 0x25) := by decide
theorem test_fdiv_zero : gave (.fdiv .always .f32 .rne .none (.reg 1)) 0xBF800000 0 0 = some ([(1, 0xFF800000)], 0x10) := by decide
set_option exponentiation.threshold 600 in
theorem test_fsqrt : gave (.fsqrt .always .f32 .rne .none (.reg 1)) 0x40800000 0 0 = some ([(1, 0x40000000)], 0) := by decide
theorem test_fmin_nan : gave (.fmin .always .f32 (.reg 1)) 0x7FC00001 0x3F800000 0 = some ([(1, 0x7FC00000)], 0) := by decide
/-- R259's example -/
theorem test_fcls : gave (.fcls .always .f16 (.reg 1)) 0x3C01 0 0 = some ([(1, 0x40)], 0) := by decide
/-- R258's example: -2.5 under rna -/
theorem test_fcvt_rna : gave (.fcvt .always .f32 .rna .none (.int .s32) false (.reg 1)) 0xC0200000 0 0 =
    some ([(1, 0xFFFFFFFFFFFFFFFD)], 1) := by decide
theorem test_fcvt_to_int : gave (.fcvt .always .f32 .rtz .none (.int .s8) false (.reg 1)) 0xC0200000 0 0 = some ([(1, 0xFFFFFFFFFFFFFFFE)], 0x01) := by decide

/-! ### Witnesses: memory -/

/-- Words in memory at an address, without the bytes that are zero. -/
def cellsOf (a : Nat) (ws : List Word) : List Host.Cell :=
  ((ws.flatMap fun w => bytesOfNat 8 w.toNat).zipIdx.map fun b => (a + b.2, b.1)).filter fun c => c.2 != 0

/-- A partition whose VA from 0 is R and W: 2 MiB of NORMAL pages, then 2 MiB of FIBRE pages. -/
def pagedPart : Partition := { aPart with s1root := some 0, ranges := [(0, ⟨0, 0, 2 ^ 22⟩)] }

/-- The tables of `pagedPart`, the words ws at 0x1000, and the units of the pages used ready. -/
def paged (ws : List Word) (s : State) : State :=
  { s with mem := [(0, 1), (2, 1), (0x100, 0x7F)] ++ cellsOf 0x1000 ws ++
             [(0x10000, 1), (0x10002, 2), (0x20000, 0xB1), (0x20008, 0xB3), (0x2000A, 0x20)]
           parts := [(1, pagedPart)]
           cat := [(0, ⟨2, 0, 0⟩), (14, ⟨2, 0, 0⟩), (44, ⟨2, 0, 0⟩), (76, ⟨2, 0, 0⟩)] }

/-- A slot with the one operand x has its turn in a paged partition. -/
def loadState (x : Word) : State := paged [] (firingState ⟨.val x, .empty, .empty, .empty, .waiting⟩)

theorem ok_of {e : Except Flt0 Pass} {x : Pass} (h : e.toOption = some x) : e = .ok x := by
  cases e <;> simp_all [Except.toOption]

theorem error_of {e : Except Flt0 Pass} {f : Flt0} (h : (match e with | .error f => some f | .ok _ => none) = some f) : e = .error f := by
  cases e <;> simp_all

/-- The block of that slot, and its task. -/
def loadBlock (x : Word) : Block := aBlock ⟨.val x, .empty, .empty, .empty, .waiting⟩
def loadTask (x : Word) : Task := { aTask with blk := some (loadBlock x) }

theorem loads_fire (x : Word) : Fires (loadState x) .always .n1 0 0 (loadTask x) (loadBlock x) x 0 0 := ⟨rfl, rfl, rfl, rfl⟩

theorem load_free : loadHeld (loadState 0x100) 0 (loadTask 0x100) (loadBlock 0x100) 0 = false ∧
    taskBusy (loadState 0x100) 0 (loadTask 0x100) 0x100 = false ∧
    readWaits (loadState 0x100) (.task 0) [] [] 0 (.mem 0x100) 1 = false ∧ ldWaits (loadState 0x100) 0 (.plain .none) = [] := by
  decide +kernel

theorem load_plain : (loadState 0x100).placeMarked (.mem 0x100) 1 = false ∧ blockStores (loadState 0x100) 0 (loadBlock 0x100) 0 = [] ∧
    (∀ r ∈ opsOf (loadState 0x100) (.task 0), r.act.storeOf = none) := by
  decide +kernel

theorem load_access : taskAccess (loadState 0x100) 0 (loadTask 0x100) askLoad 0x100 1 = .ok ⟨.mem 0x100, 0, 0x100, 0xB1⟩ :=
  ok_of (by decide +kernel)

theorem load_fault : loadHeld (loadState 0x101) 0 (loadTask 0x101) (loadBlock 0x101) 0 = false ∧
    taskBusy (loadState 0x101) 0 (loadTask 0x101) 0x101 = false ∧
    taskAccess (loadState 0x101) 0 (loadTask 0x101) askLoad 0x101 2 = .error ⟨4, 0x101, 0⟩ :=
  ⟨by decide +kernel, by decide +kernel, error_of (by decide +kernel)⟩

theorem witness_Loads : (∃ t b, Fires (loadState 0x100) .always .n1 0 0 t b 0x100 0 0 ∧ t.invs = [] ∧
      loadHeld (loadState 0x100) 0 t b 0 = false ∧ taskBusy (loadState 0x100) 0 t 0x100 = false ∧
      taskAccess (loadState 0x100) 0 t askLoad 0x100 1 = .ok ⟨.mem 0x100, 0, 0x100, 0xB1⟩ ∧
      readWaits (loadState 0x100) (.task 0) t.after t.invs 0 (.mem 0x100) 1 = false ∧ ldWaits (loadState 0x100) 0 (.plain .none) = [] ∧
      (loadState 0x100).placeMarked (.mem 0x100) 1 = false ∧ blockStores (loadState 0x100) 0 b 0 = [] ∧
      (∀ r ∈ opsOf (loadState 0x100) (.task 0), r.act.storeOf = none) ∧ (∀ w : Word, ((4 : Nat), w) ∉ b.regw) ∧ 4 ∉ b.claims) ∧
    (∃ t b f, Fires (loadState 0x101) .always .n1 0 0 t b 0x101 0 0 ∧ loadHeld (loadState 0x101) 0 t b 0 = false ∧
      taskBusy (loadState 0x101) 0 t 0x101 = false ∧ taskAccess (loadState 0x101) 0 t askLoad 0x101 2 = .error f) ∧
    ({ loadState 0x100 with poison := [4] } : State).placeMarked (.mem 0x100) 1 = true ∧
    (∃ s p tid k t b x y z, Fires s p .n2 tid k t b x y z) :=
  ⟨⟨loadTask 0x100, loadBlock 0x100, loads_fire _, rfl, load_free.1, load_free.2.1, load_access, load_free.2.2.1, load_free.2.2.2,
     load_plain.1, load_plain.2.1, load_plain.2.2, fun _ => List.not_mem_nil, by decide⟩,
   ⟨loadTask 0x101, loadBlock 0x101, ⟨4, 0x101, 0⟩, loads_fire _, load_fault.1, load_fault.2.1, load_fault.2.2⟩, by decide +kernel,
   witness_IntegerBinary⟩

theorem test_load_zero_extends : wrote (exec (.ld .always 0 .n16 (.plain .none) (.reg 1)) (loadState 0x100)) = some ([(1, 0x7F)], 0) := by
  decide +kernel

theorem witness_InBlockFrame : ∃ i f s', Instr.form i = some f ∧ f.commit = none ∧ exec i (firingState (slotOf4 1 2 0 0)) = .next s' :=
  ⟨.add .always .s8 false .none .none, _, _, rfl, rfl, rfl⟩

/-- Block 0 of SE 0 has one slot, which holds the word `w`, and block 8 follows it. -/
def codeState (t : Task) (w : Nat) (cs : Map Channel) : State :=
  { withTask t with fab := { Fabric.empty with
      tasks := [(0, t)]
      chans := cs
      istore := [(3, 0xB0), (4, BitVec.ofNat 8 w), (5, BitVec.ofNat 8 (w / 2 ^ 8)), (6, BitVec.ofNat 8 (w / 2 ^ 16)), (7, BitVec.ofNat 8 (w / 2 ^ 24)), (11, 0xB0)] } }

/-- The block of one exit that has fired with operand a. -/
def exitBlock (a : Word) : Block := { aBlock ⟨.empty, .empty, .empty, .empty, .fired⟩ with exits := [⟨0, a, 0, 0⟩] }

/-- The state in which the block whose exit is the word w can commit, with channels cs. -/
def exitState (t : Task) (w : Nat) (a : Word) (cs : Map Channel) : State := codeState { t with blk := some (exitBlock a) } w cs

/-- An exit whose word decodes to i, and that is no RECV, PEEK or RSP, makes the block ready. -/
theorem ready_of {t : Task} {w : Nat} {a : Word} {cs : Map Channel} {i : Instr} (h1 : taskActs (exitState t w a cs) { t with blk := some (exitBlock a) } = true)
    (h2 : t.launch = 1) (h3 : t.trap = []) (hw : slotWord (exitState t w a cs) 0 (exitBlock a) 0 = w) (hd : decode w = .ok i)
    (hr : isRspWord w = false) (hk : (field w 31 25 == 0x28) = false) (hi : readsChannel i = false) :
    ReadyToCommit (exitState t w a cs) 0 0 { t with blk := some (exitBlock a) } (exitBlock a) i a := by
  have h4 : slotInstr (exitState t w a cs) 0 (exitBlock a) 0 = some i := by simp only [slotInstr, hw, hd]
  refine ⟨rfl, rfl, h1, ?_, h3, ⟨0, 0, rfl⟩, h4, rfl, rfl, rfl, rfl, rfl, ?_, Nat.zero_lt_one, fun j hj => ?_⟩
  · show (mget [(1, aLaunch)] t.launch).map (·.state) = _
    rw [h2]; rfl
  · unfold loadDue
    rw [show natRange 0 (exitBlock a).n = [0] from rfl]
    simp only [List.any_cons, List.any_nil, Bool.or_false, Bool.and_eq_false_iff]
    right
    split <;> rfl
  · obtain rfl : j = 0 := Nat.lt_one_iff.mp hj
    refine fun _ => ⟨by rw [hw]; exact hr, fun ch => by simp only [isRecvOf, hw, hk, Bool.false_and], fun i' hi' => ?_⟩
    rw [h4] at hi'; cases hi'; exact hi

/-- An exit of each kind whose block can commit: BR and CALL to block 8, BRX, RET, WAIT, YLD and HALT. -/
theorem ready_br : ReadyToCommit (exitState aTask 0x56000002 0 []) 0 0 { aTask with blk := some (exitBlock 0) } (exitBlock 0)
    (.br .always 0 2) 0 := ready_of (by decide +kernel) rfl rfl (by decide +kernel) rfl rfl rfl rfl
theorem ready_brx : ReadyToCommit (exitState aTask 0x58000000 8 []) 0 0 { aTask with blk := some (exitBlock 8) } (exitBlock 8)
    (.brx .always 0) 8 := ready_of (by decide +kernel) rfl rfl (by decide +kernel) rfl rfl rfl rfl
theorem ready_wait : ReadyToCommit (exitState aTask 0x5E000000 2 [(1024, ⟨some 0, []⟩)]) 0 0 { aTask with blk := some (exitBlock 2) }
    (exitBlock 2) (.wait .always 0) 2 := ready_of (by decide +kernel) rfl rfl (by decide +kernel) rfl rfl rfl rfl
theorem ready_wait_word : ReadyToCommit (exitState aTask 0x5E000000 2 [(1024, ⟨some 0, [(5, false)]⟩)]) 0 0
    { aTask with blk := some (exitBlock 2) } (exitBlock 2) (.wait .always 0) 2 :=
  ready_of (by decide +kernel) rfl rfl (by decide +kernel) rfl rfl rfl rfl
theorem ready_wait_unbound : ReadyToCommit (exitState aTask 0x5E000000 2 []) 0 0 { aTask with blk := some (exitBlock 2) } (exitBlock 2)
    (.wait .always 0) 2 := ready_of (by decide +kernel) rfl rfl (by decide +kernel) rfl rfl rfl rfl
theorem ready_wait_none : ReadyToCommit (exitState aTask 0x5E000000 0 []) 0 0 { aTask with blk := some (exitBlock 0) } (exitBlock 0)
    (.wait .always 0) 0 := ready_of (by decide +kernel) rfl rfl (by decide +kernel) rfl rfl rfl rfl
theorem ready_yld : ReadyToCommit (exitState aTask 0x60000000 0 []) 0 0 { aTask with blk := some (exitBlock 0) } (exitBlock 0)
    (.yld .always 0) 0 := ready_of (by decide +kernel) rfl rfl (by decide +kernel) rfl rfl rfl rfl

/-- The task with a return stack of one entry, with a full one, and as the root of its launch. -/
def called : Task := { aTask with ret := [8] }
def fullStack : Task := { aTask with ret := lrep 8 8 }
def rootTask : Task := { aTask with root := true }

theorem ready_call : ReadyToCommit (exitState called 0x5A000002 0 []) 0 0 { called with blk := some (exitBlock 0) } (exitBlock 0)
    (.call .always 0 2) 0 := ready_of (by decide +kernel) rfl rfl (by decide +kernel) rfl rfl rfl rfl
theorem ready_call_full : ReadyToCommit (exitState fullStack 0x5A000002 0 []) 0 0 { fullStack with blk := some (exitBlock 0) } (exitBlock 0)
    (.call .always 0 2) 0 := ready_of (by decide +kernel) rfl rfl (by decide +kernel) rfl rfl rfl rfl
theorem ready_ret : ReadyToCommit (exitState called 0x5C000000 0 []) 0 0 { called with blk := some (exitBlock 0) } (exitBlock 0)
    (.ret .always 0) 0 := ready_of (by decide +kernel) rfl rfl (by decide +kernel) rfl rfl rfl rfl
theorem ready_ret_empty : ReadyToCommit (exitState aTask 0x5C000000 0 []) 0 0 { aTask with blk := some (exitBlock 0) } (exitBlock 0)
    (.ret .always 0) 0 := ready_of (by decide +kernel) rfl rfl (by decide +kernel) rfl rfl rfl rfl
theorem ready_halt : ReadyToCommit (exitState rootTask 0x62000000 7 []) 0 0 { rootTask with blk := some (exitBlock 7) } (exitBlock 7)
    (.halt .always 0) 7 := ready_of (by decide +kernel) rfl rfl (by decide +kernel) rfl rfl rfl rfl

/-- An exit fires as the first and as the second of its block; and, with the states above, a target that is a header and one
that is not, a full and an empty return stack, and masks that are 0 and that name a channel not bound. -/
theorem witness_ExitsFireAndFault : (∃ s p tid k t b x y z, Fires s p .n0 tid k t b x y z ∧ b.exits = []) ∧
    (∃ s p tid k t b x y z, Fires s p .n1 tid k t b x y z ∧ b.exits ≠ []) ∧
    isHeader (exitState aTask 0x58000000 0 []) 0 8 = true ∧ isHeader (exitState aTask 0x58000000 0 []) 0 12 = false ∧
    ((exitState aTask 0x5E000000 2 []).chan (chanAddr 0 1)).slot ≠ some (slotOf 0) ∧ (2 : Word).getLsbD 1 = true :=
  ⟨⟨firingState .blank, .always, 0, 0, _, _, 0, 0, 0, ⟨rfl, rfl, rfl, rfl⟩, rfl⟩,
   ⟨{ withTask { aTask with blk := some { exitBlock 0 with slots := [⟨.val 1, .empty, .empty, .empty, .waiting⟩] } } with cur := .firing 0 0 },
     .always, 0, 0, _, _, 1, 0, 0, ⟨rfl, rfl, rfl, rfl⟩, by decide⟩, by decide, by decide, by decide, by decide⟩

/-- The successor of the block is a header; a WAIT on channel 1, bound, with and without a word. -/
def waitState (q : List (Word × Bool)) : State := exitState aTask 0x5E000000 2 [(1024, ⟨some 0, q⟩)]

theorem witness_ExitsCommit : isHeader (exitState aTask 0x56000002 0 []) 0 ((0 : Nat) + 4 * (0x00002 : BitVec 20).toInt) = true ∧
    isHeader (exitState aTask 0x5C000000 0 []) 0 8 = true ∧
    (∀ n < 64, (2 : Word).getLsbD n = true → ((waitState []).chan (chanAddr 0 n)).slot = some (slotOf 0)) ∧
    (∃ n < 64, (2 : Word).getLsbD n = true ∧ ((waitState [(5, false)]).chan (chanAddr 0 n)).q ≠ []) ∧
    ¬(∃ n < 64, (2 : Word).getLsbD n = true ∧ ((waitState []).chan (chanAddr 0 n)).q ≠ []) ∧
    (exitCheck (exitState aTask 0x56000002 0 []) 0 { aTask with blk := some (exitBlock 0) } (exitBlock 0) (.br .always 0 2) 0 = none ∧
      aTask.regs.length = 64 ∧ ((exitBlock 0).regw.map (·.1)).Nodup ∧ (Instr.br .always 0 2).form.isSome = true) := by
  refine ⟨by decide, by decide, by decide, ⟨1, by decide, by decide, by decide⟩, ?_, by decide, by decide, by decide, by decide⟩
  rintro ⟨n, h, h2, h3⟩
  revert n; decide

theorem witness_RegistersChangeAtCommit : ∃ i f s' t, Instr.form i = some f ∧ (firingState (slotOf4 1 2 0 0)).cur = .firing 0 0 ∧
    (firingState (slotOf4 1 2 0 0)).task? 0 = some t ∧ exec i (firingState (slotOf4 1 2 0 0)) = .next s' :=
  ⟨.add .always .s8 false .none .none, _, _, _, rfl, rfl, rfl, rfl⟩

theorem test_call_commits : (match exec (.blockCommit 0) (exitState called 0x5A000002 0 []) with
    | .next s => (s.task? 0).map fun t => (t.pc, t.ret, t.lastExit, t.blk)
    | _ => none) = some (8, [8, 8], 0, none) := by decide +kernel
theorem test_call_full_stack : (match exec (.blockCommit 0) (exitState fullStack 0x5A000002 0 []) with
    | .next s => (s.task? 0).map fun t => (t.pc, t.state, t.resumeAt)
    | _ => none) = some (0, .stopped, some 0) := by decide +kernel

/-! ### Witnesses: commit forms -/

theorem witness_CommitForms : (∃ i f n s p tid k t b x y z, Instr.form i = some f ∧ f.commit = some n ∧ p = f.pred ∧
      Fires s p f.needs tid k t b x y z ∧ f.targets = [.none] ∧ b.regw = []) ∧
    (∃ f n s tid k t b x y z, Instr.form (.bara .always 0 .dev (.reg 4)) = some f ∧ f.commit = some n ∧
      Fires s .always f.needs tid k t b x y z ∧ f.targets = [.reg 4] ∧ n = 1 ∧ 4 ∈ b.claims) ∧
    (∃ i cf s tid k a b c e, formOf i = some cf ∧ Commits s tid k a b c ∧ cf.check s tid a b c = some e) ∧
    (∃ i cf s tid k a b c, formOf i = some cf ∧ Commits s tid k a b c ∧ cf.check s tid a b c = none ∧ cf.ready s tid a b c = true) ∧
    (∃ f m, Instr.form (.st .always 31 .s8 (.plain .none) 0) = some f ∧ f.lsid = some m) ∧
    (∃ f, Instr.form (.arm .always 0 0 (.chan 0)) = some f ∧ f.lsid = none) :=
  ⟨⟨.fmrg .always 0 .ins false .none, _, _, firingState (slotOf4 1 2 3 0), _, 0, 0, _, _, 1, 2, 3, rfl, rfl, rfl, ⟨rfl, rfl, rfl, rfl⟩, rfl, rfl⟩,
   ⟨_, _, { firingState (slotOf4 1 2 3 0) with fab := { Fabric.empty with tasks := [(0, { aTask with blk := some { aBlock (slotOf4 1 2 3 0) with claims := [4] } })] } },
    0, 0, _, _, _, _, _, rfl, rfl, ⟨rfl, rfl, rfl, rfl⟩, rfl, rfl, by decide⟩,
   ⟨.fmrg .always 0 .ins false .none, _, commitState 0 0 128, 0, 0, 0, 0, 128, _, rfl, rfl, rfl⟩,
   ⟨.fnc .always .rel .dev .none, _, commitState 0 0 0, 0, 0, 0, 0, 0, rfl, rfl, by decide, by decide⟩, ⟨_, _, rfl, rfl⟩, ⟨_, rfl, rfl⟩⟩

/-- Task 0 with a block of two slots: a BR to block 12 that has fired, and FNC acqrel of scope die, which is captured. -/
def formBlock : Block :=
  { aBlock ⟨.empty, .empty, .empty, .empty, .fired⟩ with
    n := 2, s := 1, outn := 1, slots := lrep 2 ⟨.empty, .empty, .empty, .empty, .fired⟩, caps := [⟨1, 0, 0, 0⟩], exits := [⟨0, 0, 0, 0⟩] }
def formTask : Task := { aTask with blk := some formBlock }
def formState : State :=
  { commitState 0 0 0 with cur := .commit 0 1 0 0 0, fab := { Fabric.empty with
      tasks := [(0, formTask)], istore := [(3, 0xB0), (4, 3), (7, 0x56), (9, 0x6A), (11, 0x94), (15, 0xB0)] } }

theorem form_words : slotWord formState 0 formBlock 0 = 0x56000003 ∧ slotWord formState 0 formBlock 1 = 0x4A * 2 ^ 25 + 3 * 2 ^ 13 + 5 * 2 ^ 9 := by
  decide +kernel

theorem witness_CommitForms_block : MayCommit formState 0 formTask formBlock ∧
    captured formState 0 formBlock ⟨1, 0, 0, 0⟩ = some (.fnc .always .acqrel .die .none) ∧
    slotInstr formState 0 formBlock 0 = some (.br .always 0 3) ∧ (∀ j < formBlock.n, TakesNothing formState 0 formBlock j) ∧
    ∃ cf, formOf (.fnc .always .acqrel .die .none) = some cf ∧ Commits formState 0 1 0 0 0 ∧
      cf.check formState 0 0 0 0 = none ∧ cf.ready formState 0 0 0 0 = true ∧
      (∃ u, (cf.eff formState 0 0 0 0).task? 0 = some u ∧ u.trap = [] ∧ u.later = []) ∧
      (mget (cf.eff formState 0 0 0 0).launches 1).map (·.state) = some .running := by
  have h0 : slotInstr formState 0 formBlock 0 = some (.br .always 0 3) := by simp only [slotInstr, form_words.1]; rfl
  have h1 : slotInstr formState 0 formBlock 1 = some (.fnc .always .acqrel .die .none) := by simp only [slotInstr, form_words.2]; rfl
  have hc : captured formState 0 formBlock ⟨1, 0, 0, 0⟩ = some (.fnc .always .acqrel .die .none) := by
    rw [captured, h1]; rfl
  refine ⟨by unfold MayCommit; repeat' apply And.intro
             all_goals first | decide +kernel | rfl, hc, h0, fun j hj => ?_, _, rfl, rfl, rfl, by decide +kernel, ⟨_, rfl, rfl, rfl⟩, rfl⟩
  have : j = 0 ∨ j = 1 := by have : j < 2 := hj; omega
  rcases this with rfl | rfl
  · exact fun _ => ⟨by rw [form_words.1]; rfl, fun ch => by rw [isRecvOf, form_words.1]; rfl, fun i hi => by rw [h0] at hi; cases hi; rfl⟩
  · exact fun _ => ⟨by rw [form_words.2]; rfl, fun ch => by rw [isRecvOf, form_words.2]; rfl, fun i hi => by rw [h1] at hi; cases hi; rfl⟩

/-- A commit form has its turn, in a state with no pages and in a paged one. -/
theorem turn (a b c : Word) : Turn (commitState a b c) 0 0 aTask a b c := ⟨rfl, rfl, rfl, rfl⟩
theorem turn_paged (ws : List Word) (a b c : Word) : Turn (paged ws (commitState a b c)) 0 0 aTask a b c := ⟨rfl, rfl, rfl, rfl⟩

theorem witness_StoresAndAtomicsSend :
    (∃ e, taskAccess (commitState 0x101 0 0) 0 aTask askStore 0x101 2 = .error e) ∧
    taskAccess (paged [] (commitState 0x100 0 0)) 0 aTask askStore 0x100 8 = .ok ⟨.mem 0x100, 0, 0x100, 0xB1⟩ ∧
    taskAccess (paged [] (commitState 0x100 0 0)) 0 aTask askAtomic 0x100 16 = .ok ⟨.mem 0x100, 0, 0x100, 0xB1⟩ ∧
    (∃ x, taskAccess (paged [] (commitState 0x100 0 0)) 0 aTask askLine (0x100 - 0x100 % 8) 8 = .ok x ∧ inHbm x.pa = true ∧ x.typ = 0) ∧
    (∃ x, taskAccess (paged [] (commitState 0x200000 0 0)) 0 aTask askLine (0x200000 - 0x200000 % 8) 8 = .ok x ∧ x.typ = 1) :=
  ⟨⟨⟨4, 0x101, 0⟩, error_of (by decide +kernel)⟩, ok_of (by decide +kernel), ok_of (by decide +kernel),
   ⟨⟨.mem 0x100, 0, 0x100, 0xB1⟩, ok_of (by decide +kernel), by decide, rfl⟩, ⟨⟨.mem 0x200000, 1, 0x200000, 0x2000B3⟩, ok_of (by decide +kernel), rfl⟩⟩

/-- A barrier of two parties, of which one has arrived, in phase 3; and one that no BARI has set. -/
def barState (a : Word) : State := { commitState a 0 0 with parts := [(1, { aPart with bars := [(0, ⟨2, 1, 3, []⟩)] })] }

theorem witness_FencesAndBarriers : Turn (barState 65535) 0 0 aTask 65535 0 0 ∧
    (∃ q, (barState 65535).part? aTask.ptn = some q ∧ 1 ≤ (65535 : Word).toNat ∧ (q.bar 1).arr = 0 ∧ (q.bar 0).n ≠ 0 ∧ (q.bar 1).n = 0 ∧
      0 < ((q.bar 0).phase - 2).toInt ∧ ¬0 < ((q.bar 0).phase - 3).toInt ∧ (q.bar 0).arr + 1 = (q.bar 0).n ∧ ¬(q.bar 0).arr = 0) :=
  ⟨⟨rfl, rfl, rfl, rfl⟩, _, rfl, by decide, by decide, by decide, by decide, by decide, by decide, by decide, by decide⟩

/-- CHB: b of each kind that is accepted, at the ends of its fields, and the reserved code 3. -/
theorem witness_ChannelBindings : (∃ q, (commitState 63 0 0).part? aTask.ptn = some q ∧ 1 ∈ q.clusters ∧ 2 ∉ q.clusters) ∧
    field (0x800000000000FF01 : Word).toNat 63 62 = 2 ∧ field (0x800000000000FF01 : Word).toNat 61 16 = 0 ∧
    (0x800000000000FF01 : Word).toNat % 256 = 1 ∧ field (0x4000000000000000 : Word).toNat 63 62 = 1 ∧
    ((commitState 63 0 0).chan (chanAddr 0 63)).q = [] ∧ (∃ u, (commitState 63 0 0).task? (0 * 1024 + seOf 0) = some u ∧ u.launch = aTask.launch) ∧
    field (0xC000000000000000 : Word).toNat 63 62 = 3 :=
  ⟨⟨_, rfl, by decide, by decide⟩, by decide, by decide, by decide, by decide, by decide, ⟨_, rfl, rfl⟩, by decide⟩

/-- A region of 4 by 4 tiles of cluster 0 and launch 1, with contexts that are free. -/
def aRegion : Region := (⟨0, 0, 0, 4, 4, true⟩ : ImgRegion).init 1 1

/-- The state s with region 0 of cluster 0. -/
def withRegion (s : State) (g : Region) : State := { s with fab := { s.fab with regions := [(0, g)] } }

/-- Operands at the ends of the ranges of CPY and of a block number. -/
theorem witness_EngineRequests : (Turn (commitState 0 0 (2 ^ 40)) 0 0 aTask 0 0 (2 ^ 40) ∧ aTask.resp.length < 16 ∧
      1 ≤ (2 ^ 40 : Word).toNat ∧ (2 ^ 40 : Word).toNat ≤ 2 ^ 40) ∧ ¬(1 ≤ (0 : Word).toNat) ∧
    (field (0x2000000000 : Word).toNat 39 32 = 32 ∧ field (0x2000000000 : Word).toNat 63 41 = 0) ∧
    ((2 ^ 29 - 1 : Word).toNat < 2 ^ 29 ∧ (0x10000 : Word).toNat % 65536 = 0) ∧
    entryWordOk (withRegion (commitState 0x8000000000000000 0 0) aRegion) aTask 0x8000000000000000 = true ∧
    entryWordOk (withRegion (commitState 0 0 0) aRegion) aTask 0 = false :=
  ⟨⟨turn _ _ _, by decide, by decide, by decide⟩, by decide, by decide, by decide, by decide, by decide⟩

theorem witness_FibreAndTreeRequests : (∃ x, headAccess (paged [] (commitState 0x200000 0 0)) 0 aTask true 0x200000 = .ok x) ∧
    (∃ e, headAccess (paged [] (commitState 0x400000 0 0)) 0 aTask true 0x400000 = .error e) ∧
    (127 : Word).toNat < 128 ∧ 128 ≤ (128 : Word).toNat ∧
    entryWordOk (withRegion (commitState 0 0x8000000000000000 0) aRegion) aTask 0x8000000000000000 = true ∧
    ((0xF3 : Word).toNat < 256 ∧ field (0xF3 : Word).toNat 3 2 = 0 ∧ ∀ tr, mget (commitState 0xF3 0 1).trees 63 = some tr → tr.ptn = aTask.ptn) ∧
    ¬(field (4 : Word).toNat 3 2 = 0) :=
  ⟨⟨⟨.mem 0x200000, 1, 0x200000, 0x2000B3⟩, ok_of (by decide +kernel)⟩, ⟨⟨1, 0x400000, 0⟩, error_of (by decide +kernel)⟩,
   by decide, by decide, by decide, ⟨by decide, by decide, fun _ h => by cases h⟩, by decide⟩

/-- A context image of one element, which CFGL accepts, and one of an EOP that does not exist, which it refuses. -/
def goodImage : List Word := [wordOf (ctxMagic + 2 ^ 32), 0, 0, 0x4000C00000000000, 0x1633000000000000]
def badImage : List Word := [wordOf (ctxMagic + 2 ^ 32), 0, 0, 0, 0x0100000000000000]

/-- A Folio of one NRW, which WGL accepts. -/
def aFolio : List Word := [wordOf (folioMagic + 2 ^ 32 + 2 ^ 48), wordOf (2 ^ 16 + 2 ^ 8 + 1), 0, 0,
  wordOf (3 * 2 ^ 60 + 0x800 * 2 ^ 44 + 4 * 2 ^ 31), 0]

/-- A commit form that names region 0 of cluster 0 and the image at 0x1000, of words ws. -/
def loadImage (ws : List Word) : State := withRegion (paged ws (commitState 0 0x1000 0)) aRegion

/-- The words of `loadImage` as the task reads them. -/
def readsImage (ws : List Word) : Option CtxImage := readCtxImage (imageWords (loadImage ws) 0) 0x1000

theorem witness_ContextLoads : Turn (loadImage goodImage) 0 0 aTask 0 0x1000 0 ∧ (loadImage goodImage).region? 0 = some aRegion ∧
    armsArrived (loadImage goodImage) 0 0 = true ∧ regionDeclared (loadImage goodImage) aTask 0 0 = true ∧
    batchReady (loadImage goodImage) 0 aTask 0x1000 4 = true ∧ (aRegion.ctx 0).isFree = true ∧ (0 : Nat) < aRegion.ctxs.length ∧
    (match readsImage goodImage with | some im => (checkImage ((loadImage goodImage).outside 0 aRegion) aRegion 0 im).isOk | none => false) = true ∧
    (match readsImage badImage with | some im => !(checkImage ((loadImage goodImage).outside 0 aRegion) aRegion 0 im).isOk | none => false) = true ∧ readsImage [] = none ∧
    (match readFolio (imageWords (loadImage aFolio) 0) 0x1000 with
      | some f => (checkFolio aRegion none f.1 f.2.1 f.2.2).isOk | none => false) = true ∧
    regionDeclared (loadImage []) aTask 1 0 = false := by
  repeat' apply And.intro
  all_goals first | decide +kernel | rfl

/-- A region whose context 0 is resident, armed once and running in a phase. -/
def runRegion : Region :=
  { aRegion.setCtx 0 { Ctx.blank with status := .resident, arm := 1, route := some 5, entry := [⟨⟨0, 0x7F, 3⟩, false, 0⟩] } with
    cur := some 0, waiting := false, phase := true }

/-- A commit form with operands a and b has its turn beside a region that runs. -/
def controlState (a b : Word) : State := withRegion (commitState a b 0) runRegion

theorem witness_ContextControl : Turn (controlState 0 1) 0 0 aTask 0 1 0 ∧ (controlState 0 1).region? 0 = some runRegion ∧
    armsArrived (controlState 0 1) 0 0 = true ∧ regionDeclared (controlState 0 1) aTask 0 0 = true ∧ (0 : Nat) < runRegion.ctxs.length ∧
    ((runRegion.ctx 0).resident = true ∧ runRegion.phase = true ∧ runRegion.cur = some 0) ∧
    ({ runRegion with phase := false }.ctx 0).resident = true ∧ regionDeclared (controlState 0 1) aTask 1 0 = false ∧
    (0xFFFFFFFF : Word).toNat < 2 ^ 32 ∧ 2 ^ 32 ≤ (0x100000000 : Word).toNat ∧ (aRegion.ctx 0).folio = none ∧
    (let n := (0x2000 : Word).toNat
     n < 2 ^ 15 ∧ regionDeclared (controlState 2048 0x2000) aTask (n % 256) (field n 10 8) = true ∧ field n 12 11 ≠ field n 14 13 ∧
       2048 ≤ ((2048 : Word) - wordOf (controlState 2048 0x2000).time).toNat ∧ ((2047 + 2 ^ 47 : Word) - wordOf 2048).toNat < 2 ^ 47) ∧
    ¬(2048 ≤ ((2047 : Word) - wordOf (controlState 2047 0).time).toNat) ∧ ¬((2047 : Word) - wordOf 2048).toNat < 2 ^ 47 := by
  repeat' apply And.intro
  all_goals first | decide +kernel | rfl

/-- Partition 1 owns ways 0 and 1 of die 0, and unit 5 as its unit 0. -/
def unitState (a b c : Word) : State :=
  { paged [] (commitState a b c) with parts := [(1, { pagedPart with units := [5], ways := [(0, natRange 0 16)] })] }

theorem witness_L2AndNearBankForms : Turn (unitState 0x100 128 0x10) 0 0 aTask 0x100 128 0x10 ∧
    (∃ q, (unitState 0x100 128 0x10).part? aTask.ptn = some q ∧ retCountOk (unitState 0x100 128 0x10) q 0 0 1 = true ∧
      retCountOk (unitState 0x100 128 0x10) q 0 0 0 = false ∧ retRange (unitState 0x100 128 0x10) 0 aTask q 0x100 128 = .at 0x100 ∧
      retRange (unitState 0x100 128 0x10) 0 aTask q 0x100 127 = .bad ∧ retRange (unitState 0x100 128 0x10) 0 aTask q 0x400000 128 = .fault ∧
      wmskStatus (unitState 0x100 128 0x10) q 0 0xFFFF = 0 ∧ wmskStatus { unitState 0 0 0 with slices := [(0, ⟨0xFFFF, [(0, ⟨0, 1, true, false⟩)], [], [], [], [], []⟩)] } q 0 0 = 1 ∧
      q.units[(0 : Word).toNat]? = some 5 ∧ q.units[(1 : Word).toNat]? = none) ∧
    (let s := { unitState 0 0 0 with slices := [(0, ⟨1, [], [], [], [], [], []⟩)] }
     ∃ q, s.part? aTask.ptn = some q ∧ wmskStatus s q 0 0 = 0 ∧ 0 ∈ slicesOf 0 ∧ (waysOn q (field (0 : Word).toNat 9 8)).contains 0 = true ∧
       bitAt (s.slice 0).mask 0 = true ∧ bitAt (0 : Word).toNat 0 = false) ∧ field (0x10 : Word).toNat 63 10 = 0 ∧ field (0x10 : Word).toNat 3 2 = 0 ∧
    ¬(field (4 : Word).toNat 3 2 = 0) ∧ (2047 : Word).toNat < 2 ^ 11 ∧ ¬(2048 : Word).toNat < 2 ^ 11 :=
  ⟨⟨rfl, rfl, rfl, rfl⟩, ⟨_, rfl, by decide +kernel, by decide +kernel, by decide +kernel, by decide +kernel, by decide +kernel, by decide +kernel,
   by decide +kernel, by decide, by decide⟩, ⟨_, rfl, by decide +kernel⟩, by decide, by decide, by decide, by decide, by decide⟩

/-- Two tasks, of which the one in slot 1 is STOPPED, and a partition with a record of it in die 0's mailbox, vector 5 open and
vector 6 masked. -/
def mailPart : Partition :=
  { aPart with mbox := [(0, [⟨3, lrep 16 8, .task 1024, 1⟩])], vectors := [(5, ⟨64, 1, false, false⟩), (6, ⟨64, 1, true, false⟩)] }
def mailState (a b : Word) : State :=
  { commitState a b 0 with parts := [(1, mailPart)], cat := [(1317, ⟨2, 0, 0⟩)], fab := { Fabric.empty with tasks := [(0, aTask), (1024, { aTask with state := .stopped, resumeAt := some 0 })], istore := [(3, 0xB0), (11, 0xB0)] } }

theorem witness_SystemForms : Turn (mailState 1024 (2 ^ 63)) 0 0 aTask 1024 (2 ^ 63) 0 ∧ (mailState 1024 8).part? aTask.ptn = some mailPart ∧
    (∃ x, mget mailPart.vectors 5 = some x ∧ x.mask = false) ∧ (∃ x, mget mailPart.vectors 6 = some x ∧ x.mask = true) ∧
    mget mailPart.vectors 7 = none ∧ (∃ u, (mailState 1024 8).task? (1024 : Word).toNat = some u ∧ u.ptn = aTask.ptn ∧ u.state = .stopped) ∧
    isHeader (mailState 1024 8) 0 ((8 : Word).toNat % 2 ^ 14 : Nat) = true ∧ isHeader (mailState 1024 4) 0 ((4 : Word).toNat % 2 ^ 14 : Nat) = false ∧
    (8 : Word).getLsbD 63 = false ∧ (2 ^ 63 : Word).getLsbD 63 = true ∧ (∃ u, (mailState 0 0).task? 0 = some u ∧ u.state ≠ .stopped) ∧
    (∃ r rs, mgetD mailPart.mbox (0 : Word).toNat [] = r :: rs) ∧ mgetD mailPart.mbox (3 : Word).toNat [] = [] ∧
    (mailState 0 0).ready 6 0 = true ∧ (mailState 0 0).alarm.erased = false ∧ (commitState 0 0 0).ready 6 0 = false ∧
    aTask.fsrIn.1 = (mailState 0 0).time ∧ aTask.fsrIn.1 ≠ ({ mailState 0 0 with time := 5 } : State).time :=
  ⟨⟨rfl, rfl, rfl, rfl⟩, rfl, ⟨_, rfl, rfl⟩, ⟨_, rfl, rfl⟩, rfl, ⟨_, rfl, rfl, rfl⟩, by decide, by decide, by decide, by decide +kernel,
   ⟨_, rfl, by decide⟩, ⟨_, _, rfl⟩, rfl, by decide, rfl, by decide, rfl, by decide⟩

theorem witness_MailboxCommands : Turn (mailState 1 0) 0 0 aTask 1 0 0 ∧ (mailState 1 0).part? aTask.ptn = some mailPart ∧
    (∃ r rs tu, mgetD mailPart.mbox 0 [] = r :: rs ∧ r.origin = .task 1024 ∧ (mailState 1 0).task? 1024 = some tu ∧ tu.state = .stopped) ∧
    (let q := { mailPart with mbox := [(0, [⟨3, lrep 16 8, .elem 0 0 1056, 1⟩])] }
     let s := withRegion { mailState 1 0 with parts := [(1, q)] } aRegion
     Turn s 0 0 aTask 1 0 0 ∧ s.part? aTask.ptn = some q ∧ mgetD q.mbox 0 [] = [⟨3, lrep 16 8, .elem 0 0 1056, 1⟩] ∧
       s.region? 0 = some aRegion ∧ 0 < aRegion.ctxs.length) ∧
    mgetD mailPart.mbox 1 [] = [] ∧ msorted none (mailState 2 0).fab.tasks = true ∧ mget (mailState 2 0).launches aTask.launch = some aLaunch ∧
    (let a : Word := 0x70020
     a.toNat % 256 = 0x20 ∧ a.toNat < 2 ^ 24 ∧ field a.toNat 15 10 = 0) ∧ ((0xFF01 : Word).toNat < 65536 ∧ (0xFF01 : Word).toNat % 256 ∈ mailPart.clusters) ∧
    ¬((2 : Word) = 0 ∨ (2 : Word).toNat < 65536 ∧ (2 : Word).toNat % 256 ∈ mailPart.clusters) :=
  ⟨⟨rfl, rfl, rfl, rfl⟩, rfl, ⟨_, _, _, rfl, rfl, rfl, rfl⟩, ⟨⟨rfl, rfl, rfl, rfl⟩, rfl, rfl, rfl, by decide⟩, rfl, by decide, rfl, by decide, by decide, by decide⟩

/-- A level-1 task in slot 1 with channel 1 bound to it, to which partition 1 delegates software traps. -/
def trapTask : Task := { aTask with trap := [511] }
def trapState : State :=
  { withTask trapTask with fab := { Fabric.empty with tasks := [(0, trapTask), (1024, { aTask with level := 1 })], chans := [(1024, ⟨some 1, []⟩)] } }

/-- The mailbox with room and full; and a TRP of a task whose partition delegates software traps, and of one that does not. -/
theorem witness_TaskFaultEntry : (withTask aTask).task? 0 = some aTask ∧ (withTask aTask).part? aTask.ptn = some aPart ∧
    ((mgetD aPart.mbox 0 []).length < 64 ∧ mgetD aPart.waitrec 0 [] = []) ∧
    ¬((mgetD ({ aPart with mbox := [(0, lrep 64 ⟨0, [], .task 0, 1⟩)] } : Partition).mbox 0 []).length < 64) ∧
    trapTask.trap = [511] ∧ trapState.task? 0 = some trapTask ∧ mget aPart.dlgt (0 % 256 / 64 * 4 + 2) = none ∧
    mget trapState.launches 1 = some aLaunch ∧ aLaunch.ptn = aTask.ptn ∧
    delegated (trapState.setTask 0 { trapTask with state := .stopped, waitOn := .nothing, barW := [], resumeAt := some 0, trap := [] })
      { aPart with dlgt := [(2, 1024)] } 0 2 (.task 0) = some 1024 :=
  ⟨rfl, rfl, by decide, by decide, rfl, rfl, rfl, rfl, rfl, by decide +kernel⟩

/-! ### Witnesses: events -/

/-- An operation of task 0, numbered 7. -/
def anOp (dest : Dest) (act : Act) : Op := ⟨7, .task 0, 1, 1, 0, 0, .task 0, dest, 1, [], [], act, ⟨0, 0, 0, false, false, 0, 0⟩, []⟩
/-- The state with task 0 and that operation in flight. -/
def opState (dest : Dest) (act : Act) : State := { withTask aTask with ops := [anOp dest act], nextId := 8 }
/-- A control word, numbered 7, and the state with it on its way. -/
def aWord (src : Agent) (dst : CtrlDst) (ckind : Nat) (payload : Word) : CtrlWord := ⟨7, src, dst, ckind, payload, 1, [], none⟩
def wordState (t : Task) (w : CtrlWord) : State := { withTask t with ctrl := [w], nextId := 8 }

/-- The header of a block of one slot that writes nothing, and BR to itself. -/
def issueState : State := codeState aTask 0x56000000 []

/-- A task issues; its block commits; a block that can never commit; and a commit whose exit is at fault. -/
theorem witness_BlocksIssueAndCommit : turnOf issueState 0 = some (0, []) ∧ issueState.task? (0 * 1024 + 0) = some aTask ∧
    (∀ j < 8, ∀ u, issueState.task? (j * 1024 + 0) = some u → u.blk = none) ∧
    (match issueCheck issueState 0 aTask.pc aTask.level with | .ok h => some h | .error _ => none) = some ⟨1, 0, 0, false, false⟩ ∧
    (match issueCheck (withTask aTask) 0 0 0 with | .error c => some c | .ok _ => none) = some 0x0101 ∧ canIssue issueState 0 0 = true ∧
    (let b := exitBlock 0
     let s := exitState aTask 0x56000002 0 []
     let t := { aTask with blk := some b }
     s.task? 0 = some t ∧ taskActs s t = true ∧ countsMet b = true ∧ loadDue s 0 b = false ∧ formsWalked s 0 t b = true ∧
       commitFault s 0 t b (natRange 0 b.n) = none ∧ formsReady s 0 b = true ∧ roomForAll s 0 t b = true) ∧
    (let b := exitBlock 0
     let s := exitState aTask 0x56000001 0 []
     commitFault s 0 { aTask with blk := some b } b (natRange 0 b.n) = some (exc 0x010B)) ∧
    (let b := aBlock .blank
     let s := codeState { aTask with blk := some b } 0x2C000242 []
     countsMet b = false ∧ anySlotCan s 0 b = false ∧ b.bad = [] ∧ taskActs s { aTask with blk := some b } = true) ∧
    (let b : Block := { aBlock ⟨.val 0x101, .empty, .empty, .empty, .fired⟩ with bad := [(0, ⟨4, 0x101, 0⟩)] }
     let s := codeState { aTask with blk := some b } 0x80000101 []
     countsMet b = false ∧ anySlotCan s 0 b = false ∧ b.bad ≠ [] ∧ commitFault s 0 { aTask with blk := some b } b (natRange 0 b.n) = some ⟨4, 0x101, 0⟩) ∧
    (let b : Block := { aBlock ⟨.val 0x100, .empty, .empty, .empty, .waiting⟩ with exits := [⟨0, 0, 0, 0⟩] }
     countsMet b = true ∧ loadDue (codeState { aTask with blk := some b } 0x80000101 []) 0 b = true) := by
  repeat' apply And.intro
  all_goals first | decide +kernel | rfl

/-- A block of a BR to block 20, a RECV of channel 1, an RSP and a MOV to channel 3, all fired, in the task that has a
word in channel 1 and a response; and a block whose store's page is walked for another miss. -/
def takeBlock : Block :=
  { aBlock ⟨.empty, .empty, .empty, .empty, .fired⟩ with
    n := 4, w := 2, s := 1, regn := 2, outn := 1, slots := lrep 4 ⟨.empty, .empty, .empty, .empty, .fired⟩
    regw := [(0, 5), (1, 9)], chans := [⟨3, 0, 3, 9⟩], exits := [⟨0, 0, 0, 0⟩] }
def takeTask : Task := { aTask with resp := [⟨6, some 9⟩], blk := some takeBlock }
def takeState : State :=
  { withTask takeTask with fab := { Fabric.empty with
      tasks := [(0, takeTask)], chans := [(1024, ⟨some 0, [(5, false)]⟩)]
      istore := [(3, 0xB0), (4, 5), (7, 0x56), (9, 3), (11, 0x50), (12, 1), (13, 1), (15, 0xBC), (16, 0x43), (19, 0x4E), (23, 0xB0)] } }
def storeBlock : Block := { aBlock ⟨.empty, .empty, .empty, .empty, .fired⟩ with s := 1, outn := 1, caps := [⟨0, 0x100, 7, 0⟩], exits := [⟨0, 0, 0, 0⟩] }
def storeState : State :=
  { codeState { aTask with blk := some storeBlock } 0x82000000 [] with walks := (natRange 0 64).map fun n => ⟨n, 0, 1, n, [], 0⟩ }

theorem store_busy {k : Nat} (hk : k / 256 = 0) (va : Word) : walkBusy storeState k 1 va = true := by
  have hw : walksOn storeState.walks 0 = 64 := by decide +kernel
  have hn : (tlbFind (mgetD storeState.tlbs k []) 1 va).isNone = true := rfl
  simp only [walkBusy, hk, hn, hw, Nat.le_refl, decide_true, Bool.or_true, Bool.and_self]

theorem store_walks : formsWalked storeState 0 { aTask with blk := some storeBlock } storeBlock = false := by
  have hi : captured storeState 0 storeBlock ⟨0, 0x100, 7, 0⟩ = some (.st .always 0 .s8 (.plain .none) 0) := by
    have hw : slotWord storeState 0 storeBlock 0 = 0x82000000 := by decide +kernel
    simp only [captured, slotInstr, hw]; rfl
  have hk : (dieOf 0 * 256 + seTlb (seOf 0)) / 256 = 0 := by simp only [dieOf, seTlb]; omega
  unfold formsWalked
  show List.all [(⟨0, 0x100, 7, 0⟩ : Capture)] _ = false
  simp only [List.all_cons, List.all_nil, hi, formVas, walksFree, Bool.and_true]
  rw [show aTask.ptn = 1 from rfl, store_busy hk]
  decide +kernel

theorem witness_BlocksIssueAndCommit_takes : MayCommit takeState 0 takeTask takeBlock ∧
    slotInstr takeState 0 takeBlock 0 = some (.br .always 0 5) ∧ (mget takeState.launches 1).map (·.state) = some .running ∧
    takeState.ctrl = [] ∧ (isRspWord (slotWord takeState 0 takeBlock 2) && isRecvOf 1 (slotWord takeState 0 takeBlock 1)) = true ∧
    countsMet storeBlock = true ∧ loadDue storeState 0 storeBlock = false ∧
    formsWalked storeState 0 { aTask with blk := some storeBlock } storeBlock = false := by
  unfold MayCommit
  repeat' apply And.intro
  all_goals first | exact store_walks | decide +kernel | rfl

theorem test_block_commits : (match exec (.blockIssue 0) issueState with
    | .next s => (s.task? 0).map fun t => t.blk.map (·.n)
    | _ => none) = some (some 1) := by decide +kernel

theorem witness_MemoryOperationsPerformed : (opState .nowhere (.store 0 0x100 [1, 2] 0)).op? 7 = some (anOp .nowhere (.store 0 0x100 [1, 2] 0)) ∧
    performable (opState .nowhere (.store 0 0x100 [1, 2] 0)) (anOp .nowhere (.store 0 0x100 [1, 2] 0)) = true ∧
    performable (opState (.regs 0 1) (.atomic 2 .swap 0 0x100 16 5 0)) (anOp (.regs 0 1) (.atomic 2 .swap 0 0x100 16 5 0)) = true ∧
    (atomicDo 2 .swap 16 ((opState (.regs 0 1) (.atomic 2 .swap 0 0x100 16 5 0)).readPlace (placeOf 0 0x100) 16) 5 0).1.length = 16 ∧
    performable (opState .nowhere (.clean 0x100 true 1)) (anOp .nowhere (.clean 0x100 true 1)) = true ∧ ([1, 2, 3, 4] : List Byte).length = 4 ∧
    (lrep 8 (0 : Byte)).length = 8 := by
  repeat' apply And.intro
  all_goals first | decide +kernel | rfl

/-- An AGR of M-tile 0 that waits for access 7, and that access; and a report that is asked for. -/
def fillRegion : Region :=
  aRegion.setCtx 0 { Ctx.blank with status := .resident, arm := 1, es := [(1056, { ElemSt.init with ag := { AgState.init with queue := [.read 7 none none] } })] }
def fillState (act : Act) : State :=
  let o := { anOp .nowhere act with src := .elem 0 0 1056 }
  { withRegion (withTask aTask) fillRegion with ops := [o], nextId := 8 }

theorem witness_MemoryOperationsPerformed_others :
    (let act := Act.attest [(0, 0x100, 32)] [(0, 0x2000, 8192)]
     let s : State := { opState (.regs 0 1) act with keys := some ⟨[], []⟩, cat := [(1317, ⟨2, 0, 0⟩)] }
     s.op? 7 = some (anOp (.regs 0 1) act) ∧ performable s (anOp (.regs 0 1) act) = true ∧ s.ready 6 0 = true ∧ s.alarm.erased = false) ∧
    (∀ wr : Bool, let act := Act.agAccess 0 0x100 wr (if wr then [1, 2] else []) 2 0 false
     let o := { anOp .nowhere act with src := .elem 0 0 1056 }
     let s := fillState act
     s.op? 7 = some o ∧ performable s o = true ∧ onFabric s o.ptn = true ∧ offTile s o = false ∧ s.region? 0 = some fillRegion ∧
       0 < fillRegion.ctxs.length ∧ ((fillRegion.ctx 0).bank 1056).ag.queue = [] ++ .read 7 none none :: [] ∧ (wr = true ∨ (if wr then [1, 2] else [] : List Byte) = [])) ∧
    (let act := Act.agAccess 0 0x100 false (bytesOfNat 8 3 ++ bytesOfNat 8 0x120 ++ bytesOfNat 1 32) 128 0 false
     let o := { anOp .nowhere act with src := .elem 0 0 1056 }
     performable (fillState act) o = true ∧ posKind 1056 = .ag 0 0 ∧ offTile (fillState act) o = false) := by
  refine ⟨by decide +kernel, fun wr => ?_, by decide +kernel⟩
  cases wr <;> decide +kernel

theorem test_amo_add_sign_extends : atomicDo 0 .add 4 [0xFF, 0xFF, 0xFF, 0xFF] 1 0 = ([0, 0, 0, 0], 0xFFFFFFFFFFFFFFFF) := by decide +kernel
theorem test_cas2_versions : atomicDo 2 .swap 16 (bytesOfNat 8 9 ++ bytesOfNat 8 4) 7 4 = (bytesOfNat 8 7 ++ bytesOfNat 8 5, 4) := by
  decide +kernel
theorem test_store_lands : (match exec (.memoryResponse 7) (opState .nowhere (.store 0 0x100 [1, 2] 0)) with
    | .next s => (s.mem, s.ops.length)
    | _ => ([], 9)) = ([(0x100, 1), (0x101, 2)], 0) := by decide +kernel

/-- A fence on the tile of SE 0: its western neighbour has isolated the link. -/
def fencedTiles : Map Tile := [(64, { Tile.init with neigh := [(1, ⟨2, none, [], 0, 0, 0, true, 0, 0⟩)] })]

/-- A result for registers, for the response stream and for a channel; a word for a channel whose task waits for it. -/
theorem witness_ResultsAndWordsArrive :
    (let s := opState (.regs 0 63) (.land [5] 0 false)
     let o := anOp (.regs 0 63) (.land [5] 0 false)
     s.op? 7 = some o ∧ stale s o = false ∧ onFabric s o.ptn = true ∧ scanning s 7 = false ∧ unitRuns s 7 = false ∧
       landsNext s o = true ∧ s.task? 0 = some aTask ∧ aTask.launch = o.launch ∧ tileFenced s (seTile (seOf 0)) = false ∧
       offTile { s with tiles := fencedTiles } o = true) ∧
    (let t := { aTask with state := .blocked, waitOn := .mask 2 }
     let w := aWord (.task 1) (.chan 1024) 1 5
     let s0 := wordState t w
     let s := { s0 with fab := { s0.fab with chans := [(1024, ⟨some 0, lrep 7 (0, false)⟩)] } }
     s.word? 7 = some w ∧ wordArrives s w = true ∧ onFabric s w.ptn = true ∧ tileFenced s (seTile (seOf 1024)) = false ∧
       tileFenced { s with tiles := fencedTiles } (seTile (seOf 1024)) = true ∧ wordArrives { s with tiles := fencedTiles } w = true ∧
       (s.chan 1024).q.length < 8 ∧ (s.chan 1024).slot = some 0 ∧
       s.task? (0 * 1024 + seOf 1024) = some t ∧ t.barW = [] ∧ (2 : Word).getLsbD (1024 / 1024) = true) ∧
    (let w := aWord (.task 1) (.chan 1024) 8 5
     wordArrives (wordState aTask w) w = true ∧ 8 ≤ w.ckind) ∧
    (let o := anOp (.chan 1024) (.land [5, 6] 0 false)
     let s := opState (.chan 1024) (.land [5, 6] 0 false)
     s.op? 7 = some o ∧ stale s o = false ∧ onFabric s o.ptn = true ∧ scanning s 7 = false ∧ unitRuns s 7 = false ∧ landsNext s o = true ∧
       tileFenced s (seTile (seOf 0)) = false) ∧
    (let w := aWord (.region 0) (.chan 1024) 0 0
     let s0 := wordState aTask w
     let s : State := { s0 with fab := { s0.fab with chans := [(1024, ⟨some 0, []⟩)], regions := [(0, runRegion)] } }
     s.word? 7 = some w ∧ wordArrives s w = true ∧ onFabric s w.ptn = true ∧ tileFenced s (seTile (seOf 1024)) = false ∧
       (s.chan 1024).q.length < 8 ∧ s.region? 0 = some runRegion ∧ w.charge = none ∧ (s.chan 1024).slot = some 0 ∧
       s.task? (0 * 1024 + seOf 1024) = some aTask ∧ w.payload.toNat % 4 < runRegion.ctxs.length) ∧
    (let w : CtrlWord := { aWord (.task 0) (.chan 1024) 1 5 with charge := some (1, 3) }
     let s := wordState aTask w
     s.word? 7 = some w ∧ wordArrives s w = true ∧ onFabric s w.ptn = true ∧ (s.chan 1024).q.length < 8 ∧ s.task? 0 = some aTask ∧
       aTask.launch = 1) := by
  repeat' apply And.intro
  all_goals first | decide +kernel | rfl

/-- An engine's request, the pages that its TLB holds and the bytes of HBM that it finds. -/
def engineOp (opcode : Nat) (a b c : Word) : Op := { anOp (.stream 0) (.engine opcode a b c 0) with src := .region 0 }
def enginePart : Partition := { pagedPart with outwin := [(0, ⟨0x300000, 0x200000, 0⟩)] }
/-- Pages 0 and 1, of which only the first may be read, and page 96, which lies in an outbound window. -/
def enginePages : List TlbEntry :=
  [⟨1, 0, 2, 0, 0, true, true, false, 21, 0xB5⟩, ⟨1, 1, 2, 0, 0x10000, false, true, false, 21, 0xB5⟩, ⟨1, 96, 6, 0, 0, true, true, false, 21, 0xBD⟩]
def engineState (o : Op) (mem : List Host.Cell) : State :=
  { withRegion (withTask aTask) runRegion with
    ops := [o], nextId := 8, mem := mem, parts := [(1, enginePart)], tlbs := [(0, enginePages)]
    cat := (0, ⟨2, 0, 0⟩) :: (1316, ⟨2, 0, 0⟩) :: (natRange 12 256).map fun n => (n, ⟨2, 0, 0⟩) }
def engine : EngEnv := ⟨0, 1, 0, 0, 0⟩

/-- Whether an engine may make an access at a place. -/
def atOk (s : State) (write : Bool) (types : List Nat) (va : Word) (n : Nat) (p : Place) : Bool :=
  (tlbFind (mgetD s.tlbs engine.tlb []) engine.ptn va).isSome &&
    (access s engine.tlb engine.ptn engine.level ⟨!write, write, types⟩ va n).toOption.any (fun x => x.place == p) && (write || !s.placeMarked p n)

theorem any_pass {e : Except Flt0 Pass} {f : Pass → Bool} (h : e.toOption.any f = true) : ∃ y, e = .ok y ∧ f y = true := by
  cases e with
  | error f => cases h
  | ok y => exact ⟨y, rfl, h⟩

theorem at_of {s : State} {write : Bool} {types : List Nat} {va : Word} {n : Nat} {p : Place} (h : atOk s write types va n p = true) :
    engine.At s write types va n p := by
  simp only [atOk, Bool.and_eq_true, Bool.or_eq_true, Bool.not_eq_true'] at h
  obtain ⟨⟨h1, h2⟩, h3⟩ := h
  obtain ⟨y, hy, hp⟩ := any_pass h2
  refine ⟨h1, ⟨y, hy, by simpa using hp⟩, fun hw => ?_⟩
  rcases h3 with h3 | h3
  · rw [hw] at h3; cases h3
  · exact h3

theorem words_of {s : State} {types : List Nat} {va : Word} {ws : List Word} (p : Nat → Place)
    (h : ∀ i < ws.length, (atOk s false types (va + wordOf (8 * i)) 8 (p i) && wordOf (natOfBytes (s.readPlace (p i) 8)) == lget ws i 0) = true) :
    engine.HasWords s types va ws := fun i hi => by
  have := h i hi
  simp only [Bool.and_eq_true, beq_iff_eq] at this
  exact ⟨p i, at_of this.1, this.2⟩

theorem bytes_of {s : State} {types : List Nat} {va : Word} {sz : Nat} {bs : List (List Byte)} (p : Nat → Place)
    (h : ∀ i < bs.length, (atOk s false types (va + wordOf (sz * i)) sz (p i) && s.readPlace (p i) sz == lget bs i []) = true) :
    engine.HasBytes s types va sz bs := fun i hi => by
  have := h i hi
  simp only [Bool.and_eq_true, beq_iff_eq] at this
  exact ⟨p i, at_of this.1, this.2⟩

/-- A request that may be performed. -/
def asks (s : State) (opcode : Nat) (a b c : Word) : Prop :=
  s.op? 7 = some (engineOp opcode a b c) ∧ performable s (engineOp opcode a b c) = true ∧ engEnv (engineOp opcode a b c) 0 = engine ∧
    walksFree s engine.tlb 1 (engineVas opcode a b c) = true

theorem witness_EnginesAnswer_inject :
    (let s := engineState (engineOp 0x55 0x8000000000000000 0x1000 0) []
     asks s 0x55 0x8000000000000000 0x1000 0 ∧ (∃ x, access s 0 1 0 ⟨true, false, tData⟩ 0x1000 32 = .ok x ∧ x.place = .mem 0x1000) ∧
       s.placeMarked (.mem 0x1000) 32 = false ∧ entryRegion 0x8000000000000000 = (0, 0) ∧ s.region? 0 = some runRegion ∧ runRegion.ptn = 1 ∧
       runRegion.standsFor 0 < runRegion.ctxs.length ∧ entryRoom s 0 0 = true) ∧
    entryRoom (withRegion (withTask aTask) (runRegion.setCtx 0 { runRegion.ctx 0 with entry := lrep 16 ⟨⟨0, 0x7F, 3⟩, false, 0⟩ })) 0 0 = false := by
  refine ⟨⟨⟨rfl, by decide +kernel, rfl, by decide +kernel⟩, ⟨⟨.mem 0x1000, 2, 0x1000, 0xB5⟩, ok_of (by decide +kernel), rfl⟩, ?_⟩, by decide +kernel⟩
  decide +kernel

/-- CPY of two bytes; and of two of which the second cannot be read. -/
theorem witness_EnginesAnswer_copy :
    (let s := engineState (engineOp 0x56 0x2000 0x1000 2) []
     asks s 0x56 0x2000 0x1000 2 ∧ ∀ i < 2, engine.At s false tData (0x1000 + wordOf i) 1 (.mem (0x1000 + i)) ∧
       engine.At s true tData (0x2000 + wordOf i) 1 (.mem (0x2000 + i))) ∧
    (let s := engineState (engineOp 0x56 0x2000 0xFFFF 2) []
     asks s 0x56 0x2000 0xFFFF 2 ∧ (∀ i < 1, engine.At s false tData (0xFFFF + wordOf i) 1 (.mem (0xFFFF + i)) ∧
       engine.At s true tData (0x2000 + wordOf i) 1 (.mem (0x2000 + i))) ∧ engine.Holds s (0xFFFF + wordOf 1) ∧
       ∃ x, access s engine.tlb engine.ptn engine.level ⟨true, false, tData⟩ (0xFFFF + wordOf 1) 1 = .error x ∧ x.code < 2 ^ 16) := by
  have h : ∀ i < 2, atOk (engineState (engineOp 0x56 0x2000 0x1000 2) []) false tData (0x1000 + wordOf i) 1 (.mem (0x1000 + i)) = true ∧
      atOk (engineState (engineOp 0x56 0x2000 0x1000 2) []) true tData (0x2000 + wordOf i) 1 (.mem (0x2000 + i)) = true := by decide +kernel
  have h' : ∀ i < 1, atOk (engineState (engineOp 0x56 0x2000 0xFFFF 2) []) false tData (0xFFFF + wordOf i) 1 (.mem (0xFFFF + i)) = true ∧
      atOk (engineState (engineOp 0x56 0x2000 0xFFFF 2) []) true tData (0x2000 + wordOf i) 1 (.mem (0x2000 + i)) = true := by decide +kernel
  exact ⟨⟨⟨rfl, by decide +kernel, rfl, by decide +kernel⟩, fun i hi => ⟨at_of (h i hi).1, at_of (h i hi).2⟩⟩,
    ⟨rfl, by decide +kernel, rfl, by decide +kernel⟩, fun i hi => ⟨at_of (h' i hi).1, at_of (h' i hi).2⟩, by unfold EngEnv.Holds; decide +kernel,
    ⟨2, 0x10000, 0xB5⟩, error_of (by decide +kernel), by decide⟩

/-- The descriptor of GTH and SCT: two elements of 4 bytes, at the indices 1 and 0. -/
def indexed (opcode : Nat) : State :=
  engineState (engineOp opcode 0x2000 0x1000 0) (cellsOf 0x1000 [0x1100, 0x1080, 0x200000002, 0] ++ cellsOf 0x1080 [1])

theorem witness_EnginesAnswer_indexed : ∀ opcode, opcode = 0x58 ∨ opcode = 0x59 →
    asks (indexed opcode) opcode 0x2000 0x1000 0 ∧ engine.HasWords (indexed opcode) tData 0x1000 [0x1100, 0x1080, 0x200000002, 0] ∧
    field (0x200000002 : Word).toNat 63 35 = 0 ∧ (0x200000002 : Word).toNat % 2 ^ 32 = 2 ∧ sizeBytes (field (0x200000002 : Word).toNat 34 32) = 4 ∧
    let k (i : Nat) : Place := .mem (0x1080 + 4 * i)
    let far (i : Nat) : Word := 0x1100 + wordOf (natOfBytes ((indexed opcode).readPlace (k i) 4) * 4)
    let near (i : Nat) : Word := 0x2000 + wordOf (i * 4)
    let f (i : Nat) : Place := .mem (if opcode = 0x58 then 0x1104 - 4 * i else 0x2000 + 4 * i)
    let g (i : Nat) : Place := .mem (if opcode = 0x58 then 0x2000 + 4 * i else 0x1104 - 4 * i)
    (∀ i < 2, engine.At (indexed opcode) false tData (0x1080 + wordOf (4 * i)) 4 (k i) ∧
      engine.At (indexed opcode) false tData (if opcode = 0x58 then far i else near i) 4 (f i) ∧
      engine.At (indexed opcode) true tData (if opcode = 0x58 then near i else far i) 4 (g i)) ∧
    (∀ i < 2, ∀ j < 2, i < j → (g i).Apart 4 (f j) ∧ (g i).Apart (Nat.max 4 4) (k j)) := by
  have h (op : Nat) (ho : op = 0x58 ∨ op = 0x59) : ∀ i < 2, atOk (indexed op) false tData (0x1080 + wordOf (4 * i)) 4 (.mem (0x1080 + 4 * i)) = true ∧
      atOk (indexed op) false tData (if op = 0x58 then 0x1100 + wordOf (natOfBytes ((indexed op).readPlace (.mem (0x1080 + 4 * i)) 4) * 4) else 0x2000 + wordOf (i * 4)) 4
        (.mem (if op = 0x58 then 0x1104 - 4 * i else 0x2000 + 4 * i)) = true ∧
      atOk (indexed op) true tData (if op = 0x58 then 0x2000 + wordOf (i * 4) else 0x1100 + wordOf (natOfBytes ((indexed op).readPlace (.mem (0x1080 + 4 * i)) 4) * 4)) 4
        (.mem (if op = 0x58 then 0x2000 + 4 * i else 0x1104 - 4 * i)) = true := by
    rcases ho with rfl | rfl <;> decide +kernel
  intro op ho
  refine ⟨?_, words_of (fun i => .mem (0x1000 + 8 * i)) ?_, by decide, by decide, by decide,
    fun i hi => ⟨at_of (h op ho i hi).1, at_of (h op ho i hi).2.1, at_of (h op ho i hi).2.2⟩, ?_⟩
  · rcases ho with rfl | rfl <;> exact ⟨rfl, by decide +kernel, rfl, by decide +kernel⟩
  · rcases ho with rfl | rfl <;> decide +kernel
  · rcases ho with rfl | rfl <;> simp only [Place.Apart] <;> decide +kernel

/-- MCST of two bytes to one destination, with notify. -/
def multicast : State := engineState (engineOp 0x57 0x1000 0x10100000002 0x1080) (cellsOf 0x1080 [0x2000, 0x8000000000000000])

theorem witness_EnginesAnswer_multicast : asks multicast 0x57 0x1000 0x10100000002 0x1080 ∧ field (0x10100000002 : Word).toNat 31 0 = 2 ∧
    field (0x10100000002 : Word).toNat 39 32 = 1 ∧ (0x10100000002 : Word).getLsbD 40 = true ∧
    engine.HasWords multicast tData 0x1080 [0x2000, 0x8000000000000000] ∧ (∀ i < 2, engine.At multicast false tData (0x1000 + wordOf i) 1 (.mem (0x1000 + i))) ∧
    (∀ d < 1, ∀ i < 2, engine.At multicast true tData (lget [0x2000, 0x8000000000000000] (2 * d) 0 + wordOf i) 1 (.mem (0x2000 + (d * 2 + i)))) := by
  have h : ∀ i < 2, atOk multicast false tData (0x1000 + wordOf i) 1 (.mem (0x1000 + i)) = true ∧
      atOk multicast true tData (0x2000 + wordOf i) 1 (.mem (0x2000 + i)) = true := by decide +kernel
  refine ⟨⟨rfl, by decide +kernel, rfl, by decide +kernel⟩, by decide, by decide, by decide, words_of (fun i => .mem (0x1080 + 8 * i)) (by decide +kernel),
    fun i hi => at_of (h i hi).1, fun d hd i hi => ?_⟩
  obtain rfl : d = 0 := by omega
  show engine.At multicast true tData (0x2000 + wordOf i) 1 (.mem (0x2000 + (0 * 2 + i)))
  rw [Nat.zero_mul, Nat.zero_add]
  exact at_of (h i hi).2

/-- KSEL of one page of one token, with a valid summary, by queries of 0 in 32 channels. -/
def ranking : State :=
  engineState (engineOp 0x5A 0x1000 0 0)
    (cellsOf 0x1000 [0x1100, 0x1200, 0x1300, 0x1380, 0x10001, 0x2000] ++ [(0x1300, 1)] ++ cellsOf 0x1380 [0x1400] ++ [(0x1400, 0x56), (0x1401, 0x4B), (0x1402, 1)])

theorem witness_EnginesAnswer_select : asks ranking 0x5A 0x1000 0 0 ∧
    engine.HasWords ranking tData 0x1000 [0x1100, 0x1200, 0x1300, 0x1380, 0x10001, 0x2000] ∧
    (field (0x10001 : Word).toNat 63 26 = 0 ∧ field (0x10001 : Word).toNat 25 24 = 0 ∧ field (0x10001 : Word).toNat 23 16 = 1 ∧ field (0x10001 : Word).toNat 15 0 = 1) ∧
    engine.HasWords ranking tKv 0x1380 [0x1400] ∧ engine.HasBytes ranking tNk 0x1100 4 (lrep 32 [0, 0, 0, 0]) ∧ engine.HasBytes ranking tKv 0x1300 1 [[1]] ∧
    (∀ p < 1, (∀ i < 4, engine.Holds ranking (lget [0x1400] p 0 + wordOf i)) ∧ ∀ i < 2 * 32, engine.Holds ranking (0x1200 + wordOf (4 * 32 * p) + wordOf (2 * i))) ∧
    ∃ rs ex, kselPages engine ranking 32 0 ((lrep 32 ([0, 0, 0, 0] : List Byte)).map fun q => Flt.f32.decode (natOfBytes q)) 0x1200 ([[1]] : List (List Byte)).flatten 0 [0x1400] = .ok (rs, ex) ∧
      (rs.take 1).length = 1 ∧ ∀ j < 1, engine.At ranking true tNk (0x2000 + wordOf (4 * j)) 4 (.mem (0x2000 + 4 * j)) := by
  have h : ∀ i < 1, atOk ranking true tNk (0x2000 + wordOf (4 * i)) 4 (.mem (0x2000 + 4 * i)) = true := by decide +kernel
  have hk : (match kselPages engine ranking 32 0 ((lrep 32 ([0, 0, 0, 0] : List Byte)).map fun q => Flt.f32.decode (natOfBytes q)) 0x1200 ([[1]] : List (List Byte)).flatten 0 [0x1400] with
      | .ok x => decide ((x.1.take 1).length = 1) | .error _ => false) = true := by decide +kernel
  refine ⟨⟨rfl, by decide +kernel, rfl, by decide +kernel⟩, words_of (fun i => .mem (0x1000 + 8 * i)) (by decide +kernel), by decide,
    words_of (fun i => .mem (0x1380 + 8 * i)) (by decide +kernel), bytes_of (fun i => .mem (0x1100 + 4 * i)) (by decide +kernel),
    bytes_of (fun i => .mem (0x1300 + i)) (by decide +kernel), by unfold EngEnv.Holds; decide +kernel, ?_⟩
  split at hk
  · rename_i x hx
    exact ⟨x.1, x.2, hx, of_decide_eq_true hk, fun i hi => at_of (h i hi)⟩
  · cases hk

/-- KVPK of one token in 32 channels of float32. -/
def packing : State := engineState (engineOp 0x5B 0x1000 0 0) (cellsOf 0x1000 [0x1100, 0x1180, 0x2000, 0x3000, 1, 0x1300, 0])

theorem witness_EnginesAnswer_pack : asks packing 0x5B 0x1000 0 0 ∧
    engine.HasWords packing tData 0x1000 [0x1100, 0x1180, 0x2000, 0x3000, 1, 0x1300, 0] ∧
    (field (1 : Word).toNat 9 8 = 0 ∧ field (1 : Word).toNat 6 5 = 0 ∧ field (1 : Word).toNat 4 0 = 1 ∧ field (1 : Word).toNat 63 10 = 0 ∧
      bitAt (1 : Word).toNat 7 = false ∧ (0x2000 : Word).toNat % 128 = 0) ∧
    engine.HasBytes packing tNk 0x1100 4 (lrep 32 [0, 0, 0, 0]) ∧ engine.HasBytes packing tNk 0x1180 4 (lrep 32 [0, 0, 0, 0]) ∧
    (∀ i < 32 + 33 * 32, engine.At packing true tKv (0x2000 + wordOf i) 1 (.mem (0x2000 + i))) ∧
    (∀ i < 2 * 32, engine.At packing true tKv (0x3000 + wordOf (2 * i)) 2 (.mem (0x3000 + 2 * i))) ∧
    engine.At packing false tKv (0x1300 + wordOf (0 / 8)) 1 (.mem 0x1300) ∧ engine.At packing true tKv (0x1300 + wordOf (0 / 8)) 1 (.mem 0x1300) := by
  have h : ∀ i < 32 + 33 * 32, atOk packing true tKv (0x2000 + wordOf i) 1 (.mem (0x2000 + i)) = true := by decide +kernel
  have h' : ∀ i < 2 * 32, atOk packing true tKv (0x3000 + wordOf (2 * i)) 2 (.mem (0x3000 + 2 * i)) = true := by decide +kernel
  exact ⟨⟨rfl, by decide +kernel, rfl, by decide +kernel⟩, words_of (fun i => .mem (0x1000 + 8 * i)) (by decide +kernel), by decide,
    bytes_of (fun i => .mem (0x1100 + 4 * i)) (by decide +kernel), bytes_of (fun i => .mem (0x1180 + 4 * i)) (by decide +kernel),
    fun i hi => at_of (h i hi), fun i hi => at_of (h' i hi), at_of (by decide +kernel), at_of (by decide +kernel)⟩

/-- AXRD and AXWR of a block at the VA 0x600000, in host memory. -/
def annexState (opcode : Nat) : State := engineState (engineOp opcode 0x600000 0 0) []

theorem window_toNat {j : Nat} (hj : j < 65536) : ((0x600000 : Word) + wordOf j).toNat = 0x600000 + j := by
  rw [BitVec.toNat_add, show ((0x600000 : Word)).toNat = 0x600000 from rfl, wordOf, BitVec.toNat_ofNat]; omega

theorem window_canonical {j : Nat} (hj : j < 65536) : isCanonical ((0x600000 : Word) + wordOf j) = true := by
  rw [isCanonical, canon, sext, window_toNat hj, beq_iff_eq, ← BitVec.toNat_inj, window_toNat hj]
  have h : signedOf 56 (0x600000 + j) = ((0x600000 + j : Nat) : Int) := by
    unfold signedOf
    rw [Nat.mod_eq_of_lt (by omega)]
    exact if_pos (by omega)
  rw [h, wordOfInt, patternOf, BitVec.toNat_ofNat]
  omega

theorem window_at (opcode : Nat) (write : Bool) {j : Nat} (hj : j < 65536) :
    engine.At (annexState opcode) write tData (0x600000 + wordOf j) 1 (.host (0x300000 + j)) := by
  have hd : (0x600000 + j) % 2 ^ 56 / 65536 = 96 := by omega
  have hm : (0x600000 + j) % 65536 = j := by omega
  have hf : tlbFind (mgetD (annexState opcode).tlbs engine.tlb []) engine.ptn (0x600000 + wordOf j) =
      some ⟨1, 96, 6, 0, 0, true, true, false, 21, 0xBD⟩ := by
    show enginePages.find? _ = _
    simp only [enginePages, List.find?_cons, window_toNat hj, hd]
    rfl
  have hl : lookup (annexState opcode) engine.tlb engine.ptn enginePart (0x600000 + wordOf j) = .ok ⟨1, 96, 6, 0, 0, true, true, false, 21, 0xBD⟩ := by
    simp only [lookup, hf]
  have hp : mget (annexState opcode).parts engine.ptn = some enginePart := rfl
  have hw : mget enginePart.outwin 0 = some ⟨0x300000, 0x200000, 0⟩ := rfl
  have h6 : 6 ∈ tData := by decide
  refine ⟨?_, ⟨⟨.host (0x300000 + (0 + (0x600000 + wordOf j).toNat % 65536)), 6, 0 + (0x600000 + wordOf j).toNat % 65536, 0xBD⟩, ?_, ?_⟩, fun _ => rfl⟩
  · rw [EngEnv.Holds, hf]; rfl
  · have hs : ¬(0x200000 < (0x600000 + wordOf j).toNat % 65536 + 1) := by rw [window_toNat hj, hm]; omega
    have hc := window_canonical hj
    generalize (0x600000 : Word) + wordOf j = va at hs hc hl
    cases write <;> simp [access, hc, hp, hl, checkPage, hw, h6, hs, Nat.mod_one]
  · rw [window_toNat hj, hm, Nat.zero_add]

theorem witness_EnginesAnswer_annex : (∀ opcode, opcode = 0x5C ∨ opcode = 0x5D → asks (annexState opcode) opcode 0x600000 0 0 ∧
      (annexState opcode).ready 5 0 = true) ∧
    (∀ opcode write, ∀ i < 65536, engine.At (annexState opcode) write tData (0x600000 + wordOf i) 1 (.host (0x300000 + i))) ∧
    (opState (.stream 0) (.engine 0x5C 0 0 0 0)).ready 5 0 = false := by
  refine ⟨fun op ho => ?_, fun op w i hi => window_at op w hi, by decide +kernel⟩
  rcases ho with rfl | rfl <;> exact ⟨⟨rfl, by decide +kernel, rfl, by decide +kernel⟩, by decide +kernel⟩

theorem witness_EnginesAnswer :
    (performable (opState (.stream 0) (.engine 0x56 0 0 1 0)) (anOp (.stream 0) (.engine 0x56 0 0 1 0)) = true ∧
      performable (opState (.stream 0) (.engine 0x5D 0 0 0 0)) (anOp (.stream 0) (.engine 0x5D 0 0 0 0)) = true) ∧
    (let s : State := { withRegion (withTask aTask) runRegion with transfers := [⟨7, ⟨0, 0x7F, 0⟩, 0, 0, 1⟩] }
     s.transfers.find? (fun t => t.id == 7) = some ⟨7, ⟨0, 0x7F, 0⟩, 0, 0, 1⟩ ∧ s.region? 0 = some runRegion ∧ runRegion.ptn = 1 ∧
       entryRoom s 0 0 = true ∧ runRegion.standsFor 0 < runRegion.ctxs.length) ∧
    (let s := opState .nowhere (.invalidate 0x10000 false 6)
     s.ops.find? (fun o => o.src == .task 0 && (match o.act with | .invalidate .. => true | _ => false)) =
       some (anOp .nowhere (.invalidate 0x10000 false 6)) ∧ accessUnderWay s 1 = false ∧ aTask.later = [] ∧
       performable s (anOp .nowhere (.invalidate 0x10000 false 6)) = true) := by
  repeat' apply And.intro
  all_goals first | decide +kernel | rfl

/-- A record waits for its mailbox; a notice of one arrives; a launch has drained. -/
def aRecord : Record := ⟨7, lrep 16 8, .task 0, 1⟩
theorem witness_FaultsAndLaunchEnd :
    (mgetD ({ aPart with waitrec := [(0, [aRecord])], mbox := [(0, lrep 63 aRecord)] } : Partition).waitrec 0 [] = aRecord :: [] ∧
      (mgetD ({ aPart with mbox := [(0, lrep 63 aRecord)] } : Partition).mbox 0 []).length < 64) ∧
    (let w := aWord (.task 0) (.core 0) 6 0
     let q := { aPart with mbox := [(0, [aRecord])] }
     let s : State := { wordState aTask w with parts := [(1, q)] }
     s.word? 7 = some w ∧ wordArrives s w = true ∧ s.part? w.ptn = some q ∧ (q.mbox.flatMap (·.2)).find? (fun x => x.id == 7) = some aRecord ∧
       mget s.launches aRecord.launch = some aLaunch ∧ aLaunch.ptn = w.ptn) ∧
    (let s : State := { withRegion (withTask { aTask with state := .halted }) aRegion with launches := [(1, { aLaunch with state := .draining })] }
     partRuns s 1 = true ∧ (∀ x ∈ launchTasks s 1, x.2.blk = none ∧ x.2.later = []) ∧ sectionsDone s 1 = true ∧
       (∀ o ∈ s.ops, o.launch = 1 → o.performed = true ∨ stale s o = true ∨ (o.act.locs = [] ∧ o.act.isArm = false))) :=
  ⟨by decide, by decide +kernel, ⟨by decide, by decide +kernel, by decide +kernel, fun _ h => by cases h⟩⟩

/-- An operation with its packet. -/
def packetOp (id : Nat) (p : Packet) : Op := { anOp .nowhere (.fence 0) with id := id, pkt := p }

/-- A region whose AGR 0 of M-tile 0 makes accesses, the first at VA 0. -/
def agRegion : Region :=
  aRegion.setCtx 0 { Ctx.blank with status := .resident, arm := 1, elems := [(1056, 0x60 * 2 ^ 120 + 7 * 2 ^ 60)], es := [(1056, { ElemSt.init with ag := { ElemSt.init.ag with active := true } })] }
/-- The agent whose walk of page 0 has the waiters ws. -/
def walkState (ws : List Nat) (q : Partition) : State :=
  { paged [] (withRegion (withTask aTask) agRegion) with parts := [(1, q)], walks := [⟨7, 0, 1, 0, ws, 5⟩] }

theorem witness_MemorySystemEvents :
    (let s : State := { State.reset with slices := [(3, ⟨0, [], [], [⟨0x100, 1, 0⟩], [⟨0x180, 1, 0⟩], [⟨0x100, true, 1, false⟩, ⟨0x180, false, 1, false⟩], [⟨0x200, false, 1, true⟩]⟩)] }
     (∃ m ∈ (s.slice 3).misses, hbmServes s m.pa m.ptn = true) ∧
       (s.slice 3).wbs.find? (fun w => hbmServes s w.pa w.ptn) = some ⟨0x100, true, 1, false⟩) ∧
    (let s := walkState [1056] pagedPart
     s.walks.find? (fun w => w.id == 7) = some ⟨7, 0, 1, 0, [1056], 5⟩ ∧ s.part? 1 = some pagedPart ∧ onFabric s 1 = true ∧ s.walkq = [] ∧
       (match walk s 1 pagedPart (sext 56 0) with | .ok e => e.page == 0 | .bad _ => false) = true ∧
       ((waiterAg s 1056).any fun a => a.g.ptn == 1 && a.a.active && (agAddr a.w a.a).toNat % 2 ^ 56 / 65536 == 0) = true ∧
       ((waiterAg s 1057).any fun a => !a.a.active) = true) ∧
    (let s := walkState [] aPart
     s.part? 1 = some aPart ∧ (match walk s 1 aPart (sext 56 0) with | .ok _ => false | .bad _ => true) = true ∧
       ((waiterAg (trailTouch (s.nextWalks fun x => x.id != 7) 1 aPart (sext 56 0)) 1056).any fun a =>
         a.g.ptn == 1 && a.a.active && (agAddr a.w a.a).toNat % 2 ^ 56 / 65536 == 0) = true) ∧
    (let s : State := { State.reset with frames := [(8, ⟨0, [], 0, 0⟩)], time := 1024 }
     mget s.frames 8 = some ⟨0, [], 0, 0⟩ ∧ (0 : Nat) + 1024 ≤ s.time) ∧
    (let u := packetOp 7 ⟨3, 0, 0, false, false, 8, 7⟩
     let v := packetOp 6 ⟨2, 0, 3, false, false, 8, 6⟩
     let s : State := { withTask aTask with ops := [v, u], frames := [(8, ⟨0, [(1, 1024)], 1, 0⟩)] }
     s.op? 7 = some u ∧ u.performed = false ∧ victimOf s 8 = some v) ∧
    (let o := packetOp 7 ⟨0, 0, 4, false, true, 8, 7⟩
     let s : State := { withTask aTask with ops := [o] }
     s.op? 7 = some o ∧ o.pkt.evicted = true ∧ stale s o = false) ∧
    (let o := packetOp 7 ⟨0, 1, 4, false, true, 8, 7⟩
     let s : State := { withTask aTask with ops := [o] }
     s.op? 7 = some o ∧ o.pkt.evicted = true ∧ stale s o = true) ∧
    (let s : State := { State.reset with copies := [⟨7, 1, 0, true⟩] }
     s.copies.find? (fun c => c.id == 7) = some ⟨7, 1, 0, true⟩) ∧
    (let o := anOp (.regs 0 1) (.land [5] 0 false)
     let s : State := { opState (.regs 0 1) (.land [5] 0 false) with parts := [(1, { aPart with resident := false })], saved := [(1, ⟨Fabric.empty, [], [], []⟩)] }
     s.op? 7 = some o ∧ stale s o = false ∧ scanning s 7 = false ∧ mget s.saved o.ptn = some ⟨Fabric.empty, [], [], []⟩ ∧ onFabric s o.ptn = false) ∧
    (let o : Op := { anOp .nowhere (.agAccess 0 0x100 true [1] 1 0 false) with src := .region 0 }
     let s : State := { withTask aTask with ops := [o], parts := [(1, { aPart with resident := false })], saved := [(1, ⟨Fabric.empty, [], [], []⟩)] }
     s.op? 7 = some o ∧ performable s o = true ∧ mget s.saved o.ptn = some ⟨Fabric.empty, [], [], []⟩ ∧ onFabric s o.ptn = false) := by
  repeat' apply And.intro
  all_goals first | decide +kernel | rfl

/-- A command entry with its operands. -/
def anEntry (w1 w2 w3 w4 w5 w6 : Word) : CmdEntry := ⟨5, 0, 0, 0, 0, 0, w1, w2, w3, w4, w5, w6, 9⟩

/-- A ring that stands at entry 0 of 64 with nothing started, and a partition with rings 0 and 21 in inbound window 0. -/
def aRing : Ring := ⟨0x1000, 6, 0x1040, 2, 0, false, false, [], []⟩
def ringPart : Partition :=
  { pagedPart with rings := [(0, aRing), (1, { aRing with stopped := true }), (2, { aRing with stopped := true, restart := true }), (21, aRing)]
                   vectors := [(0, ⟨64, 1, false, false⟩), (1, ⟨64, 2, true, false⟩)]
                  , inwin := [(0, ⟨0x200000, 0x100000, 0⟩)], units := [5] }
/-- An image of one task in slot 0 of SE 0, and a state in which it can be launched. -/
def anImage : Image := ⟨[⟨0, 0, 0, 0, 4, [], [], [lrep 8 0]⟩], [], [], [], [], none, 0, []⟩
def launchState : State :=
  let units : List Nat := [0, 14, 44, 45, 76, 1036, 1292, 1318]
  { paged [7 * 2 ^ 32] State.reset with parts := [(1, ringPart)], images := [(0x8000, anImage)], cat := units.map fun n => (n, ⟨2, 0, 0⟩) }

theorem witness_CompletionsAndLaunches : launchState.part? 1 = some ringPart ∧ launchRefused launchState 1 0x8000 = none ∧
    mget launchState.images (anEntry 0x8000 7 16 0x10000 0 0).w1.toNat = some anImage ∧ (anEntry 0x8000 7 16 0x10000 0 0).w4.toNat % 65536 = 0 ∧
    launchRefused launchState 1 0x9000 = some (1, 0) ∧ ({ launchState with alarm := { launchState.alarm with level := 2 } } : State).alarm.level = 2 :=
  ⟨rfl, by decide +kernel, rfl, by decide, by decide +kernel, rfl⟩

theorem store_found : ∃ store, launchState.storeAt ringPart 2 = some store := by
  rw [← Option.isSome_iff_exists, State.storeAt, List.find?_isSome]
  exact ⟨0, List.mem_cons_of_mem _ (by decide), by decide +kernel⟩

theorem witness_RingCommands : launchState.part? 1 = some ringPart ∧ mget ringPart.rings 0 = some aRing ∧ entryFate aRing (2 ^ 32 - 1) = some 0 ∧
    entryFate { aRing with skips := [(1, 3)] } 2 = some 3 ∧ mget ringPart.rings 20 = none ∧
    (access launchState (coreEnv launchState 1).tlb 1 1 askStore 0x100 8).toOption = some ⟨.mem 0x100, 0, 0x100, 0xB1⟩ ∧
    (access launchState (coreEnv launchState 1).tlb 1 1 askStore 0x101 8).toOption = none ∧ ringPart.units[(0 : Nat)]? = some 5 ∧
    walksFree launchState (coreEnv launchState 1).tlb 1 [0x100] = true ∧ walksFree launchState (coreEnv launchState 1).tlb 1 [0x1000, 0x1000 + 120] = true ∧
    (∃ store, launchState.storeAt ringPart 2 = some store) ∧
    (match (coreEnv launchState 1).words launchState tData 0x1000 16 with | .ok ws => ws.length | .error _ => 0) = 16 ∧
    (∃ r, mget ringPart.rings 1 = some r ∧ r.stopped = true ∧ r.started = []) ∧ aRing.stopped = false ∧ mget launchState.trees 0 = none ∧
    ((12 : Word).toNat % 8192 ≤ 12 ∧ 2 ≤ (0x1000000 : Word).toNat % 2 ^ 25 ∧ (0x1000000 : Word).toNat % 2 ^ 25 ≤ 2 ^ 24) :=
  ⟨rfl, rfl, by decide, by decide, rfl, by decide +kernel, by decide +kernel, rfl, by decide +kernel, by decide +kernel, store_found, by decide +kernel,
   ⟨_, rfl, rfl, rfl⟩, rfl, rfl, by decide⟩

/-- The state with the first word w of partition 1's entry 0. -/
def ringState (w : Nat) : State := { launchState with mem := (paged [wordOf w] State.reset).mem }
/-- A completion ring that stands in host memory. -/
def hostRing : Ring := { aRing with va := 0x600000, ptrs := 0x601000 }
def hostPart : Partition :=
  { ringPart with rings := [(21, hostRing)], ranges := [(0, ⟨0, 0, 2 ^ 23⟩)], outwin := [(0, ⟨0x300000, 0x200000, 0⟩)], compl := [(lrep 8 1, true)] }
def hostState : State :=
  { paged [] State.reset with parts := [(1, hostPart)], mem := (paged [] State.reset).mem ++ [(0x20018, 0xBD)] }

/-! ### A completion ring in host memory -/

def hostPage : TlbEntry := ⟨1, 96, 6, 0, 0, true, true, false, 21, 0xBD⟩

theorem canonical_of_small {va : Word} (h : va.toNat < 2 ^ 55) : isCanonical va = true := by
  rw [isCanonical, canon, sext, beq_iff_eq, ← BitVec.toNat_inj]
  have hs : signedOf 56 va.toNat = (va.toNat : Int) := by
    unfold signedOf
    rw [Nat.mod_eq_of_lt (by omega)]
    exact if_pos (by omega)
  rw [hs, wordOfInt, patternOf, BitVec.toNat_ofNat]
  omega

/-- The TLB of a core holds the page of its completion ring. -/
def HoldsPage (k : Nat) (x : Partition) (s : State) : Prop := mget s.parts 1 = some x ∧ mgetD s.tlbs k [] = [hostPage]

/-- A core's write to host memory, by the entry of its TLB or by the one that a walk finds. -/
theorem host_put {k d : Nat} {x : Partition} {s : State} {va : Word} {bs : List Byte} (hx : mget s.parts 1 = some x)
    (hw : mget x.outwin 0 = some ⟨0x300000, 0x200000, 0⟩) (hl : lookup s k 1 x va = .ok hostPage) (hm : HoldsPage k x (installTlb s k 1 va))
    (hn : va.toNat % bs.length = 0) (hv : 0x600000 ≤ va.toNat ∧ va.toNat + bs.length ≤ 0x610000) :
    ∃ s', (⟨k, 1, 1, 0, d⟩ : EngEnv).put tData va bs s = (s', none) ∧ HoldsPage k x s' := by
  have hc : isCanonical va = true := canonical_of_small (by omega)
  have h6 : 6 ∈ tData := by decide
  have ha : access s k 1 1 ⟨false, true, tData⟩ va bs.length = .ok ⟨.host (0x300000 + va.toNat % 65536), 6, va.toNat % 65536, 0xBD⟩ := by
    have hf : ¬(0x200000 < va.toNat % 65536 + bs.length) := by omega
    simp [access, hc, hn, hx, hl, checkPage, hostPage, hw, h6, hf]
  have ht (t : State) (pa : Nat) : touch t 1 pa 6 0 true = t := by simp [touch]
  refine ⟨{ installTlb s k 1 va with hostMem := Memory.writeN (installTlb s k 1 va).hostMem (0x300000 + va.toNat % 65536) bs }, ?_, hm⟩
  simp [EngEnv.put, EngEnv.write, ha, ht, EngEnv.meet, hn, State.writePlace]

theorem host_page {va : Word} (hv : 0x600000 ≤ va.toNat ∧ va.toNat < 0x610000) : tlbFind [hostPage] 1 va = some hostPage := by
  simp [tlbFind, hostPage]
  omega

theorem host_hit {k d : Nat} {x : Partition} {s : State} {va : Word} {bs : List Byte} (h : HoldsPage k x s)
    (hw : mget x.outwin 0 = some ⟨0x300000, 0x200000, 0⟩) (hn : va.toNat % bs.length = 0) (hb : 0 < bs.length)
    (hv : 0x600000 ≤ va.toNat ∧ va.toNat + bs.length ≤ 0x610000) :
    ∃ s', (⟨k, 1, 1, 0, d⟩ : EngEnv).put tData va bs s = (s', none) ∧ HoldsPage k x s' := by
  have hf := host_page (va := va) (by omega)
  have hi : installTlb s k 1 va = s := by
    simp [installTlb, canonical_of_small (va := va) (by omega), h.1, h.2, hf]
  exact host_put h.1 hw (by simp [lookup, h.2, hf]) (by rw [hi]; exact h) hn hv

theorem host_els {k d : Nat} {x : Partition} {va : Word} (hw : mget x.outwin 0 = some ⟨0x300000, 0x200000, 0⟩) :
    ∀ (bs : List Byte) (i : Nat) (s : State), HoldsPage k x s → 0x600000 ≤ va.toNat → va.toNat + i + bs.length ≤ 0x610000 →
      ∃ s', (⟨k, 1, 1, 0, d⟩ : EngEnv).writeEls tData va 1 (bs.map fun b => [b]) i s = (s', none) ∧ HoldsPage k x s'
  | [], _, s, h, _, _ => ⟨s, rfl, h⟩
  | b :: bs, i, s, h, h1, h2 => by
    rw [List.length_cons] at h2
    have hva : (va + wordOf (1 * i)).toNat = va.toNat + i := by
      rw [BitVec.toNat_add, wordOf, BitVec.toNat_ofNat]; omega
    obtain ⟨s', hp, hs⟩ := host_hit (d := d) (bs := [b]) (va := va + wordOf (1 * i)) h hw (Nat.mod_one _) Nat.zero_lt_one
      ⟨by omega, by rw [hva, List.length_singleton]; omega⟩
    obtain ⟨s'', hq, hs'⟩ := host_els (d := d) hw bs (i + 1) s' hs h1 (by omega)
    exact ⟨s'', by simp only [List.map_cons, EngEnv.writeEls, hp, hq], hs'⟩

theorem wrote_holds {k d : Nat} {x : Partition} {va : Word} {n : Nat} {s : State} (h : HoldsPage k x s) :
    HoldsPage k x ((⟨k, 1, 1, 0, d⟩ : EngEnv).wrote va n s) := by
  unfold EngEnv.wrote
  dsimp only
  generalize natRange ((va.toNat + 63) / 64) _ = gs
  induction gs generalizing s with
  | nil => exact h
  | cons g gs ih =>
    apply ih
    dsimp only
    split
    · split
      · exact h
      · exact h
    · exact h

theorem put_ok {e : EngEnv} {types : List Nat} {va : Word} {bs : List Byte} {s s' : State} (h : e.put types va bs s = (s', none)) :
    ∃ y, e.write s types va bs = .ok y := by
  unfold EngEnv.put at h
  split at h
  · exact ⟨_, ‹_›⟩
  · cases h

/-- The entry and the pointer of a ring whose page no TLB holds yet are written. -/
theorem posts {s : State} {x : Partition} {r : Ring} {ws : List Word} {b : Byte} {bs : List Byte} (hx : mget s.parts 1 = some x) (ht : s.tlbs = [])
    (hw : mget x.outwin 0 = some ⟨0x300000, 0x200000, 0⟩) (hr : wordOf (r.va + r.wp % r.size * 64) = 0x600080) (hp : wordOf r.ptrs = 0x601000)
    (hl : walk s 1 x 0x600080 = .ok hostPage) (hk : (trailTouch s 1 x 0x600080).parts = s.parts) (hb : ((withCseq ws r.wp).flatMap fun w => bytesOfNat 8 w.toNat) = b :: bs)
    (hn : bs.length ≤ 64) : (postEntry s 1 r ws).isSome = true := by
  obtain ⟨k, d, he⟩ : ∃ k d, coreEnv s 1 = ⟨k, 1, 1, 0, d⟩ := ⟨_, _, rfl⟩
  have hi : HoldsPage k x (installTlb s k 1 0x600080) := by
    have hc : isCanonical (0x600080 : Word) = true := canonical_of_small (by decide)
    have hm : mgetD s.tlbs k [] = [] := by rw [ht]; rfl
    have hf (va : Word) : tlbFind [] 1 va = none := rfl
    simp only [installTlb, hc, if_true, hx, hm, hf, hl, List.length_nil, Nat.zero_lt_succ, List.nil_append]
    exact ⟨by rw [← hx]; exact congrArg (mget · 1) hk, by simp [mgetD]⟩
  have h0 : lookup s k 1 x 0x600080 = .ok hostPage := by
    have hm : mgetD s.tlbs k [] = [] := by rw [ht]; rfl
    have hf (va : Word) : tlbFind [] 1 va = none := rfl
    simp only [lookup, hm, hf, hl]
  obtain ⟨s1, h1, hs1⟩ := host_put (d := d) (bs := [b]) hx hw h0 hi (Nat.mod_one _) ⟨by decide, by rw [List.length_singleton]; decide⟩
  obtain ⟨s2, h2, hs2⟩ := host_els (d := d) (va := 0x600080) hw bs 1 s1 hs1 (by decide) (by rw [show (0x600080 : Word).toNat = 0x600080 by decide]; omega)
  have h3 : (⟨k, 1, 1, 0, d⟩ : EngEnv).writeEls tData 0x600080 1 ((b :: bs).map fun b => [b]) 0 s = (s2, none) := by
    simp only [List.map_cons, EngEnv.writeEls]
    rw [show (0x600080 : Word) + wordOf (1 * 0) = 0x600080 by decide, h1]
    exact h2
  obtain ⟨s3, h5, hs3⟩ : ∃ s3, (⟨k, 1, 1, 0, d⟩ : EngEnv).writeAll tData 0x600080 (b :: bs) 0 s = (s3, none) ∧ HoldsPage k x s3 :=
    ⟨(⟨k, 1, 1, 0, d⟩ : EngEnv).wrote 0x600080 (b :: bs).length s2, by simp only [EngEnv.writeAll, h3], wrote_holds hs2⟩
  have hlen : (bytesOfNat 8 ((r.wp + 1) % 2 ^ 32)).length = 8 := rfl
  obtain ⟨s4, h4, _⟩ := host_hit (d := d) (va := 0x601000) (bs := bytesOfNat 8 ((r.wp + 1) % 2 ^ 32)) hs3 hw
    (by rw [hlen]; decide) (by rw [hlen]; decide) ⟨by decide, by rw [hlen]; decide⟩
  obtain ⟨y, hy⟩ := put_ok h4
  unfold postEntry
  dsimp only
  rw [he, hr, hb, h5, hp]
  dsimp only
  rw [hy]
  rfl

/-- The ring 0 of `hostPart`'s neighbour has found SEQ 7 where it expected 0, with nothing to post. -/
def overPart : Partition := { hostPart with rings := [(0, aRing), (21, hostRing)], compl := [] }
def overState : State :=
  { launchState with parts := [(1, overPart)], mem := (paged [7 * 2 ^ 32] State.reset).mem ++ [(0x20018, 0xBD)] }

theorem over_posts : (postEntry overState 1 hostRing (complWords 0 4 0 7 0 0)).isSome = true :=
  posts (x := overPart) rfl rfl rfl (by decide) (by decide) (by decide +kernel) (by decide +kernel) rfl (by decide)

theorem host_posts : (postEntry hostState 1 hostRing (lrep 8 1)).isSome = true :=
  posts (x := hostPart) rfl rfl rfl (by decide) (by decide) (by decide +kernel) (by decide +kernel) rfl (by decide)

/-- The core's access for byte j of the entry that comes next. -/
def entryAccess (j : Nat) : Except Flt0 Pass :=
  access hostState (coreEnv hostState 1).tlb 1 1 ⟨false, true, tData⟩ (wordOf (hostRing.va + hostRing.wp % hostRing.size * 64) + wordOf j) 1

theorem entry_any : ∀ j < 64, (entryAccess j).toOption.any (fun y => y.place == .host (0x300080 + j) && y.typ == 6) = true := by
  decide +kernel

theorem host_entry (j : Nat) (hj : j < 64) : ∃ y, entryAccess j = .ok y ∧ y.place = .host (0x300080 + j) ∧ y.typ = 6 := by
  obtain ⟨y, h, h'⟩ := any_pass (entry_any j hj)
  simp only [Bool.and_eq_true, beq_iff_eq] at h'
  exact ⟨y, h, h'⟩

/-- The module queue with one entry, NOP of SEQ 3 by its words, and a core that serves it. -/
def moduleState (seq : Nat) (opc : Nat) : State :=
  { State.reset with owner := cellsOf (0x10000 + 3 * 64) [wordOf (seq * 2 ^ 32 + opc * 2 ^ 24)], cat := [(1318, ⟨2, 0, 0⟩)], modq := ⟨0, 10, 0, 4, 3, false, false, [], []⟩ }

theorem witness_RingsRun : (aRing.rp < 2 ^ 32 ∧ aRing.wp < 2 ^ 32 ∧ 6 ≤ aRing.log ∧ aRing.log ≤ 16 ∧ aRing.skips = [] ∧ count32 aRing.rp aRing.wp ≤ aRing.size) ∧
    (let r : Ring := { aRing with wp := 2 ^ 31 - 1 }
     r.size + 1 < count32 r.rp r.wp ∧ count32 r.rp r.wp < 2 ^ 31) ∧
    (let s := moduleState 3 0x41
     served s .module = true ∧ s.modq.stopped = false ∧ (match headWords s .module with | some (_, ws) => seqOf ws == s.modq.rp && entryOk .module ws | none => false) = true) ∧
    (match headWords (moduleState 3 0x99) .module with | some (_, ws) => !entryOk .module ws | none => false) = true ∧
    (match headWords (moduleState 7 0x41) .module with | some (_, ws) => seqOf ws != 3 | none => false) = true ∧
    (let s := launchState
     served s (.part 1 0) = true ∧ queueWalks s (.part 1 0) aRing = true ∧
       (match headWords s (.part 1 0) with | some (r, ws) => seqOf ws != r.rp | none => false) = true ∧ mget ringPart.vectors 1 = some ⟨64, 2, true, false⟩) ∧
    (let s := ringState (0x00 * 2 ^ 24)
     served s (.part 1 0) = true ∧ queueTurn s (.part 1 0) = true ∧
       (match headWords s (.part 1 0) with | some (r, ws) => seqOf ws == r.rp && canStart s (.part 1 0) r ws && entryOk (.part 1 0) ws | none => false) = true) ∧
    (let s := ringState (0x99 * 2 ^ 24)
     queueTurn s (.part 1 0) = true ∧
       (match headWords s (.part 1 0) with | some (r, ws) => seqOf ws == r.rp && canStart s (.part 1 0) r ws && !entryOk (.part 1 0) ws | none => false) = true) ∧
    (let s := launchState
     let r : Ring := { aRing with stopped := true, restart := true }
     ringOf s (.part 1 2) = some r ∧ served s (.part 1 2) = true ∧ r.started = []) ∧
    (let s : State := { State.reset with modCompl := [(lrep 8 1, true)], modCwp := 1023 }
     s.modCompl = (lrep 8 1, true) :: [] ∧ count32 s.modCrp s.modCwp < 1024 ∧ (lrep 8 (1 : Word)).length = 8) ∧
    (let s : State := { launchState with parts := [(1, { ringPart with rings := [(0, aRing)] })] }
     served s (.part 1 0) = true ∧ queueWalks s (.part 1 0) aRing = true ∧
       (match headWords s (.part 1 0) with | some (r, ws) => seqOf ws != r.rp | none => false) = true ∧ mget [(0, aRing)] 21 = none) ∧
    (overState.part? 1 = some overPart ∧ served overState (.part 1 0) = true ∧ queueWalks overState (.part 1 0) aRing = true ∧
      (match headWords overState (.part 1 0) with | some (r, ws) => seqOf ws == 7 && r == aRing | none => false) = true ∧
      mget overPart.rings 21 = some hostRing ∧ count32 hostRing.rp hostRing.wp < hostRing.size ∧ overPart.compl = [] ∧
      walksFree overState (coreEnv overState 1).tlb 1 [wordOf (hostRing.va + hostRing.wp % hostRing.size * 64)] = true ∧
      (postEntry overState 1 hostRing (complWords 0 4 0 7 0 0)).isSome = true) ∧
    (postEntry hostState 1 hostRing (lrep 8 1)).isSome = true ∧
    (1024 ≤ count32 0 1024) ∧ hostPart.reset = none ∧ isOverrun (complWords 0 4 0 7 0 0) = true ∧ isOverrun (lrep 8 1) = false ∧
    walksFree hostState (coreEnv hostState 1).tlb 1 [wordOf (hostRing.va + hostRing.wp % hostRing.size * 64)] = true ∧
    (hostState.part? 1 = some hostPart ∧ hostPart.compl = (lrep 8 1, true) :: [] ∧ mget hostPart.rings 21 = some hostRing ∧
      count32 hostRing.rp hostRing.wp < hostRing.size ∧ ((0x301000 : Nat) + 8 ≤ 0x300080 ∨ 0x300080 + 64 ≤ (0x301000 : Nat))) ∧
    (∀ j < 64, ∃ y, access hostState (coreEnv hostState 1).tlb 1 1 ⟨false, true, tData⟩ (wordOf (hostRing.va + hostRing.wp % hostRing.size * 64) + wordOf j) 1 = .ok y ∧
      y.place = .host (0x300080 + j) ∧ y.typ = 6) ∧
    (∃ y, access hostState (coreEnv hostState 1).tlb 1 1 ⟨false, true, tData⟩ (wordOf hostRing.ptrs) 8 = .ok y ∧ y.place = .host 0x301000 ∧ y.typ = 6) := by
  have h := any_pass (f := fun y => y.place == .host 0x301000 && y.typ == 6)
    (e := access hostState (coreEnv hostState 1).tlb 1 1 ⟨false, true, tData⟩ (wordOf hostRing.ptrs) 8) (by decide +kernel)
  simp only [Bool.and_eq_true, beq_iff_eq] at h
  refine ⟨?_, ?_, ?_, ?_, ?_, ?_, ?_, ?_, ?_, ?_, ?_, ⟨?_, ?_, ?_, ?_, ?_, ?_, ?_, ?_, over_posts⟩, host_posts, ?_, ?_, ?_, ?_, ?_, ?_, host_entry, h⟩
  all_goals repeat' apply And.intro
  all_goals first | decide +kernel | rfl

theorem mask_low : maskClusters (anEntry 1 0 0 0 2 15) = [0] := by decide +kernel
theorem mask_high : maskClusters (anEntry 0 0 0 (2 ^ 63) 2 15) = [255] := by decide +kernel

theorem witness_PartitionsMadeAndDestroyed : (withTask aTask).alarm.level < 2 ∧ mhas (withTask aTask).parts 1 = true ∧ mhas (withTask aTask).parts 15 = false ∧
    (anEntry 1 0 0 0 2 15).w6.getLsbD 4 = false ∧ (∃ y ∈ (withTask aTask).parts, ∃ c ∈ y.2.clusters, c ∈ maskClusters (anEntry 1 0 0 0 2 15)) ∧
    (∀ y ∈ (withTask aTask).parts, ∀ c ∈ y.2.clusters, c ∉ maskClusters (anEntry 0 0 0 (2 ^ 63) 2 15)) ∧
    chooseWays (withTask aTask) (maskClusters (anEntry 0 0 0 (2 ^ 63) 2 15)) 2 = some [(3, [0, 1])] ∧ (withTask aTask).part? 2 = none ∧
    (∃ x, (withTask aTask).part? 1 = some x ∧ x.reset = none ∧ x.swap = none ∧ x.partner = none) := by
  rw [mask_low, mask_high]
  exact ⟨by decide, by decide, by decide, by decide, ⟨(1, aPart), List.mem_singleton.mpr rfl, 0, by decide, by decide⟩, by decide, by decide, rfl,
    ⟨_, rfl, rfl, rfl, rfl⟩⟩
/-! ### A report that fits -/

theorem walkFrom_page (s : State) (pid : Nat) (p : Partition) {v v' : Nat} (h : v / 65536 = v' / 65536) :
    ∀ lv table last, walkFrom s pid p v lv table last = walkFrom s pid p v' lv table last
  | 0, _, _ => rfl
  | lv + 1, table, last => by
    have hi : levelIndex (lv + 1) v = levelIndex (lv + 1) v' := by
      unfold levelIndex
      split <;> simp only [field] <;> omega
    have ho : v % 2 ^ leafShift (lv + 1) / 65536 = v' % 2 ^ leafShift (lv + 1) / 65536 := by
      unfold leafShift
      split <;> omega
    have hp : v % 2 ^ 56 / 65536 = v' % 2 ^ 56 / 65536 := by omega
    unfold walkFrom
    simp only [hi, ho, hp, walkFrom_page s pid p h lv]

/-- A task asks for a report, its nonce in HBM and the area in host memory. -/
def reportState : State :=
  { commitState 0x100 0x600000 0 with
    mem := hostState.mem, parts := [(1, hostPart)], keys := some ⟨[], []⟩, cat := hostState.cat ++ [(1317, ⟨2, 0, 0⟩)] }

theorem report_toNat {j : Nat} (hj : j < 8192) : ((0x600000 : Word) + wordOf j).toNat = 0x600000 + j := window_toNat (by omega)

theorem report_lookup (tlb : Nat) {j : Nat} (hj : j < 8192) : lookup reportState tlb 1 hostPart ((0x600000 : Word) + wordOf j) =
    .ok ⟨1, 96, 6, 0, 0, true, true, false, 21, 0xBD⟩ := by
  have h : walkFrom reportState 1 hostPart 0x600000 4 0 0 = .ok ⟨1, 96, 6, 0, 0, true, true, false, 21, 0xBD⟩ := by decide +kernel
  have hr : hostPart.s1root = some 0 := rfl
  have ht : tlbFind (mgetD reportState.tlbs tlb []) 1 ((0x600000 : Word) + wordOf j) = none := rfl
  simp only [lookup, ht, walk, hr, report_toNat hj, walkFrom_page reportState 1 hostPart (show (0x600000 + j) / 65536 = 0x600000 / 65536 by omega), h]


theorem checkPage_host (s : State) (p : Partition) (lv : Nat) (va : Word) (t : TlbEntry) (w : Window) (h6 : t.typ = 6) (hs : t.sup = false)
    (hw : t.w = true) (hp : mget p.outwin t.win = some w) (hf : ¬(w.size < t.out + va.toNat % 65536 + 1)) :
    checkPage s p lv askStore va 1 t = .ok ⟨.host (w.base + (t.out + va.toNat % 65536)), 6, t.out + va.toNat % 65536, t.pte⟩ := by
  have hr : askStore.r = false := rfl
  have hc : 6 ∈ askStore.types := by decide
  simp [checkPage, h6, hs, hw, hp, hf, hr, hc]

theorem access_of {s : State} {tlb pid lv : Nat} {ask : Ask} {va : Word} {p : Partition} {t : TlbEntry} (hc : isCanonical va = true)
    (hp : mget s.parts pid = some p) (hl : lookup s tlb pid p va = .ok t) : access s tlb pid lv ask va 1 = checkPage s p lv ask va 1 t := by
  simp [access, hc, hp, hl, Nat.mod_one]

theorem report_page (tlb lv j : Nat) (hj : j < 8192) : ∃ y, access reportState tlb 1 lv askStore (0x600000 + wordOf j) 1 = .ok y := by
  have hp : mget reportState.parts 1 = some hostPart := rfl
  have hc := checkPage_host reportState hostPart lv (0x600000 + wordOf j) ⟨1, 96, 6, 0, 0, true, true, false, 21, 0xBD⟩ ⟨0x300000, 0x200000, 0⟩ rfl rfl rfl
    rfl (by rw [report_toNat hj]; show ¬(0x200000 < 0 + (0x600000 + j) % 65536 + 1); omega)
  exact ⟨_, (access_of (window_canonical (by omega)) hp (report_lookup tlb hj)).trans hc⟩

theorem report_runs : ∀ n ≤ 8192, ∃ rs, runsOf reportState 0 aTask askStore 0x600000 n = some rs
  | 0, _ => ⟨_, rfl⟩
  | n + 1, h => by
    obtain ⟨rs, hr⟩ := report_runs n (by omega)
    obtain ⟨y, hy⟩ := report_page (dieOf 0 * 256 + seTlb (seOf 0)) aTask.level n (by omega)
    have ha : taskAccess reportState 0 aTask askStore (0x600000 + wordOf n) 1 = .ok y := hy
    exact ⟨_, by rw [runsOf, hr, ha]⟩

theorem witness_SystemForms_report : Turn reportState 0 0 aTask 0x100 0x600000 0 ∧ reportState.ready 6 0 = true ∧ reportState.alarm.erased = false ∧
    reportState.keys = some ⟨[], []⟩ ∧ (∃ ns, runsOf reportState 0 aTask askLoad 0x100 32 = some ns) ∧
    (∃ rs, runsOf reportState 0 aTask askStore 0x600000 8192 = some rs) ∧ runsOf reportState 0 aTask askLoad 0x400000000000 32 = none :=
  ⟨⟨rfl, rfl, rfl, rfl⟩, by decide, rfl, rfl, Option.isSome_iff_exists.mp (by decide +kernel), report_runs 8192 (Nat.le_refl _), by decide +kernel⟩

/-- Two partners of the same clusters, of which partition 1 is resident; and both in a swap. -/
def outPart : Partition := { aPart with partner := some 2, vectors := [(4, ⟨64, 1, false, false⟩)] }
def innPart : Partition := { aPart with partner := some 1, resident := false, vectors := [(4, ⟨64, 2, false, false⟩)] }
def aCmd : CmdRef := ⟨.module, 5, 9, true⟩
def swapState (x y : Option SwapState) : State :=
  { State.reset with parts := [(1, { outPart with swap := x }), (2, { innPart with swap := y })], time := 12000
                     modq := ⟨0, 10, 0, 0, 0, false, false, [⟨5, []⟩], []⟩ }

/-- A reset of `hostPart` that has one entry to post; and a swap whose incoming partner has a result in its log. -/
def resetPart : Partition := { hostPart with reset := some ⟨none, true⟩, compl := [(lrep 8 0, false)], vectors := [(3, ⟨64, 2, true, false⟩)] }
def resetState : State := { hostState with parts := [(1, resetPart)] }
def loggedOp : Op := { anOp (.regs 0 1) (.land [5] 0 false) with ptn := 2 }
def loggedState : State :=
  let w : SwapState := ⟨2, true, 0, true, aCmd⟩
  { swapState (some w) (some ⟨1, false, 0, false, aCmd⟩) with
    saved := [(2, ⟨Fabric.empty, [], [loggedOp], []⟩)], launches := [(1, { aLaunch with ptn := 2 })]
    fab := { Fabric.empty with tasks := [(0, { aTask with ptn := 2 })] } }

theorem reset_posts : (postEntry resetState 1 hostRing (lrep 8 0)).isSome = true :=
  posts (x := resetPart) rfl rfl rfl (by decide) (by decide) (by decide +kernel) (by decide +kernel) rfl (by decide)

theorem witness_SwapReplays : loggedState.part? 1 = some { outPart with swap := some ⟨2, true, 0, true, aCmd⟩ } ∧
    loggedState.part? 2 = some { innPart with swap := some ⟨1, false, 0, false, aCmd⟩ } ∧
    mgetD loggedState.saved 2 Saved.empty = ⟨Fabric.empty, [], [loggedOp], []⟩ ∧ (mgetD loggedState.saved 1 Saved.empty).bad = [] ∧
    stale loggedState loggedOp = false ∧ (∀ x ∈ loggedState.ops, x.id ≠ loggedOp.id) ∧ scanning loggedState loggedOp.id = false ∧
    unitRuns loggedState loggedOp.id = false ∧ loggedState.task? 0 = some { aTask with ptn := 2 } ∧ aTask.launch = loggedOp.launch ∧
    tileFenced loggedState (seTile (seOf 0)) = false := by
  repeat' apply And.intro
  all_goals first | decide +kernel | rfl

theorem witness_ResetsAndSwaps :
    ((withTask aTask).part? ((anEntry 1 0 0 0 0 0).w1.toNat % 16) = some aPart ∧ mayReset (.part 2 20) 1 = false ∧ mayReset .module 1 = true ∧
      mayReset (.part 1 20) 1 = true) ∧
    (let x : Partition := { aPart with reset := some ⟨none, false⟩ }
     let s : State := { State.reset with parts := [(1, x)] }
     s.part? 1 = some x ∧ x.reset = some ⟨none, false⟩ ∧ x.reset.isSome = true ∧ ∀ o ∈ s.ops, o.ptn = 1 → stale s o = false) ∧
    (resetState.part? 1 = some resetPart ∧ resetPart.reset = some ⟨none, true⟩ ∧ resetPart.compl = [(lrep 8 0, false)] ∧ mget resetPart.rings 21 = some hostRing ∧
       count32 hostRing.rp hostRing.wp < hostRing.size ∧ (postEntry resetState 1 hostRing (lrep 8 0)).isSome = true ∧
       walksFree resetState (coreEnv resetState 1).tlb 1 [wordOf (hostRing.va + hostRing.wp % hostRing.size * 64)] = true ∧
       mget resetPart.vectors 3 = some ⟨64, 2, true, false⟩) ∧
    ((swapState none none).part? ((anEntry 1 2 0 0 0 0).w1.toNat % 16) = some outPart ∧
      (swapState none none).part? ((anEntry 1 2 0 0 0 0).w2.toNat % 16) = some innPart ∧ swapOk outPart innPart 2 = true ∧ swapOk innPart outPart 1 = false) ∧
    (let w : SwapState := ⟨2, true, 0, false, aCmd⟩
     let s := swapState (some w) (some ⟨1, false, 0, false, aCmd⟩)
     s.part? 1 = some { outPart with swap := some w } ∧ allAnswered s 1 = true ∧ w.since + 12000 ≤ s.time ∧
       w.other ≠ 1) ∧
    (let w : SwapState := ⟨2, true, 0, true, aCmd⟩
     let y : SwapState := ⟨1, false, 0, false, aCmd⟩
     let s : State := { swapState (some w) (some y) with saved := [(2, ⟨Fabric.empty, [], [], [3]⟩)], launches := [(1, { aLaunch with ptn := 2 })] }
     s.part? 1 = some { outPart with swap := some w } ∧ s.part? w.other = some { innPart with swap := some y } ∧ w.other ≠ 1 ∧ w.cmd.q = .module ∧
       isStarted s .module 5 = true ∧ (∃ u, mget outPart.vectors 4 = some u ∧ u.mask = false) ∧ (∃ v, mget innPart.vectors 4 = some v ∧ v.mask = false) ∧
       (mgetD s.saved 1 Saved.empty).bad = [] ∧ mget s.launches 1 = some { aLaunch with ptn := 2 } ∧ 3 ∈ (mgetD s.saved 2 Saved.empty).bad ∧
       ∀ d ∈ (mgetD s.saved 2 Saved.empty).bad, 3 ≤ d) ∧
    (let v : Vector64 := ⟨64, 2, true, false⟩
     ∃ u, mget ({ innPart with vectors := [(4, v)] } : Partition).vectors 4 = some u ∧ u.mask = true) :=
  ⟨⟨rfl, by decide, by decide, by decide⟩, ⟨rfl, rfl, rfl, fun _ h => by cases h⟩,
   ⟨rfl, rfl, rfl, rfl, by decide, reset_posts, by decide +kernel, rfl⟩, ⟨rfl, rfl, by decide, by decide⟩,
   ⟨rfl, by decide, by decide, by decide⟩,
   ⟨rfl, rfl, by decide, rfl, by decide, ⟨_, rfl, rfl⟩, ⟨_, rfl, rfl⟩, rfl, rfl, by decide, by decide⟩, ⟨_, rfl, rfl⟩⟩

/-- Each item of PSET at the ends of its index, with values that are accepted and that are not. -/
theorem witness_PartitionSettings : (launchState.part? 1 = some ringPart ∧ ∀ l ∈ launchState.launches, l.2.ptn ≠ 1) ∧
    (¬∀ l ∈ (withTask aTask).launches, l.2.ptn ≠ 1) ∧
    (field (0x3F0101 : Word).toNat 7 4 = 0 ∧ (0x3F0101 : Word).toNat < 2 ^ 24 ∧ field (0x3F0101 : Word).toNat 23 16 = 63) ∧
    ((0xFFFFFFFF0000 : Word).toNat % 65536 = 0 ∧ (0xFFFFFFFF0000 : Word).toNat < 2 ^ 48) ∧ ¬(0x8000 : Word).toNat % 65536 = 0 ∧
    (rangeOk launchState 1 ⟨0x400000, 0x17FFFE00000, 0x200000⟩ = true ∧ rangeOk launchState 1 ⟨0, 0, 0⟩ = true ∧
      rangeOk launchState 1 ⟨0x400000, 0x18000000000, 0x200000⟩ = false) ∧
    (6 ≤ (6 : Word).toNat ∧ (0x1000 : Word).toNat % (64 * 2 ^ (6 : Word).toNat) = 0 ∧ inWindow0 ringPart 0x1000 (64 * 2 ^ 6) = true ∧
      inWindow0 ringPart 0xFFFF0 16 = true ∧ inWindow0 ringPart 0xFFFF8 16 = false) ∧
    (∃ v, mget mailPart.vectors 6 = some v ∧ v.pending = false) ∧
    (∃ v, mget ({ mailPart with vectors := [(6, ⟨64, 1, true, true⟩)] } : Partition).vectors 6 = some v ∧ v.pending = true) :=
  ⟨⟨rfl, fun _ h => by cases h⟩, by decide, by decide, by decide, by decide, by decide +kernel, by decide +kernel, ⟨_, rfl, rfl⟩, ⟨_, rfl, rfl⟩⟩

/-- Addresses inside and outside the windows, offsets at the ends of the owner window's stored ranges. -/
theorem witness_HostAccesses : hostReaches launchState = true ∧
    (launchState.speakers.headD launchState.record.owner = launchState.record.owner ∧ launchState.ownerVec.data < 2 ^ 32) ∧
    ¬(({ launchState with speakers := [7] } : State).speakers.headD launchState.record.owner = launchState.record.owner) ∧ (∃ r, ringOf launchState (.part 1 0) = some r) ∧ (∃ r, ringOf launchState (.part 1 21) = some r) ∧
    (0x10000 ≤ 0x1FFF8 ∧ 0x1FFF8 < 0x20000 ∧ 0x1FFF8 % 8 = 0) ∧ (0x80000 ≤ 0xFFFF8 ∧ 0xFFFF8 < 0x100000 ∧ 0xFFFF8 % 8 = 0) ∧
    windowAt launchState 0x200100 8 = some (1, 0x100) ∧ windowAt launchState 0x2FFFFC 8 = none ∧ (0xFFFF8 + 8 ≤ 0x100000) ∧ (0x100000 < 0x2FFFFC + 8) ∧
    (launchState.modq.stopped = false) ∧ ({ launchState with modq := { launchState.modq with stopped := true } } : State).modq.rp = (0 : BitVec 32).toNat :=
  ⟨by decide, by decide, by decide, ⟨_, rfl⟩, ⟨_, rfl⟩, by decide, by decide, by decide, by decide, by decide, by decide, rfl, rfl⟩

/-- A region as the only one of partition 1. -/
def regionState (g : Region) : State := withRegion (withTask aTask) g

/-- An ARM of n for context 0 of the region, on its way. -/
def armOp (n : Nat) : Op := { anOp .nowhere (.arm 0 0 n 5 0 1) with target := .region 0 }

/-- A running phase whose context has nothing left: the phase can end. -/
def endRegion : Region := { aRegion.setCtx 0 { Ctx.blank with status := .resident, arm := 1, route := some 5 } with cur := some 0, waiting := false, phase := true }
/-- A region whose selector waits for context 2. -/
def wakeRegion : Region := aRegion.setCtx 2 { Ctx.blank with status := .resident, arm := 1, entry := [⟨⟨0, 0x7F, 3⟩, false, 0⟩] }

theorem witness_ArmsAndPhases :
    (let s : State := { regionState endRegion with ops := [armOp 0xFFFFFFFE] }
     s.op? 7 = some (armOp 0xFFFFFFFE) ∧ performable s (armOp 0xFFFFFFFE) = true ∧ partRuns s 1 = true ∧ s.region? 0 = some endRegion ∧
       endRegion.oldCtx ≠ some 0 ∧ (endRegion.ctx 0).resident = true ∧ (endRegion.ctx 0).arm + 0xFFFFFFFE < 2 ^ 32 ∧
       2 ^ 32 ≤ (endRegion.ctx 0).arm + 0xFFFFFFFF ∧ (endRegion.ctx 1).resident = false ∧ (0 : Nat) < endRegion.ctxs.length ∧
       2 ^ 32 ≤ ((({ endRegion with pends := [⟨1, 0, 1, none, none⟩] } : Region).pends.find? fun p => p.ctx == 1).map (·.count)).getD 0 + (endRegion.ctx 1).arm + 0xFFFFFFFF) ∧
    (let s := regionState endRegion
     regionRuns s endRegion = true ∧ endRegion.waiting = false ∧ phaseEnds s 0 endRegion 0 = true ∧ (endRegion.ctx 0).disarm = false ∧
       (endRegion.ctx 0).release = false ∧ (endRegion.ctx 0).unload = false ∧
       (∀ j, j ≠ 0 → (endRegion.ctx j).release = false ∧ (endRegion.ctx j).unload = false) ∧ endRegion.phase = true ∧ (endRegion.ctx 0).arm = 1) ∧
    (regionRuns (regionState wakeRegion) wakeRegion = true ∧ wakeRegion.waiting = true ∧ wakeRegion.mayWake = true ∧ wakeRegion.count = true ∧
      wakeRegion.select.cur = some 2 ∧ wakeRegion.select.waiting = false) ∧ (∀ j < 4, aRegion.candidate j = false) ∧
    (let g : Region := { wakeRegion with count := false, named := 2, named0 := false }
     g.count = false ∧ g.named0 = false ∧ g.candidate g.named = true) := by
  refine ⟨by decide +kernel, ⟨by decide, rfl, by decide +kernel, rfl, rfl, rfl, ?_, rfl, rfl⟩, by decide +kernel, by decide +kernel, by decide +kernel⟩
  intro j _
  match j with
  | 0 => exact ⟨rfl, rfl⟩
  | 1 => exact ⟨rfl, rfl⟩
  | 2 => exact ⟨rfl, rfl⟩
  | 3 => exact ⟨rfl, rfl⟩
  | _ + 4 => exact ⟨rfl, rfl⟩

/-- A circuit that leaves the module by Novey port 3, with a token that reaches its end at time t. -/
def leavingCircuit (t : Nat) : Circuit :=
  ⟨⟨0, 0, some 0, [], [2], 5, some 3, none⟩, [(⟨⟨0, 0x7F, 9⟩, false, 0⟩, t)], [], [], [], false, none⟩

/-- The region of `runRegion` between phases, with VABS in lane 0 of C-tiles 0 and 1, which read west, an AGR
that reads the entry queue, a token in the first VABS's output, and one past the join of the link from C-tile 0 to C-tile 1. -/
def moveCtx : Ctx :=
  { Ctx.blank with
    status := .resident, arm := 1, entry := [⟨⟨0, 0x7F, 3⟩, false, 0⟩]
    elems := [(0, 0x1633000000000000 * 2 ^ 64 + 0x4000C00000000000), (16, 0x1633000000000000 * 2 ^ 64 + 0x4000000000000000),
      (1056, 0x60 * 2 ^ 120 + 7 * 2 ^ 60)]
    links := [(4, ⟨[], [], [], [(1, [⟨⟨0, 0x7F, 3⟩, false, 0⟩])], 0⟩)]
    circs := [(0, leavingCircuit 7), (1, leavingCircuit 8)]
    es := [(0, { ElemSt.init with outq := [(0, ⟨⟨0, 0x7F, 3⟩, false, 0⟩)] })] }
def moveRegion : Region := { aRegion.setCtx 0 moveCtx with cur := some 0, waiting := false }

theorem witness_TokensMove : (regionState moveRegion).region? 0 = some moveRegion ∧ regionRuns (regionState moveRegion) moveRegion = true ∧
    moveRegion.active 0 = true ∧ moveRegion.cur = some 0 ∧ moveRegion.waiting = false ∧ moveRegion.phase = false ∧ (moveRegion.ctx 0).arm ≠ 0 ∧
    (moveRegion.ctx 0).entry = ⟨⟨0, 0x7F, 3⟩, false, 0⟩ :: [] ∧ moveRegion.oldCtx = none ∧ (moveRegion.ctx 0).wireRoom .entry = true ∧
    (moveOut (makerOf (regionState moveRegion) (posTile 0 moveRegion 0 0)) moveRegion 0 0).isSome = true ∧
    (mgetD ((moveRegion.ctx 0).link 4).split 1 []) = ⟨⟨0, 0x7F, 3⟩, false, 0⟩ :: [] ∧ moveRegion.cuts = [] ∧
    (match (moveRegion.ctx 0).linkWire moveRegion 4 0 with | some x => (moveRegion.ctx 0).wireRoom x | none => false) = true ∧
    (let s : State := { regionState moveRegion with time := 7 }
     s.region? 0 = some moveRegion ∧ regionRuns s moveRegion = true ∧ mget (moveRegion.ctx 0).circs 0 = some (leavingCircuit 7) ∧
       (moveCircuit s 0 0 0).isSome = true ∧ (leavingCircuit 7).path.dest = none ∧ 7 ≤ s.time ∧
       mget (moveRegion.ctx 0).circs 1 = some (leavingCircuit 8) ∧ (leavingCircuit 8).wait = [] ∧ s.time < 8) := by
  repeat' apply And.intro
  all_goals first | decide +kernel | rfl

/-! ### Witnesses: elements, units and tiles -/

/-- Context 0 of region 0 in its phase, with one word at a position, tokens at its inputs, and its bank. -/
def elemRegion (pos word : Nat) (lat : Map Stok) (st : ElemSt) : Region :=
  { aRegion.setCtx 0 { Ctx.blank with status := .resident, arm := 1, elems := [(pos, word)], lat := lat, es := [(pos, st)] } with
    cur := some 0, waiting := false, phase := true }
/-- The state in which that element has its turn. -/
def elemState (pos word : Nat) (lat : Map Stok) (st : ElemSt) : State :=
  { regionState (elemRegion pos word lat st) with cur := .elem 0 0 pos }
/-- What it sees. -/
def elemSees (pos word : Nat) (lat : Map Stok) (st : ElemSt) : ElemIn :=
  elemInput (elemState pos word lat st) 0 (elemRegion pos word lat st) 0 pos (cfgOf word)
/-- DATA, and another token, in a latch. -/
def aStok (n : Nat) : Stok := ⟨⟨0, 0x7F, BitVec.ofNat 256 n⟩, false, 0⟩
def stokOf (t : Token) : Stok := ⟨t, false, 0⟩

/-- An operation of lane 0 of C-tile 0 on n32 with A, B, C and P from the sides, to the predicate network. -/
def laneWord (eop selb selc selp : Nat) : Nat :=
  eop * 2 ^ 120 + 6 * 2 ^ 116 + 6 * 2 ^ 112 + 1 * 2 ^ 60 + selb * 2 ^ 56 + selc * 2 ^ 52 + selp * 2 ^ 48 + 0xC0 * 2 ^ 40

theorem elemTurn_of {pos word : Nat} {lat : Map Stok} {st : ElemSt}
    (h : elemRuns (elemState pos word lat st) 0 (elemRegion pos word lat st) 0 pos = true)
    (hq : (((elemRegion pos word lat st).ctx 0).bank pos).outq = []) :
    ElemTurn (elemState pos word lat st) 0 0 pos (elemRegion pos word lat st) := ⟨rfl, rfl, h, hq⟩

theorem witness_ElementFrame :
    (let lat : Map Stok := [(0, aStok 3), (1, aStok 5)]
     ElemTurn (elemState 0 (laneWord 0x10 2 0 0) lat .init) 0 0 0 (elemRegion 0 (laneWord 0x10 2 0 0) lat .init) ∧
       (elemSees 0 (laneWord 0x10 2 0 0) lat .init).full = [] ∧ (elemSees 0 (laneWord 0x10 2 0 0) lat .init).namedOf [0, 1, 2, 3] = [0, 1]) ∧
    (elemSees 0 (laneWord 0x10 2 0 0) [(0, aStok 3)] .init).tok 1 = none ∧
    (let x := elemSees 0 (laneWord 0x10 2 0 0) [(0, aStok 3), (1, stokOf ⟨2, 0, 7⟩)] .init
     firstPoison x.who (x.toks [0, 1]) = some ⟨2, 0, 7⟩) ∧
    (let x := elemSees 0 (laneWord 0x10 2 0 0) [(0, stokOf (stopTok 7)), (1, stokOf (stopTok 7))] .init
     x.toks [0, 1] = [stopTok 7, stopTok 7] ∧ (stopTok 7).cls = .stop 7 ∧ firstPoison x.who (x.toks [0, 1]) = none) ∧
    (let x := elemSees 0 (laneWord 0x10 2 0 0) [(0, aStok 3), (1, stokOf nullTok)] .init
     x.toks [0, 1] = [(aStok 3).tok, nullTok] ∧ nullTok.cls = .null ∧ x.carried = []) ∧
    (let x := elemSees 0 (laneWord 0x10 2 0 0) [(0, aStok 3), (1, stokOf (stopTok 1))] .init
     (x.tok 0).map Token.stopLevel ≠ (x.tok 1).map Token.stopLevel ∧ x.carried = []) ∧
    (let x := elemSees 0 (laneWord 0x10 2 0 3) [(0, aStok 3), (1, aStok 5), (3, aStok 2)] .init
     x.p = some (aStok 2).tok ∧ x.c.selp ≠ 0 ∧ x.decision (aStok 2).tok = false ∧ x.full = []) :=
  ⟨⟨elemTurn_of (by decide +kernel) rfl, by decide +kernel, by decide⟩, by decide, by decide +kernel, by decide +kernel, by decide +kernel,
   by decide +kernel, by decide +kernel⟩

/-- Every named input of an element holds a token, by which the statements on results are met. -/
theorem elemReady {x : ElemIn} (hf : x.full = []) (h0 : x.HasData 0) (h1 : x.sel 1 ≠ 0 → x.HasData 1) (h2 : x.sel 2 ≠ 0 → x.HasData 2)
    (h3 : x.sel 3 ≠ 0 → x.HasData 3) (hp : ∀ t, x.p = some t → x.c.selp ≠ 0 → x.decision t = true) : x.Ready :=
  ⟨hf, h0, fun i hi hs => match i, hi, hs with
    | 0, _, _ => h0 | 1, _, hs => h1 hs | 2, _, hs => h2 hs | 3, _, hs => h3 hs, hp⟩

/-- Forms of one to three inputs, one with a predicate and one that takes its scale with SCO. -/
theorem witness_LaneResults :
    (let lat : Map Stok := [(0, aStok 3), (1, aStok 5), (2, aStok 7), (3, aStok 1)]
     ElemTurn (elemState 0 (laneWord 0x13 2 3 4) lat .init) 0 0 0 (elemRegion 0 (laneWord 0x13 2 3 4) lat .init) ∧
       (elemSees 0 (laneWord 0x13 2 3 4) lat .init).Ready) ∧
    (let x := elemSees 0 (laneWord 0x16 0 0 0) [(0, aStok 3)] .init
     x.Ready ∧ x.b = none ∧ x.cc = none ∧ x.ifm ≠ 15 ∧ x.sco = false ∧ ∃ a, x.a = some a ∧ 0 ≤ (a.scl.toNat : Int) + x.imm) ∧
    (let x := elemSees 0 (laneWord 0x20 0 0 0 + 2 ^ 13) [(0, aStok 3)] .init
     x.Ready ∧ x.sco = true ∧ ∃ a, x.a = some a) :=
  ⟨⟨elemTurn_of (by decide +kernel) rfl,
     elemReady (by decide +kernel) ⟨_, rfl, rfl⟩ (fun _ => ⟨_, rfl, rfl⟩) (fun _ => ⟨_, rfl, rfl⟩) (fun _ => ⟨_, rfl, rfl⟩)
       (fun t h _ => by cases h; decide)⟩,
   ⟨elemReady (by decide +kernel) ⟨_, rfl, rfl⟩ (fun h => absurd rfl h) (fun h => absurd rfl h) (fun h => absurd rfl h) (fun _ h => by cases h),
     rfl, rfl, by decide, by decide, ⟨_, rfl, by decide⟩⟩,
   ⟨elemReady (by decide +kernel) ⟨_, rfl, rfl⟩ (fun h => absurd rfl h) (fun h => absurd rfl h) (fun h => absurd rfl h) (fun _ h => by cases h), by decide, ⟨_, rfl⟩⟩⟩

/-- A bank of registers. -/
def bankOf (regs : List Nat) (toks : List Stok) : ElemSt := { ElemSt.init with regs := regs, toks := toks }

/-- Data on A, B and P; NULLs; STOPs that close; counters at and before their ends. -/
theorem witness_RouterOperators :
    (let lat : Map Stok := [(0, aStok 3), (1, aStok 5), (3, aStok 1)]
     let w := laneWord 0x40 2 0 4 + 1 * 2 ^ 21
     ElemTurn (elemState 0 w lat .init) 0 0 0 (elemRegion 0 w lat .init) ∧
       let x := elemSees 0 w lat .init
       x.full = [] ∧ x.a = some (aStok 3).tok ∧ x.b = some (aStok 5).tok ∧ x.p = some (aStok 1).tok ∧ (aStok 3).tok.cls = .data ∧
         x.decision (aStok 1).tok = true ∧ x.decision (aStok 2).tok = false ∧ x.st.reg 0 = 0 ∧ padDepth x = 0 ∧ x.closes 1 = true ∧
         x.st.poison = none ∧ w ≠ 0 ∧ (cfgOf w).sela ≠ 0 ∧ x.carried = []) ∧
    (let x := elemSees 0 (laneWord 0x43 2 0 4 + 2 ^ 21) [(1, stokOf (stopTok 1)), (3, stokOf (stopTok 1))] (bankOf [1, 2] [])
     x.full = [] ∧ x.st.reg 0 = 1 ∧ x.b = some (stopTok 1) ∧ x.p = some (stopTok 1) ∧ x.closes 1 = true ∧ 3 ∉ x.carried ∧ 1 ∉ x.carried) ∧
    (let x := elemSees 0 (laneWord 0x4B 0 0 0 + 2) [] (bankOf [] [aStok 3, aStok 5])
     x.full = [] ∧ x.a = none ∧ padDepth x = 2 ∧ x.st.toks = aStok 3 :: [aStok 5]) ∧
    (let x := elemSees 0 (laneWord 0x4A 2 0 0 + 2 ^ 18 + 9) [(0, aStok 3)] .init
     jnSteps x = [0, 1] ∧ x.tok (lget (jnSteps x) (x.st.reg 0) 0) = some (aStok 3).tok) ∧
    (let x := elemSees 0 (laneWord 0x4C 0 0 0) [] (bankOf [1, 9, 0] [])
     x.full = [] ∧ x.st.reg 0 = 1 ∧ x.st.reg 1 ≠ 0) :=
  ⟨⟨elemTurn_of (by decide +kernel) rfl, by decide +kernel⟩, by decide +kernel, by decide +kernel, by decide +kernel, by decide +kernel⟩

/-- A, B and C with data; a side token; the last group of a matrix; a closing STOP. -/
theorem witness_AccumulateAndConvert :
    (let lat : Map Stok := [(0, aStok 3), (1, aStok 5), (2, aStok 7)]
     let w := laneWord 0x54 2 3 0
     ElemTurn (elemState 0 w lat .init) 0 0 0 (elemRegion 0 w lat .init) ∧ (elemSees 0 w lat .init).Ready ∧
       (elemSees 0 w lat .init).cc = some (aStok 7).tok ∧ (elemSees 0 w lat .init).dsts ≠ [] ∧ (cfgOf w).side = 0 ∧ (elemSees 0 w lat .init).st.side = none) ∧
    (let w := laneWord 0x50 2 0 0
     let x := elemSees 0 w [(0, aStok 3), (1, aStok 5)] (bankOf [3, 0, 0, 0, 0] [])
     x.Ready ∧ x.HasData 1 ∧ (cfgOf w).selc = 0 ∧ x.cc = none ∧ (cfgOf w).sela ≠ 0 ∧ (cfgOf w).selb ≠ 0 ∧ x.ifm ≠ 11 ∧ x.st.toks = [] ∧ x.st.reg 0 = 3) ∧
    (let w := laneWord 0x50 2 0 0
     let x := elemSees 0 w [(0, aStok 3), (1, aStok 5)] .init
     x.Ready ∧ x.st.reg 0 = 0 ∧ x.st.toks = [] ∧ x.st.regs = [] ∧ x.b = some (aStok 5).tok) ∧
    (let w := laneWord 0x22 0 0 0 + 2 ^ 21
     let x := elemSees 0 w [(0, stokOf (stopTok 1))] .init
     x.full = [] ∧ x.a = some (stopTok 1) ∧ x.closes 1 = true ∧ x.st.poison = none ∧ 0 ∉ x.carried ∧ (cfgOf w).selp = 0) ∧
    (let w := laneWord 0x30 2 0 0 + 2 ^ 102
     let x := elemSees 0 w [(0, aStok 3), (1, aStok 5)] .init
     x.Ready ∧ (cfgOf w).side = 1 ∧ x.st.sideIn = false ∧ x.b = some (aStok 5).tok ∧ (aStok 5).tok.cls = .data) ∧
    (let x := elemSees 0 (laneWord 0x51 0 0 0) [(0, aStok 3)] (bankOf [0, 0, 0, 0, 0] [aStok 1, aStok 1, aStok 1, aStok 1])
     x.Ready ∧ x.b = none ∧ x.cc = none ∧ (mmawOf x.st).want = false) ∧
    (let x := elemSees 0 (laneWord 0x53 0 0 0) [(0, aStok 3)] (bankOf [1] [])
     x.Ready ∧ x.st.regs ≠ []) :=
  ⟨⟨elemTurn_of (by decide +kernel) rfl,
     elemReady (by decide +kernel) ⟨_, rfl, rfl⟩ (fun _ => ⟨_, rfl, rfl⟩) (fun _ => ⟨_, rfl, rfl⟩) (fun h => absurd rfl h) (fun _ h => by cases h),
     rfl, by decide, by decide, rfl⟩,
   ⟨elemReady (by decide +kernel) ⟨_, rfl, rfl⟩ (fun _ => ⟨_, rfl, rfl⟩) (fun h => absurd rfl h) (fun h => absurd rfl h) (fun _ h => by cases h),
     ⟨_, rfl, rfl⟩, by decide, rfl, by decide, by decide, by decide, rfl, rfl⟩,
   ⟨elemReady (by decide +kernel) ⟨_, rfl, rfl⟩ (fun _ => ⟨_, rfl, rfl⟩) (fun h => absurd rfl h) (fun h => absurd rfl h) (fun _ h => by cases h),
     rfl, rfl, rfl, rfl⟩,
   by decide +kernel,
   ⟨elemReady (by decide +kernel) ⟨_, rfl, rfl⟩ (fun _ => ⟨_, rfl, rfl⟩) (fun h => absurd rfl h) (fun h => absurd rfl h) (fun _ h => by cases h),
     by decide, rfl, rfl, by decide⟩,
   ⟨elemReady (by decide +kernel) ⟨_, rfl, rfl⟩ (fun h => absurd rfl h) (fun h => absurd rfl h) (fun h => absurd rfl h) (fun _ h => by cases h),
     rfl, rfl, by decide⟩,
   ⟨elemReady (by decide +kernel) ⟨_, rfl, rfl⟩ (fun h => absurd rfl h) (fun h => absurd rfl h) (fun h => absurd rfl h) (fun _ h => by cases h),
     by decide⟩⟩

/-- A Folio of two nodes: SHA of input port 0, and NRW of node 0; node 0 has a token at its input. -/
def twoNodes : Folio := ⟨[wordOf (0 * 2 ^ 60 + 0x800 * 2 ^ 44 + 0xFFF * 2 ^ 32), wordOf (3 * 2 ^ 60 + 0x000 * 2 ^ 44 + 4 * 2 ^ 38)], [0, 0], 1, 1, [], 0x1000⟩
def nodeRegion (lat : Map Stok) : Region :=
  { aRegion.setCtx 0 { Ctx.blank with status := .resident, arm := 1, lat := lat, folio := some twoNodes } with cur := some 0, waiting := false, phase := true }
def nodeState (m : Nat) (lat : Map Stok) : State := { regionState (nodeRegion lat) with cur := .elem 0 0 (2048 + m) }

theorem witness_FolioNodes :
    (let lat : Map Stok := [(2048 * 4, aStok 3)]
     NodeTurn (nodeState 0 lat) 0 0 0 (nodeRegion lat) twoNodes ∧
       let v := nodeInput (nodeState 0 lat) 0 (nodeRegion lat) 0 0 twoNodes ⟨0, 0, 0x800, 0⟩
       v.room = true ∧ v.ins = [0] ∧ v.x.tok 0 = some (aStok 3).tok ∧ (aStok 3).tok.cls = .data) ∧
    (let v := nodeInput (nodeState 0 []) 0 (nodeRegion []) 0 0 twoNodes ⟨0, 0, 0x800, 0⟩
     v.room = true ∧ ∃ j ∈ v.ins, v.x.tok j = none) ∧
    (let lat : Map Stok := [(2048 * 4, stokOf ⟨2, 0, 7⟩)]
     let v := nodeInput (nodeState 0 lat) 0 (nodeRegion lat) 0 0 twoNodes ⟨0, 0, 0x800, 0⟩
     v.room = true ∧ firstPoison v.x.who (v.x.toks v.ins) = some ⟨2, 0, 7⟩) ∧
    (let lat : Map Stok := [(2048 * 4, stokOf nullTok)]
     let v := nodeInput (nodeState 0 lat) 0 (nodeRegion lat) 0 0 twoNodes ⟨0, 0, 0x800, 0⟩
     v.room = true ∧ ∀ j ∈ v.ins, v.x.tok j = some nullTok) := by
  repeat' apply And.intro
  all_goals first | decide +kernel | rfl

/-- The AGR and the AGW of M-tile 0, which walk from 0x1000 and hold the translation of its page. -/
def agPage : TlbEntry := ⟨1, 0, 0, 0, 0, true, true, false, 21, 0xB1⟩
def agWord (w : Nat) : Nat := (0x60 + w) * 2 ^ 120 + 6 * 2 ^ 116 + 6 * 2 ^ 112 + 5 * 2 ^ 60
def agBank (base : Nat) (active last : Bool) : ElemSt :=
  { ElemSt.init with ag := { AgState.init with active := active, last := last, desc := BitVec.ofNat 256 base, cnt := lrep 6 0 } }
def agState (w : Nat) (lat : Map Stok) (st : ElemSt) : State :=
  let s := paged [] (elemState (1056 + w) (agWord w) lat st)
  { s with agtlbs := [(2, [agPage]), (3, [agPage])] }
def agHere (w : Nat) (lat : Map Stok) (st : ElemSt) (f : AgEnv → State → Bool) : Bool :=
  match agTurn (cfgOf (agWord w)) (w == 1) (agState w lat st) with
  | some e => f e (agState w lat st)
  | none => false

/-- A latch, a slot and a word of an M-tile's bank with an uncorrectable error. -/
def badLink : Region :=
  { aRegion.setCtx 0 { moveCtx with links := [(4, ⟨[aStok 3], [0], [], [], 0⟩)] } with cur := some 0, waiting := false }
def ownHere (f : AgEnv → State → Bool) : Bool :=
  let g := elemRegion 1056 (agWord 0) [] (agBank 0x40 true false)
  let c := g.ctx 0
  let s := (paged [] (elemState 1056 (agWord 0) [] (agBank 0x40 true false))).setRegion 0
    (g.setCtx 0 { c with elems := mset c.elems (rolePos 0) (0x62 * 2 ^ 120) })
  let s := { s with fab := { s.fab with smarks := natRange 0 8192 } }
  match agTurn (cfgOf (agWord 0)) false s with
  | some e => f e s
  | none => false
theorem witness_TokensMove_errors :
    (let c := { (elemRegion 0 (laneWord 0x40 2 0 4) [(1, aStok 5)] .init).ctx 0 with spoilt := [1] }
     mget c.lat (0 * 4 + 1) = some (aStok 5) ∧ 0 * 4 + 1 ∈ c.spoilt) ∧
    (let c := badLink.ctx 0
     (c.link 4).split = [] ∧ (c.link 4).slots = aStok 3 :: [] ∧ 0 ∈ (c.link 4).bad ∧ c.laneReady badLink 4 = true ∧ c.laneTurn badLink 4 = true) ∧
    ownHere (fun e s => !e.hasP && e.a.queue.isEmpty && e.mayAccess s &&
      (match e.place s 32 with | .own off => s.fab.bankMarked (e.sramKey off) 32 | _ => false)) = true := by
  repeat' apply And.intro
  all_goals first | decide +kernel | rfl

/-- Pairs at a joiner's inputs; heads that can be read and that cannot; a batch of 64; and AGs at each step of a walk. -/
theorem witness_StreamElements :
    (let lat : Map Stok := [(2048, aStok 3), (2049, aStok 5)]
     let w := laneWord 0x6A 2 0 0
     ElemTurn (elemState 512 w lat .init) 0 0 512 (elemRegion 512 w lat .init) ∧ (elemSees 512 w lat .init).full = [] ∧
       (elemSees 512 w lat .init).a = some (aStok 3).tok ∧ (elemSees 512 w lat .init).b = some (aStok 5).tok ∧
       (joinerOf (elemSees 512 w lat .init).st).qa = [] ∧ (joinerOf (bankOf [1, 0, 0, 0, 0, 0, 5] [])).qa = [5] ∧
       (joinerOf (bankOf [1, 0, 0, 0, 0, 0, 5] [])).qb = []) ∧
    (let st := bankOf [0] []
     let g := elemRegion 512 (laneWord 0x68 0 0 0) [(2048, aStok 0x200000)] st
     let s := paged [] (elemState 512 (laneWord 0x68 0 0 0) [(2048, aStok 0x200000)] st)
     ElemTurn s 0 0 512 g ∧ (g.ctx 0).destFree g 512 0 = true ∧ ((g.ctx 0).bank 512).reg 0 ≠ 1 ∧ ((g.ctx 0).bank 512).reg 2 ≠ 1 ∧
       (let x := (g.ctx 0).seen (makerOf s (posTile 0 g 0 512)) 512
        x.latch 512 0 = some (aStok 0x200000).tok ∧ x.bank 512 = (g.ctx 0).bank 512) ∧ elemHead s 0 g (g.ctx 0) false 0x200000 = some ⟨.mem 0x200000, 1, 0x200000, 0x2000B3⟩ ∧
       elemHead s 0 g (g.ctx 0) true 0x200000 = some ⟨.mem 0x200000, 1, 0x200000, 0x2000B3⟩ ∧ elemHead s 0 g (g.ctx 0) false 0x400000 = none) ∧
    ((bankOf [1, 0x200000, 0, 0] []).reg 0 = 1 ∧ ((bankOf ([1, 0x200000, 0, 0] ++ lrep 60 1) []).regs.drop 4 ++ tokenPairs (aStok 5).tok).length = 64 ∧
      ((bankOf [1, 0x200000, 0, 0] []).regs.drop 4 ++ tokenPairs (aStok 5).tok).length < 64) ∧
    agHere 0 [(1056 * 4, aStok 0x1000)] (agBank 0 false false) (fun e _ => !e.hasP && e.a.queue.isEmpty && !e.a.active && e.mayBegin &&
      e.tok 0 == some (aStok 0x1000).tok) = true ∧
    agHere 0 [] (agBank 0x1000 true false) (fun e s => e.mayAccess s && e.a.due.isEmpty && eopOf e.role != eopCbnk && eopOf e.role != eopMbuf &&
      eopOf e.role != eopLbuf && e.virtual s 0x1000 32 == .page ⟨.mem 0x1000, 0, 0x1000, 0xB1⟩ && agAddr e.w e.a == 0x1000) = true ∧
    agHere 1 [(1057 * 4 + 1, aStok 9)] (agBank 0x1001 true false) (fun e s => e.mayAccess s && e.tok 1 == some (aStok 9).tok &&
      e.virtual s 0x1001 32 == .bad ⟨4, 0x1001, 0⟩) = true ∧
    agHere 1 [] (agBank 0x1000 true true) (fun e _ => e.a.active && e.a.last && e.a.due.isEmpty && e.free 0) = true ∧
    isCanonical (2 ^ 55) = false :=
  ⟨⟨elemTurn_of (by decide +kernel) rfl, by decide +kernel, rfl, rfl, rfl, rfl, rfl⟩,
   ⟨⟨rfl, rfl, by decide +kernel, rfl⟩, by decide +kernel, by decide, by decide, ⟨rfl, rfl⟩, by decide +kernel, by decide +kernel, by decide +kernel⟩,
   by decide, by decide +kernel, by decide +kernel, by decide +kernel, by decide +kernel, by decide⟩

/-- Near-bank unit 5 of partition 1 with requests of each kind, and a run whose node has its operands. -/
def unitOp (code : Nat) (ws : List Word) : Op := { anOp .nowhere (.nearBank code 5 9 ws) with target := .unit 5 }
def aUnit : NbUnit := ⟨some (lrep 16 0xB000000000000000), [(0, 0x1000), (1, 7)], [], [], some ⟨7, 1⟩, [], 0⟩
def unitTurn (x : NbUnit) : State := { launchState with nb := [(5, x)], cur := .node 5 0 }

theorem witness_NearBankNodes :
    (let s : State := { withTask aTask with ops := [unitOp nLoad (lrep 16 0)], nextId := 8 }
     (s.unit 5).running = none ∧ nearRequest s 5 nLoad = some (unitOp nLoad (lrep 16 0))) ∧
    (let s : State := { withTask aTask with ops := [unitOp nGo []], nextId := 8, nb := [(5, { aUnit with running := none })] }
     (s.unit 5).running = none ∧ nearRequest s 5 nGo = some (unitOp nGo []) ∧ (s.unit 5).graph.isSome = true) ∧
    (let s : State := { withTask aTask with ops := [unitOp nGo []], nextId := 8 }
     (s.unit 5).running = none ∧ nearRequest s 5 nGo = some (unitOp nGo []) ∧ (s.unit 5).graph = none) ∧
    (let n : NbNode := ⟨0, 9, 1, 1, 0, 0, 0, 0, 0, 0⟩
     match nodeTurn (unitTurn aUnit) with
     | some e => e.free n = true ∧ e.arc 0 = some 0x1000 ∧ e.operands n = some (0x1000, 7) ∧ mget e.x.cnts e.k = none ∧
         ∃ p, (unitTurn aUnit).part? e.run.ptn = some p ∧ p.units[(0 : Nat)]? = some 5 ∧ p.units[(1 : Nat)]? = none
     | none => False) ∧
    (match nodeTurn (unitTurn { aUnit with cnts := [(0, 3, 2)], mbox := [4], wake := 1 }) with
     | some e => mget e.x.cnts e.k = some (3, 2) ∧ mhas e.x.cnts e.k = true ∧ e.x.mbox = 4 :: [] ∧ bitAt e.x.wake e.k = true
     | none => False) ∧
    (let u := shelverOf 0x1000 * 4 + Config.bankGroup 512 % 4
     unitHolds launchState u 1 0x1000 = true ∧ unitHolds launchState u 1 0x1007 = true) ∧ unitHolds launchState 5 1 0x400000 = false := by
  have h (n g : Nat) (hn : (inHbm n && shelverOf n == shelverOf 0x1000 && n / 8 == g && (match launchState.part? 1 with
      | some p => p.ranges.any fun r => decide (r.2.pa ≤ n) && decide (n < r.2.pa + r.2.len)
      | none => false)) = true) : unitHolds launchState (shelverOf 0x1000 * 4 + Config.bankGroup g % 4) 1 n = true := by
    simp only [Bool.and_eq_true, beq_iff_eq] at hn
    obtain ⟨⟨⟨h1, h2⟩, h3⟩, h4⟩ := hn
    have h5 : (shelverOf 0x1000 * 4 + Config.bankGroup g % 4) / 4 = shelverOf 0x1000 := by omega
    have h6 : (shelverOf 0x1000 * 4 + Config.bankGroup g % 4) % 4 = Config.bankGroup g % 4 := by omega
    simp only [unitHolds, h1, h2, h3, h5, h6, beq_self_eq_true, Bool.and_self, Bool.true_and]
    exact h4
  refine
  ⟨⟨rfl, by decide⟩, ⟨rfl, by decide, rfl⟩, ⟨rfl, by decide, rfl⟩, ⟨by decide, by decide, by decide, by decide, _, rfl, rfl, rfl⟩,
   ⟨by decide, by decide, by decide, by decide⟩, ⟨h _ _ (by decide +kernel), h _ _ (by decide +kernel)⟩, by decide +kernel⟩

/-- A request of a code to the shelver of 0x200000, with operands b and c, a mode and a batch. -/
def fibreOp (code : Nat) (b c : Word) (mode : Nat) (batch : List Word) : Op :=
  { anOp .nowhere (.fibre code 0x200000 0x200000 1 b c mode 21 batch [] false) with target := .shelver (shelverOf 0x200000) }
/-- The page of 0x200000 granted to partition 1, an empty fibre of n32 at 0x200000, and 0x200040 free. -/
def fibrePart : Partition := { pagedPart with pages := [⟨0x200000, 0x200000, 21⟩] }
def fibreState (ops : List Op) (x : Shelver) : State :=
  { withTask aTask with mem := [(0x200001, 2), (0x200002, 1), (0x200004, 1)], parts := [(1, fibrePart)], ops, nextId := 8, shelvers := [(shelverOf 0x200000, x)] }
def aShelver : Shelver := ⟨[(1, [0x200040])], [(1, 0x200000)], [], [], []⟩
def aScan : Scan := ⟨7, 1, 0x200000, none, 0, none, 0, 0, false, 1, 0, none, [], [], false⟩

theorem witness_FibreOperations :
    (let o := fibreOp fGrant 0 0 0 []
     let s : State := { fibreState [o] aShelver with parts := [(1, pagedPart)] }
     s.op? 7 = some o ∧ performable s o = true ∧ s.part? o.ptn = some pagedPart ∧
       (match reqOf o fGrant with
        | some q => q.typ = 1 ∧ q.va % 2 ^ 21 = 0 ∧ alreadyGranted pagedPart ⟨q.va, q.pa, q.stpl⟩ = false ∧ alreadyGranted fibrePart ⟨q.va, q.pa, q.stpl⟩ = true
        | none => False)) ∧
    (let o := fibreOp fNew 2 0 0 []
     (reqOf o fNew).isSome = true ∧ (grantOf fibrePart 0x200000).isSome = true ∧ grantOf pagedPart 0x200000 = none ∧ vfmtKnown ((2 : Word).toNat % 256) = true ∧
       vfmtKnown ((3 : Word).toNat % 256) = false ∧ (aShelver.pool 1) = 0x200040 :: [] ∧ ({ aShelver with free := [] } : Shelver).pool 1 = []) ∧
    (match reqOf (fibreOp fPrb 5 0 0 []) fPrb with
     | some q => headRefusal (fibreState [] aShelver) q = none ∧ headRefusal (fibreState [] { aShelver with heads := [] }) q = some 4 ∧
         (walkSegs (fibreState [] aShelver) fibrePart (some 5) (segCount fibrePart) q.va).2.1 = true ∧
         (walkSegs (fibreState [] aShelver) fibrePart none (segCount fibrePart) q.va).2.1 = true
     | none => False) ∧
    (match reqOf (fibreOp fMrg 0 2 0 [3, 5]) fMrg with
     | some q0 =>
       let q := q0.load (fibreState [] aShelver)
       headRefusal (fibreState [] aShelver) q = none ∧ q.mode < 16 ∧ headRefusal (fibreState [] { aShelver with heads := [] }) q = some 4 ∧
         (walkSegs (fibreState [] aShelver) fibrePart (some 5) (segCount fibrePart) q.va).2.1 = true ∧ mergeModeOk 2 (q.mode % 8) = true ∧ mergeModeOk 2 7 = false ∧
         q.c.toNat = (q.batch.map pairOf).length ∧ batchOk 2 (q.batch.map pairOf) = true ∧ batchOk 2 ([5, 3].map pairOf) = false
     | none => False) ∧
    ((reqOf (fibreOp fDel 0 0 0 []) fDel).isSome = true ∧ (1, 0x200000) ∈ ((fibreState [] aShelver).shelver (shelverOf 0x200000)).heads ∧
      (segPa fibrePart 0x200000).isSome = true) ∧
    ((reqOf (fibreOp fScn 0 0 0 []) fScn).isSome = true ∧ scanning (fibreState [fibreOp fScn 0 0 0 []] aShelver) 7 = false ∧
      aShelver.scans.length < 32 ∧ aShelver.waiting = [] ∧ (lrep 32 aScan).length = 32) ∧
    (let o : Op := { fibreOp fScn 0 0 0 [] with dest := .chan 5 }
     let x : Shelver := { aShelver with scans := [aScan] }
     let s := fibreState [o] x
     (s.shelvers.find? fun y => y.2.scans.any fun z => z.opid == 7) = some (shelverOf 0x200000, x) ∧ s.shelver (shelverOf 0x200000) = x ∧
       x.scans.find? (fun z => z.opid == 7) = some aScan ∧ s.op? 7 = some o ∧ stale s o = false ∧ onFabric s o.ptn = true ∧
       s.part? o.ptn = some fibrePart ∧ aScan.emit = [] ∧ scanEmitted s aScan o = true ∧ o.dest = .chan 5 ∧ x.waiting = [] ∧
       (scanFind s fibrePart (shelverOf 0x200000) aScan).1 = .finish ∧
       (scanFind { s with mem := (0x200000, 1) :: s.mem ++ [(0x200010, 5)] } fibrePart (shelverOf 0x200000) aScan).1 = .pairs [(5, 0)] 0x200000 0 ∧
       (scanFind { s with shelvers := [] } fibrePart (shelverOf 0x200000) aScan).1 = .refused 4) := by
  repeat' apply And.intro
  all_goals first | decide +kernel | rfl

/-- A request to Concordance tree 0, and a tree of the root and one node with a reference. -/
def treeOp (k : Nat) (a b c : Word) : Op := { anOp .nowhere (.tree k a b c) with target := .tree 0 }
def treeState (t : Tree) (o : Op) : State := { paged [0x10001000000, 0x1040, 9, 64] (withTask aTask) with trees := [(0, t)], ops := [o], nextId := 8 }
def aTree : Tree := ⟨1, 12, 2, 16, none, 0, [(0, ⟨0, 0, 12, 0, 0, 0, 0, 0, 0, 1, 0⟩), (1, ⟨1, 0, 5, 1, 4, 0x1040, 64, 1, 0, 0, 0⟩)], 0⟩

theorem witness_ConcordanceOperations :
    (let o := treeOp tGet 0 (2 ^ 40 + 2 ^ 24 + 1) 0
     let s := treeState aTree o
     s.op? 7 = some o ∧ performable s o = true ∧ o.target = .tree 0 ∧ mget s.trees 0 = some aTree ∧ aTree.ptn = o.ptn ∧
       (∀ t, mget s.trees 1 = some t → t.ptn ≠ o.ptn) ∧
       mget aTree.nodes (field (2 ^ 40 + 2 ^ 24 + 1 : Word).toNat 63 40) = some ⟨1, 0, 5, 1, 4, 0x1040, 64, 1, 0, 0, 0⟩ ∧
       field (2 ^ 40 + 2 ^ 24 + 1 : Word).toNat 39 24 = 1 ∧ field (2 ^ 41 : Word).toNat 63 40 ≠ 1 ∧ mget aTree.nodes 2 = none) ∧
    ((3 : Word).toNat % 8 ≠ 0 ∧ (8 : Word).toNat % 8 = 0 ∧ (1 : Word).toNat < aTree.g) ∧
    (let o := treeOp tInsert 0 0x1000 0
     let s := treeState aTree o
     chunkWords (engEnv o 0) (serve s o) 0x1000 4 = some [0x10001000000, 0x1040, 9, 64] ∧
       liveNode aTree 0x10001000000 = some (1, ⟨1, 0, 5, 1, 4, 0x1040, 64, 1, 0, 0, 0⟩) ∧ liveNode aTree 0x40000000000 = none ∧
       chunkWords (engEnv o 0) (serve s o) 0x1040 2 = some [0, 0] ∧ childOf aTree 1 (foldHash 5 [0, 0]) = none ∧ freeSlot aTree = some 2) :=
  ⟨⟨rfl, by decide +kernel, rfl, rfl, rfl, (fun _ h => by cases h), by decide, by decide, by decide, rfl⟩, by decide, by decide +kernel⟩

/-- A state whose units are there, at the end of period 5, with a word on its way. -/
def gridState (w : CtrlWord) (tiles : Map Tile) : State :=
  { State.reset with cat := [(0, ⟨2, 0, 0⟩)], time := 6 * 65536, ctrl := [w], nextId := 8, tiles := tiles }
/-- A tile that has sent its heartbeats and holds y of its neighbour to the east. -/
def aTile (y : Neigh) : Tile := ⟨0, 6, 6, [(1, y)], [], 0, [], false, false, [], [], [], [], none⟩

theorem witness_TilesFenced :
    beatDue { gridState (aWord .host (.core 0) 2 0) [] with bootPeriod := 6 } 5 = true ∧
    (let w := aWord (.tile 1) (.tile 0) 2 (6 * 2 ^ 32)
     let s := gridState w []
     s.word? 7 = some w ∧ wordArrives s w = true ∧ sideTo 0 1 = some 1 ∧ (s.tile 0).beats = true) ∧
    (let y : Neigh := ⟨0, some 4, [(5, 0)], 5, 0, 0, false, 0, 0⟩
     let s := gridState (aWord .host (.core 0) 2 0) [(0, aTile y), (1, aTile y)]
     gridNeigh 0 1 = some 1 ∧ powered s = true ∧ (s.tile 0).beats = true ∧ s.neighOf 0 1 = y ∧ y.period < s.time / 65536 ∧ y.period < (s.tile 1).beat ∧
       y.finding (packetsOf s 1) = .clean ∧ present (mapAt s 0) 1 = [2, 65, 0]) ∧
    ((⟨0, some 4, [], 5, 0, 0, false, 0, 0⟩ : Neigh).finding 131072 = .missing ∧ (⟨0, some 4, [(4, 0)], 5, 0, 0, false, 0, 0⟩ : Neigh).finding 131072 = .babbling 2 ∧
      (⟨0, some 4, [(5, 0), (6, 0), (7, 0)], 5, 0, 0, false, 0, 0⟩ : Neigh).finding 131072 = .babbling 1 ∧
      (⟨0, some (2 ^ 32 - 1), [(0, 0), (1, 2)], 5, 0, 0, false, 0, 0⟩ : Neigh).finding 131072 = .clean ∧
      (⟨0, some 4, [(5, 0)], 5, 0, 0, false, 0, 0⟩ : Neigh).finding 131073 = .babbling 3) ∧
    (let w := aWord (.tile 2) (.hops [0]) 5 (fenceVote 0 1 2 0)
     let s := gridState w []
     voteSubject 0 w.payload = 1 ∧ voteVoter 0 w.payload = 2 ∧ sideTo 0 1 = some 1 ∧
       (match fenceWordAt s 7 0 with | some (_, .here 0) => true | _ => false) = true ∧ babbles (s.dropWord 7) 0 2 = false ∧
       babbles ({ s with tiles := [(0, { aTile .init with votes := [(2, [(65, 1)])] })] } : State) 0 2 = true ∧
       (s.neighOf 0 1).fenced = false ∧ isMajority (mapAt s 0) 1 2 = true ∧ isMajority (mapAt s 0) 1 1 = false) ∧
    (let w := aWord (.tile 2) (.hops [0]) 5 (fenceVote 1 1 2 0)
     (match fenceWordAt (gridState w []) 7 1 with | some (_, .here 0) => true | _ => false) = true ∧ ((gridState w []).neighOf 0 1).fenced = false ∧
       (1, 2) ∈ (({ gridState w [] with tiles := [(0, { aTile .init with withdrawn := [(1, 2)] })] } : State).tile 0).withdrawn) ∧
    (let w := aWord (.tile 2) (.hops [0]) 5 (fenceVote 2 1 2 0)
     (match fenceWordAt (gridState w []) 7 2 with | some (_, .here 0) => true | _ => false) = true) ∧
    (let w := aWord (.tile 2) (.core 0) 6 1
     let s := gridState w []
     s.word? 7 = some w ∧ wordArrives s w = true ∧ w.payload.toNat = 1 ∧ 1 ∉ s.placement ∧ 1 ∈ ({ s with placement := [1] } : State).placement) ∧
    (let x : Tile := { aTile .init with hst := 1, passes := 1 }
     x.off = false ∧ x.silent = false ∧ x.hst = 1 ∧ (aTile .init).hst = 0 ∧ ({ aTile .init with wakeTest := [3] } : Tile).wakeTest ≠ []) ∧
    (let s := gridState (aWord .host (.core 0) 2 0) [(0, aTile ⟨2, some 4, [], 5, 0, 16, true, 16, 0⟩)]
     appealed s 1 = [(3, 0)]) ∧
    (let w := aWord (.tile 0) (.core 0) 5 (fenceVote 3 1 0 0)
     let v := { aWord (.tile 2) (.core 0) 5 (fenceVote 3 1 2 0) with id := 6 }
     let s : State := { gridState w [] with ctrl := [w, v], placement := [1] }
     reinstateWords s 1 = [w, v] ∧ 1 ∈ s.placement ∧
       isMajority s.placement 1 (((((reinstateWords s 1).map fun w => voteVoter 0 w.payload).filter fun v => (present s.placement 1).contains v).eraseDups).length) = true) ∧
    (let w := aWord (.core 0) (.tile 0) 5 (fenceVote 3 1 0 0)
     (gridState w []).word? 7 = some w ∧ wordArrives (gridState w []) w = true ∧ voteSubject 0 w.payload = 1 ∧ sideTo 0 1 = some 1) := by
  repeat' apply And.intro
  all_goals first | decide +kernel | rfl

theorem witness_ModuleEvents :
    (let s : State := { State.reset with cat := [(0, ⟨2, 0, 0⟩), (1, ⟨1, 0, 0⟩)] }
     powered s = true ∧ powered State.reset = false ∧ s.alarm.level < 2 ∧ s.alarm.log.length < 64 ∧ (lrep 64 (0 : Nat)).length = 64 ∧
       1 < kindCount 1 ∧ mhas s.cat (catIndex 1 1) = true ∧ s.ready 1 1 = false ∧ s.ready 1 0 = true ∧ s.parts = []) ∧
    (withTask aTask).parts ≠ [] ∧
    (let s : State := { State.reset with cat := [(0, ⟨2, 0, 0⟩)], time := 2 ^ 46, alarm := { State.reset.alarm with level := 3, latchA3 := true } }
     powered s = true ∧ s.alarm.level = 3 ∧ mgetD s.scrubs 11 0 + 2 ^ 46 ≤ s.time) ∧
    (let s : State := { State.reset with cat := [(0, ⟨2, 0, 0⟩)], time := 9, alarm := { State.reset.alarm with level := 2, came := 9 } }
     powered s = true ∧ s.alarm.came = s.time ∧ s.alarm.prior < 2 ∧ 2 ≤ s.alarm.level) ∧
    ((facingPtile (0 * 256 + 64)).isSome = true ∧ facingPtile (0 * 256 + 0) = none) ∧
    (powered launchState = true ∧ hostReaches launchState = true) :=
  ⟨by decide, by decide, by decide, by decide, by decide, by decide⟩

/-- Context 2 of the region is staged for a switch with context 0 at time 100. -/
def switchRegion (bad : Option Nat) (fetching : Bool) : Region :=
  let g := endRegion.setCtx 2 { Ctx.blank with status := .staged, image := 0x1000, fetching := fetching, fetchBad := bad, elems := [(0, 2 ^ 124)] }
  { g with switches := [⟨100, 0, 2, false⟩] }
def switchState (g : Region) : State :=
  { paged goodImage (regionState g) with time := 100, images := [(aLaunch.image, { anImage with ctxs := [⟨0, 1, 0x1000, false, 0⟩] })] }

theorem witness_ContextsSwitch :
    (let g := switchRegion none true
     (switchState g).region? 0 = some g ∧ regionRuns (switchState g) g = true ∧ (g.ctx 2).status = .staged ∧ (g.ctx 2).fetching = true ∧
       2 < g.ctxs.length ∧ fetchWalks (switchState g) 0 g (g.ctx 2) = true ∧ (g.ctx 2).elems ≠ [] ∧ (g.ctx 2).arm = 0 ∧ switchDue { switchState g with time := 99 } g 2 = false) ∧
    (let g : Region := { endRegion with pends := [⟨1, 0x1000, 1, none, none⟩] }
     let s := switchState g
     s.region? 0 = some g ∧ (g.pends.find? fun p => p.ctx == 1) = some ⟨1, 0x1000, 1, none, none⟩ ∧ (g.ctx 1).isFree = true ∧ fetchesFirst s 0 1 g = true ∧
       imageCtxs s g 0 1 = [⟨0, 1, 0x1000, false, 0⟩] ∧ (loadParts (s.outside 0 g) (fetchWords s 0 g.ptn) [⟨0, 1, 0x1000, false, 0⟩] g).isSome = true ∧
       walksFree s (elemTlb 0) g.ptn [wordOf 0x1000] = true) ∧
    (let w := aWord (.task 0) (.region 0) 4 (2 ^ 17)
     let s : State := { regionState endRegion with ctrl := [w], nextId := 8 }
     s.word? 7 = some w ∧ wordArrives s w = true ∧ partRuns s w.ptn = true ∧ s.region? 0 = some endRegion) ∧
    ((0 : Nat) < 2 ^ 48 ∧ 2 ^ 48 ≤ 0 + 2 ^ 48) ∧
    (let g := switchRegion none false
     (switchState g).region? 0 = some g ∧ regionRuns (switchState g) g = true ∧ g.oldCtx = none ∧
       g.dueSwitch (switchState g).time = some ⟨100, 0, 2, false⟩ ∧ switchCause (switchState g) 0 g 2 = none ∧ (g.ctx 0).resident = true ∧ g.pends = []) ∧
    (let g := switchRegion (some 3) false
     switchCause (switchState g) 0 g 2 = some (2, 3) ∧ (g.ctx 0).route = some 5) ∧
    (let g : Region := { endRegion with oldCtx := some 2 }
     (switchState g).region? 0 = some g ∧ regionRuns (switchState g) g = true ∧ oldDone (switchState g) 0 g 2 = true ∧ 2 < g.ctxs.length ∧ g.dueSwitch (switchState g).time = none) ∧
    (let g : Region := { switchRegion none false with switches := [⟨100, 0, 2, true⟩] }
     g.dueSwitch (switchState g).time = none ∧ g.switches.find? (·.passed) = some ⟨100, 0, 2, true⟩ ∧ regionRuns (switchState g) g = true) ∧
    (let g : Region := { switchRegion none false with oldCtx := some 1 }
     g.dueSwitch (switchState g).time = some ⟨100, 0, 2, false⟩ ∧ switchCause (switchState g) 0 g 2 = none ∧ g.oldCtx ≠ none) := by
  repeat' apply And.intro
  all_goals first | decide +kernel | rfl

/-- The VABS of `moveRegion`, idle for 64 cycles and without a token at its input. -/
def moveLane : State := { regionState moveRegion with time := 64 }

theorem witness_GatingStallsPreemption :
    (let s : State := { regionState moveRegion with time := 64 }
     s.region? 0 = some moveRegion ∧ regionRuns s moveRegion = true ∧ (moveRegion.ctx 0).resident = true ∧ (moveRegion.ctx 0).positions.contains 0 = true ∧
       ((moveRegion.ctx 0).bank 0).gated = false ∧ ((moveRegion.ctx 0).bank 0).lastFire + 64 ≤ s.time) ∧
    (let g := elemRegion 0 (laneWord 0x16 0 0 0) [(0, aStok 3)] { ElemSt.init with gated := true }
     ((g.ctx 0).bank 0).gated = true ∧ mhas (g.ctx 0).lat (0 * 4 + 0) = true) ∧
    (let s := elemState 0 (laneWord 0x16 0 0 0) [(0, aStok 3)] .init
     mhas (s.tile (gridTile 0 (0, 1))).gated 3 = false ∧ (s.tile 9).askGate = [] ∧ laneElems s 9 3 = [] ∧
       (laneElems s 0 0).any (elemFed s) = true ∧ (∀ e ∈ laneElems moveLane 0 0, elemFed moveLane e = false ∧ elemIdle moveLane e = true)) ∧
    (let s : State := { State.reset with tiles := [(9, { aTile .init with gated := [(3, some 0)] }), (8, { aTile .init with askGate := [3] })], time := 3600 }
     mget (s.tile 9).gated 3 = some (some 0) ∧ 0 + 3600 ≤ s.time ∧ 3 ∉ (s.tile 9).wakeTest ∧ (s.tile 8).askGate = [3] ∧ laneElems s 8 3 = []) ∧
    (let s : State := { elemState 0 (laneWord 0x16 0 0 0) [(0, aStok 3)] .init with tiles := [(0, { aTile .init with gated := [(0, none)] })] }
     mhas (s.tile 0).gated 0 = true ∧ 0 ∉ (s.tile 0).wakeTest ∧ (laneElems s 0 0).any (elemFed s) = true) ∧
    (let g : Region := { runRegion with stall := 2 ^ 26 }
     (regionState g).region? 0 = some g ∧ 2 ^ 26 ≤ g.stall ∧ stallRuns (regionState g) g = true) ∧
    (let s := withTask aTask
     mget s.launches 1 = some aLaunch ∧ partRuns s aLaunch.ptn = true ∧ aLaunch.state = .running ∧ launchRegions s 1 = []) ∧
    (let l : Launch := { aLaunch with state := .preempting }
     let s : State := { withTask aTask with launches := [(1, l)], time := 24000 }
     mget s.launches 1 = some l ∧ drainDone s 1 = false ∧ l.since + 24000 ≤ s.time ∧
       drainDone { withTask { aTask with state := .halted } with launches := [(1, l)] } 1 = true ∧
       mget ({ s with launches := [(1, { l with state := .saved })] } : State).launches 1 = some { l with state := .saved }) := by
  repeat' apply And.intro
  all_goals first | decide +kernel | rfl

/-- A slot whose word is BR, an element whose word is VABS, a Folio's node, a near-bank node, an event of each kind, and an
agenda with nothing on it, with and without a task that can issue. -/
theorem witness_AStepRunsTheDecodedInstruction :
    (let s := exitState aTask 0x56000002 0 []
     s.task? 0 = some { aTask with blk := some (exitBlock 0) } ∧
       (match decode (s.iword (seOf 0) ((exitBlock 0).head + 4)) with | .ok i => encode i == some 0x56000002 | _ => false) = true) ∧
    (let s := regionState moveRegion
     s.region? 0 = some moveRegion ∧ (∀ n, posKind 0 ≠ .node n) ∧ (decodeElem ((moveRegion.ctx 0).word 0)).isSome = true) ∧
    (posKind 2048 = .node 0 ∧ ((nodeRegion []).ctx 0).folio = some twoNodes ∧ ∃ w, twoNodes.nodes[(0 : Nat)]? = some w ∧ (decodeFolio w.toNat).isSome = true) ∧
    (((unitTurn aUnit).unit 5).graph = some (lrep 16 0xB000000000000000) ∧ (decodeNode (0xB000000000000000 : Word).toNat).isSome = true) ∧
    (Event.phaseEnd 0 ≠ .command .module []) ∧ State.reset.agenda = [] ∧
    ((switchState (switchRegion none false)).agenda = [] ∧ ((dueActors (switchState (switchRegion none false))).find? (canAct (switchState (switchRegion none false)))).isSome = true) ∧
    (issueState.agenda = [] ∧ (∀ a ∈ dueActors issueState, canAct issueState a = false) ∧ ∃ a ∈ actors issueState, a.isLast = false ∧ canAct issueState a = true) :=
  ⟨⟨rfl, by decide +kernel⟩, ⟨rfl, (fun n h => by cases h), by decide +kernel⟩, ⟨rfl, rfl, _, rfl, by decide +kernel⟩, ⟨rfl, by decide +kernel⟩,
   (fun h => by cases h), rfl, ⟨rfl, by decide +kernel⟩, ⟨rfl, by decide +kernel, by decide +kernel⟩⟩

theorem witness_BlockFormsRoundTrip : (Instr.rd .always 5 (.left 1)).fieldsOk = true ∧ encode (.rd .always 5 (.left 1)) = some 0x4C000A41 ∧
    encode (.chbRouteDefault .always (.reg 1)) ≠ none := by decide

theorem witness_BlockWordsRoundTrip : (0x4C000A41 : Nat) < 2 ^ 32 ∧ decode 0x4C000A41 = .ok (.rd .always 5 (.left 1)) ∧
    decode 0 = .error .reservedOpcode ∧ decode (2 ^ 32 - 1) = .error .reservedOpcode ∧ decode 0x03A00042 = .error .reservedPred :=
  ⟨by decide, rfl, rfl, rfl, rfl⟩

set_option exponentiation.threshold 600 in
theorem witness_ConfigurationWordsRoundTrip :
    (decodeElem (0x16 * 2 ^ 120)).bind Sys2Proof.encodeElem = some (0x16 * 2 ^ 120) ∧ (decodeFolio (2 ^ 60)).bind encodeFolio = some (2 ^ 60) ∧
      (decodeNode (12 * 2 ^ 60)).bind encodeNode = some (12 * 2 ^ 60) ∧
      (decodeCmd .module (0x41 * 2 ^ 24 + 9 * 2 ^ 448)).bind encodeCmd = some (0x41 * 2 ^ 24 + 9 * 2 ^ 448) := by decide +kernel

/-- States in canonical form: after reset, and one that steps on, with a write of the host on its way to HBM. -/
def postedState : State := { launchState with agenda := [.event (.hostPostedWrite 0x200102 [7])] }
theorem witness_StepKeepsMemories : State.reset.memoriesOk = true ∧
    postedState.memoriesOk = true ∧ (match step postedState with | .next s => s.memoriesOk && Memory.read s.mem 0x102 == 7 | _ => false) = true := by
  decide +kernel

theorem witness_ContextLoads_taken : (runRegion.ctx 0).isFree = false ∧ folioSlot (runRegion.ctx 0) = false ∧ folioSlot (aRegion.ctx 0) = true := by
  decide +kernel

/-! ### One firing of an element: its inputs and the data that it emits -/

/-- What an operation takes and emits. -/
def fired (f : ElemFn) (x : ElemIn) : Option (List Nat × List (Nat × Nat)) := (f x).map fun d => (d.take, d.outs.map fun o => (o.1, o.2.data.toNat))

theorem test_vadd : fired fireVadd (elemSees 0 (laneWord 0x10 2 0 0 - 3 * (2 ^ 116 + 2 ^ 112)) [(0, aStok (3 + 2 ^ 32 * 7)), (1, aStok (5 + 2 ^ 32 * 0xFFFFFFFF))] .init) =
    some ([0, 1], [(0, 8 + 2 ^ 32 * 6)]) := by decide +kernel
theorem test_vsub_flt : fired fireVsub (elemSees 0 (laneWord 0x11 2 0 0) [(0, aStok 0x40400000), (1, aStok 0x3F800000)] .init) =
    some ([0, 1], [(0, 0x40000000)]) := by decide +kernel
theorem test_vshr : fired fireVshr (elemSees 0 (laneWord 0x1C 2 0 0 - 3 * (2 ^ 116 + 2 ^ 112)) [(0, aStok 0x80000000), (1, aStok 1)] .init) =
    some ([0, 1], [(0, 0x40000000)]) := by decide +kernel
theorem test_vsar : fired fireVsar (elemSees 0 (laneWord 0x1D 2 0 0 - 3 * (2 ^ 116 + 2 ^ 112)) [(0, aStok 0x80000000), (1, aStok 1)] .init) =
    some ([0, 1], [(0, 0xC0000000)]) := by decide +kernel
theorem test_flt_false : fired fireFlt (elemSees 0 (laneWord 0x46 0 0 4) [(0, aStok 3), (3, aStok 2)] .init) = some ([0, 3], []) := by decide +kernel
theorem test_stpg : fired fireStpg (elemSees 0 (laneWord 0x47 0 0 0 + 2 ^ 64 * 2 + 2 ^ 21) [(0, aStok 3)] (bankOf [1] [])) =
    some ([0], [(0, 3), (0, 0)]) := by decide +kernel
theorem test_ngen : fired fireNgen (elemSees 0 (laneWord 0x4C 0 0 0 - 3 * 2 ^ 116 + 3) [] (bankOf [1, 2, 5] [])) =
    some ([], [(0, 5 + 2 ^ 32 * 8)]) := by decide +kernel

/-! ### Witnesses: further forms of the elements -/

/-- A token at a stage of a PAD. -/
def stagedTok (n stage : Nat) : Stok := { aStok n with fold := stage }

/-- A PAD of two and of three stages, with and without a token that comes in, with its oldest token at the last stage and
before it; and a reserved token at a PAD of one stage. -/
theorem witness_RouterOperators_pad :
    (let w := laneWord 0x4B 0 0 0 + 2
     let st := bankOf [] [stagedTok 3 1]
     let x := elemSees 0 w [] st
     ElemTurn (elemState 0 w [] st) 0 0 0 (elemRegion 0 w [] st) ∧ x.full = [] ∧ 2 ≤ padDepth x ∧ x.st.toks = stagedTok 3 1 :: [] ∧
       (stagedTok 3 1).fold + 1 = padDepth x ∧ x.a = none ∧ x.st.toks.Pairwise (fun t u => u.fold < t.fold) ∧
       ∀ t ∈ x.st.toks, 1 ≤ t.fold ∧ t.fold < padDepth x) ∧
    (let w := laneWord 0x4B 0 0 0 + 3
     let st := bankOf [] [stagedTok 3 1]
     let x := elemSees 0 w [(0, aStok 5)] st
     ElemTurn (elemState 0 w [(0, aStok 5)] st) 0 0 0 (elemRegion 0 w [(0, aStok 5)] st) ∧ x.full = [] ∧ 2 ≤ padDepth x ∧
       (∀ t ∈ x.st.toks, t.fold + 1 ≠ padDepth x) ∧ x.st.toks ≠ [] ∧ x.a = some (aStok 5).tok ∧ (aStok 5).tok.cls = .data ∧
       x.st.toks.Pairwise (fun t u => u.fold < t.fold) ∧ ∀ t ∈ x.st.toks, 1 ≤ t.fold ∧ t.fold < padDepth x) ∧
    (let w := laneWord 0x4B 0 0 0 + 3
     let st := bankOf [] [stagedTok 3 2, stagedTok 4 1]
     let x := elemSees 0 w [(0, aStok 5)] st
     ElemTurn (elemState 0 w [(0, aStok 5)] st) 0 0 0 (elemRegion 0 w [(0, aStok 5)] st) ∧ x.full = [] ∧ x.a = some (aStok 5).tok ∧
       x.st.toks.Pairwise (fun t u => u.fold < t.fold) ∧ (stagedTok 3 2).fold + 1 = padDepth x) ∧
    (let w := laneWord 0x4B 0 0 0 + 1
     let x := elemSees 0 w [(0, stokOf ⟨5, 0, 7⟩)] .init
     ElemTurn (elemState 0 w [(0, stokOf ⟨5, 0, 7⟩)] .init) 0 0 0 (elemRegion 0 w [(0, stokOf ⟨5, 0, 7⟩)] .init) ∧ x.full = [] ∧
       x.a = some ⟨5, 0, 7⟩ ∧ (⟨5, 0, 7⟩ : Token).cls = .reserved ∧ padDepth x ≤ 1) :=
  ⟨⟨elemTurn_of (by decide +kernel) rfl, by decide +kernel⟩, ⟨elemTurn_of (by decide +kernel) rfl, by decide +kernel⟩,
   ⟨elemTurn_of (by decide +kernel) rfl, by decide +kernel⟩, ⟨elemTurn_of (by decide +kernel) rfl, by decide +kernel⟩⟩

/-- A STOP and a NULL on C beside DATA; side tokens of each kind; numbers of an SDD and of the online operations that end
in their token and that go on. -/
theorem witness_AccumulateAndConvert_kinds :
    (let w := laneWord 0x50 2 3 0
     let x := elemSees 0 w [(0, aStok 3), (1, aStok 5), (2, stokOf (stopTok 1))] .init
     x.full = [] ∧ x.a = some (aStok 3).tok ∧ x.b = some (aStok 5).tok ∧ x.cc = some (stopTok 1) ∧ (stopTok 1).cls = .stop 1 ∧ x.st.regs = [] ∧
       x.p = none ∧ (cfgOf w).sela ≠ 0 ∧ (cfgOf w).selb ≠ 0 ∧ (cfgOf w).selc ≠ 0 ∧ (cfgOf w).selp = 0) ∧
    (let x := elemSees 0 (laneWord 0x50 2 3 0) [(0, aStok 3), (1, aStok 5), (2, stokOf nullTok)] .init
     x.full = [] ∧ x.cc = some nullTok ∧ nullTok.cls = .null ∧ x.st.regs = [] ∧ x.p = none) ∧
    (let w := laneWord 0x22 0 0 0
     let x := elemSees 0 w [(0, aStok 3)] (bankOf [1, 2, 3, 4, 5, 6, 7, 8] [])
     x.Ready ∧ (cfgOf w).selc = 0 ∧ x.cc = none) ∧
    (let w := laneWord 0x30 2 0 0 + 2 ^ 102
     let x := elemSees 0 w [(0, aStok 3), (1, aStok 4)] .init
     x.b = some (aStok 4).tok ∧ (aStok 4).tok.data.toNat < 256 ∧ (aStok 4).tok.data.toNat % 2 = 0 ∧
       modeOk x (if (4 : Nat) / 2 ^ 6 % 2 = 1 then x.withModes.c.rnd.toNat else 4 / 2 % 8) (if (4 : Nat) / 2 ^ 7 % 2 = 1 then x.withModes.c.satm.toNat else 4 / 2 ^ 4 % 4) = true ∧
       modeOk x 6 0 = false) ∧
    (let x := elemSees 0 (laneWord 0x36 0 0 0) [(0, aStok 9)] .init
     x.Ready ∧ x.a = some (aStok 9).tok ∧ (tokDigits (aStok 9).tok).2 = true ∧ (tokDigits (aStok 1).tok).2 = false ∧ x.st.toks = [] ∧ x.st.regs = [] ∧
       1 < fmtCount x.ofm) ∧
    (let go (n : Nat) (i : Nat) : OnOut :=
       let x := elemSees 0 (laneWord 0x3A 2 0 0 + 3 * 2 ^ 64) [(0, aStok n), (1, aStok n)] .init
       let st : ElemSt := { x.st with toks := [0, 1].filterMap fun j => (x.tok j).map fun t => ⟨t, false, j⟩ }
       let m := (aligned st).2.2
       let c := signedOf 16 x.c.imm.toNat
       let e := (operandOf st 0).scl + ceilLog2 c.natAbs + 1
       if i = 0 then engineOut (Nat.min 254 (m + 2)) (decide (254 < m + 2))
         (engineRun [((aligned st).1, 1), ((aligned st).2.1, 1)] (((Nat.min 254 (m + 2) : Nat) : Int) - m))
       else engineOut (Nat.min 254 e) (decide (254 < e)) (engineRun [(operandOf st 0, c)] (((Nat.min 254 e : Nat) : Int) - (operandOf st 0).scl))
     (go 9 0).done = true ∧ (go 1 0).done = false ∧ (go 9 1).done = true ∧ (go 1 1).done = false) ∧
    (let x := elemSees 0 (laneWord 0x3C 2 0 0) [(0, aStok 9), (1, aStok 11)] .init
     let st : ElemSt := { x.st with toks := [0, 1].filterMap fun j => (x.tok j).map fun t => ⟨t, false, j⟩ }
     x.Ready ∧ x.HasData 1 ∧ x.st.reg 0 = 0 ∧ x.st.toks = [] ∧
       compareGo (aligned st).1 (aligned st).2.1 ((aligned st).1.digits.length + (aligned st).2.1.digits.length + 2) 0 0 = some 1) :=
  ⟨by decide +kernel, by decide +kernel,
   ⟨elemReady (by decide +kernel) ⟨_, rfl, rfl⟩ (fun h => absurd rfl h) (fun h => absurd rfl h) (fun h => absurd rfl h) (fun _ h => by cases h), by decide +kernel⟩,
   by decide +kernel,
   ⟨elemReady (by decide +kernel) ⟨_, rfl, rfl⟩ (fun h => absurd rfl h) (fun h => absurd rfl h) (fun h => absurd rfl h) (fun _ h => by cases h), by decide +kernel⟩,
   by decide +kernel,
   ⟨elemReady (by decide +kernel) ⟨_, rfl, rfl⟩ (fun _ => ⟨_, rfl, rfl⟩) (fun h => absurd rfl h) (fun h => absurd rfl h) (fun _ h => by cases h), ⟨_, rfl, rfl⟩,
     by decide +kernel⟩⟩

/-! ### Witnesses: near-bank nodes, shelvers, tiles and the module -/

/-- A damaged word, and CNT with more than one token to emit, with one and with none, and before its last one. -/
theorem witness_NearBankNodes_counts :
    (let s : State := { launchState with poison := [0x40] }
     s.hbmMarked 0x1000 8 = true ∧ launchState.hbmMarked 0x1000 8 = false ∧ ∀ u n, unitHolds s u 1 n = unitHolds launchState u 1 n) ∧
    (let n (imm : BitVec 32) : NbNode := ⟨0, 9, 1, 1, 0, 0, 0, 0, 0, imm⟩
     match nodeTurn (unitTurn aUnit) with
     | some e => ([0, 1, 2] : List (BitVec 32)).all (fun imm => e.free (n imm)) && mget e.x.cnts e.k == none && decide (1 < (n 2).imm.toNat) &&
         (n 1).imm.toNat == 1 && (n 0).imm.toNat == 0 && e.arc 0 == some 0x1000
     | none => false) = true ∧
    (match nodeTurn (unitTurn { aUnit with cnts := [(0, 3, 1)] }) with
     | some e => mget e.x.cnts e.k == some (3, 1)
     | none => false) = true :=
  ⟨⟨by decide +kernel, by decide +kernel, fun _ _ => rfl⟩, by decide +kernel, by decide +kernel⟩

/-- A fibre of two segments: (3, 1) at 0x200000 and (5, 9) at 0x200040. -/
def twoSegments : State :=
  { fibreState [] { aShelver with free := [] } with
    mem := [(0x200000, 1), (0x200001, 2), (0x200008, 0x40), (0x20000A, 0x20), (0x200010, 3), (0x200014, 1),
            (0x200040, 1), (0x200041, 2), (0x200042, 1), (0x200050, 5), (0x200054, 9)] }
/-- What a merge of a batch finds of a fibre: its segments, and the pairs that each is left with. -/
def mergeSees (s : State) (mode : Nat) (batch : List (Nat × Nat)) : List (Nat × Seg) × List (List (Nat × Nat)) :=
  let w := walkSegs s fibrePart (some (batch.foldr (fun x m => Nat.max x.1 m) 0)) (segCount fibrePart) 0x200000
  (w.1, (placeBatch (chainFmt w.1) (mode % 8) (bitAt mode 3) w.1 batch).1)

/-- Pairs in order; NEW in a page that is granted and that is not of type FIBRE; merges that fit, that split a segment,
with and without a free one, and that empty one. -/
theorem witness_FibreOperations_merges :
    (Rising [(3, 1), (5, 2)] ∧ Rising [(4, 1)]) ∧
    (match reqOf (fibreOp fNew 2 0 0 []) fNew, reqOf { fibreOp fNew 2 0 0 [] with act := .fibre fNew 0x200000 0x200000 0 2 0 0 21 [] [] false } fNew with
     | some q, some q' => q.typ = 1 ∧ q'.typ ≠ 1 ∧ (grantOf fibrePart q.va).isSome = true
     | _, _ => False) ∧
    (let w := mergeSees (fibreState [] aShelver) 0 [(3, 0), (5, 0)]
     let pas := w.1.filterMap fun e => segPa fibrePart e.1
     pas = [0x200000] ∧ pas.Pairwise (fun x y => x + 64 ≤ y ∨ y + 64 ≤ x) ∧ w.2 = [[(3, 0), (5, 0)]] ∧ (∀ ps ∈ w.2, ps.length ≤ 6) ∧
       (∀ ps ∈ w.2.drop 1, ps ≠ []) ∧ (w.2.map fun ps => partsOf ps.length - 1).foldr (· + ·) 0 ≤ (aShelver.pool 1).length) ∧
    (let w := mergeSees (fibreState [] aShelver) 0 ((natRange 0 7).map fun i => (i, 1))
     w.1.map (·.1) = [0x200000] ∧ w.2 = [(natRange 0 7).map fun i => (i, 1)] ∧ (w.2.map fun ps => partsOf ps.length - 1).foldr (· + ·) 0 = 1 ∧
       aShelver.pool 1 = 0x200040 :: [] ∧ ({ aShelver with free := [] } : Shelver).pool 1 = [] ∧
       segPa fibrePart 0x200000 = some 0x200000 ∧ segPa fibrePart 0x200040 = some 0x200040) ∧
    (let w := mergeSees twoSegments 9 [(5, 9)]
     w.1.map (·.1) = [0x200000, 0x200040] ∧ (mergeSees twoSegments 9 [(5, 0)]).2 = [[(3, 1)], []]) := by
  repeat' apply And.intro
  all_goals first | decide +kernel | (unfold Rising; decide) | rfl

/-- The translations that an insertion needs, and its free node beside its parent. -/
theorem witness_ConcordanceOperations_walks :
    (let o := treeOp tInsert 0 0x1000 0
     walksFree (treeState aTree o) (engEnv o 0).tlb o.ptn [0x1000] = true) ∧ (2 : Nat) ≠ 1 := by
  decide +kernel

/-- A neighbour that does not appeal and one that does, whose period is bad; and a tile that is withdrawn for good. -/
theorem witness_TilesFenced_appeals :
    (let y : Neigh := ⟨1, some 4, [], 5, 2, 0, false, 0, 0⟩
     let s := gridState (aWord .host (.core 0) 2 0) [(0, aTile y), (1, aTile y)]
     let s' := gridState (aWord .host (.core 0) 2 0) [(0, aTile y), (1, { aTile y with hst := 2 })]
     y.finding (packetsOf s 1) = .missing ∧ y.state ≠ 2 ∧ 2 ≤ y.misses ∧ (s.tile 1).hst ≠ 2 ∧ present (mapAt s 0) 1 ≠ [] ∧
       s'.neighOf 0 1 = y ∧ y.finding (packetsOf s' 1) ≠ .clean ∧ (s'.tile 1).hst = 2 ∧ reinstated s' 1 = false) ∧
    (let w := aWord (.tile 0) (.core 0) 5 (fenceVote 3 1 0 0)
     let v := { aWord (.tile 2) (.core 0) 5 (fenceVote 3 1 2 0) with id := 6 }
     let s : State := { gridState w [(1, { aTile .init with off := true })] with ctrl := [w, v], placement := [1] }
     reinstateWords s 1 ≠ [] ∧ (s.tile 1).off = true) := by
  repeat' apply And.intro
  all_goals first | decide +kernel | rfl

/-- A partition whose core is not ready, with another core of its die in its self-test; and a recovery that fails. -/
theorem witness_ModuleEvents_cores :
    (let s : State := { State.reset with cat := [(0, ⟨2, 0, 0⟩), (catIndex 7 1, ⟨1, 0, 0⟩)], parts := [(1, aPart)] }
     powered s = true ∧ 1 < kindCount 7 ∧ mhas s.cat (catIndex 7 1) = true ∧ s.ready 7 1 = false ∧ s.part? 1 = some aPart ∧ aPart.core / 4 = 1 / 4 ∧
       s.ready 7 aPart.core = false ∧ aPart.core ≠ 1) ∧
    (hostReaches launchState = true ∧ (true && false) = false) := by
  repeat' apply And.intro
  all_goals first | decide +kernel | rfl

/-- A target and a field that no word has. -/
theorem witness_BlockWordsRoundTrip_refused : decode 0x022001C0 = .error .badTarget ∧ decode 0x02240042 = .error .reservedField := ⟨rfl, rfl⟩

/-! ### Witnesses: the stream elements and the address generators -/

/-- Where a TLB holds one entry, an access through it goes by that entry, whichever TLB it is. -/
theorem access_seen (s : State) (key pid level : Nat) (t : TlbEntry) (ask : Ask) (va : Word) (n : Nat) :
    access { s with tlbs := mset [] key [t] } key pid level ask va n = access { s with tlbs := [(0, [t])] } 0 pid level ask va n := by
  have h (k : Nat) : mgetD (mset [] k [t]) k [] = [t] := by simp [mgetD]
  unfold access lookup
  rw [show ({ s with tlbs := mset [] key [t] } : State).tlbs = mset [] key [t] from rfl, h]
  rfl

theorem install_of {s : State} {key pid : Nat} {va : Word} {p : Partition} {t : TlbEntry} (hc : isCanonical va = true) (ht : s.tlbs = [])
    (hp : mget s.parts pid = some p) (hw : walk s pid p va = .ok t) :
    installTlb s key pid va = { trailTouch s pid p va with tlbs := mset (trailTouch s pid p va).tlbs key [t] } := by
  have h : mgetD s.tlbs key [] = [] := by rw [ht]; rfl
  simp only [installTlb, hc, if_true, hp, h, tlbFind, List.find?, hw, List.length_nil]
  rfl

/-- The head of a fibre as a stream element finds it once its translation has been installed. -/
theorem found_of {s : State} {r : Nat} {g : Region} {c : Ctx} {w : Bool} {va : Word} {p : Partition} {t : TlbEntry} {x : Pass}
    (hc : isCanonical va = true) (ht : s.tlbs = []) (hp : mget s.parts g.ptn = some p) (hw : walk s g.ptn p va = .ok t)
    (ht' : (trailTouch s g.ptn p va).tlbs = [])
    (ha : access { trailTouch s g.ptn p va with tlbs := [(0, [t])] } 0 g.ptn (ctxLevel (trailTouch s g.ptn p va) c) ⟨!w, w, [0, 1, 2, 4, 5]⟩ va 1 = .ok x)
    (hb : inHbm x.pa = true) : elemHead (installTlb s (elemTlb r) g.ptn va) r g c w va = some x := by
  rw [install_of hc ht hp hw, ht']
  unfold elemHead
  rw [show dieOf r * 256 + seTlb (4096 + r) = elemTlb r from rfl, access_seen]
  exact (congrArg (fun e => match e with | .ok x => if inHbm x.pa = true then some x else none | .error _ => none) ha).trans (if_pos hb)

/-- A stream element with a head that its region can read and write, one that it cannot, and none that has been walked. -/
def headRegion (st : ElemSt) : Region := elemRegion 512 (laneWord 0x68 0 0 0) [(2048, aStok 0x200000)] st
def headState (st : ElemSt) : State := paged [] (elemState 512 (laneWord 0x68 0 0 0) [(2048, aStok 0x200000)] st)

theorem witness_StreamElements_heads (st : ElemSt) (hq : st = bankOf [0] [] ∨ st = bankOf ([1, 0x200000, 0, 0] ++ lrep 60 1) []) :
    (∀ w, elemHead (installTlb (headState st) (elemTlb 0) (headRegion st).ptn 0x200000) 0 (headRegion st) ((headRegion st).ctx 0) w 0x200000 =
      some ⟨.mem 0x200000, 1, 0x200000, 0x2000B3⟩) ∧
    headWalked (headState st) 0 (headRegion st).ptn 0x200000 = true ∧ headWalked (headState st) 0 (headRegion st).ptn 0x400000 = true ∧
    (∀ w, elemHead (installTlb (headState st) (elemTlb 0) (headRegion st).ptn 0x400000) 0 (headRegion st) ((headRegion st).ctx 0) w 0x400000 = none) ∧
    ElemTurn (headState st) 0 0 512 (headRegion st) ∧ ((headRegion st).ctx 0).destFree (headRegion st) 512 0 = true := by
  refine ⟨fun w => ?_, ?_⟩
  · rcases hq with rfl | rfl <;> cases w <;>
      exact found_of (p := pagedPart) (t := ⟨1, 32, 1, 0, 0x200000, true, true, false, 21, 0x2000B3⟩) (by decide) rfl rfl (by decide +kernel) (by decide +kernel)
        (ok_of (by decide +kernel)) (by decide)
  · rcases hq with rfl | rfl <;>
      exact ⟨by decide +kernel, by decide +kernel, fun w => by cases w <;> decide +kernel, ⟨rfl, rfl, by decide +kernel, rfl⟩, by decide +kernel⟩

/-- Sixty-four walks under way on die 0. -/
theorem witness_StreamElements_walks :
    let s : State := { headState (bankOf [0] []) with walks := (natRange 0 64).map fun i => ⟨i, 0, 1, 100 + i, [], 0⟩ }
    ¬ headWalked s 0 (headRegion (bankOf [0] [])).ptn 0x200000 = true := by
  intro s
  have hk : elemTlb 0 / 256 = 0 := by simp only [elemTlb, dieOf, seTlb]; omega
  have hb : walkBusy s (elemTlb 0) 1 0x200000 = true := by
    unfold walkBusy
    rw [hk]
    decide +kernel
  rw [show (headRegion (bankOf [0] [])).ptn = 1 from rfl]
  simp only [headWalked, walksFree, List.all_cons, hb]
  decide

/-- STOPs at both inputs of a joiner; the head of FOUT, a value of its batch that ends it, and one that does not. -/
theorem witness_StreamElements_tokens :
    (let w := laneWord 0x6A 2 0 0
     let lat : Map Stok := [(2048, stokOf (stopTok 1)), (2049, stokOf (stopTok 1))]
     let x := elemSees 512 w lat .init
     ElemTurn (elemState 512 w lat .init) 0 0 512 (elemRegion 512 w lat .init) ∧ x.full = [] ∧ x.a = some (stopTok 1) ∧ x.b = some (stopTok 1) ∧
       (stopTok 1).cls = .stop 1 ∧ (joinerOf x.st).qa = [] ∧ (joinerOf x.st).qb = [] ∧ (joinerOf x.st).oa = []) ∧
    (let lat : Map Stok := [(2049, aStok 0x200000)]
     let g := elemRegion 512 (laneWord 0x69 2 0 0) lat .init
     let s := elemState 512 (laneWord 0x69 2 0 0) lat .init
     ElemTurn s 0 0 512 g ∧ (g.ctx 0).destFree g 512 0 = true ∧ ((g.ctx 0).bank 512).reg 2 ≠ 1 ∧ ((g.ctx 0).bank 512).reg 0 = 0 ∧
       ((g.ctx 0).seen (makerOf s (posTile 0 g 0 512)) 512).latch 512 1 = some (aStok 0x200000).tok) ∧
    (let st := bankOf ([1, 0x200000, 0, 0] ++ lrep 60 1) []
     64 ≤ (st.regs.drop 4 ++ tokenPairs (aStok 5).tok).length ∧ (([1, 0x200000, 0, 0] : List Nat).drop 4 ++ tokenPairs (aStok 5).tok).length < 64) :=
  ⟨⟨elemTurn_of (by decide +kernel) rfl, by decide +kernel⟩, ⟨⟨rfl, rfl, by decide +kernel, rfl⟩, by decide +kernel⟩, by decide +kernel⟩

/-- AG w of M-tile 0 with a role, its bank, a further field of its word, damaged granules and requests. -/
def agAt (w role more : Nat) (roleSt : ElemSt) (lat : Map Stok) (st : ElemSt) (poison : List Nat) (ops : List Op) (f : AgEnv → State → Bool) : Bool :=
  let s := paged [] (elemState (1056 + w) (agWord w + more) lat st)
  let g := elemRegion (1056 + w) (agWord w + more) lat st
  let c := g.ctx 0
  let s := { s with agtlbs := [(2, [agPage]), (3, [agPage])], poison := poison, ops := ops, nextId := 8 }.setRegion 0
    (g.setCtx 0 { c with elems := mset c.elems (rolePos 0) role, es := mset c.es (rolePos 0) roleSt })
  match agTurn (cfgOf (agWord w + more)) (w == 1) s with
  | some e => !e.hasP && f e s
  | none => false

/-- An AGR and an AGW of each role, at each way that an access can go. -/
theorem witness_StreamElements_accesses :
    agAt 0 0 0 .init [] (agBank 0x1000 true false) [0x40] [] (fun e s => e.mayAccess s && e.a.due.isEmpty &&
      (match e.virtual s 0x1000 32 with | .page x => s.placeMarked x.place 32 | _ => false)) = true ∧
    agAt 1 0 0 .init [(1057 * 4 + 1, aStok 9)] (agBank 0x1000 true false) [] [] (fun e s => e.mayAccess s && e.a.due.isEmpty && e.tok 1 == some (aStok 9).tok &&
      (match e.virtual s 0x1000 32 with | .page x => !s.placeMarked x.place 32 | _ => false)) = true ∧
    (∀ ops ∈ [[], [{ anOp .nowhere (.agAccess 0 0x2000 false [] 32 0 true) with src := .elem 0 0 1056 }]],
      agAt 0 (0x65 * 2 ^ 120) 0 (bankOf [0, 0, 33] []) [] (agBank 0x1000 true false) [] ops (fun e s => e.mayAccess s && e.a.due.isEmpty && eopOf e.role == eopCbnk &&
        !e.isAcq && bankSlot e.roleSt 0x1000 == some 0 && allDone s (e.acqIds s) == ops.isEmpty && !s.fab.bankMarked (e.tile * 32768) 32 &&
        (match e.virtual s 0x1000 32 with | .page x => bankable x | _ => false)) = true) ∧
    (∀ more ∈ [0, 2 ^ 12], agAt 0 (0x65 * 2 ^ 120) more (bankOf [0, 0, 99] []) [] (agBank 0x1000 true false) [] [] (fun e s => e.mayAccess s && e.a.due.isEmpty &&
        e.isAcq == decide (more ≠ 0) && bankSlot e.roleSt 0x1000 == none && (match e.virtual s 0x1000 32 with | .page x => bankable x && !s.placeMarked x.place 32 | _ => false)) = true) ∧
    (∀ w ∈ [0, 1], agAt w (0x62 * 2 ^ 120) 0 .init [(1057 * 4 + 1, aStok 9)] (agBank 0x40 true false) [] [] (fun e s => e.mayAccess s && e.a.due.isEmpty &&
        eopOf e.role == eopMbuf && e.place s 32 == .own 0x40 && !s.fab.bankMarked (e.tile * 32768 + 0x40) 32 && (w == 0 || e.tok 1 == some (aStok 9).tok)) = true ∧
      agAt w (0x62 * 2 ^ 120) 0 .init [(1057 * 4 + 1, aStok 9)] (agBank 0x6000 true false) [] [] (fun e s => e.mayAccess s && e.a.due.isEmpty &&
        e.place s 32 == .bad ⟨0x000C, 0x6000, 0⟩) = true) ∧
    (∀ full ∈ [1, 2], agAt 1 (0x64 * 2 ^ 120 + 9) 0 (bankOf [full, 0, 0] []) [(1057 * 4 + 1, aStok 9)] (agBank 0 true false) [] [] (fun e s => e.mayAccess s &&
        e.a.due.isEmpty && eopOf e.role == eopLbuf && field e.role 15 3 == 1 && field e.role 2 0 + 1 == 2 && e.tok 1 == some (aStok 9).tok &&
        (if full = 1 then e.place s 32 == .own 32 else e.place s 32 == .wait)) = true ∧
      agAt 0 (0x64 * 2 ^ 120 + 9) 0 (bankOf [full, 0, 0] []) [] (agBank 32 true false) [] [] (fun e s => e.mayAccess s && e.a.due.isEmpty &&
        (if full = 1 then e.place s 32 == .wait else e.place s 32 == .own 32)) = true) ∧
    (∀ role ∈ [1, 9], agAt 0 (0x64 * 2 ^ 120 + role) 0 (bankOf [2, 0, 0] []) [] (agBank 0x40 true false) [] [] (fun e s => e.mayAccess s && e.a.due.isEmpty &&
        e.place s 32 == .bad ⟨0x000C, 0x40, 0⟩) = true) ∧
    agAt 1 0 0 .init [] (agBank 0x1000 true true) [] [] (fun e _ => e.a.active && e.a.last && e.a.due.isEmpty && e.a.queue.isEmpty && e.free 0) = true ∧
    (∀ bs ∈ [[], [7]], agAt 0 0 0 .init [] { agBank 0x1000 true false with ag := { (agBank 0x1000 true false).ag with queue := [.read 5 (some bs) none] } } [] []
      (fun e _ => e.a.queue == [.read 5 (some bs) none] && e.free 0) = true) := by
  repeat' apply And.intro
  all_goals decide +kernel

/-- PSET of each item. -/
theorem witness_ConfigurationWordsRoundTrip_items :
    ∀ item ∈ [0, 1, 2, 3, 4], let e : CmdEntry := anEntry (BitVec.ofNat 64 (item * 2 ^ 8)) 0 0 0 0 0
      (if item = 0 then encodeCmd (.psetStage1Root (.part 1 0) e) else if item = 1 then encodeCmd (.psetStage2Range (.part 1 0) e)
        else if item = 2 then encodeCmd (.psetInboundWindow (.part 1 0) e) else if item = 3 then encodeCmd (.psetRing (.part 1 0) e)
        else encodeCmd (.psetInterruptVector (.part 1 0) e)).isSome = true ∧ e.w1.toNat / 2 ^ 8 % 256 = item := by
  decide +kernel
end Sys2Proof.Tests
end

section
/-!
The forms that read (O5): what a form does that fires with the state at hand, what each system register holds, and
what each of RD, CSRR, MOV, SNPH, RECV, PEEK, RSP and NUL gives from these.
-/

namespace Sys2Proof.Machine

/-! ### Firing with the state at hand -/

/-- An in-block form whose firing reads the state, leaves it as it is and gives a value. -/
theorem inBlockS_fires {s : State} {p : Pred} {n : Needs} {tid k : Nat} {t : Task} {b : Block} {x y z v : Word} {fl : Nat}
    {ts tn : List Target} {g : Nat → Task → Block → Word → Word → Word → State × Res}
    (h : Fires s p n tid k t b x y z) (hg : g tid t b x y z = (s, .val v fl)) :
    inBlockS p n ts tn s g = .next (firedWith s tid k t b ts v fl) := by
  obtain ⟨hcur, htask, hblk, hfire⟩ := h
  have hfiring : firing s = some (tid, k, t, b) := by simp only [firing, hcur, htask, hblk]
  simp only [inBlockS, hfiring, hfire, hg, firedWith, afterFire]
  cases Block.deliverAll _ k 0 v ts <;> rfl

/-- An in-block form whose firing resolves its targets as null (R247). -/
theorem inBlock_fires_null {s : State} {p : Pred} {n : Needs} {tid k : Nat} {t : Task} {b b' : Block} {x y z : Word}
    {ts : List Target} {g : Nat → Task → Block → Word → Word → Word → Res}
    (h : Fires s p n tid k t b x y z) (hg : g tid t b x y z = .null)
    (hnull : (b.mark k .fired).nullAll false ts = some b') :
    inBlock p n ts s g = .next (putBlock s tid t b') := by
  obtain ⟨hcur, htask, hblk, hfire⟩ := h
  have hfiring : firing s = some (tid, k, t, b) := by simp only [firing, hcur, htask, hblk]
  simp only [inBlock, inBlockS, hfiring, hfire, hg, hnull, growBlock]

/-! ### System registers (R225) -/

theorem wbit_eq (c : Bool) : wbit c = if c then 1 else 0 := by cases c <;> rfl

/-- Stated of any f: with the weights 2 ^ (8 * d) written out, the kernel would unfold the products by recursion on a
literal. -/
theorem foldr_add_natRange_four (f : Nat → Nat) :
    ((natRange 0 4).map f).foldr (· + ·) 0 = f 0 + f 1 + f 2 + f 3 := by
  simp only [natRange, List.map_cons, List.map_nil, List.foldr_cons, List.foldr_nil, Nat.reduceAdd, Nat.add_zero,
    Nat.add_assoc]

/-- The record counts stand in the bytes of mbxn, those of the mailbox of die d in byte d. -/
theorem mbxnWord_eq (q : Partition) :
    mbxnWord q = wordOf ((mgetD q.mbox 0 []).length + (mgetD q.mbox 1 []).length * 2 ^ 8 +
      (mgetD q.mbox 2 []).length * 2 ^ 16 + (mgetD q.mbox 3 []).length * 2 ^ 24) := by
  simp only [mbxnWord, foldr_add_natRange_four, Nat.mul_zero, Nat.pow_zero, Nat.mul_one, Nat.reduceMul]

section
variable {s : State} {t : Task} {q : Partition}

theorem csrRead_pepc (tid : Nat) (h : s.part? t.ptn = some q) : csrRead s tid t .pepc = wordOf (q.epoch % 16) := by
  simp only [csrRead, h]

theorem csrRead_ssc0 (tid : Nat) (h : s.part? t.ptn = some q) : csrRead s tid t .ssc0 = q.ssc0 := by
  simp only [csrRead, h]

theorem csrRead_ssc1 (tid : Nat) (h : s.part? t.ptn = some q) : csrRead s tid t .ssc1 = q.ssc1 := by
  simp only [csrRead, h]

theorem csrRead_s1rt (tid : Nat) (h : s.part? t.ptn = some q) :
    csrRead s tid t .s1rt = wordOf ((q.s1root.getD 0) / 65536 % 2 ^ 32 * 65536) := by
  simp only [csrRead, h, field, Nat.reducePow, Nat.reduceAdd, Nat.reduceSub]

theorem csrRead_mbxn (tid : Nat) (h : s.part? t.ptn = some q) : csrRead s tid t .mbxn = mbxnWord q := by
  simp only [csrRead, h]

end

/-! ### The arms of exec -/

section
variable (s : State) (p : Pred) (ta tb : Target)

theorem exec_rd (g : Fin 64) : exec (.rd p g ta) s = execRd p g ta s := rfl
theorem exec_csrr (c : Csr) : exec (.csrr p c ta) s = execCsrr p c ta s := rfl
theorem exec_mov : exec (.mov p ta tb) s = execMov p ta tb s := rfl
theorem exec_snph : exec (.snph p ta) s = execSnph p ta s := rfl
theorem exec_recv (ch : Fin 64) : exec (.recv p ch ta) s = execRecv p ch ta s := rfl
theorem exec_peek (mk : Bool) (ch : Fin 64) : exec (.peek p mk ch ta) s = execPeek p mk ch ta s := rfl
theorem exec_rsp : exec (.rsp p ta) s = execRsp p ta s := rfl
theorem exec_nul : exec (.nul p ta tb) s = execNul p ta tb s := rfl

end

/-! ### The forms, each with its own operands -/

section
variable {s : State} {p : Pred} {tid k : Nat} {t : Task} {b : Block} {x y z : Word}

theorem rd_gives (g : Fin 64) (ta : Target) (h : Fires s p .n0 tid k t b x y z) :
    GivesValue (.rd p g ta) s tid k t b [ta] (t.reg g.val) 0 :=
  (exec_rd ..).trans (inBlock_fires h rfl)

theorem csrr_gives (c : Csr) (ta : Target) (h : Fires s p .n0 tid k t b x y z) :
    GivesValue (.csrr p c ta) s tid k t b [ta] (csrRead s tid t c) 0 :=
  (exec_csrr ..).trans (inBlock_fires h rfl)

theorem mov_gives (ta tb : Target) (h : Fires s p .n1 tid k t b x y z) :
    GivesValue (.mov p ta tb) s tid k t b [ta, tb] x 0 :=
  (exec_mov ..).trans (compute_fires _ _ h)

theorem snph_gives (ta : Target) (h : Fires s p .n2 tid k t b x y z) :
    GivesValue (.snph p ta) s tid k t b [ta] (snph x y) 0 :=
  (exec_snph ..).trans (compute_fires _ _ h)

/-- RECV takes the word that as many words precede as RECVs of its channel stand below its slot (R248). -/
theorem recv_gives {ch : Fin 64} {w : Word × Bool} (ta : Target) (h : Fires s p .n0 tid k t b x y z)
    (hbound : boundTo s tid ch.val = true)
    (hw : (s.chan (chanAddr tid ch.val)).q[countBelow s tid b (isRecvOf ch.val) k]? = some w) :
    GivesValue (.recv p ch ta) s tid k t b [ta] w.1 0 := by
  have hcur : s.cur = .firing tid k := h.1
  exact (exec_recv ..).trans (inBlockS_fires h (by simp only [hcur, hbound, if_true, hw]))

/-- PEEK gives the word at the head, or its mark (R248). -/
theorem peek_gives {ch : Fin 64} {w : Word × Bool} {ws : List (Word × Bool)} (mk : Bool) (ta : Target)
    (h : Fires s p .n0 tid k t b x y z) (hbound : boundTo s tid ch.val = true)
    (hq : (s.chan (chanAddr tid ch.val)).q = w :: ws) :
    GivesValue (.peek p mk ch ta) s tid k t b [ta] (if mk then wbit w.2 else w.1) 0 :=
  (exec_peek ..).trans (inBlockS_fires h (by simp only [hbound, if_true, hq]))

/-- RSP takes the response that as many responses precede as RSPs stand below its slot (R284). -/
theorem rsp_gives {id : Nat} {w : Word} (ta : Target) (h : Fires s p .n0 tid k t b x y z)
    (hw : t.resp[countBelow s tid b isRspWord k]? = some ⟨id, some w⟩) :
    GivesValue (.rsp p ta) s tid k t b [ta] w 0 := by
  have hcur : s.cur = .firing tid k := h.1
  exact (exec_rsp ..).trans (inBlock_fires h (by simp only [hcur, hw]))

theorem nul_resolves {b' : Block} (ta tb : Target) (h : Fires s p .n0 tid k t b x y z)
    (hnull : (b.mark k .fired).nullAll false [ta, tb] = some b') :
    exec (.nul p ta tb) s = .next (putBlock s tid t b') :=
  (exec_nul ..).trans (inBlock_fires_null h rfl hnull)

end

/-- Settles O5: the values of the forms, the system registers, and the channels, responses and nulls, each from the
lemma on its form. -/
theorem reads : Obligations.Reads := by
  unfold Obligations.Reads
  refine ⟨fun s p tid k t b x y z g c ta tb => ⟨fun h => ⟨rd_gives g ta h, csrr_gives c ta h⟩, mov_gives ta tb, snph_gives ta⟩,
    fun s tid t q => ⟨rfl, rfl, rfl, rfl, rfl, rfl, rfl, rfl, fun hq => ?_⟩,
    fun s p tid k t b x y z ch ta tb h => ⟨fun hbound => ?_, fun id w => rsp_gives ta h, fun b' => nul_resolves ta tb h⟩⟩
  · exact ⟨csrRead_pepc tid hq, csrRead_ssc0 tid hq, csrRead_ssc1 tid hq, csrRead_s1rt tid hq,
      (csrRead_mbxn tid hq).trans (mbxnWord_eq q)⟩
  · refine ⟨fun w => recv_gives ta h hbound, fun w ws hq => ⟨peek_gives false ta h hbound hq, ?_⟩⟩
    rw [← wbit_eq]
    exact peek_gives true ta h hbound hq

end Sys2Proof.Machine
end

section
/-!
The compare, select and address forms (O4): the model's words and integers as operations on bit vectors, and what each
of CMP, TST, SEL, LEA, ADDP and ALGN gives from these.
-/

namespace Sys2Proof.Machine

/-! ### Words and integers as bit vectors -/

theorem signedOf_eq_toInt (w n : Nat) : signedOf w n = (BitVec.ofNat w n).toInt := by
  rw [BitVec.toInt_eq_toNat_cond, BitVec.toNat_ofNat, signedOf]
  cases w with
  | zero => simp only [Nat.pow_zero, Nat.mod_one, Nat.zero_le, Nat.sub_eq_zero_of_le, Nat.lt_add_one, ↓reduceIte,
      Int.cast_ofNat_Int, Nat.mul_zero]
  | succ w =>
    have hlow : n % 2 ^ (w + 1) < 2 ^ w ↔ 2 * (n % 2 ^ (w + 1)) < 2 ^ (w + 1) := by rw [Nat.pow_succ 2 w]; omega
    simp only [Nat.add_one_sub_one, hlow, Int.natCast_emod, Int.natCast_pow, Int.cast_ofNat_Int]

theorem ofNat_patternOf (w : Nat) (x : Int) : BitVec.ofNat w (patternOf w x) = BitVec.ofInt w x := by
  have hpos : (0 : Int) < 2 ^ w := Int.pow_pos (by decide)
  have hlt : patternOf w x < 2 ^ w := by
    rw [patternOf, Int.toNat_lt (Int.emod_nonneg x (Int.ne_of_gt hpos))]
    exact_mod_cast Int.emod_lt_of_pos x hpos
  apply BitVec.eq_of_toNat_eq
  rw [BitVec.toNat_ofNat, Nat.mod_eq_of_lt hlt, BitVec.toNat_ofInt, patternOf]
  norm_cast

theorem sext_eq_signExtend (w n : Nat) : sext w n = (BitVec.ofNat w n).signExtend 64 := by
  rw [sext, wordOfInt, ofNat_patternOf, signedOf_eq_toInt, BitVec.signExtend]

theorem canon_eq_signExtend (v : Word) : canon v = (v.setWidth 56).signExtend 64 := by
  rw [canon, sext_eq_signExtend, BitVec.ofNat_toNat]

/-- The low bits of a word at a type, read as an integer and written back, are those bits extended (R241). -/
theorem extend64_interp (ty : Ty) (v : Word) : extend64 ty (interp ty v) = extendBits ty v := by
  unfold extend64 interp extendBits
  split
  · rw [sext_eq_signExtend, ofNat_patternOf, signedOf_eq_toInt, BitVec.ofInt_toInt, BitVec.ofNat_toNat]
  · have hpat : patternOf ty.width ((v.toNat % 2 ^ ty.width : Nat) : Int) = v.toNat % 2 ^ ty.width := by
      rw [patternOf]
      exact_mod_cast Nat.mod_mod v.toNat (2 ^ ty.width)
    apply BitVec.eq_of_toNat_eq
    rw [hpat, wordOf, BitVec.toNat_ofNat, BitVec.toNat_setWidth, BitVec.toNat_setWidth]

theorem bitAt_zero (v : Word) : bitAt v.toNat 0 = v.getLsbD 0 := by
  rw [bitAt, BitVec.getLsbD, Nat.testBit_eq_decide_div_mod_eq, Bool.beq_eq_decide_eq]

/-- A canonical word is what its low 56 bits give (R86). -/
theorem isCanonical_canon (v : Word) : isCanonical (canon v) = true := by
  rw [isCanonical, beq_iff_eq]
  simp only [canon_eq_signExtend]
  congr 1
  ext i hi
  simp only [BitVec.getElem_setWidth, Nat.lt_trans hi (show 56 < 64 by decide), BitVec.getLsbD_eq_getElem,
      BitVec.getElem_signExtend, hi, ↓reduceDIte]

/-! ### Rounding to a multiple of a power of two (R246) -/

/-- The m low bits of a word. -/
def lowBits (m : Nat) : Word := (1 <<< m) - 1

theorem lowBits_toNat {m : Nat} (hm : m < 64) : (lowBits m).toNat = 2 ^ m - 1 := by
  have hlt : 2 ^ m < 2 ^ 64 := Nat.pow_lt_pow_right (by decide) hm
  have hpos : 0 < 2 ^ m := Nat.two_pow_pos m
  have hone : ((1 <<< m : Nat) : Word).toNat = 2 ^ m := by
    rw [BitVec.natCast_eq_ofNat, BitVec.toNat_ofNat, Nat.one_shiftLeft, Nat.mod_eq_of_lt hlt]
  rw [lowBits, BitVec.toNat_sub, hone, show (1 : Word).toNat = 1 from rfl]
  omega

theorem wordOf_roundDown (x : Word) {m : Nat} (hm : m < 64) :
    wordOf (x.toNat / 2 ^ m * 2 ^ m) = x &&& ~~~lowBits m := by
  have hlow (i : Nat) : (lowBits m).getLsbD i = decide (i < m) := by
    rw [BitVec.getLsbD, lowBits_toNat hm, Nat.testBit_two_pow_sub_one]
  apply BitVec.eq_of_getLsbD_eq
  intro i hi
  simp only [wordOf, BitVec.getLsbD_ofNat, BitVec.getLsbD_and, BitVec.getLsbD_not, hlow, hi, decide_true, Bool.true_and]
  rw [Nat.testBit_mul_two_pow, Nat.testBit_div_two_pow]
  by_cases h : m ≤ i
  · simp only [h, decide_true, Nat.sub_add_cancel h, Bool.true_and, BitVec.getLsbD, Nat.not_lt.2 h, decide_false, Bool.not_false,
      Bool.and_true]
  · simp only [h, decide_false, Bool.false_and, Nat.lt_of_not_le h, decide_true, Bool.not_true, Bool.and_false]

theorem wordOf_roundUp (x : Word) {m : Nat} (hm : m < 64) :
    wordOf ((x.toNat + 2 ^ m - 1) % 2 ^ 64 / 2 ^ m * 2 ^ m) = (x + lowBits m) &&& ~~~lowBits m := by
  have hpos : 0 < 2 ^ m := Nat.two_pow_pos m
  have hsum : (x.toNat + 2 ^ m - 1) % 2 ^ 64 = (x + lowBits m).toNat := by
    rw [BitVec.toNat_add, lowBits_toNat hm, Nat.add_sub_assoc hpos]
  rw [hsum, wordOf_roundDown _ hm]

/-! ### The forms, each with its own operands -/

section
variable {s : State} {p : Pred} {tid k : Nat} {t : Task} {b : Block} {x y z : Word}

theorem cmp_gives (ty : Ty) (cc : Cond) (ta : Target) (h : Fires s p .n2 tid k t b x y z) :
    GivesValue (.cmp p ty cc ta) s tid k t b [ta] (if cc.holds (interp ty x) (interp ty y) then 1 else 0) 0 := by
  rw [← wbit_eq]
  exact compute_fires [ta] _ h

theorem tst_gives (ty : Ty) (cc : Cond) (ta : Target) (h : Fires s p .n2 tid k t b x y z) :
    GivesValue (.tst p ty cc ta) s tid k t b [ta] (if cc.holds (interp ty (x &&& y)) 0 then 1 else 0) 0 := by
  rw [← wbit_eq]
  exact compute_fires [ta] _ h

theorem sel_gives (ty : Ty) (ta tb : Target) (h : Fires s p .n3 tid k t b x y z) :
    GivesValue (.sel p ty ta tb) s tid k t b [ta, tb] (extendBits ty (if z.getLsbD 0 then x else y)) 0 := by
  rw [← extend64_interp, ← bitAt_zero]
  exact compute_fires [ta, tb] _ h

theorem lea_gives (imm : BitVec 14) (ta : Target) (h : Fires s p .n1 tid k t b x y z) :
    GivesValue (.lea p imm ta) s tid k t b [ta] (canon (x + 8 * imm.signExtend 64)) 0 := by
  have himm : imm.signExtend 64 = sext 14 imm.toNat := by
    rw [sext_eq_signExtend, BitVec.ofNat_toNat, BitVec.setWidth_eq]
  rw [BitVec.mul_comm, himm]
  exact compute_fires [ta] _ h

theorem addp_gives (ta tb : Target) (h : Fires s p .n2 tid k t b x y z) :
    GivesValue (.addp p ta tb) s tid k t b [ta, tb] (canon (x + y)) 0 :=
  compute_fires [ta, tb] _ h

theorem algn_down_gives (m : Fin 64) (ta : Target) (h : Fires s p .n1 tid k t b x y z) :
    GivesValue (.algn p true m ta) s tid k t b [ta] (x &&& ~~~lowBits m.val) 0 := by
  rw [← wordOf_roundDown x m.isLt]
  exact compute_fires [ta] _ h

theorem algn_up_gives (m : Fin 64) (ta : Target) (h : Fires s p .n1 tid k t b x y z) :
    GivesValue (.algn p false m ta) s tid k t b [ta] ((x + lowBits m.val) &&& ~~~lowBits m.val) 0 := by
  rw [← wordOf_roundUp x m.isLt]
  exact compute_fires [ta] _ h

end

/-- Settles O4: the conditions and the selection, and the address forms, each from the lemma on its form; the canonical
words are those of `canon`. -/
theorem compareSelectAddress : Obligations.CompareSelectAddress := by
  unfold Obligations.CompareSelectAddress
  refine ⟨fun s p tid k t b x y z ty cc ta tb => ⟨fun h => ⟨cmp_gives ty cc ta h, tst_gives ty cc ta h⟩, sel_gives ty ta tb⟩,
    fun s p tid k t b x y z imm m ta tb => ?_⟩
  simp only [← canon_eq_signExtend]
  exact ⟨fun h => ⟨lea_gives imm ta h, algn_up_gives m ta h, algn_down_gives m ta h⟩, addp_gives ta tb, isCanonical_canon⟩

end Sys2Proof.Machine
end

section
/-!
The registers of a task between the commits of its blocks (O13): every step of a slot leaves them, because what it
changes is the block in flight or what an exception changes; and the commit writes those that the block has resolved.
-/

namespace Sys2Proof.Machine

/-! ### Parts of a step that leave the fabric state alone -/

theorem task?_of_fab {s s' : State} (h : s'.fab = s.fab) (u : Nat) : s'.task? u = s.task? u := by
  rw [State.task?, State.task?, h]

theorem sendWords_fab (src : Agent) (addr ptn : Nat) (after : List Nat) (marked : Bool) (ws : List Word) (s : State) :
    (sendWords s src addr ptn after marked ws).fab = s.fab := by
  induction ws generalizing s with
  | nil => rfl
  | cons w ws ih => exact (ih _).trans (sendCtrl_fab ..)

theorem tellRecord_fab (s : State) (ptn die : Nat) (r : Record) : (tellRecord s ptn die r).fab = s.fab := by
  unfold tellRecord
  split
  · rfl
  · split
    · exact sendWords_fab ..
    · rfl

theorem postRecord_fab (s : State) (ptn die : Nat) (words : List Word) (origin : Agent) (launch : Nat) :
    (postRecord s ptn die words origin launch).fab = s.fab := by
  unfold postRecord
  dsimp only
  split
  · rfl
  · split
    · exact tellRecord_fab ..
    · rfl

theorem touch_fab (s : State) (ptn pa typ hint : Nat) (store : Bool) : (touch s ptn pa typ hint store).fab = s.fab := by
  unfold touch
  dsimp only
  split
  · rfl
  · split
    · split
      · rfl
      · split <;> rfl
    · split
      · split <;> rfl
      · rfl

theorem foldl_touch_fab (pid : Nat) (pas : List Nat) (s : State) :
    (pas.foldl (fun t a => touch t pid a 0 0 false) s).fab = s.fab := by
  induction pas generalizing s with
  | nil => rfl
  | cons a pas ih => exact (ih _).trans (touch_fab ..)

theorem trailTouch_fab (s : State) (pid : Nat) (p : Partition) (va : Word) : (trailTouch s pid p va).fab = s.fab := by
  unfold trailTouch
  split
  · rfl
  · exact foldl_touch_fab ..

theorem installTlb_fab (s : State) (tlb pid : Nat) (va : Word) : (installTlb s tlb pid va).fab = s.fab := by
  unfold installTlb
  split
  · rfl
  · dsimp only
    split
    · rfl
    · split
      · rfl
      · split <;> exact trailTouch_fab ..

theorem taskInstall_fab (s : State) (tid : Nat) (t : Task) (va : Word) : (taskInstall s tid t va).fab = s.fab :=
  installTlb_fab ..

theorem faultInstall_fab (s : State) (tid : Nat) (t : Task) (f : Flt0) : (faultInstall s tid t f).fab = s.fab := by
  unfold faultInstall
  split
  · rfl
  · exact taskInstall_fab ..

theorem askFor_fab (s : State) (die pid page tlb : Nat) (who : List Nat) : (askFor s die pid page tlb who).fab = s.fab := by
  unfold askFor
  dsimp only
  split
  · rfl
  · split <;> rfl

theorem taskWalk_fab (s : State) (tid : Nat) (t : Task) (va : Word) : (taskWalk s tid t va).1.fab = s.fab := by
  unfold taskWalk
  dsimp only
  split
  · rfl
  · exact askFor_fab ..

theorem loadAt_fab (s : State) (tid : Nat) (t : Task) (b : Block) (k m : Nat) (sz : Size) (o : LdOrd) (va : Word) :
    (loadAt s tid t b k m sz o va).1.fab = s.fab := by
  unfold loadAt
  split
  · rfl
  · split
    · exact taskWalk_fab ..
    · split
      · exact faultInstall_fab ..
      · split
        · rfl
        · split
          · exact taskInstall_fab ..
          · dsimp only
            split <;> exact (touch_fab ..).trans (taskInstall_fab ..)

/-! ### The registers and flags of a task after a step -/

/-- Task tid has the registers and the flags of t. -/
def HoldsRegs (s : State) (tid : Nat) (t : Task) : Prop := ∃ t', s.task? tid = some t' ∧ t'.regs = t.regs ∧ t'.fsr = t.fsr

/-- Whatever next state an outcome gives, task tid has the registers and the flags of t in it. -/
def KeepsRegs (o : Out) (tid : Nat) (t : Task) : Prop := ∀ s', o = .next s' → HoldsRegs s' tid t

theorem keepsRegs_next {s : State} {tid : Nat} {t : Task} (h : HoldsRegs s tid t) : KeepsRegs (.next s) tid t := by
  rintro s' ⟨⟩
  exact h

theorem keepsRegs_notReady (tid : Nat) (t : Task) : KeepsRegs notReady tid t := fun _ h => nomatch h

section
variable {s : State} {tid k : Nat} {t : Task}

theorem holdsRegs_of_fab {s' : State} (ht : s.task? tid = some t) (hfab : s'.fab = s.fab) : HoldsRegs s' tid t :=
  ⟨t, (task?_of_fab hfab tid).trans ht, rfl, rfl⟩

theorem putBlock_holdsRegs (s : State) (tid : Nat) (t : Task) (b : Block) : HoldsRegs (putBlock s tid t b) tid t :=
  ⟨_, task_putBlock_self .., rfl, rfl⟩

/-- An exception stops the task and changes none of its registers (R240, R353). -/
theorem takeFault_holdsRegs (ht : s.task? tid = some t) (f : Flt0) : HoldsRegs (takeFault s tid f) tid t := by
  simp only [takeFault, ht]
  exact ⟨_, (task?_of_fab (postRecord_fab ..) tid).trans (task_setTask_self ..), rfl, rfl⟩

theorem growBlock_keepsRegs (ht : s.task? tid = some t) (ob : Option Block) : KeepsRegs (growBlock s tid t ob) tid t := by
  cases ob with
  | none => exact keepsRegs_next (takeFault_holdsRegs ht _)
  | some b => exact keepsRegs_next (putBlock_holdsRegs ..)

/-! ### The shapes of a block form, in the turn of a slot -/

theorem firing_eq (hcur : s.cur = .firing tid k) (ht : s.task? tid = some t) : firing s = t.blk.map fun b => (tid, k, t, b) := by
  simp only [firing, hcur, ht]
  cases t.blk <;> rfl

/-- An in-block form that leaves the fabric state alone but for its block. -/
theorem inBlockS_keepsRegs {p : Pred} {n : Needs} {ts tn : List Target}
    {g : Nat → Task → Block → Word → Word → Word → State × Res}
    (hcur : s.cur = .firing tid k) (ht : s.task? tid = some t) (hg : ∀ b x y z, (g tid t b x y z).1.fab = s.fab) :
    KeepsRegs (inBlockS p n ts tn s g) tid t := by
  simp only [inBlockS, firing_eq hcur ht]
  cases t.blk with
  | none => exact keepsRegs_notReady tid t
  | some b =>
    dsimp only [Option.map_some]
    cases fireOf p n (b.slot k) with
    | notReady => exact keepsRegs_notReady tid t
    | squash => exact growBlock_keepsRegs ht _
    | null => exact growBlock_keepsRegs ht _
    | go x y z =>
      have hfab := hg b x y z
      have ht' := (task?_of_fab hfab tid).trans ht
      dsimp only
      cases (g tid t b x y z).2 with
      | val v fl => exact growBlock_keepsRegs ht' _
      | pair lo hi => dsimp only; split <;> exact growBlock_keepsRegs ht' _
      | nothing => exact growBlock_keepsRegs ht' _
      | null => exact growBlock_keepsRegs ht' _
      | wait => exact keepsRegs_notReady tid t
      | asked => exact keepsRegs_next (holdsRegs_of_fab ht hfab)
      | fault f => exact keepsRegs_next (putBlock_holdsRegs ..)

theorem inBlock_keepsRegs {p : Pred} {n : Needs} {ts : List Target} {g : Nat → Task → Block → Word → Word → Word → Res}
    (hcur : s.cur = .firing tid k) (ht : s.task? tid = some t) : KeepsRegs (inBlock p n ts s g) tid t :=
  inBlockS_keepsRegs hcur ht fun _ _ _ _ => rfl

theorem compute_keepsRegs {p : Pred} {n : Needs} {ts : List Target} {f : Word → Word → Word → Word × Nat}
    (hcur : s.cur = .firing tid k) (ht : s.task? tid = some t) : KeepsRegs (compute p n ts s f) tid t :=
  inBlock_keepsRegs hcur ht

theorem exitForm_keepsRegs {p : Pred} {n : Needs} (hcur : s.cur = .firing tid k) (ht : s.task? tid = some t) :
    KeepsRegs (exitForm p n s) tid t := by
  simp only [exitForm, firing_eq hcur ht]
  cases t.blk with
  | none => exact keepsRegs_notReady tid t
  | some b =>
    dsimp only [Option.map_some]
    cases fireOf p n (b.slot k) with
    | notReady => exact keepsRegs_notReady tid t
    | squash => exact growBlock_keepsRegs ht _
    | null => exact growBlock_keepsRegs ht _
    | go x y z => dsimp only; split <;> exact growBlock_keepsRegs ht _

/-- A commit form captures its operands in the turn of its slot; its effect comes at the commit (R261). -/
theorem commitForm_keepsRegs {p : Pred} {n : Needs} {ta : Target} {m : Nat} {cf : CForm} (hcur : s.cur = .firing tid k)
    (ht : s.task? tid = some t) : KeepsRegs (commitForm p n ta m cf s) tid t := by
  simp only [commitForm, hcur, firing_eq hcur ht]
  cases t.blk with
  | none => exact keepsRegs_notReady tid t
  | some b =>
    dsimp only [Option.map_some]
    cases fireOf p n (b.slot k) with
    | notReady => exact keepsRegs_notReady tid t
    | squash => exact keepsRegs_next (putBlock_holdsRegs ..)
    | null => exact keepsRegs_next (putBlock_holdsRegs ..)
    | go x y z => exact growBlock_keepsRegs ht _

/-! ### The forms whose firing reads more than their operands -/

theorem execRecv_keepsRegs (p : Pred) (ch : Fin 64) (ta : Target) (hcur : s.cur = .firing tid k) (ht : s.task? tid = some t) :
    KeepsRegs (execRecv p ch ta s) tid t := by
  refine inBlockS_keepsRegs hcur ht fun b x y z => ?_
  simp only [hcur]
  split
  · split <;> rfl
  · rfl

theorem execPeek_keepsRegs (p : Pred) (mk : Bool) (ch : Fin 64) (ta : Target) (hcur : s.cur = .firing tid k)
    (ht : s.task? tid = some t) : KeepsRegs (execPeek p mk ch ta s) tid t := by
  refine inBlockS_keepsRegs hcur ht fun b x y z => ?_
  split
  · split <;> rfl
  · rfl

theorem execLd_keepsRegs (p : Pred) (m : Fin 32) (sz : Size) (o : LdOrd) (ta : Target) (hcur : s.cur = .firing tid k)
    (ht : s.task? tid = some t) : KeepsRegs (execLd p m sz o ta s) tid t := by
  refine inBlockS_keepsRegs hcur ht fun b x y z => ?_
  simp only [hcur]
  exact loadAt_fab ..

theorem execLdx_keepsRegs (p : Pred) (m : Fin 32) (sz : Size) (o : LdOrd) (ta : Target) (hcur : s.cur = .firing tid k)
    (ht : s.task? tid = some t) : KeepsRegs (execLdx p m sz o ta s) tid t := by
  refine inBlockS_keepsRegs hcur ht fun b x y z => ?_
  simp only [hcur]
  exact loadAt_fab ..

theorem execPrf_keepsRegs (p : Pred) (m : Fin 32) (sz : Fin 8) (h : Hint) (hcur : s.cur = .firing tid k)
    (ht : s.task? tid = some t) : KeepsRegs (execPrf p m sz h s) tid t := by
  refine inBlockS_keepsRegs hcur ht fun b x y z => ?_
  split
  · rfl
  · split
    · exact taskWalk_fab ..
    · split
      · exact faultInstall_fab ..
      · exact (touch_fab ..).trans (taskInstall_fab ..)

/-- Every step of a slot keeps the registers and the flags of its task: the row is of one of the shapes (R238). -/
theorem exec_keepsRegs {i : Instr} {f : Form} (hf : i.form = some f) (hcur : s.cur = .firing tid k) (ht : s.task? tid = some t) :
    KeepsRegs (exec i s) tid t := by
  unfold exec
  cases i
  case add | sub | mul | mulh | div | rem | and | or | xor | andn | shl | shr | sar | rol | min | max | clz | ctz | popc | ext | bswap
      | addi | andi | ori | xori | shli | shri | sari | muli | cst | csth | cmp | tst | sel | lea | addp | algn | mov | snph
      | fadd | fsub | fmul | fma | fdiv | fsqrt | fmin | fmax | fcmp | fcvt | fcls => exact compute_keepsRegs hcur ht
  case rd | csrr | rsp | nul => exact inBlock_keepsRegs hcur ht
  case recv => exact execRecv_keepsRegs _ _ _ hcur ht
  case peek => exact execPeek_keepsRegs _ _ _ _ hcur ht
  case ld => exact execLd_keepsRegs _ _ _ _ _ hcur ht
  case ldx => exact execLdx_keepsRegs _ _ _ _ _ hcur ht
  case prf p m sz h => exact execPrf_keepsRegs p m sz h hcur ht
  case br | brx | call | ret | wait | yld | halt => exact exitForm_keepsRegs hcur ht
  case st | stx | cln | inv | amo | cas | cas2 | fnc | fncx | bari | bara | barw | cfgl | cfgs | arm | darm | ctxm
      | chbRouteDefault | chbRoute | chbBind | inj | cpy | mcst | gth | sct | ksel | kvpk | axrd | axwr
      | fnew | fnewGrant | fdel | fmrg | fscn | fprb | flen | snpf | snpp | snpg | snpr | wgl | wgq | wgu
      | rets | retc | wmsk | l2fl | nmld | nmgo | nmbx | nmwk | trp | eret | csrw | idle | mbxr
      | mbxwResume | mbxwAbort | mbxwPop | mbxwDelegate | irq | tlbi | atst => exact commitForm_keepsRegs hcur ht
  all_goals exact nomatch hf

end

/-! ### The registers that a block has resolved -/

theorem lset_eq_set {α : Type} (xs : List α) (n : Nat) (v : α) : lset xs n v = xs.set n v := by
  induction xs generalizing n with
  | nil => rfl
  | cons x xs ih =>
    cases n with
    | zero => rfl
    | succ n => exact congrArg (x :: ·) (ih n)

theorem lget_eq_getD {α : Type} (xs : List α) (n : Nat) (d : α) : lget xs n d = xs.getD n d := by
  induction xs generalizing n with
  | nil => rfl
  | cons x xs ih =>
    cases n with
    | zero => rfl
    | succ n => exact ih n

@[simp] theorem setReg_regs_length (t : Task) (g : Nat) (v : Word) : (t.setReg g v).regs.length = t.regs.length := by
  simp only [Task.setReg, lset_eq_set, List.length_set]

theorem reg_setReg_self {t : Task} {g : Nat} (v : Word) (hg : g < t.regs.length) : (t.setReg g v).reg g = v := by
  simp only [Task.reg, Task.setReg, lset_eq_set, BitVec.ofNat_eq_ofNat, lget_eq_getD, List.getD_eq_getElem?_getD,
      List.length_set, hg, getElem?_pos, List.getElem_set_self, Option.getD_some]

theorem reg_setReg_ne (t : Task) {g j : Nat} (v : Word) (h : j ≠ g) : (t.setReg g v).reg j = t.reg j := by
  simp only [Task.reg, Task.setReg, lset_eq_set, lget_eq_getD, List.getD_eq_getElem?_getD, List.getElem?_set_ne h.symm]

/-- The register writes of a block, the oldest first (R237). -/
def Task.setAll (t : Task) (ws : List (Nat × Word)) : Task := ws.foldl (fun t r => t.setReg r.1 r.2) t

theorem setAll_trap (t : Task) (ws : List (Nat × Word)) : (t.setAll ws).trap = t.trap := by
  induction ws generalizing t with
  | nil => rfl
  | cons w ws ih => exact ih (t.setReg w.1 w.2)

theorem reg_setAll_of_notMem {ws : List (Nat × Word)} {g : Nat} (t : Task) (h : g ∉ ws.map (·.1)) : (t.setAll ws).reg g = t.reg g := by
  induction ws generalizing t with
  | nil => rfl
  | cons w ws ih =>
    obtain ⟨hw, hws⟩ := not_or.1 (mt List.mem_cons.2 h)
    exact (ih _ hws).trans (reg_setReg_ne t w.2 hw)

theorem reg_setAll_of_mem {ws : List (Nat × Word)} {g : Nat} {v : Word} {t : Task} (hnodup : (ws.map (·.1)).Nodup)
    (hmem : (g, v) ∈ ws) (hg : g < t.regs.length) : (t.setAll ws).reg g = v := by
  induction ws generalizing t with
  | nil => cases hmem
  | cons w ws ih =>
    obtain ⟨hw, hws⟩ := List.nodup_cons.1 hnodup
    rcases List.mem_cons.1 hmem with rfl | hmem
    · exact (reg_setAll_of_notMem _ hw).trans (reg_setReg_self v hg)
    · exact ih hws hmem (by simpa only [setReg_regs_length] using hg)

/-! ### A block that is ready commits -/

theorem mem_natRange {lo n j : Nat} : j ∈ natRange lo n ↔ lo ≤ j ∧ j < lo + n := by
  induction n generalizing lo with
  | zero => simp only [natRange, List.not_mem_nil, Nat.add_zero, false_iff, not_and, Nat.not_lt, imp_self]
  | succ n ih => rw [natRange, List.mem_cons, ih]; omega

theorem commitFault_eq_none {s : State} {tid : Nat} {t : Task} {b : Block} {ks : List Nat}
    (h : ∀ j ∈ ks, slotCommitFault s tid t b j = none) : commitFault s tid t b ks = none := by
  induction ks with
  | nil => rfl
  | cons j ks ih =>
    obtain ⟨hj, hks⟩ := List.forall_mem_cons.1 h
    simp only [commitFault, hj, ih hks]

section
variable {s : State} {tid k : Nat} {t : Task} {b : Block} {i : Instr} {a : Word}

/-- No slot of a block that is ready has a fault of its own at the commit, but the exit (R419). -/
theorem slotCommitFault_of_ready (h : ReadyToCommit s tid k t b i a) (hexit : exitCheck s tid t b i a = none) {j : Nat}
    (hj : j < b.n) : slotCommitFault s tid t b j = none := by
  obtain ⟨-, -, -, -, -, ⟨y, z, hexits⟩, hinstr, -, -, hcaps, -, hbad, -, -, htakes⟩ := h
  simp only [slotCommitFault, hcaps, hexits, hbad, List.find?_nil, List.find?_cons]
  by_cases hjk : k = j
  · subst hjk
    simp only [BEq.rfl, hinstr, Option.bind_some, hexit]
  · simp only [beq_eq_false_iff_ne.2 hjk]
    split
    case isFalse => rfl
    case isTrue hphase =>
      obtain ⟨-, -, hreads⟩ := htakes j hj hphase
      split
      case h_1 _ _ _ hrecv => cases hreads _ hrecv
      case h_2 _ _ _ _ hpeek => cases hreads _ hpeek
      case h_3 => rfl

theorem blockCommit_of_ready (h : ReadyToCommit s tid k t b i a) (hexit : exitCheck s tid t b i a = none) :
    exec (.blockCommit tid) s = .next (commitBlock s tid t b) := by
  have hfault : commitFault s tid t b (natRange 0 b.n) = none :=
    commitFault_eq_none fun j hj => slotCommitFault_of_ready h hexit (by have := mem_natRange.1 hj; omega)
  obtain ⟨htask, hblk, hacts, -, -, ⟨y, z, hexits⟩, -, hregn, houtn, hcaps, -, -, hload, -, -⟩ := h
  have hcounts : countsMet b = true := by
    simp only [countsMet, hexits, List.length_cons, List.length_nil, Nat.zero_add, BEq.rfl, hregn, Bool.and_self, houtn]
  have hwalked : formsWalked s tid t b = true := by simp only [formsWalked, hcaps, List.all_nil]
  have hready : formsReady s tid b = true := by simp only [formsReady, hcaps, List.all_nil]
  have hroom : roomForAll s tid t b = true := by
    simp only [roomForAll, hcaps, List.filter_nil, List.length_nil, Nat.add_zero, BEq.rfl, Bool.or_true]
  show execBlockCommit tid s = _
  simp only [execBlockCommit, htask, hblk, hacts, Bool.not_true, Bool.false_eq_true, ↓reduceIte, hcounts, hload, hwalked,
      Bool.or_self, hfault, hready, hroom, Bool.and_self]

end

/-! ### What the parts of a commit leave of the registers (R237) -/

section
variable {s : State} {tid : Nat} {t : Task}

theorem modTask_of_task (f : Task → Task) (ht : s.task? tid = some t) : s.modTask tid f = s.setTask tid (f t) := by
  rw [State.modTask, ht]

/-- Task tid has the registers of t and its software traps. -/
def HoldsRegsAndTraps (s : State) (tid : Nat) (t : Task) : Prop :=
  ∃ t', s.task? tid = some t' ∧ t'.regs = t.regs ∧ t'.trap = t.trap

theorem setTask_holds (s : State) (tid : Nat) {t t' : Task} (hregs : t'.regs = t.regs) (htrap : t'.trap = t.trap) :
    HoldsRegsAndTraps (s.setTask tid t') tid t := ⟨t', task_setTask_self .., hregs, htrap⟩

/-- An exit changes the program counter, the return stack and the state of its task, and HALT of a root its launch as
well (R249-R253). -/
theorem exitEffect_holds (i : Instr) (b : Block) (a : Word) (ht : s.task? tid = some t) :
    HoldsRegsAndTraps (exitEffect s tid i b a) tid t := by
  simp only [exitEffect, ht]
  cases i
  case wait => dsimp only; split <;> exact setTask_holds _ _ rfl rfl
  case halt => dsimp only; split <;> exact setTask_holds _ _ rfl rfl
  all_goals exact setTask_holds _ _ rfl rfl

theorem finishBlock_task (b : Block) (ht : s.task? tid = some t) :
    ∃ t', (finishBlock s tid b).task? tid = some t' ∧ t'.blk = none ∧ t'.regs = t.regs ∧ t'.trap = t.trap := by
  rw [finishBlock, modTask_of_task _ ht]
  exact ⟨_, task_setTask_self .., rfl, rfl, rfl⟩

theorem takeTraps_of_none (ht : s.task? tid = some t) (htrap : t.trap = []) : takeTraps s tid = s := by
  simp only [takeTraps, ht, htrap, List.isEmpty_nil, ↓reduceIte]

end

/-- The state of a commit without commit forms and channel words before its exit acts. -/
def beforeExit (s : State) (tid : Nat) (t : Task) (b : Block) : State :=
  orderOuts (((takeRecvs s tid b).setTask tid (commitTask s tid b t)).modTask tid fun t => t.addFlags b.flags) tid s.nextId

theorem beforeExit_task (s : State) (tid : Nat) (t : Task) (b : Block) :
    (beforeExit s tid t b).task? tid = some ((commitTask s tid b t).addFlags b.flags) := by
  rw [beforeExit, modTask_of_task _ (task_setTask_self ..)]
  exact task_setTask_self ..

section
variable {s : State} {tid k : Nat} {t : Task} {b : Block} {i : Instr} {a : Word}

theorem commitBlock_of_ready (h : ReadyToCommit s tid k t b i a) :
    commitBlock s tid t b = takeTraps (finishBlock (exitEffect (beforeExit s tid t b) tid i b a) tid b) tid := by
  obtain ⟨-, -, -, -, -, ⟨y, z, hexits⟩, hinstr, -, -, hcaps, hchans, -, -, -, -⟩ := h
  simp only [commitBlock, hexits, hinstr, Option.map_some, Option.some.injEq, List.filterMap_cons_some, List.filterMap_nil,
      orderedCaps, hcaps, List.foldl_nil, List.map_nil, sendOuts, hchans, List.foldr_nil, runForms, beforeExit]

/-- The commit leaves the task without a block, with the block's register writes in it. -/
theorem commitBlock_task (h : ReadyToCommit s tid k t b i a) :
    ∃ t', (commitBlock s tid t b).task? tid = some t' ∧ t'.blk = none ∧ t'.regs = (t.setAll b.regw).regs := by
  rw [commitBlock_of_ready h]
  obtain ⟨-, -, -, -, htrap, -⟩ := h
  obtain ⟨t1, ht1, hregs1, htrap1⟩ := exitEffect_holds i b a (beforeExit_task s tid t b)
  obtain ⟨t2, ht2, hblk2, hregs2, htrap2⟩ := finishBlock_task b ht1
  have hnone : t2.trap = [] := htrap2.trans (htrap1.trans ((setAll_trap ..).trans htrap))
  exact ⟨t2, by rw [takeTraps_of_none ht2 hnone, ht2], hblk2, hregs2.trans hregs1⟩

end

/-- Settles O13: RD by its lemma; a step of a slot by the shapes of the block forms; and the commit by the parts of
`commitBlock`, of which only the writes of the block change a register. -/
theorem registersChangeAtCommit : Obligations.RegistersChangeAtCommit := by
  unfold Obligations.RegistersChangeAtCommit
  refine ⟨fun s p tid k t b x y z g ta => rd_gives g ta, fun i f s s' tid k t hf hcur ht hs => exec_keepsRegs hf hcur ht s' hs,
    fun s tid k t b i a h _ hexit hlen hnodup => ?_⟩
  obtain ⟨t', ht', hblk, hregs⟩ := commitBlock_task h
  have hreg (g : Nat) : t'.reg g = (t.setAll b.regw).reg g := by rw [Task.reg, hregs, Task.reg]
  refine ⟨_, blockCommit_of_ready h hexit, t', ht', hblk, fun g v hmem hg => ?_, fun g hg => ?_⟩
  · rw [hreg, reg_setAll_of_mem hnodup hmem (hlen ▸ hg)]
  · have hkey : g ∉ b.regw.map (·.1) := by
      simpa only [List.mem_map, Prod.exists, exists_and_right, exists_eq_right, not_exists] using hg
    rw [hreg, reg_setAll_of_notMem t hkey]

end Sys2Proof.Machine
end
